-- ==== Sys2Proof/Word.lean ====
section
/-! DEFINITION. The words the block exchanges with its partners, and the names a command can carry:
channel and line numbers, the reference families, and the parts of a frame event and of a tick. -/

namespace Sys2Proof

/-- One byte on a link or on the control port. -/
abbrev Byte := BitVec 8

/-- One of the 64 channels (00_scope.md, Names). -/
abbrev ChannelNo := Fin 64

/-- One of the sixteen sense lines (00_scope.md, Names). -/
abbrev LineNo := Fin 16

/-- An instant of the local oscillator since the end of device reset, counted in units of 1/480 ms.
DESIGN CHOICE (log 1): in this unit both nominal periods of section 1.1 and all their eighths are whole. -/
abbrev Instant := Nat

/-- The two reference families (section 1.1). -/
inductive Family where
  | p
  | n
deriving DecidableEq, Repr

/-- The blocks that act at each frame event of a channel (R9). -/
inductive Block where
  | sst
  | rrx
  | csv
  | cou
deriving DecidableEq, Repr

/-- What comes with a command frame in its WRITE transaction: the tag the host chose (R181), and whether chip select was
asserted early, while ALERT still stood as the transaction before had left it (R180; log 15). -/
structure Write where
  tag : Byte
  early : Bool
deriving DecidableEq, Repr

/-- How many bytes the host clocks after the transaction byte, and whether its chip select was asserted early (log 15). -/
structure Clocking where
  count : Nat
  early : Bool
deriving DecidableEq, Repr

/-- The bytes after the transaction byte of a WRITE that is no whole frame, and whether its chip select was asserted early
(log 15). -/
structure PartFrame where
  bytes : List Byte
  early : Bool
deriving DecidableEq, Repr

/-- The parts of one millisecond tick (R11): what each owner of a tick timer does at it. -/
inductive TickPart where
  /-- SNS compares one line's sample with its debounced level (R110). -/
  | sense (line : LineNo)
  /-- RRX's silence count (R66). -/
  | link
  /-- RRX's status-interval count (R83). -/
  | status
  /-- RSU's snapshot timer (R90). -/
  | snapshot
  /-- RSU's walk engine (R103). -/
  | walk
  /-- RTA's timer of one channel's outstanding take (R176). -/
  | take (channel : ChannelNo)
  /-- CTP's host-presence timer (R130). -/
  | host
deriving DecidableEq, Repr

end Sys2Proof
end

