-- ==== Sys2Proof/Syntax.lean ====
section
/-! DEFINITION. The commands of the block: one constructor for each row of spec/opcode_table.json.
Messages and frames carry their body bytes as they arrive; the layouts of Chapter 11 are read by the meanings. Which row the
bytes on a link or on the port are is read in Machine/Wire.lean. `early` says of a transaction that chip select was asserted
while ALERT still stood as the transaction before had left it (R180; log 15). -/

namespace Sys2Proof

/-- The commands the block takes, in the order of the table. -/
inductive Instr where
  /-- DEVICE_RESET (R1): the RESET pin or power-up. -/
  | deviceReset
  /-- REFERENCE_PULSE (R2): a pulse on a family's input at an oscillator instant, with or without its frame-mark.
  `grantsFirst` says whether RTA's grants come before the frame events of the pulse (R172 leaves it open, log 5);
  `held` names the blocks whose part of a channel's frame event is left to the rows that follow (log 3). -/
  | referencePulse (family : Family) (instant : Instant) (mark grantsFirst : Bool) (held : List (ChannelNo × Block))
  /-- REFERENCE_ABSENCE (R4): the family's absence limit passes. -/
  | referenceAbsence (family : Family) (grantsFirst : Bool) (held : List (ChannelNo × Block))
  /-- SYNTHESISED_PULSE (R5): the oscillator reaches the next synthesised pulse of the family. -/
  | synthesisedPulse (family : Family) (grantsFirst : Bool) (held : List (ChannelNo × Block))
  /-- ENTRY_RETIREMENT (R32): SST takes its held part of the channel's frame event. -/
  | entryRetirement (channel : ChannelNo)
  /-- HB_SILENCE_LIMIT (R118): CSV takes its held part of the channel's frame event. -/
  | hbSilenceLimit (channel : ChannelNo)
  /-- TRIP (R122): CSV takes its held part of the channel's frame event. -/
  | trip (channel : ChannelNo)
  /-- RECOVERY (R123): CSV takes its held part of the channel's frame event. -/
  | recovery (channel : ChannelNo)
  /-- FLAP_DECREMENT (R127): CSV takes its held part of the channel's frame event. -/
  | flapDecrement (channel : ChannelNo)
  /-- CONFIRM_WINDOW_EXPIRY (R138): COU takes its held part of the channel's frame event. -/
  | confirmWindowExpiry (channel : ChannelNo)
  /-- DIRECTIVE_DEADLINE_MISSED (R167): COU takes its held part of the channel's frame event. -/
  | directiveDeadlineMissed (channel : ChannelNo)
  /-- EDIT_BUDGET_WINDOW_END (R71): RRX takes its held part of the channel's frame event. -/
  | editBudgetWindowEnd (channel : ChannelNo)
  /-- MS_TICK (R11): the 1 ms tick; bit n of `levels` is the raw level of sense line n, 1 for HIGH.
  `held` names the parts of the tick that are left to the rows that follow (log 3). -/
  | msTick (levels : BitVec 16) (held : List TickPart)
  /-- SENSE_LEVEL_CHANGE (R110): SNS takes its held part of the tick for one line. -/
  | senseLevelChange (line : LineNo)
  /-- LINK_TIMEOUT (R66): RRX takes its held silence part of the tick. -/
  | linkTimeout
  /-- STATUS_INTERVAL (R83): RRX takes its held status part of the tick. -/
  | statusInterval
  /-- SNAPSHOT_TIMEOUT (R90): RSU takes its held timer part of the tick. -/
  | snapshotTimeout
  /-- ROUTER_TIMEOUT (R176): RTA takes its held part of the tick for one channel's outstanding take. -/
  | routerTimeout (channel : ChannelNo)
  /-- HOST_ABSENT (R130): CTP takes its held part of the tick. -/
  | hostAbsent
  /-- DIGEST_WALK_COMPLETE (R106): RSU's walk engine takes its held part of the tick. -/
  | digestWalkComplete
  /-- ENTRY_PUT (R72): a replication message of kind 0x01 with these body bytes. -/
  | entryPut (body : List Byte)
  /-- ENTRY_DROP (R78): a replication message of kind 0x02. -/
  | entryDrop (body : List Byte)
  /-- SITE_HEARTBEAT (R79): a replication message of kind 0x03. -/
  | siteHeartbeat (body : List Byte)
  /-- SNAPSHOT_OPEN (R91): a replication message of kind 0x04. -/
  | snapshotOpen (body : List Byte)
  /-- SNAPSHOT_ITEM (R92): a replication message of kind 0x05. -/
  | snapshotItem (body : List Byte)
  /-- SNAPSHOT_CLOSE (R95): a replication message of kind 0x06. -/
  | snapshotClose (body : List Byte)
  /-- MALFORMED_MESSAGE (R64): the bytes of a malformed message as the link delivers them: kind, length field, body. -/
  | malformedMessage (bytes : List Byte)
  /-- CUE_READY (R166): a cue reply of kind 0x28. -/
  | cueReady (body : List Byte)
  /-- CUE_FAIL (R166): a cue reply of kind 0x29. -/
  | cueFail (body : List Byte)
  /-- MALFORMED_CUE_REPLY (R166): the bytes of a malformed cue reply. -/
  | malformedCueReply (bytes : List Byte)
  /-- ROUTER_DONE (R175): a router reply of kind 0x38. -/
  | routerDone (body : List Byte)
  /-- ROUTER_FAIL (R175): a router reply of kind 0x39. -/
  | routerFail (body : List Byte)
  /-- MALFORMED_ROUTER_REPLY (R175): the bytes of a malformed router reply. -/
  | malformedRouterReply (bytes : List Byte)
  /-- RESPONSE_READ (R182): a READ transaction in which the host clocks this many bytes after the port byte. -/
  | responseRead (clocking : Clocking)
  /-- INVALID_TRANSACTION (R179): a transaction byte that names neither WRITE nor READ, and the bytes clocked after it. -/
  | invalidTransaction (first : Byte) (clocking : Clocking)
  /-- UNKNOWN_COMMAND (R183): a whole command frame whose code is not one of the 26. -/
  | unknownCommand (code : Byte) (write : Write) (body : List Byte)
  /-- READ_ENTRY (R41), code 0x10. -/
  | readEntry (write : Write) (body : List Byte)
  /-- FIND_AT (R42), code 0x11. -/
  | findAt (write : Write) (body : List Byte)
  /-- LIST (R43), code 0x12. -/
  | list (write : Write) (body : List Byte)
  /-- WRITE_LOCAL (R35), code 0x13. -/
  | writeLocal (write : Write) (body : List Byte)
  /-- DELETE_LOCAL (R36), code 0x14. -/
  | deleteLocal (write : Write) (body : List Byte)
  /-- PIN (R38), code 0x15. -/
  | pin (write : Write) (body : List Byte)
  /-- UNPIN (R39), code 0x16. -/
  | unpin (write : Write) (body : List Byte)
  /-- FLUSH (R40), code 0x17. -/
  | flush (write : Write) (body : List Byte)
  /-- CONFIGURE_CHANNEL (R51), code 0x20. -/
  | configureChannel (write : Write) (body : List Byte)
  /-- READ_CHANNEL (R60), code 0x21. -/
  | readChannel (write : Write) (body : List Byte)
  /-- CLEAR_CHANNEL (R61), code 0x22. -/
  | clearChannel (write : Write) (body : List Byte)
  /-- RESYNC (R100), code 0x23. -/
  | resync (write : Write) (body : List Byte)
  /-- TAKE (R139), code 0x30. -/
  | take (write : Write) (body : List Byte)
  /-- DECLINE (R140), code 0x31. -/
  | decline (write : Write) (body : List Byte)
  /-- GIVEBACK (R156), code 0x32. -/
  | giveback (write : Write) (body : List Byte)
  /-- RETURN_NOW (R157), code 0x33. -/
  | returnNow (write : Write) (body : List Byte)
  /-- ABANDON (R162), code 0x34. -/
  | abandon (write : Write) (body : List Byte)
  /-- RELEASE_LATCH (R128), code 0x35. -/
  | releaseLatch (write : Write) (body : List Byte)
  /-- SET_STATION_TIME (R18), code 0x40. -/
  | setStationTime (write : Write) (body : List Byte)
  /-- READ_TIME (R20), code 0x41. -/
  | readTime (write : Write) (body : List Byte)
  /-- CONFIGURE_DEVICE (R62), code 0x50. -/
  | configureDevice (write : Write) (body : List Byte)
  /-- CONFIGURE_SENSE_LINE (R112), code 0x51. -/
  | configureSenseLine (write : Write) (body : List Byte)
  /-- READ_SENSE_LINES (R115), code 0x52. -/
  | readSenseLines (write : Write) (body : List Byte)
  /-- READ_EVENTS (R192), code 0x53. -/
  | readEvents (write : Write) (body : List Byte)
  /-- LINK_RESTART (R67), code 0x54. -/
  | linkRestart (write : Write) (body : List Byte)
  /-- NO_OP (R190), code 0x55. -/
  | noOp (write : Write) (body : List Byte)
  /-- INCOMPLETE_COMMAND_FRAME (R181): the bytes after the transaction byte of a WRITE whose header is incomplete or
  whose body byte count differs from the header's body length. -/
  | incompleteCommandFrame (frame : PartFrame)
deriving DecidableEq, Repr

end Sys2Proof
end

