-- ==== Sys2Proof/Decode.lean ====
section
/-! DEFINITION. The decoder over the rows of spec/opcode_table.json that give bits. No row does: the commands of this
block are messages, frames and events, so no word spells one. -/

namespace Sys2Proof

/-- The command that a word spells by the table's bits: none, for no row of the table gives bits. -/
def decodeTableWord (_nbits _w : Nat) : Option Instr :=
  none

end Sys2Proof
end

