-- ==== Sys2Proof/Config.lean ====
section
/-! DEFINITION. What is fixed for the part: the sizes the spec gives its stores and counters, and the values it leaves
open, which are constants without a body so that nothing can be proved of them. -/

namespace Sys2Proof

/-- The slots of the entry pool (R21). -/
def Config.poolSlots : Nat := 8192

/-- The most entries one channel's schedule lists (R21, R26). -/
def Config.scheduleLimit : Nat := 1024

/-- A grant that brings the free count below this enters fast aging (R33). -/
def Config.fastBelow : Nat := 256

/-- Freeing that brings the free count to this or above ends fast aging (R33). -/
def Config.normalFrom : Nat := 512

/-- The most updates the deferral queue holds (R89). -/
def Config.deferralLimit : Nat := 32

/-- The most records the pending-walk list holds (R102). -/
def Config.pendingWalkLimit : Nat := 8

/-- Where a family's pulse count saturates (R1). -/
def Config.countLimit : Nat := 2 ^ 40 - 2

/-- A full good-pulse run (R2). -/
def Config.fullRun : Nat := 8

/-- The frame number that stands for the current frame in the arithmetic of R141, R146, R147 and R155 while the
channel has had no frame event, where the spec states no number (log 6). A free value: applied to the draw counter. -/
opaque Config.unstatedFrame : Nat → Nat

/-- The take latency where the decision frame is NONE or lies after the execution frame, of which the spec states no
difference (log 6). A free value: applied to the draw counter. -/
opaque Config.unstatedLatency : Nat → Nat

/-- Whether a RESYNC ASK sent in the act that makes the link UP leaves before that act's STANDBY STATUS; "either may
leave first" (R88, log 7). A free value: applied to the draw counter. -/
opaque Config.askLeavesFirst : Nat → Bool

/-- A secondary's duration where its start lies this far past the frame its entry is cut at, of which the formula of R143
gives no duration (log 35). A free value: a function of that distance. -/
opaque Config.unstatedDuration : Nat → Nat

/-- The number sent in a field of this many bytes for a number that does not fit it, of which the spec states no bytes
(log 31). A free value: a function of the size and the number. -/
opaque Config.unfitted : Nat → Nat → Nat

/-- The roll day and roll label of a STOP whose stop frame is NONE, of which the spec states no bytes (log 38). -/
opaque Config.unstatedPosition : BitVec 48

end Sys2Proof
end

