-- ==== Sys2Proof/Machine/State.lean ====
section
/-! DEFINITION. The state of the block: every register, record, queue, flag and timer the spec gives it, as plain data,
and the state after device reset. -/

namespace Sys2Proof.Machine

/-! ### Time (Chapter 1) -/

/-- The six rate codes (00_scope.md, Rate codes). -/
inductive RateCode where
  | r25
  | r50
  | r30d
  | r30n
  | r60d
  | r60n
deriving DecidableEq, Repr

/-- A timecode label; a received one may hold any byte in each field (R195). -/
structure Label where
  hh : Nat
  mm : Nat
  ss : Nat
  ff : Nat
deriving DecidableEq, Repr

/-- State of a reference family (section 1.1). -/
inductive FamilyState where
  | unset
  | locked
  | freerun
deriving DecidableEq, Repr

/-- Parity of a pulse count. -/
inductive Parity where
  | even
  | odd
deriving DecidableEq, Repr

/-- The pending set of a family (R18). -/
structure PendingSet where
  target : Nat
  rate : RateCode
  day : Nat
  label : Label
deriving DecidableEq, Repr

/-- The record the FTU holds for a family (section 1.1). -/
structure FamilyRecord where
  state : FamilyState
  count : Nat
  parity : Parity
  goodRun : Nat
  lastReference : Option Instant
  lastCounted : Option Instant
  pendingSet : Option PendingSet
  /-- The absence measurement (R1, R4): running from this instant, or none once it has expired. -/
  absenceFrom : Option Instant
deriving DecidableEq, Repr

/-! ### The schedule store (Chapter 2) -/

/-- Who owns an entry. -/
inductive Origin where
  | replicated
  | localEntry
deriving DecidableEq, Repr

/-- The name of an entry within its channel (R25). -/
structure EntryKey where
  origin : Origin
  id : Nat
deriving DecidableEq, Repr

/-- Airing status (section 2.4). -/
inductive EntryStatus where
  | planned
  | cued
  | airing
  | done
  | passed
deriving DecidableEq, Repr

/-- A secondary event of an entry: an offset from its start, an overlay key, a duration. -/
structure Secondary where
  offset : Nat
  key : Nat
  duration : Nat
deriving DecidableEq, Repr

/-- What is to air, with the fields present for that kind only (section 2.2). -/
inductive Content where
  | media (reference : List Byte) (som : Nat)
  | live (source : Nat)
deriving DecidableEq, Repr

/-- An entry body as a message or command delivers it (section 11.3), its fields read as the numbers they are. -/
structure RawBody where
  entryId : Nat
  revision : Nat
  day : Nat
  label : Label
  duration : Nat
  kind : Nat
  priority : Nat
  reference : List Byte
  somLabel : Label
  source : Nat
  secondaries : List Secondary
deriving DecidableEq, Repr

/-- An entry body in record form (R24). -/
structure Body where
  entryId : Nat
  revision : Nat
  start : Nat
  duration : Nat
  content : Content
  priority : Nat
  secondaries : List Secondary
deriving DecidableEq, Repr

/-- A held or waiting amendment (R37). -/
inductive Amendment where
  | body (b : Body)
  | deletion
deriving DecidableEq, Repr

/-- A listed entry. Its channel is the one whose schedule lists it; staged bodies stand in the assembly (log 10). -/
structure Entry where
  origin : Origin
  body : Body
  status : EntryStatus
  pinned : Bool
  amendment : Option Amendment
deriving DecidableEq, Repr

/-- The pool's aging mode (R33). -/
inductive AgingMode where
  | normal
  | fast
deriving DecidableEq, Repr

/-! ### Channel contexts (Chapter 3) -/

/-- How much is done for a channel (section 3.3). -/
inductive ServiceMode where
  | off
  | copyOnly
  | protectedMode
deriving DecidableEq, Repr

/-- Takeover policy. -/
inductive TakeoverPolicy where
  | auto
  | confirm
deriving DecidableEq, Repr

/-- Giveback policy. -/
inductive GivebackPolicy where
  | auto
  | manual
deriving DecidableEq, Repr

/-- Doubt policy. -/
inductive DoubtPolicy where
  | play
  | standby
deriving DecidableEq, Repr

/-- How the sources are combined (R119). -/
inductive Vote where
  | any
  | two
  | all
deriving DecidableEq, Repr

/-- A fault source of the supervisor (R118). -/
inductive Source where
  | hb
  | rf
  | tl
deriving DecidableEq, Repr

/-- The enabled sources: a subset of HB, RF and TL. -/
structure Sources where
  hb : Bool
  rf : Bool
  tl : Bool
deriving DecidableEq, Repr

/-- The configuration fields of a channel as stored (section 3.1), each converted setting also in frames (R52). -/
structure Settings where
  mode : ServiceMode
  rate : RateCode
  takeover : TakeoverPolicy
  giveback : GivebackPolicy
  doubt : DoubtPolicy
  defaultPriority : Nat
  sources : Sources
  vote : Vote
  hbLimitMs : Nat
  hbLimit : Nat
  tripDelayMs : Nat
  tripDelay : Nat
  recoveryMs : Nat
  recovery : Nat
  confirmMs : Nat
  confirm : Nat
  cueLead : Nat
  minJoin : Nat
  flapLimit : Nat
  flapDecrementS : Nat
  flapDecrement : Nat
  editBudget : Nat
deriving DecidableEq, Repr

/-- The settings a channel's blocks use from its latest frame event (R53, R116, R135; log 18). -/
structure InEffect where
  takeover : TakeoverPolicy
  giveback : GivebackPolicy
  doubt : DoubtPolicy
  defaultPriority : Nat
  sources : Sources
  vote : Vote
  hbLimit : Nat
  tripDelay : Nat
  recovery : Nat
  confirm : Nat
  cueLead : Nat
  minJoin : Nat
  flapLimit : Nat
  flapDecrement : Nat
  editBudget : Nat
deriving DecidableEq, Repr

/-- Replication state (section 5.1). -/
inductive ReplicationState where
  | unseeded
  | inStep
  | outOfStep
  | resyncing
  | stale
deriving DecidableEq, Repr

/-- Cause of a replication state (section 5.1). -/
inductive Cause where
  | none
  | gap
  | storm
  | badEntry
  | pool
  | full
  | digest
  | flush
deriving DecidableEq, Repr

/-- The health the latest heartbeat listing the channel gave (R117). -/
inductive Listing where
  | none
  | ok
  | fail
deriving DecidableEq, Repr

/-- Supervision state (section 7.3). -/
inductive Supervision where
  | healthy
  | alert
  | tripped
deriving DecidableEq, Repr

/-- Changeover state (section 8.1). -/
inductive Changeover where
  | mirror
  | awaitConfirm
  | preparing
  | takePending
  | onDr
  | returning
  | stranded
deriving DecidableEq, Repr

/-- Kind of the directive in a place (section 8.1). -/
inductive PlaceKind where
  | roll
  | live
  | standby
deriving DecidableEq, Repr

/-- Reply of the directive in a place. -/
inductive Reply where
  | awaiting
  | ready
  | failed
deriving DecidableEq, Repr

/-- A place record: one directive that has been sent (section 8.1). -/
structure Place where
  kind : PlaceKind
  entry : Option EntryKey
  rollFrame : Nat
  playEnd : Option Nat
  reply : Reply
  rolled : Bool
deriving DecidableEq, Repr

/-- The change flags of a channel, by name (section 3.5). -/
inductive ChangeFlag where
  | replication
  | divergence
  | clamped
  | supervision
  | latch
  | changeover
  | cueFault
  | routerFault
  | outputLost
deriving DecidableEq, Repr

/-- The change flags of a channel (section 3.5). -/
structure ChangeFlags where
  replication : Bool
  divergence : Bool
  clamped : Bool
  supervision : Bool
  latch : Bool
  changeover : Bool
  cueFault : Bool
  routerFault : Bool
  outputLost : Bool
deriving DecidableEq, Repr

/-- Direction of a take (section 9.3). -/
inductive Direction where
  | main
  | dr
deriving DecidableEq, Repr

/-- An outstanding take of a channel (R172). -/
structure OutstandingTake where
  tag : Nat
  direction : Direction
  grantPulse : Nat
  executionPulse : Nat
  timer : Nat
deriving DecidableEq, Repr

/-- The edit-budget record of a channel (section 4.4). -/
structure EditBudget where
  frames : Nat
  updates : Nat
  stormPending : Bool
deriving DecidableEq, Repr

/-- Everything held for one channel: its context record, its schedule, and its owners' own fields. -/
structure Channel where
  settings : Settings
  retention : Nat
  inEffect : InEffect
  schedule : List Entry
  /-- The channel's current frame (R8, R9): the number its latest frame event carried, NONE while its family is UNSET. -/
  frame : Option Nat
  /-- The number the channel's latest frame event carried, whatever its family is now (R9; log 32). -/
  eventFrame : Option Nat
  /-- The blocks that have yet to act on the channel's latest frame event; the model's own (log 3). -/
  due : List Block
  replState : ReplicationState
  cause : Cause
  lastApplied : Option Nat
  attempts : Nat
  inServiceRefused : Bool
  pinnedHeld : Bool
  lastAgreed : Option Nat
  budget : EditBudget
  /-- The edit-budget window restarts at the channel's next frame event (R56, R70). -/
  windowRestart : Bool
  listing : Listing
  hbSilence : Nat
  supervision : Supervision
  holdOff : Bool
  tripTimer : Nat
  recoveryTimer : Nat
  flapCounter : Nat
  flapTimer : Nat
  latched : Bool
  changeover : Changeover
  confirmTimer : Nat
  decisionFrame : Option Nat
  rollFrame : Option Nat
  current : Option Place
  next : Option Place
  currentTag : Nat
  nextTag : Nat
  lastTag : Nat
  cueRetryUsed : Bool
  routerRetryUsed : Bool
  outputLost : Bool
  takeLatency : Option Nat
  doubt : Bool
  barrier : Option Nat
  boundary : Option Nat
  /-- The entry the takeover joined, which a re-placed request names again (R170; log 22). -/
  joined : Option EntryKey
  takeTag : Nat
  outstanding : Option OutstandingTake
  flags : ChangeFlags
deriving DecidableEq, Repr

/-! ### Replication and resynchronisation (Chapters 4 and 5) -/

/-- An update message, whole as it arrived (R94). -/
inductive Update where
  | put (sequence : Nat) (body : RawBody)
  | drop (sequence : Nat) (id : Nat)
deriving DecidableEq, Repr

/-- Phase of a snapshot in assembly (R89). -/
inductive Phase where
  | awaitingOpen
  | receiving
deriving DecidableEq, Repr

/-- The assembly record (R89) with its staged slots, in staging order (R44). -/
structure Assembly where
  channel : ChannelNo
  phase : Phase
  stateBefore : ReplicationState
  causeBefore : Cause
  resume : Option Nat
  expected : Option Nat
  nextIndex : Nat
  timer : Nat
  gapNoted : Bool
  staged : List Body
deriving DecidableEq, Repr

/-- A record of the pending-walk list (R102). -/
structure WalkRecord where
  channel : ChannelNo
  horizon : Nat
  mainDigest : Nat
  mainCount : Nat
deriving DecidableEq, Repr

/-- The running walk (R103): its record, its sums, and how many REPLICATED entries it has read. -/
structure Walk where
  record : WalkRecord
  digest : Nat
  count : Nat
  read : Nat
deriving DecidableEq, Repr

/-- One channel record of a STANDBY STATUS (R84). -/
structure StatusRecord where
  channel : ChannelNo
  mode : ServiceMode
  changeover : Changeover
  replState : ReplicationState
  lastApplied : Option Nat
  latched : Bool
deriving DecidableEq, Repr

/-- A message sent on the replication link (section 11.4). -/
inductive ReplicationOut where
  | standbyStatus (number : Nat) (records : List StatusRecord)
  | resyncAsk (channel : ChannelNo) (cause : Cause) (lastApplied : Option Nat)
deriving DecidableEq, Repr

/-! ### Sense lines (Chapter 6) -/

/-- Function of a sense line. -/
inductive SenseFunction where
  | unused
  | returnFeed
  | tally
deriving DecidableEq, Repr

/-- Level of a sense line. -/
inductive Level where
  | low
  | high
deriving DecidableEq, Repr

/-- The record of a sense line (section 6.1). -/
structure SenseLine where
  function : SenseFunction
  mapped : Option ChannelNo
  expected : Level
  debounce : Nat
  raw : Level
  level : Level
  stability : Nat
  changePending : Bool
  /-- The debounce time the line had at the latest tick, by which that tick's sample is compared; the model's own (R110;
  log 33). -/
  tickDebounce : Nat
deriving DecidableEq, Repr

/-! ### Cue and router links (Chapter 9) -/

/-- What a directive tells the server (section 9.1). -/
inductive DirectiveBody where
  | roll (reference : List Byte) (inPoint playDuration : Nat) (secondaries : List Secondary)
  | live (source playDuration : Nat) (secondaries : List Secondary)
  | standby
  | stop
deriving DecidableEq, Repr

/-- A directive as sent on the cue link; a secondary's offset is from the roll frame (R164). -/
structure Directive where
  channel : ChannelNo
  tag : Nat
  rate : RateCode
  /-- The roll frame, or the stop frame of a STOP, which is NONE where the channel's current frame is NONE (R168). -/
  frame : Option Nat
  body : DirectiveBody
deriving DecidableEq, Repr

/-- A request of the router take queue (section 9.3). -/
structure Request where
  channel : ChannelNo
  direction : Direction
  release : Nat
  priority : Nat
deriving DecidableEq, Repr

/-- A TAKE as sent on the router link (R172). -/
structure TakeOut where
  tag : Nat
  channel : ChannelNo
  direction : Direction
  family : Family
  executionPulse : Nat
deriving DecidableEq, Repr

/-! ### Control port (Chapter 10) -/

/-- The device event flags, by name (section 10.4). -/
inductive DeviceFlag where
  | linkMalformed
  | linkDownChange
  | refLoss
  | refRelock
  | refPhase
  | poolLow
  | hostAbsentChange
deriving DecidableEq, Repr

/-- The seven device event flags (R191). -/
structure DeviceFlags where
  linkMalformed : Bool
  linkDownChange : Bool
  refLoss : Bool
  refRelock : Bool
  refPhase : Bool
  poolLow : Bool
  hostAbsentChange : Bool
deriving DecidableEq, Repr

/-- Status of a response; BUSY never stands in a response frame (section 10.2). -/
inductive Status where
  | ok
  | badChannel
  | badField
  | notFound
  | full
  | state
  | inService
deriving DecidableEq, Repr

/-- One field of a response or of a message sent, with its size (R195). -/
inductive Field where
  | u8 (n : Nat)
  | u16 (n : Nat)
  | u32 (n : Nat)
  /-- An absolute frame or a pulse count, 5 bytes; NONE is every byte 0xFF. -/
  | frame (n : Option Nat)
  /-- A take latency, 4 bytes; NONE is every byte 0xFF. -/
  | latency (n : Option Nat)
  /-- A sequence number behind its presence byte. -/
  | sequence (n : Option Nat)
  | flag (b : Bool)
  | label (l : Label)
  | bytes (b : List Byte)
deriving DecidableEq, Repr

/-- A response frame (R181), its body as the fields its owning rule lists, in order. -/
structure Response where
  tag : Byte
  status : Status
  clamped : Bool
  body : List Field
deriving DecidableEq, Repr

/-! ### The device -/

/-- The device-wide settings (section 3.7). -/
structure DeviceSettings where
  retentionS : Nat
  routerFamily : Family
  takesPerPulse : Nat
  routerLead : Nat
  routerTimeout : Nat
  linkTimeout : Nat
  snapshotTimeoutS : Nat
  statusInterval : Nat
  hostSilenceS : Nat
deriving DecidableEq, Repr

/-- The state of the block. -/
structure State where
  familyP : FamilyRecord
  familyN : FamilyRecord
  channels : Vector Channel 64
  freeCount : Nat
  aging : AgingMode
  device : DeviceSettings
  /-- The router lead RTA took at the latest counted pulse of the router family (R63, R174). -/
  routerLead : Nat
  attention : List ChannelNo
  events : DeviceFlags
  linkUp : Bool
  silence : Nat
  statusCount : Nat
  statusNumber : Nat
  resyncQueue : List ChannelNo
  assembly : Option Assembly
  deferral : List Update
  pendingWalks : List WalkRecord
  walk : Option Walk
  lines : Vector SenseLine 16
  /-- The first tick after device reset has been taken (R109). -/
  sampled : Bool
  hostPresent : Bool
  hostTimer : Nat
  takeQueue : List Request
  slot : Option Response
  /-- The bytes shifted out in the latest SPI transaction; the model's own (log 15). -/
  portOut : List Byte
  /-- The level of ALERT as the latest transaction, or device reset, left it; the model's own (R180; log 15). -/
  alertBefore : Bool
  /-- Messages sent since reset, oldest first; the model's own (log 17). -/
  replicationOut : List ReplicationOut
  cueOut : List Directive
  routerOut : List TakeOut
  /-- The parts of the latest tick still to be taken; the model's own (log 3). -/
  tickDue : List TickPart
  /-- How many free values have been drawn; the model's own (log 6). -/
  draws : Nat
  /-- The commands that wait, first in first out. -/
  pending : List Instr
deriving DecidableEq, Repr

/-- Why a step stops with a fault. No rule of the spec stops the block, so there is no fault: every command completes. -/
inductive Fault where
deriving DecidableEq, Repr

/-- Why a step has no meaning. -/
inductive Refusal where
  /-- Raised by exec for a row that has no meaning yet; safe (the model stops where the block goes on). No arm raises it. -/
  | notModelled (mnemonic : String)
deriving DecidableEq, Repr

/-! ### Device reset -/

/-- A family record after device reset (section 1.1, R1); the absence measurement runs from the end of reset. -/
def FamilyRecord.reset : FamilyRecord :=
  { state := .unset, count := 0, parity := .even, goodRun := 0, lastReference := none, lastCounted := none,
    pendingSet := none, absenceFrom := some 0 }

/-- The configuration after device reset (section 3.1), converted at R25 (R50). -/
def Settings.reset : Settings :=
  { mode := .off, rate := .r25, takeover := .confirm, giveback := .manual, doubt := .play, defaultPriority := 2,
    sources := { hb := true, rf := false, tl := false }, vote := .any,
    hbLimitMs := 2000, hbLimit := 50, tripDelayMs := 500, tripDelay := 13, recoveryMs := 10000, recovery := 250,
    confirmMs := 5000, confirm := 125, cueLead := 10, minJoin := 50, flapLimit := 3, flapDecrementS := 600,
    flapDecrement := 15000, editBudget := 0 }

/-- The settings a channel's blocks take over at a frame event (R53). -/
def Settings.toInEffect (g : Settings) : InEffect :=
  { takeover := g.takeover, giveback := g.giveback, doubt := g.doubt, defaultPriority := g.defaultPriority,
    sources := g.sources, vote := g.vote, hbLimit := g.hbLimit, tripDelay := g.tripDelay, recovery := g.recovery,
    confirm := g.confirm, cueLead := g.cueLead, minJoin := g.minJoin, flapLimit := g.flapLimit,
    flapDecrement := g.flapDecrement, editBudget := g.editBudget }

/-- No change flag set. -/
def ChangeFlags.clear : ChangeFlags :=
  { replication := false, divergence := false, clamped := false, supervision := false, latch := false,
    changeover := false, cueFault := false, routerFault := false, outputLost := false }

/-- No device event flag set (R191). -/
def DeviceFlags.clear : DeviceFlags :=
  { linkMalformed := false, linkDownChange := false, refLoss := false, refRelock := false, refPhase := false,
    poolLow := false, hostAbsentChange := false }

/-- A channel after device reset (sections 3.1, 3.4, 4.4, 7.1, 8.1, 9.6); 3,600 s of retention is 90,000 frames at R25. -/
def Channel.reset : Channel :=
  { settings := .reset, retention := 90000, inEffect := Settings.reset.toInEffect, schedule := [], frame := none,
    eventFrame := none, due := [], replState := .unseeded, cause := .none, lastApplied := none, attempts := 0,
    inServiceRefused := false, pinnedHeld := false, lastAgreed := none, budget := { frames := 0, updates := 0, stormPending := false },
    windowRestart := false, listing := .none, hbSilence := 0, supervision := .healthy, holdOff := false,
    tripTimer := 0, recoveryTimer := 0, flapCounter := 0, flapTimer := 0, latched := false, changeover := .mirror,
    confirmTimer := 0, decisionFrame := none, rollFrame := none, current := none, next := none, currentTag := 0,
    nextTag := 0, lastTag := 0, cueRetryUsed := false, routerRetryUsed := false, outputLost := false,
    takeLatency := none, doubt := false, barrier := none, boundary := none, joined := none, takeTag := 0,
    outstanding := none, flags := .clear }

/-- A sense line after device reset (section 6.1). -/
def SenseLine.reset : SenseLine :=
  { function := .unused, mapped := none, expected := .high, debounce := 10, raw := .low, level := .low,
    stability := 0, changePending := false, tickDebounce := 10 }

/-- The device-wide settings after device reset (section 3.7). -/
def DeviceSettings.reset : DeviceSettings :=
  { retentionS := 3600, routerFamily := .p, takesPerPulse := 4, routerLead := 2, routerTimeout := 200,
    linkTimeout := 1000, snapshotTimeoutS := 60, statusInterval := 500, hostSilenceS := 30 }

/-- The block right after device reset. -/
def State.reset : State :=
  { familyP := .reset, familyN := .reset, channels := Vector.replicate 64 .reset, freeCount := Config.poolSlots,
    aging := .normal, device := .reset, routerLead := 2, attention := [], events := .clear, linkUp := false,
    silence := 0, statusCount := 0, statusNumber := 0, resyncQueue := [], assembly := none, deferral := [],
    pendingWalks := [], walk := none, lines := Vector.replicate 16 .reset, sampled := false, hostPresent := true,
    hostTimer := 0, takeQueue := [], slot := none, portOut := [], alertBefore := false, replicationOut := [], cueOut := [],
    routerOut := [], tickDue := [], draws := 0, pending := [] }

end Sys2Proof.Machine
end

