-- ==== Sys2Proof/Machine/Ops.lean ====
section
/-! DEFINITION. The named operations over the state that every block uses: reading and writing a channel, a family and a
sense line, going through the channels in order, and drawing a free value. -/

namespace Sys2Proof.Machine

/-- The record of a channel. -/
def State.chan (s : State) (c : ChannelNo) : Channel :=
  s.channels[c]

/-- Write a channel's record as a function of what it was. -/
def modChan (c : ChannelNo) (f : Channel → Channel) (s : State) : State :=
  { s with channels := s.channels.set c.val (f (s.chan c)) }

/-- The record of a sense line. -/
def State.line (s : State) (l : LineNo) : SenseLine :=
  s.lines[l]

/-- Write a sense line's record as a function of what it was. -/
def modLine (l : LineNo) (f : SenseLine → SenseLine) (s : State) : State :=
  { s with lines := s.lines.set l.val (f (s.line l)) }

/-- The record of a reference family. -/
def State.family (s : State) : Family → FamilyRecord
  | .p => s.familyP
  | .n => s.familyN

/-- Write a family's record as a function of what it was. -/
def modFamily (fam : Family) (f : FamilyRecord → FamilyRecord) (s : State) : State :=
  match fam with
  | .p => { s with familyP := f s.familyP }
  | .n => { s with familyN := f s.familyN }

/-- The channels in ascending order. -/
def allChannels : List ChannelNo :=
  List.finRange 64

/-- The sense lines in ascending order. -/
def allLines : List LineNo :=
  List.finRange 16

/-- Act on each channel of a list in turn. -/
def forChannels (f : ChannelNo → State → State) (cs : List ChannelNo) (s : State) : State :=
  cs.foldl (fun t c => f c t) s

/-- The next free value is a fresh one (log 6). -/
def bumpDraws (s : State) : State :=
  { s with draws := s.draws + 1 }

/-- The channel's current frame as a number, for the arithmetic of Chapter 8; a free value while it is NONE (log 6). -/
def State.frameNow (s : State) (c : ChannelNo) : Nat :=
  match (s.chan c).frame with
  | some f => f
  | none => Config.unstatedFrame s.draws

/-- A free value that `frameNow` read is used up. -/
def settleFrameNow (c : ChannelNo) (s : State) : State :=
  match (s.chan c).frame with
  | some _ => s
  | none => bumpDraws s

/-- Send a message on the replication link (R83: each leaves whole, in the order sent). -/
def sendReplication (m : ReplicationOut) (s : State) : State :=
  { s with replicationOut := s.replicationOut ++ [m] }

/-- Send a directive on the cue link (R164). -/
def sendCue (d : Directive) (s : State) : State :=
  { s with cueOut := s.cueOut ++ [d] }

/-- Send a TAKE on the router link (R172). -/
def sendRouter (m : TakeOut) (s : State) : State :=
  { s with routerOut := s.routerOut ++ [m] }

/-- The head of the pending-walk list starts its walk when the engine is idle (R104). -/
def startWalk (s : State) : State :=
  match s.walk, s.pendingWalks with
  | none, r :: rest => { s with walk := some { record := r, digest := 0, count := 0, read := 0 }, pendingWalks := rest }
  | _, _ => s

/-- Abandon the channel's pending record and its running walk, and start the next walk (R105, R104). -/
def abandonWalks (c : ChannelNo) (s : State) : State :=
  startWalk { s with
    pendingWalks := s.pendingWalks.filter (fun r => decide (r.channel ≠ c))
    walk := s.walk.filter (fun w => decide (w.record.channel ≠ c)) }

end Sys2Proof.Machine
end

