-- ==== Sys2Proof/Machine/Flags.lean ====
section
/-! DEFINITION. The change flags and the attention set (section 3.5), the device event flags (section 10.4), and the lines
and the port byte that follow from them (R179, R180, R193). -/

namespace Sys2Proof.Machine

/-- The flags with one more set; a raise that finds it set leaves it set (section 3.5). -/
def ChangeFlags.raise (f : ChangeFlag) (fs : ChangeFlags) : ChangeFlags :=
  match f with
  | .replication => { fs with replication := true }
  | .divergence => { fs with divergence := true }
  | .clamped => { fs with clamped := true }
  | .supervision => { fs with supervision := true }
  | .latch => { fs with latch := true }
  | .changeover => { fs with changeover := true }
  | .cueFault => { fs with cueFault := true }
  | .routerFault => { fs with routerFault := true }
  | .outputLost => { fs with outputLost := true }

/-- Whether a change flag is set. -/
def ChangeFlags.has (f : ChangeFlag) (fs : ChangeFlags) : Bool :=
  match f with
  | .replication => fs.replication
  | .divergence => fs.divergence
  | .clamped => fs.clamped
  | .supervision => fs.supervision
  | .latch => fs.latch
  | .changeover => fs.changeover
  | .cueFault => fs.cueFault
  | .routerFault => fs.routerFault
  | .outputLost => fs.outputLost

/-- A set of channels, ascending and without repeats, with one more channel. -/
def insertChannel (c : ChannelNo) : List ChannelNo → List ChannelNo
  | [] => [c]
  | d :: rest => if c < d then c :: d :: rest else if c = d then d :: rest else d :: insertChannel c rest

/-- The channel joins the attention set (R59). -/
def attend (c : ChannelNo) (s : State) : State :=
  { s with attention := insertChannel c s.attention }

/-- The channel leaves the attention set (R60, R61). -/
def unattend (c : ChannelNo) (s : State) : State :=
  { s with attention := s.attention.filter (fun d => decide (d ≠ c)) }

/-- Raise a change flag of a channel and add the channel to the attention set in the same act (R59). -/
def raise (c : ChannelNo) (f : ChangeFlag) (s : State) : State :=
  attend c (modChan c (fun ch => { ch with flags := ch.flags.raise f }) s)

/-- Raise a change flag when a condition holds. -/
def raiseIf (b : Bool) (c : ChannelNo) (f : ChangeFlag) (s : State) : State :=
  if b then raise c f s else s

/-- The device event flags with one more set (R191). -/
def DeviceFlags.raise (f : DeviceFlag) (fs : DeviceFlags) : DeviceFlags :=
  match f with
  | .linkMalformed => { fs with linkMalformed := true }
  | .linkDownChange => { fs with linkDownChange := true }
  | .refLoss => { fs with refLoss := true }
  | .refRelock => { fs with refRelock := true }
  | .refPhase => { fs with refPhase := true }
  | .poolLow => { fs with poolLow := true }
  | .hostAbsentChange => { fs with hostAbsentChange := true }

/-- At least one device event flag is set. -/
def DeviceFlags.anySet (fs : DeviceFlags) : Bool :=
  fs.linkMalformed || fs.linkDownChange || fs.refLoss || fs.refRelock || fs.refPhase || fs.poolLow || fs.hostAbsentChange

/-- Raise a device event flag (R191). -/
def raiseEvent (f : DeviceFlag) (s : State) : State :=
  { s with events := s.events.raise f }

/-- The ALERT line (R193). -/
def State.alert (s : State) : Bool :=
  s.events.anySet || !s.attention.isEmpty

/-- The READY line (R179). -/
def State.ready (s : State) : Bool :=
  s.slot.isSome

/-- The level of ALERT when chip select is asserted for a transaction: as the transaction before left it, or as it stands
(R180). Between transactions ALERT can only rise (R193), so no other level can have stood there (log 15). -/
def State.alertAtSelect (early : Bool) (s : State) : Bool :=
  if early then s.alertBefore else s.alert

/-- The port byte: bit 0 the slot state, bit 1 the ALERT level, both as they stand when chip select is asserted (R180,
section 11.6). -/
def State.portByte (early : Bool) (s : State) : Byte :=
  BitVec.ofNat 8 ((if s.ready then 1 else 0) + (if s.alertAtSelect early then 2 else 0))

end Sys2Proof.Machine
end

