-- ==== Sys2Proof/Machine/Timecode.lean ====
section
/-! DEFINITION. Labels, frame numbers and time settings (Chapter 1, sections 1.2, 1.4 and 1.5): exact integer arithmetic
over the six rate codes. -/

namespace Sys2Proof.Machine

/-- The reference family of a rate code (00_scope.md, Rate codes). -/
def RateCode.family : RateCode → Family
  | .r25 | .r50 => .p
  | .r30d | .r30n | .r60d | .r60n => .n

/-- The rate codes of a family, in the order of the table of section 1.4; R20 speaks of three (log 27). -/
def rateCodesOf : Family → List RateCode
  | .p => [.r25, .r50]
  | .n => [.r30d, .r30n, .r60d, .r60n]

/-- Double-rate codes begin a frame at every pulse of their family. -/
def RateCode.isDouble : RateCode → Bool
  | .r50 | .r60d | .r60n => true
  | .r25 | .r30d | .r30n => false

/-- Frames per nominal second. -/
def RateCode.nominal : RateCode → Nat
  | .r25 => 25
  | .r50 => 50
  | .r30d | .r30n => 30
  | .r60d | .r60n => 60

/-- Frames per label-day. -/
def RateCode.framesPerDay : RateCode → Nat
  | .r25 => 2160000
  | .r50 => 4320000
  | .r30d => 2589408
  | .r30n => 2592000
  | .r60d => 5178816
  | .r60n => 5184000

/-- Label numbers skipped per affected minute (section 1.4). -/
def RateCode.skipped : RateCode → Nat
  | .r30d => 2
  | .r60d => 4
  | .r25 | .r50 | .r30n | .r60n => 0

/-- Numerator of the rate in frames per second (R16). -/
def RateCode.num : RateCode → Nat
  | .r25 => 25
  | .r50 => 50
  | .r30d | .r30n => 30000
  | .r60d | .r60n => 60000

/-- Denominator of the rate in frames per second (R16). -/
def RateCode.den : RateCode → Nat
  | .r25 | .r50 => 1
  | .r30d | .r30n | .r60d | .r60n => 1001

/-- A label is valid for a rate code (R12). -/
def Label.valid (r : RateCode) (l : Label) : Bool :=
  decide (l.hh ≤ 23) && decide (l.mm ≤ 59) && decide (l.ss ≤ 59) && decide (l.ff < r.nominal)

/-- A day number is valid (R12). -/
def validDay (day : Nat) : Bool :=
  decide (day ≤ 9999)

/-- A drop-frame label names a skipped number (R13). -/
def Label.namesSkipped (r : RateCode) (l : Label) : Bool :=
  decide (l.ss = 0) && decide (l.mm % 10 ≠ 0) && decide (l.ff < r.skipped)

/-- A label that names a skipped number is replaced by the first used label of its minute (R13). -/
def Label.clamp (r : RateCode) (l : Label) : Label :=
  if l.namesSkipped r then { l with ff := r.skipped } else l

/-- The frame-of-day of a label, after clamping (R13). -/
def Label.frameOfDay (r : RateCode) (l : Label) : Nat :=
  let m := l.clamp r
  let secs := 3600 * m.hh + 60 * m.mm + m.ss
  let tm := 60 * m.hh + m.mm
  secs * r.nominal + m.ff - r.skipped * (tm - tm / 10)

/-- The label numbers skipped in a day before frame-of-day n (R14): n' = n + this. -/
def skippedBefore (r : RateCode) (n : Nat) : Nat :=
  let block := 10 * 60 * r.nominal - 9 * r.skipped
  let d := n / block
  let m := n % block
  if r.skipped = 0 then 0
  else 9 * r.skipped * d + (if r.skipped ≤ m then r.skipped * ((m - r.skipped) / (60 * r.nominal - r.skipped)) else 0)

/-- The label of a frame-of-day (R14). -/
def labelOf (r : RateCode) (n : Nat) : Label :=
  let n' := n + skippedBefore r n
  { hh := n' / (3600 * r.nominal), mm := n' / (60 * r.nominal) % 60, ss := n' / r.nominal % 60, ff := n' % r.nominal }

/-- The absolute frame of a day and a label (R15). -/
def absoluteFrame (r : RateCode) (day : Nat) (l : Label) : Nat :=
  day * r.framesPerDay + l.frameOfDay r

/-- The day of an absolute frame (R15). -/
def dayOf (r : RateCode) (f : Nat) : Nat :=
  f / r.framesPerDay

/-- The label of an absolute frame within its day (R15). -/
def labelOfFrame (r : RateCode) (f : Nat) : Label :=
  labelOf r (f % r.framesPerDay)

/-- A time setting in milliseconds as frames of a rate code, rounded up (R16). -/
def msToFrames (r : RateCode) (ms : Nat) : Nat :=
  (ms * r.num + (1000 * r.den - 1)) / (1000 * r.den)

/-- A time setting in seconds as frames of a rate code (R16). -/
def secondsToFrames (r : RateCode) (seconds : Nat) : Nat :=
  msToFrames r (1000 * seconds)

/-- The parity as the number e of R8. -/
def Parity.e : Parity → Nat
  | .even => 0
  | .odd => 1

/-- The parity of a pulse count. -/
def parityOf (count : Nat) : Parity :=
  if count % 2 = 0 then .even else .odd

/-- The frame number of a channel of this rate at a pulse count (R8). -/
def frameNumber (r : RateCode) (count : Nat) (e : Parity) : Nat :=
  if r.isDouble then count else (count - e.e) / 2

/-- A new frame of a channel of this rate begins at this counted pulse (R8, R9). -/
def beginsFrame (r : RateCode) (count : Nat) (e : Parity) : Bool :=
  r.isDouble || decide (parityOf count = e)

/-- The target pulse count of an absolute frame (R18). -/
def targetCount (r : RateCode) (f : Nat) : Nat :=
  if r.isDouble then f else 2 * f

/-- The nominal period of a family in oscillator units of 1/480 ms: 20 ms, and 1001/60 ms (section 1.1, log 1). -/
def familyPeriod : Family → Nat
  | .p => 9600
  | .n => 8008

end Sys2Proof.Machine
end

