-- ==== Sys2Proof/Machine/Operands.lean ====
section
/-! DEFINITION. The operand forms of the commands and the messages sent: the byte layouts and the codes of Chapter 11, read
and written in one place. -/

namespace Sys2Proof.Machine

/-! ### Numbers and codes (R195) -/

/-- The unsigned number of some bytes, most significant byte first. -/
def numberOf (bs : List Byte) : Nat :=
  bs.foldl (fun n b => 256 * n + b.toNat) 0

/-- The number in the `len` bytes at offset `off`. -/
def numAt (bs : List Byte) (off len : Nat) : Nat :=
  numberOf ((bs.drop off).take len)

/-- A number as `len` bytes, most significant byte first. -/
def bytesOf : Nat → Nat → List Byte
  | 0, _ => []
  | len + 1, n => bytesOf len (n / 256) ++ [BitVec.ofNat 8 n]

/-- A channel number inside 0 to 63. -/
def channelOf (n : Nat) : Option ChannelNo :=
  if h : n < 64 then some ⟨n, h⟩ else none

/-- The label in the four bytes at offset `off`: HH, MM, SS, FF. -/
def labelAt (bs : List Byte) (off : Nat) : Label :=
  { hh := numAt bs off 1, mm := numAt bs (off + 1) 1, ss := numAt bs (off + 2) 1, ff := numAt bs (off + 3) 1 }

/-- Rate code of a code. -/
def rateOfCode : Nat → Option RateCode
  | 1 => some .r25
  | 2 => some .r50
  | 3 => some .r30d
  | 4 => some .r30n
  | 5 => some .r60d
  | 6 => some .r60n
  | _ => none

/-- Code of a rate code. -/
def RateCode.code : RateCode → Nat
  | .r25 => 1
  | .r50 => 2
  | .r30d => 3
  | .r30n => 4
  | .r60d => 5
  | .r60n => 6

/-- Family of a code. -/
def familyOfCode : Nat → Option Family
  | 1 => some .p
  | 2 => some .n
  | _ => none

/-- Code of a family. -/
def familyCode : Family → Nat
  | .p => 1
  | .n => 2

/-- Origin of a code. -/
def originOfCode : Nat → Option Origin
  | 1 => some .replicated
  | 2 => some .localEntry
  | _ => none

/-- Code of an origin. -/
def Origin.code : Origin → Nat
  | .replicated => 1
  | .localEntry => 2

/-- Service mode of a code. -/
def modeOfCode : Nat → Option ServiceMode
  | 0 => some .off
  | 1 => some .copyOnly
  | 2 => some .protectedMode
  | _ => none

/-- Code of a service mode. -/
def ServiceMode.code : ServiceMode → Nat
  | .off => 0
  | .copyOnly => 1
  | .protectedMode => 2

/-- Takeover policy of a code. -/
def takeoverOfCode : Nat → Option TakeoverPolicy
  | 0 => some .auto
  | 1 => some .confirm
  | _ => none

/-- Code of a takeover policy. -/
def TakeoverPolicy.code : TakeoverPolicy → Nat
  | .auto => 0
  | .confirm => 1

/-- Giveback policy of a code. -/
def givebackOfCode : Nat → Option GivebackPolicy
  | 0 => some .auto
  | 1 => some .manual
  | _ => none

/-- Code of a giveback policy. -/
def GivebackPolicy.code : GivebackPolicy → Nat
  | .auto => 0
  | .manual => 1

/-- Doubt policy of a code. -/
def doubtOfCode : Nat → Option DoubtPolicy
  | 0 => some .play
  | 1 => some .standby
  | _ => none

/-- Code of a doubt policy. -/
def DoubtPolicy.code : DoubtPolicy → Nat
  | .play => 0
  | .standby => 1

/-- Vote of a code. -/
def voteOfCode : Nat → Option Vote
  | 0 => some .any
  | 1 => some .two
  | 2 => some .all
  | _ => none

/-- Code of a vote. -/
def Vote.code : Vote → Nat
  | .any => 0
  | .two => 1
  | .all => 2

/-- Enabled sources of a code: HB 1, RF 2, TL 4, summed; anything above 7 names another source. -/
def sourcesOfCode (n : Nat) : Option Sources :=
  if n ≤ 7 then some { hb := n.testBit 0, rf := n.testBit 1, tl := n.testBit 2 } else none

/-- Code of the enabled sources. -/
def Sources.code (e : Sources) : Nat :=
  (if e.hb then 1 else 0) + (if e.rf then 2 else 0) + (if e.tl then 4 else 0)

/-- Code of a replication state. -/
def ReplicationState.code : ReplicationState → Nat
  | .unseeded => 0
  | .inStep => 1
  | .outOfStep => 2
  | .resyncing => 3
  | .stale => 4

/-- Code of a cause. -/
def Cause.code : Cause → Nat
  | .none => 0
  | .gap => 1
  | .storm => 2
  | .badEntry => 3
  | .pool => 4
  | .full => 5
  | .digest => 6
  | .flush => 7

/-- Code of a changeover state. -/
def Changeover.code : Changeover → Nat
  | .mirror => 0
  | .awaitConfirm => 1
  | .preparing => 2
  | .takePending => 3
  | .onDr => 4
  | .returning => 5
  | .stranded => 6

/-- Router source code of a direction. -/
def Direction.code : Direction → Nat
  | .main => 1
  | .dr => 2

/-- Sense function of a code. -/
def senseFunctionOfCode : Nat → Option SenseFunction
  | 0 => some .unused
  | 1 => some .returnFeed
  | 2 => some .tally
  | _ => none

/-- Code of a sense function. -/
def SenseFunction.code : SenseFunction → Nat
  | .unused => 0
  | .returnFeed => 1
  | .tally => 2

/-- Level of a code. -/
def levelOfCode : Nat → Option Level
  | 0 => some .low
  | 1 => some .high
  | _ => none

/-- Code of a level. -/
def Level.code : Level → Nat
  | .low => 0
  | .high => 1

/-- Code of an entry status. -/
def EntryStatus.code : EntryStatus → Nat
  | .planned => 0
  | .cued => 1
  | .airing => 2
  | .done => 3
  | .passed => 4

/-- Code of a supervision state. -/
def Supervision.code : Supervision → Nat
  | .healthy => 0
  | .alert => 1
  | .tripped => 2

/-- Code of a family state. -/
def FamilyState.code : FamilyState → Nat
  | .unset => 0
  | .locked => 1
  | .freerun => 2

/-- Code of a place kind; an empty place has code 0. -/
def PlaceKind.code : PlaceKind → Nat
  | .roll => 1
  | .live => 2
  | .standby => 3

/-- Code of a directive reply. -/
def Reply.code : Reply → Nat
  | .awaiting => 0
  | .ready => 1
  | .failed => 2

/-- Code of a response status; BUSY, 0x01, is never written into a response (section 11.6). -/
def Status.code : Status → Nat
  | .ok => 0
  | .badChannel => 2
  | .badField => 3
  | .notFound => 4
  | .full => 5
  | .state => 6
  | .inService => 7

/-- Which entries a FLUSH takes (R40). -/
inductive Selection where
  | replicated
  | localEntry
  | all
deriving DecidableEq, Repr

/-- Flush selection of a code. -/
def selectionOfCode : Nat → Option Selection
  | 1 => some .replicated
  | 2 => some .localEntry
  | 3 => some .all
  | _ => none

/-- The outcome values of commands (R195). -/
inductive CommandOutcome where
  | none
  | inserted
  | replaced
  | applied
  | deleted
  | waiting
  | started
  | already
  | inProgress
  | alreadyQueued
  | queued
deriving DecidableEq, Repr

/-- Code of a command outcome. -/
def CommandOutcome.code : CommandOutcome → Nat
  | .none => 0
  | .inserted => 1
  | .replaced => 2
  | .applied => 3
  | .deleted => 4
  | .waiting => 5
  | .started => 6
  | .already => 7
  | .inProgress => 8
  | .alreadyQueued => 9
  | .queued => 10

/-! ### Fields (R195) -/

/-- A number in a field of `len` bytes: most significant byte first where it fits; the spec states no bytes for a number
that does not, as a day above 65,535 or an execution pulse past 2⁴⁰ − 1, and a free value stands there (log 31). -/
def fitBytes (len n : Nat) : List Byte :=
  bytesOf len (if n < 256 ^ len then n else Config.unfitted len n)

/-- The bytes of a field. -/
def Field.encode : Field → List Byte
  | .u8 n => fitBytes 1 n
  | .u16 n => fitBytes 2 n
  | .u32 n => fitBytes 4 n
  | .frame (some n) => fitBytes 5 n
  | .frame none => List.replicate 5 0xFF
  | .latency (some n) => fitBytes 4 n
  | .latency none => List.replicate 4 0xFF
  | .sequence (some n) => bytesOf 1 1 ++ fitBytes 2 n
  | .sequence none => List.replicate 3 0
  | .flag b => bytesOf 1 (if b then 1 else 0)
  | .label l => fitBytes 1 l.hh ++ fitBytes 1 l.mm ++ fitBytes 1 l.ss ++ fitBytes 1 l.ff
  | .bytes bs => bs

/-- The bytes of some fields, in order. -/
def encodeFields (fs : List Field) : List Byte :=
  fs.flatMap Field.encode

/-- A position given both ways: absolute frame, day, label (R200). -/
def positionFields (r : RateCode) (f : Nat) : List Field :=
  [.frame (some f), .u16 (dayOf r f), .label (labelOfFrame r f)]

/-- A position that may be NONE, in which case no day and no label follow (R20; log 16). -/
def positionOrNone (r : RateCode) : Option Nat → List Field
  | some f => positionFields r f
  | none => [.frame none]

/-- The bytes of a response frame: tag, status, clamped indicator, body length, body (section 11.6). -/
def Response.encode (r : Response) : List Byte :=
  let body := encodeFields r.body
  r.tag :: (bytesOf 1 r.status.code ++ bytesOf 1 (if r.clamped then 1 else 0) ++ bytesOf 2 body.length ++ body)

/-! ### Messages sent (sections 11.4 and 11.5) -/

/-- A link message: kind, body length, body (R196). -/
def frameMessage (kind : Nat) (body : List Field) : List Byte :=
  let bs := encodeFields body
  bytesOf 1 kind ++ bytesOf 2 bs.length ++ bs

/-- The fields of a status record. -/
def StatusRecord.fields (r : StatusRecord) : List Field :=
  [.u8 r.channel.val, .u8 r.mode.code, .u8 r.changeover.code, .u8 r.replState.code, .sequence r.lastApplied, .flag r.latched]

/-- The bytes of a message sent on the replication link. -/
def ReplicationOut.encode : ReplicationOut → List Byte
  | .standbyStatus number records =>
    frameMessage 0x11 ([.u16 number, .u8 records.length] ++ records.flatMap StatusRecord.fields)
  | .resyncAsk channel cause lastApplied => frameMessage 0x12 [.u8 channel.val, .u8 cause.code, .sequence lastApplied]

/-- The fields of the secondaries of a directive: count, then key, offset, duration of each. -/
def directiveSecondaries (ss : List Secondary) : List Field :=
  .u8 ss.length :: ss.flatMap (fun x => [.u8 x.key, .u32 x.offset, .u32 x.duration])

/-- The common part of a directive (section 11.5); the day and label of a frame that is NONE are free values (log 38). -/
def Directive.common (d : Directive) : List Field :=
  [.u8 d.channel.val, .u8 d.tag, .u8 d.rate.code] ++
  (match d.frame with
   | some f => positionFields d.rate f
   | none => [.frame none, .bytes (bytesOf 6 Config.unstatedPosition.toNat)])

/-- The bytes of a directive (R199): a ROLL's in-point also as whole days and the label of the rest. -/
def Directive.encode (d : Directive) : List Byte :=
  match d.body with
  | .roll reference inPoint playDuration ss =>
    frameMessage 0x21 (d.common ++ [.bytes reference, .u32 inPoint, .u8 (dayOf d.rate inPoint),
      .label (labelOfFrame d.rate inPoint), .u32 playDuration] ++ directiveSecondaries ss)
  | .live source playDuration ss =>
    frameMessage 0x22 (d.common ++ [.u16 source, .u32 playDuration] ++ directiveSecondaries ss)
  | .standby => frameMessage 0x23 d.common
  | .stop => frameMessage 0x24 d.common

/-- The bytes of a TAKE. -/
def TakeOut.encode (m : TakeOut) : List Byte :=
  frameMessage 0x31 [.u8 m.channel.val, .u8 m.tag, .u8 m.direction.code, .u8 (familyCode m.family), .frame (some m.executionPulse)]

/-! ### The entry body (section 11.3) -/

/-- The secondaries of an entry body: n items of offset, overlay key, duration. -/
def secondariesAt : Nat → List Byte → List Secondary
  | 0, _ => []
  | n + 1, bs => { offset := numAt bs 0 4, key := numAt bs 4 1, duration := numAt bs 5 4 } :: secondariesAt n (bs.drop 9)

/-- An entry body of the length its secondary count gives (R197). -/
def parseEntryBody (bs : List Byte) : Option RawBody :=
  let n := numAt bs 18 1
  if bs.length = 41 + 9 * n then
    some { entryId := numAt bs 0 4, revision := numAt bs 4 2, day := numAt bs 6 2, label := labelAt bs 8,
           duration := numAt bs 12 4, kind := numAt bs 16 1, priority := numAt bs 17 1,
           reference := (bs.drop 19).take 16, somLabel := labelAt bs 35, source := numAt bs 39 2,
           secondaries := secondariesAt n (bs.drop 41) }
  else none

/-- The duration of a body after clamping to a day (R24). -/
def RawBody.clampedDuration (r : RateCode) (b : RawBody) : Nat :=
  min b.duration r.framesPerDay

/-- The body is a MEDIA body. -/
def RawBody.isMedia (b : RawBody) : Bool :=
  decide (b.kind = 1)

/-- The body is a LIVE body. -/
def RawBody.isLive (b : RawBody) : Bool :=
  decide (b.kind = 2)

/-- A secondary of a body of this clamped duration is valid (R23). -/
def Secondary.valid (duration : Nat) (x : Secondary) : Bool :=
  decide (1 ≤ x.key ∧ x.key ≤ 255) && decide (x.duration ≠ 0) && decide (x.offset < duration)

/-- The body is valid at a rate code (R23). -/
def RawBody.valid (r : RateCode) (b : RawBody) : Bool :=
  decide (b.entryId ≠ 0) && validDay b.day && b.label.valid r && decide (b.duration ≠ 0) &&
  (b.isMedia || b.isLive) && (!b.isMedia || b.somLabel.valid r) &&
  (!b.isLive || decide (1 ≤ b.source ∧ b.source ≤ 1023)) && decide (b.priority ≤ 3) &&
  decide (b.secondaries.length ≤ 4) && b.secondaries.all (Secondary.valid (b.clampedDuration r))

/-- The conversion clamps a label of the body or its duration (R24). -/
def RawBody.clamps (r : RateCode) (b : RawBody) : Bool :=
  (b.label.valid r && b.label.namesSkipped r) ||
  (b.isMedia && b.somLabel.valid r && b.somLabel.namesSkipped r) ||
  decide (r.framesPerDay < b.duration)

/-- A valid body in record form (R24). -/
def RawBody.convert (r : RateCode) (b : RawBody) : Body :=
  { entryId := b.entryId, revision := b.revision, start := absoluteFrame r b.day b.label,
    duration := b.clampedDuration r,
    content := if b.isMedia then .media b.reference (b.somLabel.frameOfDay r) else .live b.source,
    priority := b.priority, secondaries := b.secondaries }

/-! ### Replication messages (section 11.4); none where the message is malformed (R64, R79, R196) -/

/-- ENTRY PUT: channel, sequence, body. -/
def parseEntryPut (bs : List Byte) : Option (ChannelNo × Nat × RawBody) :=
  match channelOf (numAt bs 0 1), parseEntryBody (bs.drop 3) with
  | some c, some b => if 3 ≤ bs.length then some (c, numAt bs 1 2, b) else none
  | _, _ => none

/-- ENTRY DROP: channel, sequence, entry ID. -/
def parseEntryDrop (bs : List Byte) : Option (ChannelNo × Nat × Nat) :=
  match channelOf (numAt bs 0 1) with
  | some c => if bs.length = 7 then some (c, numAt bs 1 2, numAt bs 3 4) else none
  | none => none

/-- SNAPSHOT OPEN: channel, resume sequence, item count. -/
def parseSnapshotOpen (bs : List Byte) : Option (ChannelNo × Nat × Nat) :=
  match channelOf (numAt bs 0 1) with
  | some c => if bs.length = 5 then some (c, numAt bs 1 2, numAt bs 3 2) else none
  | none => none

/-- SNAPSHOT CLOSE: channel, item count, digest. -/
def parseSnapshotClose (bs : List Byte) : Option (ChannelNo × Nat × Nat) :=
  match channelOf (numAt bs 0 1) with
  | some c => if bs.length = 7 then some (c, numAt bs 1 2, numAt bs 3 4) else none
  | none => none

/-- A channel record of a heartbeat; health is the least significant bit of its byte (R198). -/
structure HealthRecord where
  channel : ChannelNo
  mainLast : Nat
  fails : Bool
deriving DecidableEq, Repr

/-- A digest record of a heartbeat. -/
structure DigestRecord where
  channel : ChannelNo
  day : Nat
  label : Label
  digest : Nat
  count : Nat
deriving DecidableEq, Repr

/-- The channel records of a heartbeat; none if a channel lies outside 0 to 63. -/
def healthRecordsAt : Nat → List Byte → Option (List HealthRecord)
  | 0, _ => some []
  | n + 1, bs =>
    match channelOf (numAt bs 0 1), healthRecordsAt n (bs.drop 4) with
    | some c, some rest => some ({ channel := c, mainLast := numAt bs 1 2, fails := decide (numAt bs 3 1 % 2 = 1) } :: rest)
    | _, _ => none

/-- The digest records of a heartbeat; none if a channel lies outside 0 to 63. -/
def digestRecordsAt : Nat → List Byte → Option (List DigestRecord)
  | 0, _ => some []
  | n + 1, bs =>
    match channelOf (numAt bs 0 1), digestRecordsAt n (bs.drop 13) with
    | some c, some rest =>
      some ({ channel := c, day := numAt bs 1 2, label := labelAt bs 3, digest := numAt bs 7 4, count := numAt bs 11 2 } :: rest)
    | _, _ => none

/-- SITE HEARTBEAT: the two record counts, the channel records, the digest records, with the checks of R79. -/
def parseHeartbeat (bs : List Byte) : Option (List HealthRecord × List DigestRecord) :=
  let a := numAt bs 0 1
  let b := numAt bs 1 1
  match healthRecordsAt a (bs.drop 2), digestRecordsAt b (bs.drop (2 + 4 * a)) with
  | some hs, some ds =>
    if bs.length = 2 + 4 * a + 13 * b ∧ a ≤ 64 ∧ b ≤ 8 ∧ (hs.map HealthRecord.channel).Nodup ∧
       (ds.map DigestRecord.channel).Nodup then some (hs, ds) else none
  | _, _ => none

/-- A cue or router reply: channel and tag (section 11.5). -/
def parseReply (bs : List Byte) : Option (ChannelNo × Nat) :=
  match channelOf (numAt bs 0 1) with
  | some c => if bs.length = 2 then some (c, numAt bs 1 1) else none
  | none => none

/-- A delivered replication message is well formed: its kind is inbound, its length field agrees, its body has its
kind's layout (R64, R196). -/
def replicationWellFormed : List Byte → Bool
  | kind :: l1 :: l2 :: body =>
    decide (numberOf [l1, l2] = body.length) &&
    (match kind.toNat with
     | 1 => (parseEntryPut body).isSome
     | 2 => (parseEntryDrop body).isSome
     | 3 => (parseHeartbeat body).isSome
     | 4 => (parseSnapshotOpen body).isSome
     | 5 => (parseEntryPut body).isSome
     | 6 => (parseSnapshotClose body).isSome
     | _ => false)
  | _ => false

/-- A delivered reply of a link whose two inbound kinds are given is well formed (R166, R175, R196). -/
def replyWellFormed (kind1 kind2 : Nat) : List Byte → Bool
  | kind :: l1 :: l2 :: body =>
    (decide (kind.toNat = kind1) || decide (kind.toNat = kind2)) && decide (numberOf [l1, l2] = body.length) &&
    (parseReply body).isSome
  | _ => false

/-- The 26 command codes (section 10.3). -/
def commandCodes : List Nat :=
  [0x10, 0x11, 0x12, 0x13, 0x14, 0x15, 0x16, 0x17, 0x20, 0x21, 0x22, 0x23, 0x30, 0x31, 0x32, 0x33, 0x34, 0x35,
   0x40, 0x41, 0x50, 0x51, 0x52, 0x53, 0x54, 0x55]

end Sys2Proof.Machine
end

