-- ==== Sys2Proof/Machine/Schedule.lean ====
section
/-! DEFINITION. The Schedule Store (Chapter 2): order and effective spans, the pool and its aging, joins, replacements and
removals, status changes, amendments, retirement. -/

namespace Sys2Proof.Machine

/-! ### Order and effective spans (sections 2.2 and 2.3) -/

/-- The name of an entry. -/
def Entry.key (e : Entry) : EntryKey :=
  { origin := e.origin, id := e.body.entryId }

/-- The entry is REPLICATED. -/
def Entry.isReplicated (e : Entry) : Bool :=
  decide (e.origin = .replicated)

/-- The entry is in service: CUED or AIRING. -/
def Entry.inService (e : Entry) : Bool :=
  decide (e.status = .cued) || decide (e.status = .airing)

/-- The entry is DONE or PASSED. -/
def Entry.isOver (e : Entry) : Bool :=
  decide (e.status = .done) || decide (e.status = .passed)

/-- The amendment of an unpinned entry waits; that of a pinned entry is held (R39). -/
def Entry.waits (e : Entry) : Bool :=
  !e.pinned && e.amendment.isSome

/-- LOCAL sorts before REPLICATED (section 2.3). -/
def Origin.rank : Origin → Nat
  | .localEntry => 0
  | .replicated => 1

/-- The key (start, origin, entry ID) sorts at or before another (section 2.3). -/
def sortsAtOrBefore (start1 : Nat) (k1 : EntryKey) (start2 : Nat) (k2 : EntryKey) : Bool :=
  decide (start1 < start2) ||
  (decide (start1 = start2) &&
    (decide (k1.origin.rank < k2.origin.rank) || (decide (k1.origin.rank = k2.origin.rank) && decide (k1.id ≤ k2.id))))

/-- An entry takes the place its key gives it (R26). -/
def insertEntry (e : Entry) : List Entry → List Entry
  | [] => [e]
  | d :: rest =>
    if sortsAtOrBefore d.body.start d.key e.body.start e.key then d :: insertEntry e rest else e :: d :: rest

/-- The effective end of an entry followed by another entry, or by none (R27). -/
def effectiveEnd (e : Entry) : Option Entry → Nat
  | none => e.body.start + e.body.duration
  | some n => if n.body.start = e.body.start then e.body.start else min (e.body.start + e.body.duration) n.body.start

/-- The entries of a schedule, each with its effective end (R27). -/
def spans : List Entry → List (Entry × Nat)
  | [] => []
  | e :: rest => (e, effectiveEnd e rest.head?) :: spans rest

/-- The entry of that name in a schedule. -/
def lookupEntry (k : EntryKey) (es : List Entry) : Option Entry :=
  es.find? (fun e => decide (e.key = k))

/-- The effective end of the entry of that name. -/
def endOf (k : EntryKey) (es : List Entry) : Option Nat :=
  ((spans es).find? (fun p => decide (p.1.key = k))).map Prod.snd

/-- The entry whose effective span contains a frame, with its effective end (R27, R42). -/
def entryAt (x : Nat) (es : List Entry) : Option (Entry × Nat) :=
  (spans es).find? (fun p => decide (p.1.body.start ≤ x) && decide (x < p.2))

/-- Change the entry of that name where it stands. -/
def mapEntry (k : EntryKey) (f : Entry → Entry) (es : List Entry) : List Entry :=
  es.map (fun e => if e.key = k then f e else e)

/-- A schedule without the entry of that name. -/
def eraseEntry (k : EntryKey) (es : List Entry) : List Entry :=
  es.filter (fun e => decide (e.key ≠ k))

/-- The status of an entry of this effective end at a current frame (R28); NONE lies before every frame (R8). -/
def statusFor (frame : Option Nat) (effEnd : Nat) : EntryStatus :=
  match frame with
  | none => .planned
  | some f => if f < effEnd then .planned else .passed

/-- Put an entry at its place and give it its status there (R26, R28). -/
def placeEntry (frame : Option Nat) (e : Entry) (es : List Entry) : List Entry :=
  let joined := insertEntry e es
  mapEntry e.key (fun d => { d with status := statusFor frame ((endOf e.key joined).getD 0) }) joined

/-! ### The pool (sections 2.1 and 2.5) -/

/-- Slots return to the free count; reaching the upper threshold ends fast aging (R21, R33). -/
def freeSlots (n : Nat) (s : State) : State :=
  let free := s.freeCount + n
  { s with
    freeCount := free
    aging := if 0 < n ∧ s.aging = .fast ∧ Config.normalFrom ≤ free then .normal else s.aging }

/-- A slot leaves the free count; falling below the lower threshold enters fast aging and raises POOL_LOW (R21, R33). -/
def grantSlot (s : State) : State :=
  let free := s.freeCount - 1
  let t := { s with freeCount := free }
  if s.aging = .normal ∧ free < Config.fastBelow then raiseEvent .poolLow { t with aging := .fast } else t

/-- Write a channel's schedule, and PINNED_HELD with it: set while an entry carries an amendment, DIVERGENCE raised when
it becomes set (R57). -/
def setSchedule (c : ChannelNo) (es : List Entry) (s : State) : State :=
  let held := es.any (fun e => e.amendment.isSome)
  raiseIf (held && !(s.chan c).pinnedHeld) c .divergence
    (modChan c (fun ch => { ch with schedule := es, pinnedHeld := held }) s)

/-- The entries that `keep` keeps stay listed; the others leave the schedule with their amendments and their slots are
freed (R26). A REPLICATED entry among them is a change to the replicated set (R46). -/
def keepOnly (c : ChannelNo) (keep : Entry × Nat → Bool) (s : State) : State :=
  let es := (s.chan c).schedule
  let kept := ((spans es).filter keep).map Prod.fst
  let gone := (spans es).filter (fun p => !keep p)
  let t := freeSlots gone.length (setSchedule c kept s)
  if gone.any (fun p => p.1.isReplicated) then abandonWalks c t else t

/-- The entry of that name leaves the channel's schedule. -/
def removeEntry (c : ChannelNo) (k : EntryKey) (s : State) : State :=
  keepOnly c (fun p => decide (p.1.key ≠ k)) s

/-- How much older one DONE or PASSED entry is than another (R34): its channel's current frame less its effective end;
entries of channels without a frame come after all others. -/
def olderThan : Option Int → Option Int → Bool
  | some a, some b => decide (b < a)
  | some _, none => true
  | none, _ => false

/-- The DONE and PASSED entries of a channel with their ages, in schedule order. -/
def agedOf (s : State) (c : ChannelNo) : List (ChannelNo × EntryKey × Option Int) :=
  (spans (s.chan c).schedule).filterMap (fun p =>
    if p.1.isOver then some (c, p.1.key, (s.chan c).frame.map (fun f => (f : Int) - (p.2 : Int))) else none)

/-- The first of the oldest (R34). -/
def pickOldest : List (ChannelNo × EntryKey × Option Int) → Option (ChannelNo × EntryKey × Option Int)
  | [] => none
  | a :: rest =>
    match pickOldest rest with
    | none => some a
    | some b => if olderThan b.2.2 a.2.2 then some b else some a

/-- The entry on-demand aging retires: the oldest of the pool, ties by channel and then schedule order (R34). -/
def oldestEntry (s : State) : Option (ChannelNo × EntryKey) :=
  (pickOldest (allChannels.flatMap (agedOf s))).map (fun p => (p.1, p.2.1))

/-- A slot request: a free slot at once, or one freed by on-demand aging, or none (R22, R34). -/
def requestSlot (s : State) : Option State :=
  if 0 < s.freeCount then some (grantSlot s)
  else match oldestEntry s with
    | some (c, k) => some (grantSlot (removeEntry c k s))
    | none => none

/-! ### Joins, replacements and amendments (sections 2.3, 2.7) -/

/-- An entry joins the channel's schedule, its slot already granted (R26, R28). -/
def joinEntry (c : ChannelNo) (o : Origin) (b : Body) (s : State) : State :=
  let e : Entry := { origin := o, body := b, status := .planned, pinned := false, amendment := none }
  setSchedule c (placeEntry (s.chan c).frame e (s.chan c).schedule) s

/-- Every body field of the entry of that name is replaced; it takes the place of its new key and its status is
recomputed; it carries no amendment (R26, R28, R39, R76). -/
def replaceEntry (c : ChannelNo) (k : EntryKey) (b : Body) (s : State) : State :=
  match lookupEntry k (s.chan c).schedule with
  | none => s
  | some e =>
    setSchedule c (placeEntry (s.chan c).frame { e with body := b, amendment := none }
      (eraseEntry k (s.chan c).schedule)) s

/-- An amendment is written to the entry of that name, replacing what it held: a change to the replicated set
(R37, R46). -/
def writeAmendment (c : ChannelNo) (k : EntryKey) (a : Amendment) (s : State) : State :=
  abandonWalks c (setSchedule c (mapEntry k (fun e => { e with amendment := some a }) (s.chan c).schedule) s)

/-- The amendment of the entry of that name is applied: a body replaces every field, a deletion removes the entry
(R39, R46). -/
def applyAmendment (c : ChannelNo) (k : EntryKey) (s : State) : State :=
  match (lookupEntry k (s.chan c).schedule).bind Entry.amendment with
  | none => s
  | some (.body b) => abandonWalks c (replaceEntry c k b s)
  | some .deletion => removeEntry c k s

/-! ### Status changes at COU's request (R30) -/

/-- Set the status of the entry of that name. -/
def setStatus (c : ChannelNo) (k : EntryKey) (st : EntryStatus) (s : State) : State :=
  setSchedule c (mapEntry k (fun e => { e with status := st }) (s.chan c).schedule) s

/-- Whether the channel's entry of that name has this status. -/
def hasStatus (s : State) (c : ChannelNo) (k : EntryKey) (st : EntryStatus) : Bool :=
  match lookupEntry k (s.chan c).schedule with
  | some e => decide (e.status = st)
  | none => false

/-- The changeover states in which a channel is held: PREPARING, TAKE_PENDING, ON_DR, RETURNING (section 8.5). -/
def Changeover.held : Changeover → Bool
  | .preparing | .takePending | .onDr | .returning => true
  | .mirror | .awaitConfirm | .stranded => false

/-- The entry leaves service with this status; a waiting amendment is applied after the new status has been set
(R30, R39). -/
def leaveService (c : ChannelNo) (k : EntryKey) (st : EntryStatus) (s : State) : State :=
  let t := setStatus c k st s
  match lookupEntry k (t.chan c).schedule with
  | some e => if e.waits then applyAmendment c k t else t
  | none => t

/-- The cue request: PLANNED to CUED while the channel is held. -/
def cueEntry (c : ChannelNo) (k : EntryKey) (s : State) : State :=
  if hasStatus s c k .planned && (s.chan c).changeover.held then setStatus c k .cued s else s

/-- The air request: CUED to AIRING while no other entry of the channel is AIRING. -/
def airEntry (c : ChannelNo) (k : EntryKey) (s : State) : State :=
  if hasStatus s c k .cued && !((s.chan c).schedule.any (fun e => decide (e.status = .airing) && decide (e.key ≠ k)))
  then setStatus c k .airing s else s

/-- The finish request: AIRING to DONE. -/
def finishEntry (c : ChannelNo) (k : EntryKey) (s : State) : State :=
  if hasStatus s c k .airing then leaveService c k .done s else s

/-- The uncue request: CUED to PLANNED, or to PASSED when its effective end is not after the current frame. -/
def uncueEntry (c : ChannelNo) (k : EntryKey) (s : State) : State :=
  if hasStatus s c k .cued then
    leaveService c k (statusFor (s.chan c).frame ((endOf k (s.chan c).schedule).getD 0)) s
  else s

/-- The release request: AIRING or CUED to PASSED. -/
def releaseEntry (c : ChannelNo) (k : EntryKey) (s : State) : State :=
  if hasStatus s c k .airing || hasStatus s c k .cued then leaveService c k .passed s else s

/-- The skip request: PLANNED to PASSED. -/
def skipEntry (c : ChannelNo) (k : EntryKey) (s : State) : State :=
  if hasStatus s c k .planned then setStatus c k .passed s else s

/-! ### The frame event at SST (R29, R32) -/

/-- Every PLANNED entry whose effective end is at or before the frame becomes PASSED. -/
def passOver (f : Nat) (es : List Entry) : List Entry :=
  (spans es).map (fun p => if p.1.status = .planned ∧ p.2 ≤ f then { p.1 with status := .passed } else p.1)

/-- The channel's PLANNED entries that a frame has reached become PASSED: the match comparison of R29 and the pass step
of R151. -/
def passEntries (c : ChannelNo) (f : Nat) (s : State) : State :=
  setSchedule c (passOver f (s.chan c).schedule) s

/-- The retention of a channel as SST counts it: 0 in fast aging (R32, R33). -/
def State.retentionOf (s : State) (c : ChannelNo) : Nat :=
  if s.aging = .fast then 0 else (s.chan c).retention

/-- Every DONE or PASSED entry whose effective end plus retention is at or before the frame is retired, as the schedule
stands at the event (R32; log 11). All are judged by the aging mode that stood before the first slot was freed, also where
their slots end fast aging (R33; log 42). -/
def retireEntries (c : ChannelNo) (f : Nat) (s : State) : State :=
  let r := s.retentionOf c
  keepOnly c (fun p => !(p.1.isOver && decide (p.2 + r ≤ f))) s

/-- SST's part of a frame event: in MIRROR the match comparison, then retirement, against the same frame (R29, R32). -/
def sstFrame (c : ChannelNo) (s : State) : State :=
  match (s.chan c).frame with
  | none => s
  | some f => retireEntries c f (if (s.chan c).changeover = .mirror then passEntries c f s else s)

end Sys2Proof.Machine
end

