-- ==== Sys2Proof/Machine/Resync.lean ====
section
/-! DEFINITION. The Resync Unit (Chapter 5): replication state changes, the resync queue and its service, failure and
abandonment of a snapshot, digests and the walk engine. -/

namespace Sys2Proof.Machine

/-- Write a channel's replication state, cause and snapshot attempts. A change of any raises REPLICATION (R86); leaving
IN_STEP abandons the channel's walks (R105). -/
def setReplication (c : ChannelNo) (st : ReplicationState) (cause : Cause) (attempts : Nat) (s : State) : State :=
  let ch := s.chan c
  let changed := decide (ch.replState ≠ st) || decide (ch.cause ≠ cause) || decide (ch.attempts ≠ attempts)
  let t := raiseIf changed c .replication
    (modChan c (fun x => { x with replState := st, cause := cause, attempts := attempts }) s)
  if ch.replState = .inStep ∧ st ≠ .inStep then abandonWalks c t else t

/-- Write a channel's last applied sequence; a change abandons its walks (R57, R105). -/
def setLastApplied (c : ChannelNo) (n : Nat) (s : State) : State :=
  let t := modChan c (fun x => { x with lastApplied := some n }) s
  if (s.chan c).lastApplied = some n then t else abandonWalks c t

/-- The assembly record opened for a channel at service (R88, R89). -/
def Assembly.opened (c : ChannelNo) (st : ReplicationState) (cause : Cause) : Assembly :=
  { channel := c, phase := .awaitingOpen, stateBefore := st, causeBefore := cause, resume := none, expected := none,
    nextIndex := 1, timer := 0, gapNoted := false, staged := [] }

/-- Serve the head of the resync queue when no snapshot is in assembly and the link is UP: open an assembly for it, send
its RESYNC ASK, set it RESYNCING (R88). -/
def serve (s : State) : State :=
  match s.resyncQueue, s.assembly, s.linkUp with
  | c :: rest, none, true =>
    let ch := s.chan c
    setReplication c .resyncing ch.cause ch.attempts
      (sendReplication (.resyncAsk c ch.cause ch.lastApplied)
        { s with resyncQueue := rest, assembly := some (.opened c ch.replState ch.cause) })
  | _, _, _ => s

/-- A channel joins the resync queue at the tail unless it is there, and the queue is served if it may be (R87, R88). -/
def enqueue (c : ChannelNo) (s : State) : State :=
  serve (if c ∈ s.resyncQueue then s else { s with resyncQueue := s.resyncQueue ++ [c] })

/-- A channel leaves the resync queue from any place (R87). -/
def dequeue (c : ChannelNo) (s : State) : State :=
  { s with resyncQueue := s.resyncQueue.filter (fun d => decide (d ≠ c)) }

/-- A channel goes OUT_OF_STEP with a cause and joins the tail of the resync queue (R69, R72, R77, R81, R106). -/
def fallOut (c : ChannelNo) (cause : Cause) (s : State) : State :=
  enqueue c (setReplication c .outOfStep cause (s.chan c).attempts s)

/-! ### End of an assembly -/

/-- Every staged slot is freed, the deferral queue is emptied and the assembly record becomes empty (R44, R89). -/
def clearAssembly (s : State) : State :=
  match s.assembly with
  | none => { s with deferral := [] }
  | some a => freeSlots a.staged.length { s with assembly := none, deferral := [] }

/-- A snapshot fails; `forPool` is the reason pool, the only one that sets a cause of its own (R98). -/
def failSnapshot (forPool : Bool) (s : State) : State :=
  match s.assembly with
  | none => s
  | some a =>
    let c := a.channel
    let attempts := (s.chan c).attempts + 1
    let st := if forPool then .outOfStep else a.stateBefore
    let cause := if forPool then .pool else a.causeBefore
    let t := clearAssembly s
    if attempts < 3 then enqueue c (setReplication c st cause attempts t)
    else serve (setReplication c .stale cause attempts t)

/-- The assembly of a channel, if there is one, is abandoned without counting an attempt (R99); the caller settles the
channel's state and queue place. -/
def abandonAssemblyOf (c : ChannelNo) (s : State) : State :=
  match s.assembly with
  | some a => if a.channel = c then clearAssembly s else s
  | none => s

/-- LINK RESTART at RSU: the assembly is abandoned and its channel returns to the state and cause before the ask, at the
head of the queue; the pending walks, the running walk and the deferral queue go (R99, R105, R108). -/
def restartResync (s : State) : State :=
  let t := { s with pendingWalks := [], walk := none }
  match t.assembly with
  | none => clearAssembly t
  | some a =>
    let u := clearAssembly t
    setReplication a.channel a.stateBefore a.causeBefore (u.chan a.channel).attempts
      { u with resyncQueue := a.channel :: u.resyncQueue.filter (fun d => decide (d ≠ a.channel)) }

/-! ### Digests (section 5.6) -/

/-- The term of an entry with this ID, revision and start frame (R107). -/
def digestTerm (id revision start : Nat) : Nat :=
  (id * 40503 + revision * 977 + start % 65536) % 2 ^ 32

/-- The digest of staged bodies, each with its own revision and start (R95, R107). -/
def stagedDigest (bs : List Body) : Nat :=
  bs.foldl (fun n b => (n + digestTerm b.entryId b.revision b.start) % 2 ^ 32) 0

/-- The view of a REPLICATED entry in a digest walk: revision and start, or nothing for a deletion (R37). -/
def Entry.view (e : Entry) : Option (Nat × Nat) :=
  match e.amendment with
  | none => some (e.body.revision, e.body.start)
  | some (.body b) => some (b.revision, b.start)
  | some .deletion => none

/-- The running walk after reading one entry (R103). -/
def Walk.readEntry (w : Walk) (e : Entry) : Walk :=
  match e.view with
  | some (revision, start) =>
    if w.record.horizon ≤ start then
      { w with digest := (w.digest + digestTerm e.body.entryId revision start) % 2 ^ 32, count := w.count + 1, read := w.read + 1 }
    else { w with read := w.read + 1 }
  | none => { w with read := w.read + 1 }

/-- The completion of a walk: agreement sets the last-agreed frame, disagreement puts the channel OUT_OF_STEP with cause
DIGEST; the next pending walk starts (R104, R106). -/
def completeWalk (w : Walk) (s : State) : State :=
  let c := w.record.channel
  let t := { s with walk := none }
  if w.digest = w.record.mainDigest ∧ w.count = w.record.mainCount then
    startWalk (modChan c (fun ch => { ch with lastAgreed := some (ch.frame.getD w.record.horizon) }) t)
  else startWalk (fallOut c .digest t)

/-- The walk engine at a tick: read the next REPLICATED entry in schedule order, or complete when none is left (R103). -/
def walkTick (s : State) : State :=
  match s.walk with
  | none => s
  | some w =>
    match (((s.chan w.record.channel).schedule.filter Entry.isReplicated).drop w.read).head? with
    | some e => { s with walk := some (w.readEntry e) }
    | none => completeWalk w s

end Sys2Proof.Machine
end

