-- ==== Sys2Proof/Machine/Router.lean ====
section
/-! DEFINITION. The Router Arbiter (Chapter 9, sections 9.3 and 9.4): the take queue in grant order, placing, withdrawing,
granting, and the shift of release pulses at a loading pulse. -/

namespace Sys2Proof.Machine

/-- Grant order: priority, then release pulse, then channel number, all ascending (R169). -/
def grantsBefore (a b : Request) : Bool :=
  decide (a.priority < b.priority) ||
  (decide (a.priority = b.priority) &&
    (decide (a.release < b.release) || (decide (a.release = b.release) && decide (a.channel ≤ b.channel))))

/-- A request takes its place in grant order. -/
def insertRequest (r : Request) : List Request → List Request
  | [] => [r]
  | q :: rest => if grantsBefore q r then q :: insertRequest r rest else r :: q :: rest

/-- The queue without the channel's request. -/
def withoutRequest (c : ChannelNo) (q : List Request) : List Request :=
  q.filter (fun r => decide (r.channel ≠ c))

/-- The channel has a request in the take queue. -/
def State.hasRequest (s : State) (c : ChannelNo) : Bool :=
  s.takeQueue.any (fun r => decide (r.channel = c))

/-- Place a request: it replaces the channel's request in the queue and ends its outstanding take without a report
(R170). -/
def placeRequest (r : Request) (s : State) : State :=
  modChan r.channel (fun ch => { ch with outstanding := none })
    { s with takeQueue := insertRequest r (withoutRequest r.channel s.takeQueue) }

/-- The channel's request leaves the queue (R171). -/
def dropRequest (c : ChannelNo) (s : State) : State :=
  { s with takeQueue := withoutRequest c s.takeQueue }

/-- The pulse count of the router family. -/
def State.routerCount (s : State) : Nat :=
  (s.family s.device.routerFamily).count

/-- Router pulses in one frame of a channel of the other family, as a ratio (R146). -/
def routerRatio (r : RateCode) : Nat × Nat :=
  match r with
  | .r25 => (2400, 1001)
  | .r50 => (1200, 1001)
  | .r30d | .r30n => (1001, 600)
  | .r60d | .r60n => (1001, 1200)

/-- The router family's pulse of a channel frame (R146); `f` is the channel's current frame. -/
def pulseOfFrame (s : State) (c : ChannelNo) (f x : Nat) : Int :=
  let r := (s.chan c).settings.rate
  let fam := s.device.routerFamily
  if r.family = fam then
    if r.isDouble then (x : Int) else 2 * (x : Int) + ((s.family fam).parity.e : Int)
  else (s.routerCount : Int) + ((x : Int) - (f : Int)) * (routerRatio r).1 / (routerRatio r).2

/-- The release pulse of a channel frame: its pulse less the router lead, but not before the current count; 0 while the
router family is UNSET (R146). -/
def releasePulse (s : State) (c : ChannelNo) (f x : Nat) : Nat :=
  if (s.family s.device.routerFamily).state = .unset then 0
  else max s.routerCount (pulseOfFrame s c f x - (s.routerLead : Int)).toNat

/-- The release pulse of a request released at once: the current count (R149, R157); 0 while UNSET, whose count is 0. -/
def releaseNow (s : State) : Nat :=
  if (s.family s.device.routerFamily).state = .unset then 0 else s.routerCount

/-- The priority of a takeover: the more urgent of the default priority in effect and the class of the entry named, if it
is still listed (R170). -/
def takeoverPriority (s : State) (c : ChannelNo) (k : Option EntryKey) : Nat :=
  let d := (s.chan c).inEffect.defaultPriority
  match k.bind (fun k => lookupEntry k (s.chan c).schedule) with
  | some e => min d e.body.priority
  | none => d

/-- The giveback class (R170). -/
def givebackPriority : Nat := 4

/-- Place the takeover request of a channel, naming its joined entry (R145, R149, R170). -/
def requestTakeover (c : ChannelNo) (release : Nat) (s : State) : State :=
  placeRequest { channel := c, direction := .dr, release := release, priority := takeoverPriority s c (s.chan c).joined } s

/-- Place the giveback request of a channel (R155, R170). -/
def requestGiveback (c : ChannelNo) (release : Nat) (s : State) : State :=
  placeRequest { channel := c, direction := .main, release := release, priority := givebackPriority } s

/-- Grant a request at a pulse: it leaves the queue, a TAKE with the next take tag is sent, and the take is outstanding
(R172). -/
def grantRequest (pulse : Nat) (r : Request) (s : State) : State :=
  let tag := ((s.chan r.channel).takeTag + 1) % 256
  let execution := pulse + s.routerLead
  sendRouter { tag := tag, channel := r.channel, direction := r.direction, family := s.device.routerFamily,
               executionPulse := execution }
    (modChan r.channel (fun ch => { ch with
      takeTag := tag
      outstanding := some { tag := tag, direction := r.direction, grantPulse := pulse, executionPulse := execution, timer := 0 } })
      (dropRequest r.channel s))

/-- The grants at a counted pulse of the router family: the released requests first in grant order, up to the takes per
pulse, with the lead read at this pulse (R172, R174). -/
def grantPulse (s : State) : State :=
  let t := { s with routerLead := s.device.routerLead }
  let released := t.takeQueue.filter (fun r => decide (r.release ≤ t.routerCount))
  (released.take t.device.takesPerPulse).foldl (fun u r => grantRequest t.routerCount r u) t

/-- A list of requests in grant order. -/
def grantOrder (q : List Request) : List Request :=
  q.foldr insertRequest []

/-- The shift of every queued release pulse by the change of count at a loading pulse; not below 0 (R173). The queue stays
in grant order (R169). -/
def shiftReleases (before after : Nat) (s : State) : State :=
  { s with takeQueue := grantOrder (s.takeQueue.map (fun r => { r with release := r.release + after - before })) }

end Sys2Proof.Machine
end

