-- ==== Sys2Proof/Machine/Changeover.lean ====
section
/-! DEFINITION. The Changeover Unit with its cue port logic (Chapters 8 and 9): the join computation, directives and their
tags, failures, the steps of a held channel, giveback, and COU's part of a frame event. -/

namespace Sys2Proof.Machine

/-! ### The record -/

/-- Write a channel's changeover state; a change raises CHANGEOVER (R135), and leaving MIRROR abandons the channel's walks
(R105). -/
def setChangeover (c : ChannelNo) (st : Changeover) (s : State) : State :=
  let old := (s.chan c).changeover
  let t := raiseIf (decide (old ≠ st)) c .changeover (modChan c (fun ch => { ch with changeover := st }) s)
  if old = .mirror ∧ st ≠ .mirror then abandonWalks c t else t

/-- Set or clear output-lost; setting it raises OUTPUT_LOST (R135). -/
def setOutputLost (c : ChannelNo) (b : Bool) (s : State) : State :=
  raiseIf b c .outputLost (modChan c (fun ch => { ch with outputLost := b }) s)

/-- CSV sets the hold-off mark at COU's request when the channel is TRIPPED (R125). -/
def requestHoldOff (c : ChannelNo) (s : State) : State :=
  if (s.chan c).supervision = .tripped then modChan c (fun ch => { ch with holdOff := true }) s else s

/-! ### Directives (sections 8.3 and 9.1) -/

/-- A directive computed for a frame: the entry it plays, and what the server is told. -/
structure Computed where
  entry : Option EntryKey
  body : DirectiveBody
deriving DecidableEq, Repr

/-- The secondaries a directive at X carries for an entry: offsets from X, trimmed to the effective end, those over
omitted (R143). One whose start lies past a cut effective end that is after X has no stated duration: a free value
(log 35). -/
def secondariesFor (e : Entry) (effEnd x : Nat) : List Secondary :=
  e.body.secondaries.filterMap (fun q =>
    let sStart := e.body.start + q.offset
    let sEnd := min (sStart + q.duration) effEnd
    if sEnd ≤ x then none
    else some { offset := sStart - x, key := q.key
                duration := if max sStart x ≤ sEnd then sEnd - max sStart x else Config.unstatedDuration (max sStart x - sEnd) })

/-- What qualifies to roll at X: the PLANNED entry whose effective span contains X (R142). -/
def qualifying (s : State) (c : ChannelNo) (x : Nat) : Option (Entry × Nat) :=
  (entryAt x (s.chan c).schedule).filter (fun p => decide (p.1.status = .planned))

/-- The directive to roll at X (R142). -/
def computeDirective (s : State) (c : ChannelNo) (x : Nat) : Computed :=
  match qualifying s c x with
  | none => { entry := none, body := .standby }
  | some (e, effEnd) =>
    match e.body.content with
    | .media reference som =>
      if effEnd - x < (s.chan c).inEffect.minJoin then { entry := none, body := .standby }
      else { entry := some e.key, body := .roll reference (som + (x - e.body.start)) (effEnd - x) (secondariesFor e effEnd x) }
    | .live source => { entry := some e.key, body := .live source (effEnd - x) (secondariesFor e effEnd x) }

/-- The skip request for a MEDIA entry whose remaining span at X is below the minimum join (R142). -/
def skipShort (c : ChannelNo) (x : Nat) (s : State) : State :=
  match qualifying s c x with
  | some (e, effEnd) =>
    match e.body.content with
    | .media _ _ => if effEnd - x < (s.chan c).inEffect.minJoin then skipEntry c e.key s else s
    | .live _ => s
  | none => s

/-- The place record of a directive sent to start at X (section 8.1). -/
def placeFor (d : Computed) (x : Nat) : Option Place :=
  match d.body with
  | .roll _ _ n _ => some { kind := .roll, entry := d.entry, rollFrame := x, playEnd := some (x + n), reply := .awaiting, rolled := false }
  | .live _ n _ => some { kind := .live, entry := d.entry, rollFrame := x, playEnd := some (x + n), reply := .awaiting, rolled := false }
  | .standby => some { kind := .standby, entry := none, rollFrame := x, playEnd := none, reply := .awaiting, rolled := false }
  | .stop => none

/-- The tag of the channel's next directive (R165). -/
def State.nextDirectiveTag (s : State) (c : ChannelNo) : Nat :=
  ((s.chan c).lastTag + 1) % 256

/-- Send a directive of the channel to start at a frame: it takes the next tag (R164, R165). -/
def sendDirective (c : ChannelNo) (x : Option Nat) (body : DirectiveBody) (s : State) : State :=
  let tag := s.nextDirectiveTag c
  sendCue { channel := c, tag := tag, rate := (s.chan c).settings.rate, frame := x, body := body }
    (modChan c (fun ch => { ch with lastTag := tag }) s)

/-- The cue request for the entry a directive plays. -/
def cueFor (c : ChannelNo) (d : Computed) (s : State) : State :=
  match d.entry with
  | some k => cueEntry c k s
  | none => s

/-- Send a directive into the current place (R141, R147, R165). -/
def sendCurrent (c : ChannelNo) (x : Nat) (d : Computed) (s : State) : State :=
  let t := modChan c (fun ch => { ch with current := placeFor d x, currentTag := s.nextDirectiveTag c }) s
  cueFor c d (sendDirective c (some x) d.body t)

/-- Send a directive into the next place (R152, R154, R165). -/
def sendNext (c : ChannelNo) (x : Nat) (d : Computed) (s : State) : State :=
  let t := modChan c (fun ch => { ch with next := placeFor d x, nextTag := s.nextDirectiveTag c }) s
  cueFor c d (sendDirective c (some x) d.body t)

/-- The STANDBY directive. -/
def standbyDirective : Computed :=
  { entry := none, body := .standby }

/-- The entry of a place, if it has one. -/
def entryOfPlace (p : Option Place) : Option EntryKey :=
  p.bind Place.entry

/-! ### Starting a takeover (section 8.2) -/

/-- Whether the channel is in doubt in a way that sets the doubt mark (R144). -/
def doubtAtDecision (ch : Channel) : Bool :=
  decide (ch.replState ≠ .inStep) &&
  (decide (ch.inEffect.doubt = .standby) ||
    ((decide (ch.replState = .unseeded) || decide (ch.replState = .stale)) && ch.schedule.isEmpty))

/-- Send the joining directive at R into the current place (R141, R142, R144). -/
def sendJoining (c : ChannelNo) (r : Nat) (s : State) : State :=
  if (s.chan c).doubt then sendCurrent c r standbyDirective s
  else
    let d := computeDirective s c r
    sendCurrent c r d (modChan c (fun ch => { ch with joined := d.entry }) (skipShort c r s))

/-- The fields that entering PREPARING writes: T, R, the marks, the places (R141). -/
def beginTakeover (c : ChannelNo) (r : Nat) (s : State) : State :=
  modChan c (fun ch => { ch with
    decisionFrame := ch.frame, rollFrame := some r, cueRetryUsed := false, routerRetryUsed := false,
    outputLost := false, barrier := none, current := none, next := none, joined := none,
    doubt := doubtAtDecision ch }) s

/-- Enter PREPARING with the current frame as decision frame (R141). Every transition that the plan step considers lies
after R, so it sends nothing in this act (R141) and is not called. -/
def enterPreparing (c : ChannelNo) (s : State) : State :=
  let r := s.frameNow c + (s.chan c).inEffect.cueLead
  settleFrameNow c (sendJoining c r (beginTakeover c r (setChangeover c .preparing s)))

/-- Start a takeover of a channel in MIRROR: wait for confirmation under policy CONFIRM with the host PRESENT, otherwise
enter PREPARING (R137, R132). -/
def startTakeover (c : ChannelNo) (s : State) : State :=
  if (s.chan c).inEffect.takeover = .confirm ∧ s.hostPresent then
    modChan c (fun ch => { ch with confirmTimer := 0 }) (setChangeover c .awaitConfirm s)
  else enterPreparing c s

/-- A takeover may start: PROTECTED, in MIRROR, without hold-off (R137). -/
def mayStartTakeover (ch : Channel) : Bool :=
  decide (ch.settings.mode = .protectedMode) && decide (ch.changeover = .mirror) && !ch.holdOff

/-- CSV's trip notice at COU (R137, R161). A takeover it starts leaves no further effect for COU's part of the same frame
event (R137; log 19). -/
def tripNotice (c : ChannelNo) (s : State) : State :=
  if mayStartTakeover (s.chan c) then
    startTakeover c (modChan c (fun ch => { ch with due := ch.due.filter (fun b => decide (b ≠ .cou)) }) s)
  else if (s.chan c).changeover = .returning ∧ s.hasRequest c then setChangeover c .onDr (dropRequest c s)
  else s

/-- CSV's recovery notice at COU (R138, R162). -/
def recoveryNotice (c : ChannelNo) (s : State) : State :=
  match (s.chan c).changeover with
  | .awaitConfirm => modChan c (fun ch => { ch with confirmTimer := 0 }) (setChangeover c .mirror s)
  | .stranded => setChangeover c .mirror s
  | .mirror | .preparing | .takePending | .onDr | .returning => s

/-- The act that sets host presence ABSENT moves every channel in AWAIT_CONFIRM to PREPARING (R132); their joining
directives leave by ascending channel (log 34). -/
def hostAbsentAtCou (s : State) : State :=
  forChannels (fun c t => if (t.chan c).changeover = .awaitConfirm then enterPreparing c t else t) allChannels s

/-! ### Leaving DR (sections 8.4 and 8.6) -/

/-- Every AIRING entry takes the release request and every CUED entry the uncue request (R158, R159), one after the other in the
order of the schedule (log 40). -/
def clearService (c : ChannelNo) (s : State) : State :=
  (s.chan c).schedule.foldl (fun t e =>
    if e.status = .airing then releaseEntry c e.key t else if e.status = .cued then uncueEntry c e.key t else t) s

/-- Both places are emptied and a STOP with the current frame, NONE as it may be, is sent (R158, R159, R168). -/
def stopServer (c : ChannelNo) (s : State) : State :=
  sendDirective c (s.chan c).frame .stop (modChan c (fun ch => { ch with current := none, next := none }) s)

/-- A channel becomes STRANDED (R159). -/
def strand (c : ChannelNo) (s : State) : State :=
  setChangeover c .stranded (modChan c (fun ch => { ch with doubt := false }) (clearService c (stopServer c s)))

/-- A giveback is done: STOP, no entry in service, MIRROR (R158). -/
def completeGiveback (c : ChannelNo) (s : State) : State :=
  setChangeover c .mirror
    (modChan c (fun ch => { ch with doubt := false, barrier := none, boundary := none }) (clearService c (stopServer c s)))

/-! ### Failures of directives (R147, R154) -/

/-- The entry of a place takes the uncue request. -/
def uncueFor (c : ChannelNo) (p : Option Place) (s : State) : State :=
  match entryOfPlace p with
  | some k => uncueEntry c k s
  | none => s

/-- The joining directive fails in PREPARING: STANDBY on the first failure, STRANDED on the second (R147). -/
def joiningFails (c : ChannelNo) (s : State) : State :=
  let t := uncueFor c (s.chan c).current (raise c .cueFault s)
  if (s.chan c).cueRetryUsed then strand c t
  else
    let u := modChan c (fun ch => { ch with next := none }) (uncueFor c (s.chan c).next t)
    let r := u.frameNow c + (u.chan c).inEffect.cueLead
    settleFrameNow c (sendCurrent c r standbyDirective
      (modChan c (fun ch => { ch with cueRetryUsed := true, rollFrame := some r, joined := none }) u))

/-- A directive in the next place of a held channel fails (R154). -/
def nextFails (c : ChannelNo) (p : Place) (s : State) : State :=
  let t := raise c .cueFault s
  match p.kind with
  | .standby => setOutputLost c true (modChan c (fun ch => { ch with next := some { p with reply := .failed } }) t)
  | .roll | .live =>
    let u := match p.entry with
      | some k => releaseEntry c k t
      | none => t
    let f := u.frameNow c
    settleFrameNow c (sendNext c (if f < p.rollFrame then p.rollFrame else f + (u.chan c).inEffect.cueLead) standbyDirective u)

/-! ### The steps of a held channel (section 8.5) -/

/-- At a frame event of a held channel that is IN_STEP the doubt mark is cleared (R144). -/
def clearDoubt (c : ChannelNo) (s : State) : State :=
  if (s.chan c).replState = .inStep then modChan c (fun ch => { ch with doubt := false }) s else s

/-- A directive still AWAITING at the frame event of its roll frame has missed its deadline (R167). -/
def Place.missed (p : Place) (f : Nat) : Bool :=
  decide (p.reply = .awaiting) && decide (p.rollFrame = f)

/-- The deadline of the joining directive, in PREPARING (R167, R147). -/
def currentDeadline (c : ChannelNo) (f : Nat) (s : State) : State :=
  match (s.chan c).current with
  | some p => if p.missed f ∧ (s.chan c).changeover = .preparing then joiningFails c s else s
  | none => s

/-- The deadline of the directive in the next place (R167, R154). -/
def nextDeadline (c : ChannelNo) (f : Nat) (s : State) : State :=
  match (s.chan c).next with
  | some p => if p.missed f then nextFails c p s else s
  | none => s

/-- The directive in the current place rolls (R150). -/
def rollCurrent (c : ChannelNo) (f : Nat) (s : State) : State :=
  match (s.chan c).current with
  | none => s
  | some p =>
    if p.rollFrame = f ∧ p.reply = .ready ∧ p.rolled = false then
      let t := setOutputLost c false (modChan c (fun ch => { ch with current := some { p with rolled := true } }) s)
      match p.entry with
      | some k => airEntry c k t
      | none => t
    else s

/-- The directive in the next place rolls and takes the current place; a failed STANDBY rolls as failed (R150). -/
def rollNext (c : ChannelNo) (f : Nat) (s : State) : State :=
  match (s.chan c).next with
  | none => s
  | some p =>
    if p.rollFrame = f ∧ (p.reply = .ready ∨ (p.reply = .failed ∧ p.kind = .standby)) then
      let t := match entryOfPlace (s.chan c).current with
        | some k => finishEntry c k s
        | none => s
      let u := modChan c (fun ch => { ch with current := some { p with rolled := true }, currentTag := ch.nextTag, next := none }) t
      if p.reply = .ready then
        let v := setOutputLost c false u
        match p.entry with
        | some k => airEntry c k v
        | none => v
      else u
    else s

/-- The roll step (R150); in PREPARING no directive rolls. -/
def rollStep (c : ChannelNo) (f : Nat) (s : State) : State :=
  if (s.chan c).changeover = .preparing then s else rollNext c f (rollCurrent c f s)

/-- The current item's end: the lesser of the directive's play end and the entry's effective end as it now stands, for a
ROLL or LIVE (R151); the play end alone where the entry is no longer listed (log 36). -/
def currentItemEnd (ch : Channel) : Option Nat :=
  match ch.current with
  | none => none
  | some p =>
    match p.playEnd with
    | none => none
    | some e =>
      match p.entry.bind (fun k => endOf k ch.schedule) with
      | some e' => some (min e e')
      | none => some e

/-- The finish step (R151). -/
def finishStep (c : ChannelNo) (f : Nat) (s : State) : State :=
  match (s.chan c).current, currentItemEnd (s.chan c) with
  | some p, some e =>
    if p.rolled ∧ e ≤ f then
      match p.entry with
      | some k => finishEntry c k s
      | none => s
    else s
  | _, _ => s

/-- The start of the first entry in schedule order that starts after a frame, is PLANNED and is not shadowed (R152). -/
def nextStart (after : Nat) (es : List Entry) : Option Nat :=
  ((spans es).find? (fun p => decide (after < p.1.body.start) && decide (p.1.status = .planned) && decide (p.1.body.start < p.2))).map
    (fun p => p.1.body.start)

/-- The lesser of two frames of which either may be missing. -/
def earlier : Option Nat → Option Nat → Option Nat
  | some a, some b => some (min a b)
  | some a, none => some a
  | none, b => b

/-- The channel's next transition at frame f (R152). -/
def transition (ch : Channel) (f : Nat) : Option Nat :=
  let after := match ch.current with
    | some p => max f p.rollFrame
    | none => f
  earlier (currentItemEnd ch) (nextStart after ch.schedule)

/-- The roll frame the plan step chooses for a transition (R152). -/
def plannedRoll (ch : Channel) (f x : Nat) : Nat :=
  if f < x then x else f + ch.inEffect.cueLead

/-- The plan step (R152). -/
def planStep (c : ChannelNo) (f : Nat) (s : State) : State :=
  let ch := s.chan c
  if ch.next.isSome ∨ ch.doubt then s
  else
    match transition ch f with
    | none => s
    | some x =>
      if f + ch.inEffect.cueLead < x then s
      else
        let y := plannedRoll ch f x
        sendNext c y (computeDirective s c y) (skipShort c y s)

/-! ### Giving back (section 8.6) -/

/-- The boundary of a giveback (R155): the roll frame of the next directive, or the one the plan step would choose at frame f,
or the current frame, NONE as it may be. While the doubt mark is set the plan step plans none (R144; log 20). -/
def boundaryOf (ch : Channel) (f : Nat) : Option Nat :=
  match ch.next with
  | some p => some p.rollFrame
  | none => if ch.doubt then ch.frame else ((transition ch f).map (plannedRoll ch f)).or ch.frame

/-- The release pulse of a giveback at a boundary, f standing for a boundary of NONE (R146, R155; log 6). -/
def boundaryRelease (s : State) (c : ChannelNo) (f : Nat) (b : Option Nat) : Nat :=
  releasePulse s c f (b.getD f)

/-- Enter RETURNING with a boundary and place the giveback request released at a pulse (R155, R156, R157). -/
def startGiveback (c : ChannelNo) (b : Option Nat) (release : Nat) (s : State) : State :=
  requestGiveback c release (modChan c (fun ch => { ch with boundary := b }) (setChangeover c .returning s))

/-- The automatic giveback considered at a frame event in ON_DR (R155). -/
def automaticGiveback (c : ChannelNo) (f : Nat) (s : State) : State :=
  let ch := s.chan c
  let b := boundaryOf ch f
  if ch.changeover = .onDr ∧ ch.supervision = .healthy ∧ ch.inEffect.giveback = .auto ∧ ch.latched = false ∧
     (∀ x ∈ ch.barrier, x < b.getD f) then
    startGiveback c b (boundaryRelease s c f b) s
  else s

/-! ### The frame event at COU -/

/-- The four steps of a held channel after its deadlines, and the automatic giveback (R150 to R155). -/
def heldSteps (c : ChannelNo) (f : Nat) (s : State) : State :=
  automaticGiveback c f (planStep c f (passEntries c f (finishStep c f (rollStep c f (nextDeadline c f s)))))

/-- COU's part of a frame event (R137, R138, R150 to R155, R159). The deadline of the current place is judged before that of the
next place (R167; log 41). -/
def couFrame (c : ChannelNo) (s : State) : State :=
  match (s.chan c).frame with
  | none => s
  | some f =>
    match (s.chan c).changeover with
    | .mirror => if mayStartTakeover (s.chan c) ∧ (s.chan c).supervision = .tripped then startTakeover c s else s
    | .awaitConfirm =>
      let t := modChan c (fun ch => { ch with confirmTimer := ch.confirmTimer + 1 }) (passEntries c f s)
      if (t.chan c).inEffect.confirm ≤ (t.chan c).confirmTimer then enterPreparing c t else t
    | .stranded => passEntries c f s
    | .preparing | .takePending | .onDr | .returning =>
      let t := currentDeadline c f (clearDoubt c s)
      if (t.chan c).changeover = .stranded then passEntries c f t else heldSteps c f t

/-! ### Outcomes of directives and takes -/

/-- READY for the directive in the current place: in PREPARING the channel enters TAKE_PENDING and its take is requested
(R145). -/
def currentReady (c : ChannelNo) (p : Place) (s : State) : State :=
  let t := modChan c (fun ch => { ch with current := some { p with reply := .ready } }) s
  if (s.chan c).changeover = .preparing then
    settleFrameNow c (requestTakeover c (releasePulse t c (t.frameNow c) p.rollFrame) (setChangeover c .takePending t))
  else t

/-- A cue reply of a channel with a tag, READY or FAIL: it matches the place that holds a directive of that tag still
AWAITING, and is ignored otherwise (R166). -/
def cueReply (ready : Bool) (c : ChannelNo) (tag : Nat) (s : State) : State :=
  let ch := s.chan c
  match ch.current.filter (fun p => decide (p.reply = .awaiting) && decide (ch.currentTag = tag)) with
  | some p => if ready then currentReady c p s else if ch.changeover = .preparing then joiningFails c s else s
  | none =>
    match ch.next.filter (fun p => decide (p.reply = .awaiting) && decide (ch.nextTag = tag)) with
    | some p => if ready then modChan c (fun x => { x with next := some { p with reply := .ready } }) s else nextFails c p s
    | none => s

/-- The take latency of a takeover executed at a frame (R148); a free value where the spec states no difference
(log 6). -/
def latencyAt (s : State) (c : ChannelNo) (f : Nat) : Nat :=
  match (s.chan c).frame, (s.chan c).decisionFrame with
  | some _, some t => if t ≤ f then f - t else Config.unstatedLatency s.draws
  | _, _ => Config.unstatedLatency s.draws

/-- DONE for a take (R148, R158). -/
def takeDone (c : ChannelNo) (d : Direction) (s : State) : State :=
  match d, (s.chan c).changeover with
  | .dr, .takePending =>
    setChangeover c .onDr (bumpDraws (modChan c (fun ch => { ch with takeLatency := some (latencyAt s c (s.frameNow c)) }) s))
  | .main, .returning => completeGiveback c s
  | _, _ => s

/-- FAIL or router timeout for a take (R149, R160). -/
def takeFailed (c : ChannelNo) (d : Direction) (s : State) : State :=
  match d, (s.chan c).changeover with
  | .dr, .takePending =>
    if (s.chan c).routerRetryUsed then strand c s
    else requestTakeover c (releaseNow s) (modChan c (fun ch => { ch with routerRetryUsed := true }) s)
  | .main, .returning => setChangeover c .onDr (modChan c (fun ch => { ch with barrier := ch.boundary }) s)
  | _, _ => s

/-- The outstanding take of a channel ends, if there is one. -/
def endTake (c : ChannelNo) (s : State) : State :=
  modChan c (fun ch => { ch with outstanding := none }) s

/-- A router reply of a channel with a tag: it matches the outstanding take of that tag, and is ignored otherwise
(R175). -/
def routerReply (done : Bool) (c : ChannelNo) (tag : Nat) (s : State) : State :=
  match (s.chan c).outstanding.filter (fun o => decide (o.tag = tag)) with
  | none => s
  | some o => if done then takeDone c o.direction (endTake c s) else takeFailed c o.direction (raise c .routerFault (endTake c s))

/-- RTA's part of a tick for a channel's outstanding take: its timer counts, and at the router timeout the take ends with
ROUTER_FAULT (R176). -/
def takeTick (c : ChannelNo) (s : State) : State :=
  match (s.chan c).outstanding with
  | none => s
  | some o =>
    if s.device.routerTimeout ≤ o.timer + 1 then takeFailed c o.direction (raise c .routerFault (endTake c s))
    else modChan c (fun ch => { ch with outstanding := some { o with timer := o.timer + 1 } }) s

end Sys2Proof.Machine
end

