-- ==== Sys2Proof/Machine/Port.lean ====
section
/-! DEFINITION. The Control Port (Chapter 10): the response slot, transactions, host presence at the port, and the frame all
commands are taken in. -/

namespace Sys2Proof.Machine

/-- What a command answers: the state it leaves, and its response's status, clamped indicator and body. -/
structure Answer where
  state : State
  status : Status
  clamped : Bool
  body : List Field
deriving DecidableEq, Repr

/-- A refused command: none of its own effects, an empty body, the clamped indicator clear (R183). -/
def refuse (st : Status) (s : State) : Answer :=
  { state := s, status := st, clamped := false, body := [] }

/-- An accepted command that clamped nothing. -/
def accept (body : List Field) (s : State) : Answer :=
  { state := s, status := .ok, clamped := false, body := body }

/-- An accepted command that clamped a value if `clamped` holds. -/
def acceptWith (clamped : Bool) (body : List Field) (s : State) : Answer :=
  { state := s, status := .ok, clamped := clamped, body := body }

/-- A valid command frame restarts the host-presence timer and brings an absent host back (R131, R194). -/
def hostSpeaks (s : State) : State :=
  let t := { s with hostTimer := 0, hostPresent := true }
  if s.hostPresent then t else raiseEvent .hostAbsentChange t

/-- The port byte is shifted out (R179, R180). -/
def shiftPortByte (early : Bool) (s : State) : State :=
  { s with portOut := [s.portByte early] }

/-- A transaction ends: ALERT stands as it leaves it (R180; log 15). -/
def endTransaction (s : State) : State :=
  { s with alertBefore := s.alert }

/-- A whole command frame (R181, R183, R194): it acts on host presence; it is BUSY while a response waits; otherwise the
command is taken and its response written into the slot. Presence comes first (R131), so the timer READ EVENTS reports is
the one its own frame restarted (log 37). -/
def portCommand (write : Write) (run : State → Answer) (s : State) : State :=
  let t := hostSpeaks (shiftPortByte write.early s)
  endTransaction (
    if s.slot.isSome then t
    else
      let a := run t
      { a.state with slot := some { tag := write.tag, status := a.status, clamped := a.clamped, body := a.body } })

/-- The length check that comes before a command's own checks (R183). -/
def withLength (n : Nat) (body : List Byte) (run : State → Answer) (s : State) : Answer :=
  if body.length = n then run s else refuse .badField s

/-- The channel number in the first byte of a body, refused with BAD_CHANNEL outside 0 to 63. -/
def withChannel (body : List Byte) (run : ChannelNo → State → Answer) (s : State) : Answer :=
  match channelOf (numAt body 0 1) with
  | none => refuse .badChannel s
  | some c => run c s

/-- A command whose body is one channel number (R186, section 11.6). -/
def channelCommand (body : List Byte) (run : ChannelNo → State → Answer) (s : State) : Answer :=
  withLength 1 body (withChannel body run) s

/-- The bytes after the transaction byte form a whole frame: three header fields and as many body bytes as they say
(R194). -/
def wholeFrame : List Byte → Bool
  | _ :: _ :: len :: body => decide (body.length = len.toNat)
  | _ => false

/-- The bytes clocked out after the port byte of a READ of this many bytes (R182). -/
def clockedOut (r : Response) (n : Nat) : List Byte :=
  (r.encode ++ List.replicate n 0).take n

/-! ### The commands of the port itself -/

/-- RESPONSE_READ (R182). -/
def execResponseRead (clocking : Clocking) (s : State) : Host.Outcome State Fault Refusal :=
  .next (endTransaction (match s.slot with
    | none => { s with portOut := s.portByte clocking.early :: List.replicate clocking.count 0 }
    | some r =>
      { s with
        portOut := s.portByte clocking.early :: clockedOut r clocking.count
        slot := if r.encode.length ≤ clocking.count then none else some r }))

/-- INVALID_TRANSACTION (R179); a first byte that names WRITE or READ is no command of this row (log 23). -/
def execInvalidTransaction (first : Byte) (clocking : Clocking) (s : State) : Host.Outcome State Fault Refusal :=
  .next (
    if first = 1 ∨ first = 2 then s
    else endTransaction { s with portOut := s.portByte clocking.early :: List.replicate clocking.count 0 })

/-- INCOMPLETE_COMMAND_FRAME (R181, R194): host presence is not touched; a whole frame is no command of this row
(log 23). -/
def execIncompleteCommandFrame (frame : PartFrame) (s : State) : Host.Outcome State Fault Refusal :=
  .next (
    if wholeFrame frame.bytes then s
    else
      let t := shiftPortByte frame.early s
      endTransaction (match s.slot, frame.bytes with
        | none, _ :: tag :: _ :: _ => { t with slot := some { tag := tag, status := .badField, clamped := false, body := [] } }
        | _, _ => t))

/-- UNKNOWN_COMMAND (R183); a code of the command set is no command of this row (log 23). -/
def execUnknownCommand (code : Byte) (write : Write) (_body : List Byte) (s : State) : Host.Outcome State Fault Refusal :=
  .next (if code.toNat ∈ commandCodes then s else portCommand write (refuse .badField) s)

/-- NO_OP (R190): any body of 0 to 255 bytes is answered byte for byte. -/
def execNoOp (write : Write) (body : List Byte) (s : State) : Host.Outcome State Fault Refusal :=
  .next (portCommand write (fun t => if body.length ≤ 255 then accept [.bytes body] t else refuse .badField t) s)

/-- The membership marks of the attention set, one for each channel 0 to 63 (R192). -/
def attentionMarks (s : State) : List Field :=
  allChannels.map (fun c => .flag (decide (c ∈ s.attention)))

/-- The body of a READ EVENTS response (R192), of the state as its frame's arrival left it (log 37). -/
def eventFields (s : State) : List Field :=
  [.flag s.events.linkMalformed, .flag s.events.linkDownChange, .flag s.events.refLoss, .flag s.events.refRelock,
   .flag s.events.refPhase, .flag s.events.poolLow, .flag s.events.hostAbsentChange] ++ attentionMarks s ++
  [.u8 (if s.linkUp then 1 else 0), .u8 (if s.hostPresent then 0 else 1), .u32 s.hostTimer, .u16 s.freeCount,
   .u8 (if s.aging = .fast then 1 else 0)]

/-- READ_EVENTS (R192). -/
def execReadEvents (write : Write) (body : List Byte) (s : State) : Host.Outcome State Fault Refusal :=
  .next (portCommand write
    (withLength 0 body (fun t => accept (eventFields t) { t with events := .clear, attention := [] })) s)

/-- DEVICE_RESET (R1 and the reset rules of every chapter): every record takes its reset value. The commands that wait stay
where they are, outside the block. -/
def execDeviceReset (s : State) : Host.Outcome State Fault Refusal :=
  .next { State.reset with pending := s.pending }

end Sys2Proof.Machine
end

