-- ==== Sys2Proof/Machine/ChangeoverCommands.lean ====
section
/-! DEFINITION. The changeover commands (R186) and RELEASE LATCH. -/

namespace Sys2Proof.Machine

/-- The in-point of the directive sent last, when it is a ROLL (R139). -/
def lastInPoint (s : State) : List Field :=
  match s.cueOut.getLast? with
  | some d =>
    match d.body with
    | .roll _ inPoint _ _ => [.u32 inPoint]
    | .live _ _ _ | .standby | .stop => []
  | none => []

/-- What a TAKE that enters PREPARING answers (R139): the outcome, the decision and roll frames, the joining directive. -/
def startedFields (s : State) (c : ChannelNo) : List Field :=
  let ch := s.chan c
  [.u8 CommandOutcome.started.code, .frame ch.decisionFrame, .frame ch.rollFrame,
   .u8 ((ch.current.map (fun p => p.kind.code)).getD 0)] ++
  (match ch.joined with
   | some k => [.u8 k.origin.code, .u32 k.id]
   | none => []) ++ lastInPoint s

/-- TAKE's answer (R139). -/
def takeAnswer (c : ChannelNo) (s : State) : Answer :=
  if (s.chan c).settings.mode ≠ .protectedMode then refuse .state s
  else match (s.chan c).changeover with
    | .mirror | .awaitConfirm | .stranded =>
      let t := enterPreparing c s
      accept (startedFields t c) t
    | .preparing | .takePending => accept [.u8 CommandOutcome.already.code] s
    | .onDr | .returning => refuse .state s

/-- DECLINE's answer (R140). -/
def declineAnswer (c : ChannelNo) (s : State) : Answer :=
  if (s.chan c).changeover = .awaitConfirm then
    accept [] (requestHoldOff c (modChan c (fun ch => { ch with confirmTimer := 0 }) (setChangeover c .mirror s)))
  else refuse .state s

/-- GIVEBACK's answer (R156). The boundary is recorded and answered as it is, NONE where it is a current frame of NONE. -/
def givebackAnswer (c : ChannelNo) (s : State) : Answer :=
  if (s.chan c).changeover = .onDr then
    let f := s.frameNow c
    let b := boundaryOf (s.chan c) f
    accept (positionOrNone (s.chan c).settings.rate b) (settleFrameNow c (startGiveback c b (boundaryRelease s c f b) s))
  else refuse .state s

/-- RETURN NOW's answer (R157): the boundary is the current frame, NONE as it may be. -/
def returnNowAnswer (c : ChannelNo) (s : State) : Answer :=
  match (s.chan c).changeover with
  | .onDr => accept [] (startGiveback c (s.chan c).frame (releaseNow s) s)
  | .returning =>
    accept [] (if s.hasRequest c then
        requestGiveback c (releaseNow s) (modChan c (fun ch => { ch with boundary := ch.frame }) s)
      else s)
  | .mirror | .awaitConfirm | .preparing | .takePending | .stranded => refuse .state s

/-- ABANDON's answer (R162). -/
def abandonAnswer (c : ChannelNo) (s : State) : Answer :=
  if (s.chan c).changeover = .stranded then accept [] (requestHoldOff c (setChangeover c .mirror s)) else refuse .state s

/-- RELEASE LATCH's answer: the flap counter and latched mark as they stood before (R128). -/
def releaseLatchAnswer (c : ChannelNo) (s : State) : Answer :=
  accept [.u8 (s.chan c).flapCounter, .flag (s.chan c).latched]
    (raiseIf (s.chan c).latched c .latch
      (modChan c (fun ch => { ch with latched := false, flapCounter := 0, flapTimer := 0 }) s))

/-! ### The commands -/

/-- TAKE. -/
def execTake (write : Write) (body : List Byte) (s : State) : Host.Outcome State Fault Refusal :=
  .next (portCommand write (channelCommand body takeAnswer) s)

/-- DECLINE. -/
def execDecline (write : Write) (body : List Byte) (s : State) : Host.Outcome State Fault Refusal :=
  .next (portCommand write (channelCommand body declineAnswer) s)

/-- GIVEBACK. -/
def execGiveback (write : Write) (body : List Byte) (s : State) : Host.Outcome State Fault Refusal :=
  .next (portCommand write (channelCommand body givebackAnswer) s)

/-- RETURN_NOW. -/
def execReturnNow (write : Write) (body : List Byte) (s : State) : Host.Outcome State Fault Refusal :=
  .next (portCommand write (channelCommand body returnNowAnswer) s)

/-- ABANDON. -/
def execAbandon (write : Write) (body : List Byte) (s : State) : Host.Outcome State Fault Refusal :=
  .next (portCommand write (channelCommand body abandonAnswer) s)

/-- RELEASE_LATCH. -/
def execReleaseLatch (write : Write) (body : List Byte) (s : State) : Host.Outcome State Fault Refusal :=
  .next (portCommand write (channelCommand body releaseLatchAnswer) s)

end Sys2Proof.Machine
end

