-- ==== Sys2Proof/Machine/ChannelCommands.lean ====
section
/-! DEFINITION. The channel commands (R185): configuration, the whole record, clearing, resynchronising. -/

namespace Sys2Proof.Machine

/-! ### CONFIGURE CHANNEL (sections 3.1 to 3.3) -/

/-- A number brought into a range, the nearer end where it lies outside (R52). -/
def clampTo (lo hi n : Nat) : Nat :=
  min hi (max lo n)

/-- The values of a CONFIGURE CHANNEL body as given (section 11.6); none where an enumerated field is outside its values
(R51). Numeric fields are as given; converted values are filled in by `Settings.convert`. -/
def settingsOf (b : List Byte) : Option Settings :=
  match modeOfCode (numAt b 1 1), rateOfCode (numAt b 2 1), takeoverOfCode (numAt b 3 1), givebackOfCode (numAt b 4 1),
        doubtOfCode (numAt b 5 1), sourcesOfCode (numAt b 7 1), voteOfCode (numAt b 8 1) with
  | some mode, some rate, some takeover, some giveback, some doubt, some sources, some vote =>
    some { mode := mode, rate := rate, takeover := takeover, giveback := giveback, doubt := doubt,
           defaultPriority := numAt b 6 1, sources := sources, vote := vote,
           hbLimitMs := numAt b 9 4, hbLimit := 0, tripDelayMs := numAt b 13 4, tripDelay := 0,
           recoveryMs := numAt b 17 4, recovery := 0, confirmMs := numAt b 21 4, confirm := 0,
           cueLead := numAt b 25 2, minJoin := numAt b 27 2, flapLimit := numAt b 29 1,
           flapDecrementS := numAt b 30 2, flapDecrement := 0, editBudget := numAt b 32 1 }
  | _, _, _, _, _, _, _ => none

/-- Every numeric field brought into its range (R52, table of section 3.1). -/
def Settings.clamped (g : Settings) : Settings :=
  { g with
    defaultPriority := clampTo 0 3 g.defaultPriority
    hbLimitMs := clampTo 40 60000 g.hbLimitMs
    tripDelayMs := clampTo 0 60000 g.tripDelayMs
    recoveryMs := clampTo 0 600000 g.recoveryMs
    confirmMs := clampTo 0 60000 g.confirmMs
    cueLead := clampTo 1 250 g.cueLead
    minJoin := clampTo 0 1000 g.minJoin
    flapLimit := clampTo 0 15 g.flapLimit
    flapDecrementS := clampTo 1 3600 g.flapDecrementS
    editBudget := clampTo 0 255 g.editBudget }

/-- The converted settings in frames of the rate code stored (R16, R52, R56). -/
def Settings.convert (g : Settings) : Settings :=
  { g with
    hbLimit := msToFrames g.rate g.hbLimitMs
    tripDelay := msToFrames g.rate g.tripDelayMs
    recovery := msToFrames g.rate g.recoveryMs
    confirm := msToFrames g.rate g.confirmMs
    flapDecrement := secondsToFrames g.rate g.flapDecrementS }

/-- The third check of CONFIGURE CHANNEL: the change of mode or rate against the channel's state (R51). -/
def modeOrRateRefused (s : State) (c : ChannelNo) (g : Settings) : Bool :=
  let ch := s.chan c
  (decide (g.rate ≠ ch.settings.rate) && !(decide (ch.settings.mode = .off) && decide (g.mode = .off))) ||
  (decide (ch.settings.mode = .protectedMode) && decide (g.mode ≠ .protectedMode) && decide (ch.changeover ≠ .mirror)) ||
  (decide (g.mode = .protectedMode) && decide ((s.family g.rate.family).state = .unset))

/-- The fields are written in the accepting act; a flap limit lowered below the counter lowers the counter (R53). -/
def writeSettings (c : ChannelNo) (g : Settings) (s : State) : State :=
  modChan c (fun ch => { ch with settings := g, flapCounter := min ch.flapCounter g.flapLimit }) s

/-- A change of rate code (R47, R56). The channel's current frame is NONE when its new family is UNSET, and otherwise the
number its latest frame event carried (R9), also after a stay in an UNSET family (log 32). -/
def changeRate (c : ChannelNo) (s : State) : State :=
  let r := (s.chan c).settings.rate
  let unset := decide ((s.family r.family).state = .unset)
  modChan c (fun ch => { ch with
      retention := secondsToFrames r s.device.retentionS
      frame := if unset then none else ch.eventFrame
      tripTimer := 0, recoveryTimer := 0, flapTimer := 0, hbSilence := 0
      decisionFrame := none, rollFrame := none, takeLatency := none
      windowRestart := true, lastAgreed := none })
    (keepOnly c (fun _ => false) s)

/-- A move into OFF (R54, R99). -/
def moveIntoOff (c : ChannelNo) (s : State) : State :=
  let t := abandonAssemblyOf c (abandonWalks c (dequeue c s))
  serve (if (t.chan c).replState = .resyncing then setReplication c .outOfStep (t.chan c).cause (t.chan c).attempts t else t)

/-- A move out of OFF (R55). -/
def moveOutOfOff (c : ChannelNo) (s : State) : State :=
  match (s.chan c).replState with
  | .unseeded => enqueue c s
  | .inStep => fallOut c .gap s
  | .outOfStep => if (s.chan c).cause = .flush then s else enqueue c s
  | .stale | .resyncing => s

/-- The consequences of a change of mode, given the mode stored before (R54, R55). -/
def changeMode (c : ChannelNo) (before : ServiceMode) (s : State) : State :=
  let after := (s.chan c).settings.mode
  if before ≠ .off ∧ after = .off then moveIntoOff c s
  else if before = .off ∧ after ≠ .off then moveOutOfOff c s
  else s

/-- An accepted CONFIGURE CHANNEL (R51 to R56). -/
def configure (c : ChannelNo) (g : Settings) (s : State) : State :=
  let before := (s.chan c).settings
  let t := writeSettings c g s
  changeMode c before.mode (if g.rate = before.rate then t else changeRate c t)

/-- The configuration as stored, each converted setting both ways, in the order of the table of section 3.1 (R51, R60). -/
def settingsFields (g : Settings) : List Field :=
  [.u8 g.mode.code, .u8 g.rate.code, .u8 g.takeover.code, .u8 g.giveback.code, .u8 g.doubt.code, .u8 g.defaultPriority,
   .u8 g.sources.code, .u8 g.vote.code, .u32 g.hbLimitMs, .u32 g.hbLimit, .u32 g.tripDelayMs, .u32 g.tripDelay,
   .u32 g.recoveryMs, .u32 g.recovery, .u32 g.confirmMs, .u32 g.confirm, .u16 g.cueLead, .u16 g.minJoin, .u8 g.flapLimit,
   .u16 g.flapDecrementS, .u32 g.flapDecrement, .u8 g.editBudget]

/-- CONFIGURE CHANNEL's answer (R51). -/
def configureAnswer (body : List Byte) (c : ChannelNo) (s : State) : Answer :=
  match settingsOf body with
  | none => refuse .badField s
  | some given =>
    if modeOrRateRefused s c given then refuse .state s
    else
      let g := given.clamped.convert
      acceptWith (decide (given.clamped ≠ given)) (settingsFields g) (configure c g s)

/-! ### READ CHANNEL (R60, R163, R177) -/

/-- A frame given with its day and label, or NONE alone (R58; log 16). -/
def framePosition (r : RateCode) (f : Option Nat) : List Field :=
  positionOrNone r f

/-- The change flags, in the order of the table of section 3.5. -/
def changeFlagFields (fs : ChangeFlags) : List Field :=
  [.flag fs.replication, .flag fs.divergence, .flag fs.clamped, .flag fs.supervision, .flag fs.latch, .flag fs.changeover,
   .flag fs.cueFault, .flag fs.routerFault, .flag fs.outputLost]

/-- The runtime fields, in the order of the table of section 3.4. -/
def runtimeFields (ch : Channel) : List Field :=
  [.u8 ch.replState.code, .u8 ch.cause.code, .sequence ch.lastApplied, .u8 ch.attempts, .flag ch.inServiceRefused,
   .flag ch.pinnedHeld, .frame ch.lastAgreed, .u32 ch.hbSilence, .u8 ch.supervision.code, .flag ch.holdOff, .u32 ch.tripTimer,
   .u32 ch.recoveryTimer, .u8 ch.flapCounter, .u32 ch.flapTimer, .flag ch.latched, .u8 ch.changeover.code,
   .u32 ch.confirmTimer] ++
  framePosition ch.settings.rate ch.decisionFrame ++ framePosition ch.settings.rate ch.rollFrame ++
  [.u8 ch.currentTag, .u8 ch.nextTag, .flag ch.cueRetryUsed, .flag ch.routerRetryUsed, .flag ch.outputLost,
   .latency ch.takeLatency]

/-- An outstanding place: its kind, and what it holds when it is not empty (R163). An empty place is the one byte of its
kind, and a place with no entry sends no origin and no ID (log 16). -/
def placeFields (p : Option Place) : List Field :=
  match p with
  | none => [.u8 0]
  | some p =>
    [.u8 p.kind.code] ++
    (match p.entry with
     | some k => [.u8 k.origin.code, .u32 k.id]
     | none => []) ++
    [.frame (some p.rollFrame), .frame p.playEnd, .u8 p.reply.code, .flag p.rolled]

/-- The router position of a channel (R177). -/
def routerFields (s : State) (c : ChannelNo) : List Field :=
  match s.takeQueue.find? (fun r => decide (r.channel = c)), (s.chan c).outstanding with
  | some r, _ => [.u8 1, .u8 r.direction.code, .frame (some r.release), .u8 r.priority]
  | none, some o =>
    [.u8 2, .u8 o.tag, .u8 o.direction.code, .frame (some o.grantPulse), .frame (some o.executionPulse), .u32 o.timer]
  | none, none => [.u8 0]

/-- The body of a READ CHANNEL response (R60, R163, R177). -/
def channelFields (s : State) (c : ChannelNo) : List Field :=
  let ch := s.chan c
  settingsFields ch.settings ++ [.u32 ch.retention] ++ runtimeFields ch ++ [.u16 ch.schedule.length] ++
  changeFlagFields ch.flags ++ placeFields ch.current ++ placeFields ch.next ++
  [.flag ch.doubt, .frame ch.barrier, .frame ch.boundary] ++ routerFields s c ++ [.u8 ch.lastTag]

/-- The change flags become empty and the channel leaves the attention set (R60, R61). -/
def clearFlags (c : ChannelNo) (s : State) : State :=
  unattend c (modChan c (fun ch => { ch with flags := .clear }) s)

/-- READ CHANNEL's answer (R60). -/
def readChannelAnswer (c : ChannelNo) (s : State) : Answer :=
  accept (channelFields s c) (clearFlags c s)

/-! ### CLEAR CHANNEL (R61) -/

/-- A channel with every runtime field at its CLEAR CHANNEL value: those of device reset, but for the configuration, the
retention, the settings in effect (R116), the current frame, the parts of its frame event still due, a window restart still
due (R56), and the take tag (R178). -/
def Channel.cleared (ch : Channel) : Channel :=
  { Channel.reset with
    settings := ch.settings, retention := ch.retention, inEffect := ch.inEffect, frame := ch.frame
    eventFrame := ch.eventFrame, due := ch.due, windowRestart := ch.windowRestart, takeTag := ch.takeTag }

/-- The effect of an accepted CLEAR CHANNEL (R61, R99, R108, R171). -/
def clearChannel (c : ChannelNo) (s : State) : State :=
  let t := dropRequest c (abandonAssemblyOf c (dequeue c (abandonWalks c (keepOnly c (fun _ => false) s))))
  let u := unattend c (modChan c Channel.cleared t)
  if (u.chan c).settings.mode = .off then serve u else enqueue c (raise c .replication u)

/-- CLEAR CHANNEL's answer (R61). -/
def clearAnswer (c : ChannelNo) (s : State) : Answer :=
  if (s.chan c).changeover ≠ .mirror then refuse .state s
  else accept [.u16 (s.chan c).schedule.length] (clearChannel c s)

/-! ### RESYNC (R100) -/

/-- RESYNC's answer (R100). -/
def resyncAnswer (c : ChannelNo) (s : State) : Answer :=
  let ch := s.chan c
  if ch.settings.mode = .off then refuse .state s
  else match ch.replState with
    | .inStep => refuse .state s
    | .resyncing => accept [.u8 CommandOutcome.inProgress.code] s
    | .unseeded | .outOfStep =>
      if c ∈ s.resyncQueue then
        accept [.u8 CommandOutcome.alreadyQueued.code] (setReplication c ch.replState ch.cause 0 s)
      else accept [.u8 CommandOutcome.queued.code] (enqueue c (setReplication c ch.replState ch.cause 0 s))
    | .stale => accept [.u8 CommandOutcome.queued.code] (enqueue c (setReplication c .outOfStep ch.cause 0 s))

/-! ### The commands -/

/-- CONFIGURE_CHANNEL. -/
def execConfigureChannel (write : Write) (body : List Byte) (s : State) : Host.Outcome State Fault Refusal :=
  .next (portCommand write (withLength 33 body (withChannel body (configureAnswer body))) s)

/-- READ_CHANNEL. -/
def execReadChannel (write : Write) (body : List Byte) (s : State) : Host.Outcome State Fault Refusal :=
  .next (portCommand write (channelCommand body readChannelAnswer) s)

/-- CLEAR_CHANNEL. -/
def execClearChannel (write : Write) (body : List Byte) (s : State) : Host.Outcome State Fault Refusal :=
  .next (portCommand write (channelCommand body clearAnswer) s)

/-- RESYNC. -/
def execResync (write : Write) (body : List Byte) (s : State) : Host.Outcome State Fault Refusal :=
  .next (portCommand write (channelCommand body resyncAnswer) s)

end Sys2Proof.Machine
end

