-- ==== Sys2Proof/Machine/Supervision.lean ====
section
/-! DEFINITION. The Channel Supervisor (Chapter 7): sources and the vote, reports, the supervision states, the flap counter
and the latch, and CSV's part of a frame event. -/

namespace Sys2Proof.Machine

/-! ### Sources and the vote (section 7.2) -/

/-- The fault condition SNS computes for a channel: its line of this function shows another level than expected (R114). -/
def senseCondition (s : State) (f : SenseFunction) (c : ChannelNo) : Bool :=
  allLines.any (fun l =>
    decide ((s.line l).function = f) && decide ((s.line l).mapped = some c) && decide ((s.line l).level ≠ (s.line l).expected))

/-- The condition of a source (R118). -/
def sourceCondition (s : State) (c : ChannelNo) : Source → Bool
  | .hb => decide ((s.chan c).listing = .fail) || decide ((s.chan c).inEffect.hbLimit ≤ (s.chan c).hbSilence)
  | .rf => senseCondition s .returnFeed c
  | .tl => senseCondition s .tally c

/-- The source is among these enabled sources. -/
def Sources.enables (e : Sources) : Source → Bool
  | .hb => e.hb
  | .rf => e.rf
  | .tl => e.tl

/-- A source faults: the mode is not OFF, the source is enabled in effect, and its condition holds (R118). -/
def sourceFaults (s : State) (c : ChannelNo) (src : Source) : Bool :=
  decide ((s.chan c).settings.mode ≠ .off) && (s.chan c).inEffect.sources.enables src && sourceCondition s c src

/-- The three sources. -/
def allSources : List Source :=
  [.hb, .rf, .tl]

/-- The alert condition: at least one source faults (R118). -/
def alertCondition (s : State) (c : ChannelNo) : Bool :=
  allSources.any (sourceFaults s c)

/-- The vote over n enabled sources of which k fault (R119). -/
def Vote.met (v : Vote) (n k : Nat) : Bool :=
  match v with
  | .any => decide (1 ≤ k)
  | .all => decide (1 ≤ n) && decide (k = n)
  | .two => (decide (2 ≤ n) && decide (2 ≤ k)) || (decide (n = 1) && decide (k = 1))

/-- The channel's vote is met (R119). -/
def voteMet (s : State) (c : ChannelNo) : Bool :=
  (s.chan c).inEffect.vote.met (allSources.countP (s.chan c).inEffect.sources.enables) (allSources.countP (sourceFaults s c))

/-! ### States and reports (section 7.3) -/

/-- Write a channel's supervision state; a change raises SUPERVISION (R134). -/
def setSupervision (c : ChannelNo) (st : Supervision) (s : State) : State :=
  raiseIf (decide ((s.chan c).supervision ≠ st)) c .supervision (modChan c (fun ch => { ch with supervision := st }) s)

/-- HEALTHY to ALERT: the trip timer becomes 0 (R120, R121). -/
def enterAlert (c : ChannelNo) (s : State) : State :=
  setSupervision c .alert (modChan c (fun ch => { ch with tripTimer := 0 }) s)

/-- A report makes a source of the channel begin to fault (R120). -/
def faultReported (c : ChannelNo) (s : State) : State :=
  match (s.chan c).supervision with
  | .healthy => enterAlert c s
  | .alert => s
  | .tripped => modChan c (fun ch => { ch with recoveryTimer := 0 }) s

/-- Act on a change made to the state: if the source faults after it and did not before, that is a report that starts a
fault (R120). -/
def reporting (c : ChannelNo) (src : Source) (change : State → State) (s : State) : State :=
  if sourceFaults (change s) c src && !sourceFaults s c src then faultReported c (change s) else change s

/-- An OK listing (R117). -/
def okListing (c : ChannelNo) (s : State) : State :=
  modChan c (fun ch => { ch with listing := .ok, hbSilence := 0 }) s

/-- A FAIL listing (R117, R120). -/
def failListing (c : ChannelNo) (s : State) : State :=
  reporting c .hb (modChan c (fun ch => { ch with listing := .fail })) s

/-! ### Frame events -/

/-- The HB silence count increments and saturates (R117). -/
def countSilence (c : ChannelNo) (s : State) : State :=
  modChan c (fun ch => { ch with hbSilence := min (ch.hbSilence + 1) 65535 }) s

/-- The flap counter and the latch at a trip (R126). -/
def countFlap (c : ChannelNo) (s : State) : State :=
  let limit := (s.chan c).inEffect.flapLimit
  if limit = 0 then s
  else
    let n := if (s.chan c).flapCounter < limit then (s.chan c).flapCounter + 1 else (s.chan c).flapCounter
    let t := modChan c (fun ch => { ch with flapCounter := n }) s
    if n = limit ∧ (s.chan c).latched = false then raise c .latch (modChan c (fun ch => { ch with latched := true }) t) else t

/-- A trip, with its notice to COU (R122). -/
def tripChannel (c : ChannelNo) (s : State) : State :=
  tripNotice c (setSupervision c .tripped (countFlap c
    (modChan c (fun ch => { ch with tripTimer := 0, recoveryTimer := 0, flapTimer := 0 }) s)))

/-- A recovery, with its notice to COU (R123). -/
def recoverChannel (c : ChannelNo) (s : State) : State :=
  recoveryNotice c (setSupervision c .healthy (modChan c (fun ch => { ch with recoveryTimer := 0, holdOff := false }) s))

/-- A channel in ALERT at a frame event (R121). -/
def alertStep (c : ChannelNo) (s : State) : State :=
  if !alertCondition s c then setSupervision c .healthy (modChan c (fun ch => { ch with tripTimer := 0 }) s)
  else if voteMet s c then
    let t := modChan c (fun ch => { ch with tripTimer := ch.tripTimer + 1 }) s
    if (t.chan c).inEffect.tripDelay ≤ (t.chan c).tripTimer then tripChannel c t else t
  else modChan c (fun ch => { ch with tripTimer := 0 }) s

/-- A channel in TRIPPED at a frame event (R123). -/
def trippedStep (c : ChannelNo) (s : State) : State :=
  if alertCondition s c then modChan c (fun ch => { ch with recoveryTimer := 0 }) s
  else
    let t := modChan c (fun ch => { ch with recoveryTimer := ch.recoveryTimer + 1 }) s
    if (t.chan c).inEffect.recovery ≤ (t.chan c).recoveryTimer then recoverChannel c t else t

/-- The supervision states at a frame event (R121, R123). -/
def superviseStep (c : ChannelNo) (s : State) : State :=
  match (s.chan c).supervision with
  | .healthy => if alertCondition s c then alertStep c (enterAlert c s) else s
  | .alert => alertStep c s
  | .tripped => trippedStep c s

/-- The flap decrement at the end of a frame event (R127). -/
def flapStep (c : ChannelNo) (s : State) : State :=
  modChan c (fun ch =>
    match ch.supervision with
    | .alert | .tripped => ch
    | .healthy =>
      if ch.latched ∨ ch.flapCounter = 0 then { ch with flapTimer := 0 }
      else if ch.inEffect.flapDecrement ≤ ch.flapTimer + 1 then { ch with flapCounter := ch.flapCounter - 1, flapTimer := 0 }
      else { ch with flapTimer := ch.flapTimer + 1 }) s

/-- CSV's part of a frame event (R117, R121 to R123, R127). -/
def csvFrame (c : ChannelNo) (s : State) : State :=
  flapStep c (superviseStep c (countSilence c s))

end Sys2Proof.Machine
end

