-- ==== Sys2Proof/Machine/Replication.lean ====
section
/-! DEFINITION. The Replication Receiver (Chapter 4): sequence checking, the edit budget, the application of updates, the
heartbeat, the link state and STANDBY STATUS, and RRX's part of a frame event. -/

namespace Sys2Proof.Machine

/-! ### Application of updates (sections 4.5 and 4.6) -/

/-- An update is consumed: the last applied sequence becomes its number, and the window update count increments unless the
update was deferred (R70, R72, R97). The count stops at the 255 its field holds (log 13). -/
def consume (c : ChannelNo) (counted : Bool) (seq : Nat) (s : State) : State :=
  setLastApplied c seq
    (if counted then modChan c (fun ch => { ch with budget := { ch.budget with updates := min (ch.budget.updates + 1) 255 } }) s
     else s)

/-- An update aimed at an in-service entry is refused (R31, R57, R75). -/
def refuseInService (c : ChannelNo) (s : State) : State :=
  raise c .divergence (modChan c (fun ch => { ch with inServiceRefused := true }) s)

/-- The revision of record of an entry (R73). -/
def Entry.revisionOfRecord (e : Entry) : Nat :=
  match e.amendment with
  | some (.body b) => b.revision
  | _ => e.body.revision

/-- A valid body that names a listed REPLICATED entry (R73 to R76). -/
def applyToListed (c : ChannelNo) (e : Entry) (b : Body) (s : State) : State :=
  if b.revision ≤ e.revisionOfRecord then s
  else if e.pinned || e.amendment.isSome then writeAmendment c e.key (.body b) s
  else if e.inService then refuseInService c s
  else abandonWalks c (replaceEntry c e.key b s)

/-- Apply an ENTRY PUT that is next (R72 to R77); `counted` is false for a deferred update (R97). -/
def applyPut (c : ChannelNo) (counted : Bool) (seq : Nat) (raw : RawBody) (s : State) : State :=
  let r := (s.chan c).settings.rate
  let t := raiseIf (raw.clamps r) c .clamped s
  if !raw.valid r then fallOut c .badEntry (consume c counted seq t)
  else
    let b := raw.convert r
    match lookupEntry { origin := .replicated, id := b.entryId } (t.chan c).schedule with
    | some e => consume c counted seq (applyToListed c e b t)
    | none =>
      if Config.scheduleLimit ≤ (t.chan c).schedule.length then fallOut c .full t
      else match requestSlot t with
        | none => fallOut c .pool t
        | some u => consume c counted seq (abandonWalks c (joinEntry c .replicated b u))

/-- A drop that names a listed REPLICATED entry (R78). -/
def dropListed (c : ChannelNo) (e : Entry) (s : State) : State :=
  if e.pinned || e.amendment.isSome then writeAmendment c e.key .deletion s
  else if e.inService then refuseInService c s
  else removeEntry c e.key s

/-- Apply an ENTRY DROP that is next (R78). -/
def applyDrop (c : ChannelNo) (counted : Bool) (seq id : Nat) (s : State) : State :=
  if id = 0 then fallOut c .badEntry (consume c counted seq s)
  else match lookupEntry { origin := .replicated, id := id } (s.chan c).schedule with
    | none => consume c counted seq s
    | some e => consume c counted seq (dropListed c e s)

/-- The sequence number of an update. -/
def Update.sequence : Update → Nat
  | .put n _ => n
  | .drop n _ => n

/-- Apply an update classed next. -/
def applyUpdate (c : ChannelNo) (counted : Bool) (u : Update) (s : State) : State :=
  match u with
  | .put n b => applyPut c counted n b s
  | .drop n id => applyDrop c counted n id s

/-! ### Sequence checking, deferral and the edit budget (sections 4.3, 4.4 and 5.3) -/

/-- The distance of a sequence number from another (R69, R94). -/
def distance (from_ seq : Nat) : Nat :=
  (seq + 65536 - from_) % 65536

/-- The class of an update by its distance (R69). -/
inductive SequenceClass where
  | next
  | duplicate
  | gap
deriving DecidableEq, Repr

/-- Class of a distance (R69). -/
def classOf (d : Nat) : SequenceClass :=
  if d = 1 then .next else if d = 0 ∨ 32769 ≤ d then .duplicate else .gap

/-- The channel's edit budget is exceeded by one more update; it is not judged while the current frame is NONE (R70). -/
def budgetExceeded (ch : Channel) : Bool :=
  ch.frame.isSome && decide (ch.inEffect.editBudget ≠ 0) && decide (ch.inEffect.editBudget ≤ ch.budget.updates)

/-- The budget is exceeded: STORM, not queued before the window's end (R70). -/
def storm (c : ChannelNo) (s : State) : State :=
  setReplication c .outOfStep .storm (s.chan c).attempts
    (modChan c (fun ch => { ch with budget := { ch.budget with stormPending := true } }) s)

/-- An update for an IN_STEP channel (R69, R70). -/
def checkUpdate (c : ChannelNo) (u : Update) (s : State) : State :=
  match classOf (distance ((s.chan c).lastApplied.getD 0) u.sequence) with
  | .duplicate => s
  | .gap => fallOut c .gap s
  | .next => if budgetExceeded (s.chan c) then storm c s else applyUpdate c true u s

/-- An update for a RESYNCING channel (R94). -/
def deferUpdate (c : ChannelNo) (u : Update) (s : State) : State :=
  match s.assembly with
  | none => s
  | some a =>
    match a.phase, a.resume with
    | .receiving, some resume =>
      let d := distance resume u.sequence
      if a.channel ≠ c ∨ d = 0 ∨ 32769 ≤ d then s
      else if s.deferral.any (fun v => decide (v.sequence = u.sequence)) then s
      else if s.deferral.length < Config.deferralLimit then { s with deferral := s.deferral ++ [u] }
      else { s with assembly := some { a with gapNoted := true } }
    | _, _ => s

/-- A well-formed update is routed by service mode and replication state (R65, R68). -/
def receiveUpdate (c : ChannelNo) (u : Update) (s : State) : State :=
  if (s.chan c).settings.mode = .off then s
  else match (s.chan c).replState with
    | .inStep => checkUpdate c u s
    | .resyncing => deferUpdate c u s
    | .outOfStep | .unseeded | .stale => s

/-- The window ends: the storm-pending mark is examined (R71). -/
def examineStorm (c : ChannelNo) (s : State) : State :=
  if (s.chan c).budget.stormPending then
    let t := modChan c (fun ch => { ch with budget := { ch.budget with stormPending := false } }) s
    if (t.chan c).replState = .outOfStep ∧ (t.chan c).cause = .storm ∧ (t.chan c).settings.mode ≠ .off then enqueue c t else t
  else s

/-- RRX's part of a frame event: the edit-budget window (R70, R71), which restarts after a change of rate code (R56). -/
def rrxFrame (c : ChannelNo) (s : State) : State :=
  let ch := s.chan c
  if ch.windowRestart then
    modChan c (fun x => { x with windowRestart := false, budget := { x.budget with frames := 0, updates := 0 } }) s
  else if ch.settings.rate.nominal ≤ ch.budget.frames + 1 then
    examineStorm c (modChan c (fun x => { x with budget := { x.budget with frames := 0, updates := 0 } }) s)
  else modChan c (fun x => { x with budget := { x.budget with frames := x.budget.frames + 1 } }) s

/-! ### Site heartbeat (section 4.7) -/

/-- A channel record: the health goes to CSV, then the sequence comparison (R80, R81). -/
def takeHealthRecord (r : HealthRecord) (s : State) : State :=
  let c := r.channel
  let t := if r.fails then failListing c s else okListing c s
  if (t.chan c).replState = .inStep ∧ (t.chan c).settings.mode ≠ .off ∧ (t.chan c).lastApplied ≠ some r.mainLast then fallOut c .gap t
  else t

/-- The pending-walk list may take a digest record (R82). -/
def acceptsDigest (hs : List HealthRecord) (r : DigestRecord) (s : State) : Bool :=
  let ch := s.chan r.channel
  decide (ch.replState = .inStep) && decide (ch.settings.mode ≠ .off) && decide (ch.changeover = .mirror) &&
  hs.any (fun h => decide (h.channel = r.channel) && decide (ch.lastApplied = some h.mainLast)) &&
  !s.pendingWalks.any (fun w => decide (w.channel = r.channel)) &&
  !s.walk.any (fun w => decide (w.record.channel = r.channel)) &&
  decide (s.pendingWalks.length < Config.pendingWalkLimit) && validDay r.day && r.label.valid ch.settings.rate

/-- A digest record is offered to RSU (R82, R102, R104). -/
def takeDigestRecord (hs : List HealthRecord) (r : DigestRecord) (s : State) : State :=
  if acceptsDigest hs r s then
    startWalk { s with pendingWalks := s.pendingWalks ++ [{
      channel := r.channel, horizon := absoluteFrame (s.chan r.channel).settings.rate r.day r.label,
      mainDigest := r.digest, mainCount := r.count }] }
  else s

/-- A well-formed heartbeat, in one act: channel records, then digest records (R79). -/
def takeHeartbeat (hs : List HealthRecord) (ds : List DigestRecord) (s : State) : State :=
  ds.foldl (fun t r => takeDigestRecord hs r t) (hs.foldl (fun t r => takeHealthRecord r t) s)

/-! ### STANDBY STATUS and the link state (sections 4.2 and 4.8) -/

/-- The status record of a channel (R84). -/
def statusRecord (s : State) (c : ChannelNo) : StatusRecord :=
  let ch := s.chan c
  { channel := c, mode := ch.settings.mode, changeover := ch.changeover, replState := ch.replState,
    lastApplied := ch.lastApplied, latched := ch.latched }

/-- Send a STANDBY STATUS: a record for each channel not in OFF, ascending, under the next status number (R84). -/
def sendStatus (s : State) : State :=
  sendReplication (.standbyStatus s.statusNumber
      ((allChannels.filter (fun c => decide ((s.chan c).settings.mode ≠ .off))).map (statusRecord s)))
    { s with statusNumber := (s.statusNumber + 1) % 65536 }

/-- Serving the resync queue would send an ask now (R88). -/
def State.serves (s : State) : Bool :=
  !s.resyncQueue.isEmpty && s.assembly.isNone && s.linkUp

/-- The link becomes UP: LINK_DOWN_CHANGE, a STANDBY STATUS, and the resync queue is served; where both leave in this act,
either may leave first (R66, R83, R88; log 7). -/
def linkComesUp (s : State) : State :=
  let t := raiseEvent .linkDownChange { s with linkUp := true, statusCount := 0 }
  if t.serves then bumpDraws (if Config.askLeavesFirst t.draws then sendStatus (serve t) else serve (sendStatus t))
  else sendStatus t

/-- A message that the link delivers: it restarts the silence count, its content is taken, and a link that was DOWN becomes
UP (R66; log 8). -/
def arrive (content : State → State) (s : State) : State :=
  let t := content { s with silence := 0 }
  if t.linkUp then t else linkComesUp t

/-- A malformed message is discarded whole with LINK_MALFORMED (R64). -/
def malformed (s : State) : State :=
  raiseEvent .linkMalformed s

/-- RRX's silence part of a tick (R66); the status-interval count stays 0 while the link is DOWN (R83; log 9). The tick at
which the link goes DOWN is no tick for the snapshot timer, which is judged by the state this act leaves (R90): its part of
the tick is over. -/
def linkTick (s : State) : State :=
  if s.linkUp then
    if s.device.linkTimeout ≤ s.silence + 1 then
      raiseEvent .linkDownChange { s with
        silence := s.silence + 1, linkUp := false, statusCount := 0
        tickDue := s.tickDue.filter (fun p => decide (p ≠ .snapshot)) }
    else { s with silence := s.silence + 1 }
  else s

/-- RRX's status part of a tick (R83). -/
def statusTick (s : State) : State :=
  if s.linkUp then
    if s.device.statusInterval ≤ s.statusCount + 1 then sendStatus { s with statusCount := 0 }
    else { s with statusCount := s.statusCount + 1 }
  else s

end Sys2Proof.Machine
end

