-- ==== Sys2Proof/Machine/Snapshot.lean ====
section
/-! DEFINITION. Snapshots (Chapter 5, section 5.3, and R44, R45): the three messages, the commit and the deferred updates,
and the snapshot timer. -/

namespace Sys2Proof.Machine

/-- A SNAPSHOT OPEN (R91, R93). -/
def takeOpen (c : ChannelNo) (resume count : Nat) (s : State) : State :=
  match s.assembly with
  | none => s
  | some a =>
    if a.channel ≠ c ∨ a.phase ≠ .awaitingOpen then s
    else if Config.scheduleLimit < count then failSnapshot false s
    else
      let begun := { a with phase := Phase.receiving, resume := some resume, expected := some count, nextIndex := 1 }
      abandonWalks c { s with assembly := some begun }

/-- Stage an item: check and convert, refuse a repeated ID, take a slot (R44, R92). -/
def stageItem (c : ChannelNo) (a : Assembly) (raw : RawBody) (s : State) : State :=
  let r := (s.chan c).settings.rate
  if !raw.valid r then failSnapshot false s
  else if a.staged.any (fun b => decide (b.entryId = raw.entryId)) then failSnapshot false s
  else match requestSlot s with
    | none => failSnapshot true s
    | some u => raiseIf (raw.clamps r) c .clamped
        { u with assembly := some { a with staged := a.staged ++ [raw.convert r], nextIndex := a.nextIndex + 1 } }

/-- A SNAPSHOT ITEM (R92, R93). -/
def takeItem (c : ChannelNo) (index : Nat) (raw : RawBody) (s : State) : State :=
  match s.assembly with
  | none => s
  | some a =>
    if a.channel ≠ c ∨ a.phase ≠ .receiving then s
    else if index = 0 ∨ a.expected.getD 0 < index ∨ a.nextIndex < index then failSnapshot false s
    else if index < a.nextIndex then s
    else stageItem c a raw s

/-! ### Commit (R45, R96, R97) -/

/-- The entries a commit keeps: LOCAL, in service, or pinned (R45). -/
def keptAtCommit (e : Entry) : Bool :=
  !e.isReplicated || e.inService || e.pinned

/-- What the join does with a staged entry (R45). -/
inductive StagedFate where
  | freed
  | amends
  | joins
deriving DecidableEq, Repr

/-- The fate of a staged entry against the schedule as it stood before the commit (R45). -/
def stagedFate (es : List Entry) (b : Body) : StagedFate :=
  match lookupEntry { origin := .replicated, id := b.entryId } es with
  | some e => if e.inService then .freed else if e.pinned then .amends else .joins
  | none => .joins

/-- One staged entry is taken (R45; log 12). -/
def takeStaged (c : ChannelNo) (es : List Entry) (b : Body) (s : State) : State :=
  match stagedFate es b with
  | .freed => freeSlots 1 s
  | .amends => freeSlots 1 (writeAmendment c { origin := .replicated, id := b.entryId } (.body b) s)
  | .joins => joinEntry c .replicated b s

/-- The pinned entries not in service that no staged entry carried take a held deletion (R96). -/
def holdDeletions (c : ChannelNo) (es : List Entry) (staged : List Body) (s : State) : State :=
  es.foldl (fun t e =>
    if e.isReplicated ∧ e.pinned ∧ e.inService = false ∧ staged.all (fun b => decide (b.entryId ≠ e.body.entryId))
    then writeAmendment c e.key .deletion t else t) s

/-- IN_SERVICE_REFUSED after a commit (R96). -/
def settleRefused (c : ChannelNo) (anyFreed : Bool) (s : State) : State :=
  if anyFreed then refuseInService c s else modChan c (fun ch => { ch with inServiceRefused := false }) s

/-- Apply the deferred updates in sequence order while the channel stays IN_STEP; the updates left come back with the state
(R97). Each turn takes one update, so the length of the queue is turns enough. -/
def applyDeferred : Nat → ChannelNo → List Update → State → State × List Update
  | 0, _, q, s => (s, q)
  | turns + 1, c, q, s =>
    if (s.chan c).replState ≠ .inStep then (s, q)
    else match q.find? (fun u => decide (some u.sequence = (s.chan c).lastApplied.map (fun n => (n + 1) % 65536))) with
      | none => (s, q)
      | some u => applyDeferred turns c (q.erase u) (applyUpdate c false u s)

/-- After the deferred updates: what is left, or a noted gap, puts an IN_STEP channel OUT_OF_STEP (R97). -/
def afterDeferred (c : ChannelNo) (gapNoted : Bool) (p : State × List Update) : State :=
  if (p.1.chan c).replState = .inStep ∧ (gapNoted ∨ p.2 ≠ []) then fallOut c .gap p.1 else p.1

/-- The join of a commit: the schedule exchanged, held deletions written, IN_SERVICE_REFUSED settled (R45, R96). The
staged slots are joined or freed one by one, so the assembly holds none any more. -/
def joinStaged (c : ChannelNo) (a : Assembly) (s : State) : State :=
  let es := (s.chan c).schedule
  let t := keepOnly c (fun p => keptAtCommit p.1) { s with assembly := some { a with staged := [] } }
  let u := a.staged.foldl (fun v b => takeStaged c es b v) t
  settleRefused c (a.staged.any (fun b => decide (stagedFate es b = .freed))) (holdDeletions c es a.staged u)

/-- The schedule a commit would leave has this many entries (R45). -/
def countAfterCommit (es : List Entry) (staged : List Body) : Nat :=
  es.countP keptAtCommit + staged.countP (fun b => decide (stagedFate es b = .joins))

/-- A commit (R96, R97). -/
def commitSnapshot (c : ChannelNo) (a : Assembly) (s : State) : State :=
  if Config.scheduleLimit < countAfterCommit (s.chan c).schedule a.staged then failSnapshot false s
  else
    let t := abandonWalks c (joinStaged c a s)
    let u := setReplication c .inStep .none 0 (setLastApplied c (a.resume.getD 0) t)
    serve (clearAssembly (afterDeferred c a.gapNoted (applyDeferred u.deferral.length c u.deferral u)))

/-- A SNAPSHOT CLOSE (R93, R95). -/
def takeClose (c : ChannelNo) (count digest : Nat) (s : State) : State :=
  match s.assembly with
  | none => s
  | some a =>
    if a.channel ≠ c ∨ a.phase ≠ .receiving then s
    else if a.staged.length = count ∧ stagedDigest a.staged = digest ∧ a.expected = some a.staged.length then commitSnapshot c a s
    else failSnapshot false s

/-- RSU's timer part of a tick (R90). The count is compared with the timeout only at a tick at which it runs: a timeout lowered
below the count of a timer that the DOWN link holds fails the snapshot at the first tick with the link UP (log 39). -/
def snapshotTick (s : State) : State :=
  match s.assembly, s.linkUp with
  | some a, true =>
    if 1000 * s.device.snapshotTimeoutS ≤ a.timer + 1 then failSnapshot false s
    else { s with assembly := some { a with timer := a.timer + 1 } }
  | _, _ => s

end Sys2Proof.Machine
end

