-- ==== Sys2Proof/Machine/FrameTiming.lean ====
section
/-! DEFINITION. The Frame Timing Unit (Chapter 1): reference pulses, absence, synthesised pulses, loads of station time, and
the frame events they raise with the parts the blocks take in them. -/

namespace Sys2Proof.Machine

/-! ### Frame events (R9) -/

/-- A block's part of the channel's frame event. -/
def blockFrame (b : Block) (c : ChannelNo) (s : State) : State :=
  match b with
  | .sst => sstFrame c s
  | .rrx => rrxFrame c s
  | .csv => csvFrame c s
  | .cou => couFrame c s

/-- The settings in effect with those a block takes over at its part of a frame event (R53, R116, R135; log 18). -/
def InEffect.takenBy (b : Block) (g : Settings) (e : InEffect) : InEffect :=
  match b with
  | .sst => e
  | .rrx => { e with editBudget := g.editBudget }
  | .csv => { e with
      sources := g.sources, vote := g.vote, hbLimit := g.hbLimit, tripDelay := g.tripDelay, recovery := g.recovery,
      flapLimit := g.flapLimit, flapDecrement := g.flapDecrement }
  | .cou => { e with
      takeover := g.takeover, giveback := g.giveback, doubt := g.doubt, defaultPriority := g.defaultPriority,
      confirm := g.confirm, cueLead := g.cueLead, minJoin := g.minJoin }

/-- A channel as a block begins its part of the frame event: the part is no longer due, and the block's settings are in
effect. -/
def beginPart (b : Block) (ch : Channel) : Channel :=
  { ch with due := ch.due.erase b, inEffect := ch.inEffect.takenBy b ch.settings }

/-- A block takes its part of the channel's latest frame event, if it has not yet (log 3). -/
def takeBlock (b : Block) (c : ChannelNo) (s : State) : State :=
  if b ∈ (s.chan c).due then blockFrame b c (modChan c (beginPart b) s) else s

/-- The blocks in the order the model takes them where no rule orders them (log 3). -/
def allBlocks : List Block :=
  [.sst, .rrx, .csv, .cou]

/-- The blocks that are not held take their parts of a channel's frame event. -/
def workChannel (held : List (ChannelNo × Block)) (c : ChannelNo) (s : State) : State :=
  allBlocks.foldl (fun t b => if (c, b) ∈ held then t else takeBlock b c t) s

/-- The blocks that are not held take their parts, channel by channel. -/
def workFrames (held : List (ChannelNo × Block)) (s : State) : State :=
  forChannels (workChannel held) allChannels s

/-- A frame event is raised for a channel: it carries the new frame number, the stored settings take effect at it (R53,
R116, R135; log 18), and every block has its part to take. -/
def raiseFrame (frame : Nat) (ch : Channel) : Channel :=
  { ch with frame := some frame, eventFrame := some frame, inEffect := ch.settings.toInEffect, due := allBlocks }

/-- The frame event of a channel at a counted pulse of a family, when a new frame of it begins (R9). -/
def frameAt (fam : Family) (count : Nat) (e : Parity) (ch : Channel) : Channel :=
  let r := ch.settings.rate
  if r.family = fam ∧ beginsFrame r count e = true then raiseFrame (frameNumber r count e) ch else ch

/-- The frame events of a counted pulse of a family are raised (R9). -/
def raiseFrames (fam : Family) (s : State) : State :=
  { s with channels := s.channels.map (frameAt fam (s.family fam).count (s.family fam).parity) }

/-- What a counted pulse of a family does besides counting: its frame events, and RTA's grants when the family is the router
family, in either order (R9, R172; log 5). -/
def pulseWork (fam : Family) (grantsFirst : Bool) (held : List (ChannelNo × Block)) (s : State) : State :=
  let t := raiseFrames fam s
  let grants := fun u : State => if u.device.routerFamily = fam then grantPulse u else u
  if grantsFirst then workFrames held (grants t) else grants (workFrames held t)

/-! ### Counting (R1, R3, R5) -/

/-- The family record with one more pulse counted, at this instant (R1). -/
def FamilyRecord.counted (at_ : Option Instant) (f : FamilyRecord) : FamilyRecord :=
  { f with count := min (f.count + 1) Config.countLimit, lastCounted := at_ }

/-- A pulse of a family is counted. -/
def countPulse (fam : Family) (at_ : Option Instant) (grantsFirst : Bool) (held : List (ChannelNo × Block)) (s : State) : State :=
  pulseWork fam grantsFirst held (modFamily fam (FamilyRecord.counted at_) s)

/-! ### Reference pulses (R2, R3, R6, R7) -/

/-- The interval from the last reference pulse lies under the short limit (R2). -/
def FamilyRecord.short (fam : Family) (instant : Instant) (f : FamilyRecord) : Bool :=
  f.lastReference.any (fun l => decide (2 * (instant - l) < familyPeriod fam))

/-- The interval from the last reference pulse lies in the good window (R2). -/
def FamilyRecord.good (fam : Family) (instant : Instant) (f : FamilyRecord) : Bool :=
  f.lastReference.any (fun l =>
    decide (7 * familyPeriod fam ≤ 8 * (instant - l)) && decide (8 * (instant - l) ≤ 9 * familyPeriod fam))

/-- The family record after an accepted pulse is classified (R2). -/
def FamilyRecord.accept (fam : Family) (instant : Instant) (f : FamilyRecord) : FamilyRecord :=
  { f with
    goodRun := if f.good fam instant then min (f.goodRun + 1) Config.fullRun else 0
    lastReference := some instant
    absenceFrom := some instant }

/-- The parity check of a marked pulse in LOCKED (R7). -/
def parityCheck (fam : Family) (mark : Bool) (s : State) : State :=
  let f := s.family fam
  if mark ∧ f.state = .locked ∧ parityOf f.count ≠ f.parity then raiseEvent .refPhase s else s

/-- The re-locking pulse is the same pulse as the last counted one (R6). -/
def FamilyRecord.absorbs (fam : Family) (instant : Instant) (f : FamilyRecord) : Bool :=
  f.lastCounted.any (fun l => decide (2 * (instant - l) < familyPeriod fam))

/-- What an accepted pulse does that loads nothing (R3, R6, R7). -/
def acceptedPulse (fam : Family) (instant : Instant) (mark grantsFirst : Bool) (held : List (ChannelNo × Block)) (s : State) : State :=
  let f := s.family fam
  match f.state with
  | .unset => s
  | .locked => parityCheck fam mark (countPulse fam (some instant) grantsFirst held s)
  | .freerun =>
    if f.goodRun = Config.fullRun then
      let t := raiseEvent .refRelock (modFamily fam (fun x => { x with state := .locked }) s)
      parityCheck fam mark (if f.absorbs fam instant then t else countPulse fam (some instant) grantsFirst held t)
    else s

/-! ### Loads of station time (R19) -/

/-- A channel of the family is outside MIRROR (R18, R19). -/
def familyEngaged (s : State) (fam : Family) : Bool :=
  allChannels.any (fun c => decide ((s.chan c).settings.rate.family = fam) && decide ((s.chan c).changeover ≠ .mirror))

/-- The family state after a load, by the good-pulse run (R19). -/
def stateAfterLoad (st : FamilyState) (run : Nat) : FamilyState :=
  match st with
  | .locked => .locked
  | .unset | .freerun => if run = Config.fullRun then .locked else .freerun

/-- The family record after a load (R19). -/
def FamilyRecord.loaded (target : Nat) (instant : Instant) (f : FamilyRecord) : FamilyRecord :=
  { f with
    state := stateAfterLoad f.state f.goodRun, count := target, parity := parityOf target
    lastCounted := some instant, pendingSet := none }

/-- A loading pulse: the family is loaded, queued release pulses of its requests are shifted, and the pulse is a counted
one (R19, R173). -/
def loadPulse (fam : Family) (instant : Instant) (p : PendingSet) (grantsFirst : Bool) (held : List (ChannelNo × Block))
    (s : State) : State :=
  let f := s.family fam
  let t := modFamily fam (FamilyRecord.loaded p.target instant) s
  let u := if f.state = .freerun ∧ f.goodRun = Config.fullRun then raiseEvent .refRelock t else t
  pulseWork fam grantsFirst held (if s.device.routerFamily = fam then shiftReleases f.count p.target u else u)

/-- A reference pulse (R2, R3, R6, R7, R19). -/
def referencePulse (fam : Family) (instant : Instant) (mark grantsFirst : Bool) (held : List (ChannelNo × Block)) (s : State) : State :=
  if (s.family fam).short fam instant then modFamily fam (fun x => { x with goodRun := 0 }) s
  else
    let t := modFamily fam (FamilyRecord.accept fam instant) s
    match mark, (s.family fam).pendingSet with
    | true, some p =>
      if familyEngaged s fam then
        acceptedPulse fam instant mark grantsFirst held (modFamily fam (fun x => { x with pendingSet := none }) t)
      else loadPulse fam instant p grantsFirst held t
    | true, none => acceptedPulse fam instant true grantsFirst held t
    | false, _ => acceptedPulse fam instant false grantsFirst held t

/-- The instant of the pulse due one nominal period after the last counted one (R4, R5). -/
def FamilyRecord.nextDue (fam : Family) (f : FamilyRecord) : Option Instant :=
  f.lastCounted.map (fun l => l + familyPeriod fam)

/-- The absence limit passes (R4); it does not expire again before another accepted pulse. -/
def referenceAbsent (fam : Family) (grantsFirst : Bool) (held : List (ChannelNo × Block)) (s : State) : State :=
  let f := s.family fam
  match f.absenceFrom with
  | none => s
  | some _ =>
    let t := modFamily fam (fun x => { x with goodRun := 0, absenceFrom := none }) s
    if f.state = .locked then
      countPulse fam (f.nextDue fam) grantsFirst held
        (raiseEvent .refLoss (modFamily fam (fun x => { x with state := .freerun }) t))
    else t

/-- A synthesised pulse (R5). -/
def synthesise (fam : Family) (grantsFirst : Bool) (held : List (ChannelNo × Block)) (s : State) : State :=
  let f := s.family fam
  if f.state = .freerun then countPulse fam (f.nextDue fam) grantsFirst held s else s

/-! ### The commands -/

/-- REFERENCE_PULSE. Parts left over from earlier frame events are taken first (log 3). -/
def execReferencePulse (fam : Family) (instant : Instant) (mark grantsFirst : Bool) (held : List (ChannelNo × Block)) (s : State) :
    Host.Outcome State Fault Refusal :=
  .next (referencePulse fam instant mark grantsFirst held (workFrames [] s))

/-- REFERENCE_ABSENCE. -/
def execReferenceAbsence (fam : Family) (grantsFirst : Bool) (held : List (ChannelNo × Block)) (s : State) :
    Host.Outcome State Fault Refusal :=
  .next (referenceAbsent fam grantsFirst held (workFrames [] s))

/-- SYNTHESISED_PULSE. -/
def execSynthesisedPulse (fam : Family) (grantsFirst : Bool) (held : List (ChannelNo × Block)) (s : State) :
    Host.Outcome State Fault Refusal :=
  .next (synthesise fam grantsFirst held (workFrames [] s))

/-- ENTRY_RETIREMENT: SST's part (R29, R32). -/
def execEntryRetirement (c : ChannelNo) (s : State) : Host.Outcome State Fault Refusal :=
  .next (takeBlock .sst c s)

/-- HB_SILENCE_LIMIT: CSV's part (R117, R118, R121). -/
def execHbSilenceLimit (c : ChannelNo) (s : State) : Host.Outcome State Fault Refusal :=
  .next (takeBlock .csv c s)

/-- TRIP: CSV's part (R121, R122). -/
def execTrip (c : ChannelNo) (s : State) : Host.Outcome State Fault Refusal :=
  .next (takeBlock .csv c s)

/-- RECOVERY: CSV's part (R123). -/
def execRecovery (c : ChannelNo) (s : State) : Host.Outcome State Fault Refusal :=
  .next (takeBlock .csv c s)

/-- FLAP_DECREMENT: CSV's part (R127). -/
def execFlapDecrement (c : ChannelNo) (s : State) : Host.Outcome State Fault Refusal :=
  .next (takeBlock .csv c s)

/-- CONFIRM_WINDOW_EXPIRY: COU's part (R138). -/
def execConfirmWindowExpiry (c : ChannelNo) (s : State) : Host.Outcome State Fault Refusal :=
  .next (takeBlock .cou c s)

/-- DIRECTIVE_DEADLINE_MISSED: COU's part (R167). -/
def execDirectiveDeadlineMissed (c : ChannelNo) (s : State) : Host.Outcome State Fault Refusal :=
  .next (takeBlock .cou c s)

/-- EDIT_BUDGET_WINDOW_END: RRX's part (R70, R71). -/
def execEditBudgetWindowEnd (c : ChannelNo) (s : State) : Host.Outcome State Fault Refusal :=
  .next (takeBlock .rrx c s)

end Sys2Proof.Machine
end

