-- ==== Sys2Proof/Machine/Sense.lean ====
section
/-! DEFINITION. The Sense Inputs (Chapter 6): sampling, debounce, and the reports to the supervisor. -/

namespace Sys2Proof.Machine

/-- The level of a bit. -/
def levelOfBit (b : Bool) : Level :=
  if b then .high else .low

/-- The supervisor's source that a function serves. -/
def SenseFunction.source : SenseFunction → Option Source
  | .unused => none
  | .returnFeed => some .rf
  | .tally => some .tl

/-- Make a change to one line's record; if it makes a source of the line's channel begin to fault, that is reported in the
same act (R113, R114, R120). The channel and the source are those of the line after the change. -/
def changeLine (l : LineNo) (f : SenseLine → SenseLine) (s : State) : State :=
  let after := f (s.line l)
  match after.mapped, after.function.source with
  | some c, some src => reporting c src (modLine l (fun _ => after)) s
  | _, _ => modLine l (fun _ => after) s

/-- Store one line's raw sample, and the debounce time of the tick: one changed later is used from the next tick (R110;
log 33). -/
def storeSample (levels : BitVec 16) (s : State) (l : LineNo) : State :=
  modLine l (fun x => { x with raw := levelOfBit (levels.getLsbD l.val), tickDebounce := x.debounce }) s

/-- Store every line's raw sample (R110). -/
def sampleLines (levels : BitVec 16) (s : State) : State :=
  allLines.foldl (storeSample levels) s

/-- The first tick after device reset: each debounced level is the raw sample (R109; log 29). -/
def firstLevels (s : State) : State :=
  allLines.foldl (fun t l => changeLine l (fun x => { x with level := x.raw, stability := 0 }) t) s

/-- The comparison of one line at a tick, by the debounce time of that tick (R110, R111; log 33). -/
def SenseLine.debounced (x : SenseLine) : SenseLine :=
  if x.raw = x.level then { x with stability := 0 }
  else if x.stability < x.tickDebounce then { x with stability := x.stability + 1 }
  else { x with level := x.raw, stability := 0, changePending := true }

/-- SNS's part of a tick for one line (R110): a change of level is reported by the function, mapping and expected level the line
has when the part is taken (R114). -/
def senseTick (l : LineNo) (s : State) : State :=
  changeLine l SenseLine.debounced s

end Sys2Proof.Machine
end

