-- ==== Sys2Proof/Machine/DeviceCommands.lean ====
section
/-! DEFINITION. The time commands (R187) and the device commands (R188, R189): station time, device-wide settings, sense
lines, LINK RESTART. -/

namespace Sys2Proof.Machine

/-! ### Station time (section 1.6) -/

/-- SET STATION TIME's answer (R18): the fields, then the channels, then the pending set. -/
def setTimeAnswer (body : List Byte) (s : State) : Answer :=
  let day := numAt body 1 2
  let l := labelAt body 3
  match familyOfCode (numAt body 0 1), rateOfCode (numAt body 7 1) with
  | some fam, some r =>
    if r.family ≠ fam ∨ !validDay day ∨ !l.valid r then refuse .badField s
    else if familyEngaged s fam then refuse .state s
    else
      let target := targetCount r (absoluteFrame r day l)
      acceptWith (l.namesSkipped r) [.frame (some target)]
        (modFamily fam (fun f => { f with pendingSet := some { target := target, rate := r, day := day, label := l.clamp r } }) s)
  | _, _ => refuse .badField s

/-- The pending set of a family behind its presence byte (R20; log 16). -/
def pendingFields : Option PendingSet → List Field
  | none => [.u8 0]
  | some p => [.u8 1, .frame (some p.target), .u8 p.rate.code, .u16 p.day, .label p.label]

/-- The current frame of each rate code of a family, NONE while it is UNSET (R20; log 27). -/
def frameFields (fam : Family) (f : FamilyRecord) : List Field :=
  (rateCodesOf fam).flatMap (fun r => positionOrNone r (if f.state = .unset then none else some (frameNumber r f.count f.parity)))

/-- READ TIME's answer (R20). -/
def readTimeAnswer (body : List Byte) (s : State) : Answer :=
  match familyOfCode (numAt body 0 1) with
  | none => refuse .badField s
  | some fam =>
    let f := s.family fam
    accept ([.u8 f.state.code, .frame (some f.count), .u8 f.parity.e, .u8 f.goodRun] ++ pendingFields f.pendingSet ++
      frameFields fam f) s

/-! ### Device-wide settings (section 3.7) -/

/-- The values of a CONFIGURE DEVICE body as given, with the family its code names. -/
def deviceOf (fam : Family) (b : List Byte) : DeviceSettings :=
  { retentionS := numAt b 0 4, routerFamily := fam, takesPerPulse := numAt b 5 1, routerLead := numAt b 6 1,
    routerTimeout := numAt b 7 2, linkTimeout := numAt b 9 2, snapshotTimeoutS := numAt b 11 2, statusInterval := numAt b 13 2,
    hostSilenceS := numAt b 15 2 }

/-- Every numeric setting brought into its range (R62). -/
def DeviceSettings.clamped (d : DeviceSettings) : DeviceSettings :=
  { d with
    retentionS := clampTo 0 86400 d.retentionS
    takesPerPulse := clampTo 1 8 d.takesPerPulse
    routerLead := clampTo 0 15 d.routerLead
    routerTimeout := clampTo 10 2000 d.routerTimeout
    linkTimeout := clampTo 100 10000 d.linkTimeout
    snapshotTimeoutS := clampTo 1 600 d.snapshotTimeoutS
    statusInterval := clampTo 100 5000 d.statusInterval
    hostSilenceS := clampTo 0 600 d.hostSilenceS }

/-- A router take is queued or outstanding (R62). -/
def routerBusy (s : State) : Bool :=
  !s.takeQueue.isEmpty || allChannels.any (fun c => (s.chan c).outstanding.isSome)

/-- The settings are stored and every channel's retention is reconverted (R62, R63). -/
def storeDevice (d : DeviceSettings) (s : State) : State :=
  { s with
    device := d
    channels := s.channels.map (fun ch => { ch with retention := secondsToFrames ch.settings.rate d.retentionS }) }

/-- The device-wide settings in the order of the table of section 3.7, at the sizes of the command (R62; log 16). -/
def deviceFields (d : DeviceSettings) : List Field :=
  [.u32 d.retentionS, .u8 (familyCode d.routerFamily), .u8 d.takesPerPulse, .u8 d.routerLead, .u16 d.routerTimeout,
   .u16 d.linkTimeout, .u16 d.snapshotTimeoutS, .u16 d.statusInterval, .u16 d.hostSilenceS]

/-- CONFIGURE DEVICE's answer (R62). -/
def configureDeviceAnswer (body : List Byte) (s : State) : Answer :=
  match familyOfCode (numAt body 4 1) with
  | none => refuse .badField s
  | some fam =>
    if fam ≠ s.device.routerFamily ∧ routerBusy s then refuse .state s
    else
      let given := deviceOf fam body
      acceptWith (decide (given.clamped ≠ given)) (deviceFields given.clamped) (storeDevice given.clamped s)

/-! ### Sense lines (sections 6.4 and 6.6) -/

/-- The record of a line as READ SENSE LINES gives it, with whether it makes its channel's source fault now (R115). -/
def lineFields (x : SenseLine) : List Field :=
  [.u8 x.function.code, .u8 ((x.mapped.map (fun c => c.val)).getD 0xFF), .u8 x.expected.code, .u16 x.debounce, .u8 x.raw.code,
   .u8 x.level.code, .u8 x.stability, .flag x.changePending, .flag (x.mapped.isSome && decide (x.level ≠ x.expected))]

/-- Another line already serves this source of the channel (R112). -/
def sourceTaken (s : State) (l : LineNo) (f : SenseFunction) (c : ChannelNo) : Bool :=
  allLines.any (fun m => decide (m ≠ l) && decide ((s.line m).function = f) && decide ((s.line m).mapped = some c))

/-- A line's number inside 0 to 15. -/
def lineOf (n : Nat) : Option LineNo :=
  if h : n < 16 then some ⟨n, h⟩ else none

/-- The accepted CONFIGURE SENSE LINE (R112, R113). -/
def configureLine (l : LineNo) (f : SenseFunction) (mapped : Option ChannelNo) (expected : Level) (debounce : Nat) (s : State) :
    Answer :=
  let t := changeLine l (fun x => { x with function := f, mapped := mapped, expected := expected, debounce := min debounce 255 }) s
  acceptWith (decide (255 < debounce)) (lineFields (t.line l)) t

/-- CONFIGURE SENSE LINE's answer (R112). -/
def configureLineAnswer (body : List Byte) (s : State) : Answer :=
  match lineOf (numAt body 0 1), senseFunctionOfCode (numAt body 1 1), levelOfCode (numAt body 3 1) with
  | some l, some .unused, some expected => configureLine l .unused none expected (numAt body 4 2) s
  | some l, some f, some expected =>
    match channelOf (numAt body 2 1) with
    | none => refuse .badChannel s
    | some c => if sourceTaken s l f c then refuse .state s else configureLine l f (some c) expected (numAt body 4 2) s
  | _, _, _ => refuse .badField s

/-- READ SENSE LINES' answer (R115). -/
def readLinesAnswer (s : State) : Answer :=
  accept (allLines.flatMap (fun l => lineFields (s.line l)))
    { s with lines := s.lines.map (fun x => { x with changePending := false }) }

/-! ### LINK RESTART (R67, R99, R108, R189) -/

/-- The effect of LINK RESTART at RRX and RSU. -/
def restartLink (s : State) : State :=
  let t := if s.linkUp then raiseEvent .linkDownChange s else s
  restartResync { t with linkUp := false, silence := 0, statusCount := 0 }

/-! ### The commands -/

/-- SET_STATION_TIME. -/
def execSetStationTime (write : Write) (body : List Byte) (s : State) : Host.Outcome State Fault Refusal :=
  .next (portCommand write (withLength 8 body (setTimeAnswer body)) s)

/-- READ_TIME. -/
def execReadTime (write : Write) (body : List Byte) (s : State) : Host.Outcome State Fault Refusal :=
  .next (portCommand write (withLength 1 body (readTimeAnswer body)) s)

/-- CONFIGURE_DEVICE. -/
def execConfigureDevice (write : Write) (body : List Byte) (s : State) : Host.Outcome State Fault Refusal :=
  .next (portCommand write (withLength 17 body (configureDeviceAnswer body)) s)

/-- CONFIGURE_SENSE_LINE. -/
def execConfigureSenseLine (write : Write) (body : List Byte) (s : State) : Host.Outcome State Fault Refusal :=
  .next (portCommand write (withLength 6 body (configureLineAnswer body)) s)

/-- READ_SENSE_LINES. -/
def execReadSenseLines (write : Write) (body : List Byte) (s : State) : Host.Outcome State Fault Refusal :=
  .next (portCommand write (withLength 0 body readLinesAnswer) s)

/-- LINK_RESTART. -/
def execLinkRestart (write : Write) (body : List Byte) (s : State) : Host.Outcome State Fault Refusal :=
  .next (portCommand write (withLength 0 body (fun t => accept [] (restartLink t))) s)

end Sys2Proof.Machine
end

