-- ==== Sys2Proof/Machine/Messages.lean ====
section
/-! DEFINITION. The messages of the three links: each arrives as the body bytes of its kind and is parsed, and a body that
does not parse is the malformed message it then is (R64, R166, R175, R196). -/

namespace Sys2Proof.Machine

/-- A replication message arrives; one that does not parse is malformed (R64, R66). -/
def receive {α : Type} (parsed : Option α) (content : α → State → State) (s : State) : State :=
  match parsed with
  | some x => arrive (content x) s
  | none => arrive malformed s

/-- ENTRY_PUT. -/
def execEntryPut (body : List Byte) (s : State) : Host.Outcome State Fault Refusal :=
  .next (receive (parseEntryPut body) (fun x => receiveUpdate x.1 (.put x.2.1 x.2.2)) s)

/-- ENTRY_DROP. -/
def execEntryDrop (body : List Byte) (s : State) : Host.Outcome State Fault Refusal :=
  .next (receive (parseEntryDrop body) (fun x => receiveUpdate x.1 (.drop x.2.1 x.2.2)) s)

/-- SITE_HEARTBEAT. -/
def execSiteHeartbeat (body : List Byte) (s : State) : Host.Outcome State Fault Refusal :=
  .next (receive (parseHeartbeat body) (fun x => takeHeartbeat x.1 x.2) s)

/-- SNAPSHOT_OPEN. -/
def execSnapshotOpen (body : List Byte) (s : State) : Host.Outcome State Fault Refusal :=
  .next (receive (parseSnapshotOpen body) (fun x => takeOpen x.1 x.2.1 x.2.2) s)

/-- SNAPSHOT_ITEM: channel, index, body, in the layout of an ENTRY PUT (section 11.4). -/
def execSnapshotItem (body : List Byte) (s : State) : Host.Outcome State Fault Refusal :=
  .next (receive (parseEntryPut body) (fun x => takeItem x.1 x.2.1 x.2.2) s)

/-- SNAPSHOT_CLOSE. -/
def execSnapshotClose (body : List Byte) (s : State) : Host.Outcome State Fault Refusal :=
  .next (receive (parseSnapshotClose body) (fun x => takeClose x.1 x.2.1 x.2.2) s)

/-- MALFORMED_MESSAGE; bytes that form a well-formed message are no command of this row and change nothing (log 23). -/
def execMalformedMessage (bytes : List Byte) (s : State) : Host.Outcome State Fault Refusal :=
  .next (if replicationWellFormed bytes then s else arrive malformed s)

/-- CUE_READY; a body that does not parse is discarded (R166). -/
def execCueReady (body : List Byte) (s : State) : Host.Outcome State Fault Refusal :=
  .next (match parseReply body with
    | some (c, tag) => cueReply true c tag s
    | none => s)

/-- CUE_FAIL. -/
def execCueFail (body : List Byte) (s : State) : Host.Outcome State Fault Refusal :=
  .next (match parseReply body with
    | some (c, tag) => cueReply false c tag s
    | none => s)

/-- MALFORMED_CUE_REPLY: discarded, and no flag is raised (R166). -/
def execMalformedCueReply (_bytes : List Byte) (s : State) : Host.Outcome State Fault Refusal :=
  .next s

/-- ROUTER_DONE; a body that does not parse is discarded (R175). -/
def execRouterDone (body : List Byte) (s : State) : Host.Outcome State Fault Refusal :=
  .next (match parseReply body with
    | some (c, tag) => routerReply true c tag s
    | none => s)

/-- ROUTER_FAIL. -/
def execRouterFail (body : List Byte) (s : State) : Host.Outcome State Fault Refusal :=
  .next (match parseReply body with
    | some (c, tag) => routerReply false c tag s
    | none => s)

/-- MALFORMED_ROUTER_REPLY: discarded without a flag (R175). -/
def execMalformedRouterReply (_bytes : List Byte) (s : State) : Host.Outcome State Fault Refusal :=
  .next s

end Sys2Proof.Machine
end

