-- ==== Sys2Proof/Machine/StoreCommands.lean ====
section
/-! DEFINITION. The store commands (R184): lookups, LOCAL entries, pinning and flushing. -/

namespace Sys2Proof.Machine

/-! ### Response fields -/

/-- The secondaries of an entry record: a count, then offset, key and duration of each. -/
def secondaryFields (ss : List Secondary) : List Field :=
  .u8 ss.length :: ss.flatMap (fun x => [.u32 x.offset, .u8 x.key, .u32 x.duration])

/-- The content of an entry record: kind, and the fields that kind has (R41). -/
def contentFields (r : RateCode) : Content → List Field
  | .media reference som => [.u8 1, .bytes reference, .u32 som, .label (labelOf r som)]
  | .live source => [.u8 2, .u16 source]

/-- The fields of a body in record form, in the order of the table of section 2.2 (R41). -/
def bodyFields (r : RateCode) (b : Body) : List Field :=
  [.u32 b.entryId, .u16 b.revision] ++ positionFields r b.start ++ [.u32 b.duration] ++ contentFields r b.content ++
  [.u8 b.priority] ++ secondaryFields b.secondaries

/-- The held or waiting amendment of an entry: its state, and its kind and body where there is one (R41). -/
def amendmentFields (r : RateCode) (e : Entry) : List Field :=
  match e.amendment with
  | none => [.u8 0]
  | some a => .u8 (if e.pinned then 1 else 2) ::
    (match a with
     | .body b => .u8 1 :: bodyFields r b
     | .deletion => [.u8 2])

/-- The body of a READ ENTRY response (R41). The held amendment, which R41 names with the record's fields and with those
added, is sent once, at the end (log 16). -/
def entryFields (c : ChannelNo) (r : RateCode) (e : Entry) (effEnd place : Nat) : List Field :=
  [.u8 c.val, .u8 e.origin.code] ++ bodyFields r e.body ++ [.u8 e.status.code, .flag e.pinned] ++ positionFields r effEnd ++
  [.u32 (effEnd - e.body.start), .flag (decide (effEnd = e.body.start)), .u16 place] ++ amendmentFields r e

/-- The summary of an entry (R43). -/
def summaryFields (r : RateCode) (p : Entry × Nat) : List Field :=
  let e := p.1
  [.u8 e.origin.code, .u32 e.body.entryId, .u16 e.body.revision] ++ positionFields r e.body.start ++
  [.u32 e.body.duration] ++ positionFields r p.2 ++
  [.u8 (match e.body.content with
        | .media _ _ => 1
        | .live _ => 2),
   .u8 e.body.priority, .u8 e.status.code, .flag e.pinned, .flag e.amendment.isSome, .u8 e.body.secondaries.length]

/-! ### Lookups (section 2.9) -/

/-- READ ENTRY's answer (R41). -/
def readEntry (body : List Byte) (c : ChannelNo) (s : State) : Answer :=
  let ch := s.chan c
  match originOfCode (numAt body 1 1), numAt body 2 4 with
  | none, _ => refuse .badField s
  | some _, 0 => refuse .badField s
  | some o, id => 
    let k : EntryKey := { origin := o, id := id }
    match (spans ch.schedule).find? (fun p => decide (p.1.key = k)) with
    | none => refuse .notFound s
    | some p => accept (entryFields c ch.settings.rate p.1 p.2 (ch.schedule.findIdx (fun e => decide (e.key = k)) + 1)) s

/-- The position a FIND AT gives, and whether its label was clamped (R42, R184, R200). -/
def positionOf (r : RateCode) (body : List Byte) : Option (Nat × Bool) :=
  match numAt body 1 1, body.length with
  | 1, 7 => some (numAt body 2 5, false)
  | 2, 8 =>
    let l := labelAt body 4
    if validDay (numAt body 2 2) && l.valid r then some (absoluteFrame r (numAt body 2 2) l, l.namesSkipped r) else none
  | _, _ => none

/-- FIND AT's answer (R42; log 30). -/
def findAt (body : List Byte) (c : ChannelNo) (s : State) : Answer :=
  let ch := s.chan c
  match positionOf ch.settings.rate body with
  | none => refuse .badField s
  | some (x, clamped) =>
    match entryAt x ch.schedule with
    | none => refuse .notFound s
    | some p => acceptWith clamped (summaryFields ch.settings.rate p ++ [.u32 (x - p.1.body.start)]) s

/-- LIST's answer (R43): the summaries, then whether further entries follow. -/
def listEntries (body : List Byte) (c : ChannelNo) (s : State) : Answer :=
  let ch := s.chan c
  match originOfCode (numAt body 6 1) with
  | none => refuse .badField s
  | some o =>
    let count := numAt body 11 1
    if count < 1 ∨ 16 < count then refuse .badField s
    else
      let k : EntryKey := { origin := o, id := numAt body 7 4 }
      let rest := (spans ch.schedule).filter (fun p => sortsAtOrBefore (numAt body 1 5) k p.1.body.start p.1.key)
      let shown := rest.take count
      accept (shown.flatMap (summaryFields ch.settings.rate) ++ [.flag (decide (count < rest.length))]) s

/-! ### LOCAL entries (section 2.6) -/

/-- WRITE LOCAL's answer (R35). -/
def writeLocal (raw : RawBody) (c : ChannelNo) (s : State) : Answer :=
  let r := (s.chan c).settings.rate
  let answer := fun (o : CommandOutcome) (k : EntryKey) (t : State) =>
    acceptWith (raw.clamps r) [.u8 o.code, .u8 (((lookupEntry k (t.chan c).schedule).map Entry.status).getD .planned).code] t
  if !raw.valid r then refuse .badField s
  else
    let b := raw.convert r
    let k : EntryKey := { origin := .localEntry, id := b.entryId }
    match lookupEntry k (s.chan c).schedule with
    | some e => if e.inService then refuse .inService s else answer .replaced k (replaceEntry c k b s)
    | none =>
      if Config.scheduleLimit ≤ (s.chan c).schedule.length then refuse .full s
      else match requestSlot s with
        | none => refuse .full s
        | some t => answer .inserted k (joinEntry c .localEntry b t)

/-- A command that names an entry of one origin by a channel and an ID (R36, R38, R39). -/
def entryCommand (o : Origin) (body : List Byte) (run : ChannelNo → Entry → State → Answer) (s : State) : Answer :=
  withLength 5 body (withChannel body (fun c t =>
    let id := numAt body 1 4
    if id = 0 then refuse .badField t
    else match lookupEntry { origin := o, id := id } (t.chan c).schedule with
      | none => refuse .notFound t
      | some e => run c e t)) s

/-- DELETE LOCAL's answer for a listed entry (R36). -/
def deleteLocal (c : ChannelNo) (e : Entry) (s : State) : Answer :=
  if e.inService then refuse .inService s else accept [] (removeEntry c e.key s)

/-! ### Pinning (section 2.7) -/

/-- Write an entry's pinned mark: a change to the replicated set (R46). -/
def setPinned (c : ChannelNo) (k : EntryKey) (b : Bool) (s : State) : State :=
  abandonWalks c (setSchedule c (mapEntry k (fun e => { e with pinned := b }) (s.chan c).schedule) s)

/-- PIN's answer for a listed entry (R38). -/
def pinEntry (c : ChannelNo) (e : Entry) (s : State) : Answer :=
  accept [] (if e.pinned then s else setPinned c e.key true s)

/-- UNPIN's outcome for a listed entry (R39). -/
def unpinOutcome (e : Entry) : CommandOutcome :=
  if !e.pinned then .none
  else match e.amendment with
    | none => .none
    | some a =>
      if e.inService then .waiting
      else match a with
        | .body _ => .applied
        | .deletion => .deleted

/-- UNPIN's answer for a listed entry (R39). -/
def unpinEntry (c : ChannelNo) (e : Entry) (s : State) : Answer :=
  accept [.u8 (unpinOutcome e).code]
    (if !e.pinned then s
     else
       let t := setPinned c e.key false s
       if e.inService then t else applyAmendment c e.key t)

/-! ### Flushing (section 2.8) -/

/-- The selection takes the entry (R40). -/
def Selection.takes (x : Selection) (e : Entry) : Bool :=
  match x with
  | .all => true
  | .replicated => e.isReplicated
  | .localEntry => !e.isReplicated

/-- SST reports a flush of replicated entries to RSU (R101). -/
def flushReported (c : ChannelNo) (s : State) : State :=
  if (s.chan c).replState = .inStep then setReplication c .outOfStep .flush (s.chan c).attempts s else s

/-- FLUSH's answer (R40). -/
def flush (body : List Byte) (c : ChannelNo) (s : State) : Answer :=
  match selectionOfCode (numAt body 1 1) with
  | none => refuse .badField s
  | some x =>
    let matching := (s.chan c).schedule.filter x.takes
    let t := keepOnly c (fun p => !x.takes p.1 || p.1.inService) s
    accept [.u16 (matching.countP (fun e => !e.inService)), .u16 (matching.countP Entry.inService)]
      (if x = .localEntry then t else flushReported c t)

/-! ### The commands -/

/-- READ_ENTRY. -/
def execReadEntry (write : Write) (body : List Byte) (s : State) : Host.Outcome State Fault Refusal :=
  .next (portCommand write (withLength 6 body (withChannel body (readEntry body))) s)

/-- FIND_AT. -/
def execFindAt (write : Write) (body : List Byte) (s : State) : Host.Outcome State Fault Refusal :=
  .next (portCommand write (fun t =>
    if body.length = 7 ∨ body.length = 8 then withChannel body (findAt body) t else refuse .badField t) s)

/-- LIST. -/
def execList (write : Write) (body : List Byte) (s : State) : Host.Outcome State Fault Refusal :=
  .next (portCommand write (withLength 12 body (withChannel body (listEntries body))) s)

/-- WRITE_LOCAL. -/
def execWriteLocal (write : Write) (body : List Byte) (s : State) : Host.Outcome State Fault Refusal :=
  .next (portCommand write (fun t =>
    match body.length, parseEntryBody (body.drop 1) with
    | 0, _ => refuse .badField t
    | _, none => refuse .badField t
    | _, some raw => withChannel body (writeLocal raw) t) s)

/-- DELETE_LOCAL. -/
def execDeleteLocal (write : Write) (body : List Byte) (s : State) : Host.Outcome State Fault Refusal :=
  .next (portCommand write (entryCommand .localEntry body deleteLocal) s)

/-- PIN. -/
def execPin (write : Write) (body : List Byte) (s : State) : Host.Outcome State Fault Refusal :=
  .next (portCommand write (entryCommand .replicated body pinEntry) s)

/-- UNPIN. -/
def execUnpin (write : Write) (body : List Byte) (s : State) : Host.Outcome State Fault Refusal :=
  .next (portCommand write (entryCommand .replicated body unpinEntry) s)

/-- FLUSH. -/
def execFlush (write : Write) (body : List Byte) (s : State) : Host.Outcome State Fault Refusal :=
  .next (portCommand write (withLength 2 body (withChannel body (flush body))) s)

end Sys2Proof.Machine
end

