-- ==== Sys2Proof/Machine/Tick.lean ====
section
/-! DEFINITION. The millisecond tick (R11): the parts its owners take in it. -/

namespace Sys2Proof.Machine

/-- CTP's host-presence part of a tick (R130, R132). -/
def hostTick (s : State) : State :=
  if s.hostPresent ∧ s.device.hostSilenceS ≠ 0 then
    if 1000 * s.device.hostSilenceS ≤ s.hostTimer + 1 then
      hostAbsentAtCou (raiseEvent .hostAbsentChange { s with hostTimer := s.hostTimer + 1, hostPresent := false })
    else { s with hostTimer := s.hostTimer + 1 }
  else s

/-- The effect of one part of a tick. -/
def partTick (p : TickPart) (s : State) : State :=
  match p with
  | .sense l => senseTick l s
  | .link => linkTick s
  | .status => statusTick s
  | .snapshot => snapshotTick s
  | .walk => walkTick s
  | .take c => takeTick c s
  | .host => hostTick s

/-- A part of the latest tick is taken, if it has not been yet (log 3). -/
def takePart (p : TickPart) (s : State) : State :=
  if p ∈ s.tickDue then partTick p { s with tickDue := s.tickDue.erase p } else s

/-- A part is taken in the order the rules fix: the snapshot timer after the link's part of the same tick (R90). -/
def takePartInOrder (p : TickPart) (s : State) : State :=
  if p = .snapshot then takePart .snapshot (takePart .link s) else takePart p s

/-- The parts of a tick in the order the model takes them where no rule orders them (log 4): every line once the first tick
has passed (R109), and every take outstanding at the tick. -/
def tickParts (s : State) : List TickPart :=
  (if s.sampled then allLines.map TickPart.sense else []) ++ [.link, .status, .snapshot, .walk] ++
  ((allChannels.filter (fun c => (s.chan c).outstanding.isSome)).map TickPart.take) ++ [.host]

/-- The parts of a list are taken in turn, those held left out. -/
def takeParts (held ps : List TickPart) (s : State) : State :=
  ps.foldl (fun t p => if p ∈ held then t else takePartInOrder p t) s

/-- One tick: the samples are stored, and the parts that are not held are taken; those left over from the tick before are
taken first (log 3). -/
def msTick (levels : BitVec 16) (held : List TickPart) (s : State) : State :=
  let t := sampleLines levels (takeParts [] s.tickDue s)
  let ps := tickParts t
  let u := if t.sampled then t else firstLevels { t with sampled := true }
  takeParts held ps { u with tickDue := ps }

/-! ### The commands -/

/-- MS_TICK. -/
def execMsTick (levels : BitVec 16) (held : List TickPart) (s : State) : Host.Outcome State Fault Refusal :=
  .next (msTick levels held s)

/-- SENSE_LEVEL_CHANGE: SNS's part for one line (R110). -/
def execSenseLevelChange (l : LineNo) (s : State) : Host.Outcome State Fault Refusal :=
  .next (takePartInOrder (.sense l) s)

/-- LINK_TIMEOUT: RRX's silence part (R66). -/
def execLinkTimeout (s : State) : Host.Outcome State Fault Refusal :=
  .next (takePartInOrder .link s)

/-- STATUS_INTERVAL: RRX's status part (R83). -/
def execStatusInterval (s : State) : Host.Outcome State Fault Refusal :=
  .next (takePartInOrder .status s)

/-- SNAPSHOT_TIMEOUT: RSU's timer part (R90). -/
def execSnapshotTimeout (s : State) : Host.Outcome State Fault Refusal :=
  .next (takePartInOrder .snapshot s)

/-- ROUTER_TIMEOUT: RTA's part for one channel's outstanding take (R176). -/
def execRouterTimeout (c : ChannelNo) (s : State) : Host.Outcome State Fault Refusal :=
  .next (takePartInOrder (.take c) s)

/-- HOST_ABSENT: CTP's part (R130). -/
def execHostAbsent (s : State) : Host.Outcome State Fault Refusal :=
  .next (takePartInOrder .host s)

/-- DIGEST_WALK_COMPLETE: the walk engine's part (R103, R106). -/
def execDigestWalkComplete (s : State) : Host.Outcome State Fault Refusal :=
  .next (takePartInOrder .walk s)

end Sys2Proof.Machine
end

