-- ==== Sys2Proof/Machine/Dispatch.lean ====
section
/-! DEFINITION. The dispatch: each command runs its own meaning. -/

namespace Sys2Proof.Machine

/-- The effect of a command on everything but the queue. -/
def exec (i : Instr) (s : State) : Host.Outcome State Fault Refusal :=
  match i with
  | .deviceReset => Sys2Proof.Machine.execDeviceReset s
  | .referencePulse family instant mark grantsFirst held => Sys2Proof.Machine.execReferencePulse family instant mark grantsFirst held s
  | .referenceAbsence family grantsFirst held => Sys2Proof.Machine.execReferenceAbsence family grantsFirst held s
  | .synthesisedPulse family grantsFirst held => Sys2Proof.Machine.execSynthesisedPulse family grantsFirst held s
  | .entryRetirement channel => Sys2Proof.Machine.execEntryRetirement channel s
  | .hbSilenceLimit channel => Sys2Proof.Machine.execHbSilenceLimit channel s
  | .trip channel => Sys2Proof.Machine.execTrip channel s
  | .recovery channel => Sys2Proof.Machine.execRecovery channel s
  | .flapDecrement channel => Sys2Proof.Machine.execFlapDecrement channel s
  | .confirmWindowExpiry channel => Sys2Proof.Machine.execConfirmWindowExpiry channel s
  | .directiveDeadlineMissed channel => Sys2Proof.Machine.execDirectiveDeadlineMissed channel s
  | .editBudgetWindowEnd channel => Sys2Proof.Machine.execEditBudgetWindowEnd channel s
  | .msTick levels held => Sys2Proof.Machine.execMsTick levels held s
  | .senseLevelChange line => Sys2Proof.Machine.execSenseLevelChange line s
  | .linkTimeout => Sys2Proof.Machine.execLinkTimeout s
  | .statusInterval => Sys2Proof.Machine.execStatusInterval s
  | .snapshotTimeout => Sys2Proof.Machine.execSnapshotTimeout s
  | .routerTimeout channel => Sys2Proof.Machine.execRouterTimeout channel s
  | .hostAbsent => Sys2Proof.Machine.execHostAbsent s
  | .digestWalkComplete => Sys2Proof.Machine.execDigestWalkComplete s
  | .entryPut body => Sys2Proof.Machine.execEntryPut body s
  | .entryDrop body => Sys2Proof.Machine.execEntryDrop body s
  | .siteHeartbeat body => Sys2Proof.Machine.execSiteHeartbeat body s
  | .snapshotOpen body => Sys2Proof.Machine.execSnapshotOpen body s
  | .snapshotItem body => Sys2Proof.Machine.execSnapshotItem body s
  | .snapshotClose body => Sys2Proof.Machine.execSnapshotClose body s
  | .malformedMessage bytes => Sys2Proof.Machine.execMalformedMessage bytes s
  | .cueReady body => Sys2Proof.Machine.execCueReady body s
  | .cueFail body => Sys2Proof.Machine.execCueFail body s
  | .malformedCueReply bytes => Sys2Proof.Machine.execMalformedCueReply bytes s
  | .routerDone body => Sys2Proof.Machine.execRouterDone body s
  | .routerFail body => Sys2Proof.Machine.execRouterFail body s
  | .malformedRouterReply bytes => Sys2Proof.Machine.execMalformedRouterReply bytes s
  | .responseRead clocking => Sys2Proof.Machine.execResponseRead clocking s
  | .invalidTransaction first clocking => Sys2Proof.Machine.execInvalidTransaction first clocking s
  | .unknownCommand code write body => Sys2Proof.Machine.execUnknownCommand code write body s
  | .readEntry write body => Sys2Proof.Machine.execReadEntry write body s
  | .findAt write body => Sys2Proof.Machine.execFindAt write body s
  | .list write body => Sys2Proof.Machine.execList write body s
  | .writeLocal write body => Sys2Proof.Machine.execWriteLocal write body s
  | .deleteLocal write body => Sys2Proof.Machine.execDeleteLocal write body s
  | .pin write body => Sys2Proof.Machine.execPin write body s
  | .unpin write body => Sys2Proof.Machine.execUnpin write body s
  | .flush write body => Sys2Proof.Machine.execFlush write body s
  | .configureChannel write body => Sys2Proof.Machine.execConfigureChannel write body s
  | .readChannel write body => Sys2Proof.Machine.execReadChannel write body s
  | .clearChannel write body => Sys2Proof.Machine.execClearChannel write body s
  | .resync write body => Sys2Proof.Machine.execResync write body s
  | .take write body => Sys2Proof.Machine.execTake write body s
  | .decline write body => Sys2Proof.Machine.execDecline write body s
  | .giveback write body => Sys2Proof.Machine.execGiveback write body s
  | .returnNow write body => Sys2Proof.Machine.execReturnNow write body s
  | .abandon write body => Sys2Proof.Machine.execAbandon write body s
  | .releaseLatch write body => Sys2Proof.Machine.execReleaseLatch write body s
  | .setStationTime write body => Sys2Proof.Machine.execSetStationTime write body s
  | .readTime write body => Sys2Proof.Machine.execReadTime write body s
  | .configureDevice write body => Sys2Proof.Machine.execConfigureDevice write body s
  | .configureSenseLine write body => Sys2Proof.Machine.execConfigureSenseLine write body s
  | .readSenseLines write body => Sys2Proof.Machine.execReadSenseLines write body s
  | .readEvents write body => Sys2Proof.Machine.execReadEvents write body s
  | .linkRestart write body => Sys2Proof.Machine.execLinkRestart write body s
  | .noOp write body => Sys2Proof.Machine.execNoOp write body s
  | .incompleteCommandFrame frame => Sys2Proof.Machine.execIncompleteCommandFrame frame s

end Sys2Proof.Machine
end

