-- ==== Sys2Proof/Machine/Wire.lean ====
section
/-! DEFINITION. Which command the bytes on a link or on the control port are: the kind bytes of section 11.2, the transaction
bytes of section 11.6 and the command codes of section 10.3. -/

namespace Sys2Proof.Machine

/-! ### The three links (R196) -/

/-- The command that a message delivered on the replication link is, by its kind byte; a malformed one is MALFORMED_MESSAGE
(R64, R196, R198). -/
def ofReplication (bytes : List Byte) : Instr :=
  match replicationWellFormed bytes, bytes with
  | true, kind :: _ :: _ :: body =>
    match kind.toNat with
    | 0x01 => .entryPut body
    | 0x02 => .entryDrop body
    | 0x03 => .siteHeartbeat body
    | 0x04 => .snapshotOpen body
    | 0x05 => .snapshotItem body
    | 0x06 => .snapshotClose body
    | _ => .malformedMessage bytes
  | _, _ => .malformedMessage bytes

/-- The command that a message delivered on the cue link is: READY 0x28, FAIL 0x29, or malformed (R166, R196). -/
def ofCue (bytes : List Byte) : Instr :=
  match replyWellFormed 0x28 0x29 bytes, bytes with
  | true, kind :: _ :: _ :: body => if kind.toNat = 0x28 then .cueReady body else .cueFail body
  | _, _ => .malformedCueReply bytes

/-- The command that a message delivered on the router link is: DONE 0x38, FAIL 0x39, or malformed (R175, R196). -/
def ofRouter (bytes : List Byte) : Instr :=
  match replyWellFormed 0x38 0x39 bytes, bytes with
  | true, kind :: _ :: _ :: body => if kind.toNat = 0x38 then .routerDone body else .routerFail body
  | _, _ => .malformedRouterReply bytes

/-! ### The control port (R179, R181, R183, R200) -/

/-- The command of a whole frame, by its code (R184 to R190, R192); a code that is none of the 26 is UNKNOWN_COMMAND
(R183). -/
def ofCode (code : Byte) (write : Write) (body : List Byte) : Instr :=
  match code.toNat with
  | 0x10 => .readEntry write body
  | 0x11 => .findAt write body
  | 0x12 => .list write body
  | 0x13 => .writeLocal write body
  | 0x14 => .deleteLocal write body
  | 0x15 => .pin write body
  | 0x16 => .unpin write body
  | 0x17 => .flush write body
  | 0x20 => .configureChannel write body
  | 0x21 => .readChannel write body
  | 0x22 => .clearChannel write body
  | 0x23 => .resync write body
  | 0x30 => .take write body
  | 0x31 => .decline write body
  | 0x32 => .giveback write body
  | 0x33 => .returnNow write body
  | 0x34 => .abandon write body
  | 0x35 => .releaseLatch write body
  | 0x40 => .setStationTime write body
  | 0x41 => .readTime write body
  | 0x50 => .configureDevice write body
  | 0x51 => .configureSenseLine write body
  | 0x52 => .readSenseLines write body
  | 0x53 => .readEvents write body
  | 0x54 => .linkRestart write body
  | 0x55 => .noOp write body
  | _ => .unknownCommand code write body

/-- The command of a WRITE transaction, by the bytes after its transaction byte: a whole frame has the three header fields
and as many body bytes as they say (R181, R194). -/
def ofWrite (early : Bool) (bytes : List Byte) : Instr :=
  match wholeFrame bytes, bytes with
  | true, code :: tag :: _ :: body => ofCode code { tag := tag, early := early } body
  | _, _ => .incompleteCommandFrame { bytes := bytes, early := early }

/-- The command of a transaction of these bytes: WRITE 0x01, READ 0x02, anything else INVALID_TRANSACTION (R179, R182, R200).
One released before its first byte is none. -/
def ofTransaction (early : Bool) : List Byte → Option Instr
  | [] => none
  | first :: bytes =>
    if first = 0x01 then some (ofWrite early bytes)
    else if first = 0x02 then some (.responseRead { count := bytes.length, early := early })
    else some (.invalidTransaction first { count := bytes.length, early := early })

/-! ### Arrivals -/

/-- What a partner of the block sends it as bytes. -/
inductive Arrival where
  /-- A message the replication link delivers. -/
  | replication (bytes : List Byte)
  /-- A message the cue link delivers. -/
  | cue (bytes : List Byte)
  /-- A message the router link delivers. -/
  | router (bytes : List Byte)
  /-- A transaction of the host, and whether its chip select was asserted early (log 15). -/
  | transaction (early : Bool) (bytes : List Byte)
deriving DecidableEq, Repr

/-- The command an arrival is. -/
def Arrival.command : Arrival → Option Instr
  | .replication bytes => some (ofReplication bytes)
  | .cue bytes => some (ofCue bytes)
  | .router bytes => some (ofRouter bytes)
  | .transaction early bytes => ofTransaction early bytes

/-- An arrival puts its command at the end of the queue (log 2). -/
def State.arrives (a : Arrival) (s : State) : State :=
  { s with pending := s.pending ++ a.command.toList }

end Sys2Proof.Machine
end

