-- ==== Sys2Proof/WellFormed.lean ====
section
/-! DEFINITION. Which commands are well formed: those their row of the table can stand for. The meanings are total; this is
what a sender may send. -/

namespace Sys2Proof

/-- The command is one its row can stand for: message bodies have their kind's layout, malformed messages are malformed,
command bodies fit the one length byte, and no list of held parts names a part twice. -/
def Instr.wellFormed : Instr → Bool
  | .referencePulse _ _ _ _ held | .referenceAbsence _ _ held | .synthesisedPulse _ _ held => decide held.Nodup
  | .msTick _ held => decide held.Nodup
  | .entryPut body | .snapshotItem body => (Machine.parseEntryPut body).isSome
  | .entryDrop body => (Machine.parseEntryDrop body).isSome
  | .siteHeartbeat body => (Machine.parseHeartbeat body).isSome
  | .snapshotOpen body => (Machine.parseSnapshotOpen body).isSome
  | .snapshotClose body => (Machine.parseSnapshotClose body).isSome
  | .malformedMessage bytes => !Machine.replicationWellFormed bytes
  | .cueReady body | .cueFail body | .routerDone body | .routerFail body => (Machine.parseReply body).isSome
  | .malformedCueReply bytes => !Machine.replyWellFormed 0x28 0x29 bytes
  | .malformedRouterReply bytes => !Machine.replyWellFormed 0x38 0x39 bytes
  | .invalidTransaction first _ => decide (first ≠ 1) && decide (first ≠ 2)
  | .unknownCommand code _ body => decide (code.toNat ∉ Machine.commandCodes) && decide (body.length ≤ 255)
  | .incompleteCommandFrame frame => !Machine.wholeFrame frame.bytes
  | .readEntry _ body | .findAt _ body | .list _ body | .writeLocal _ body | .deleteLocal _ body | .pin _ body
  | .unpin _ body | .flush _ body | .configureChannel _ body | .readChannel _ body | .clearChannel _ body
  | .resync _ body | .take _ body | .decline _ body | .giveback _ body | .returnNow _ body | .abandon _ body
  | .releaseLatch _ body | .setStationTime _ body | .readTime _ body | .configureDevice _ body
  | .configureSenseLine _ body | .readSenseLines _ body | .readEvents _ body | .linkRestart _ body | .noOp _ body =>
    decide (body.length ≤ 255)
  | .deviceReset | .entryRetirement _ | .hbSilenceLimit _ | .trip _ | .recovery _ | .flapDecrement _
  | .confirmWindowExpiry _ | .directiveDeadlineMissed _ | .editBudgetWindowEnd _ | .senseLevelChange _ | .linkTimeout
  | .statusInterval | .snapshotTimeout | .routerTimeout _ | .hostAbsent | .digestWalkComplete | .responseRead _ => true

end Sys2Proof
end

