-- ==== Sys2Proof/Safety.lean ====
section
/-! DEFINITION. What counts as a safe run, and the laws the spec states of every state a run reaches, as one invariant. -/

namespace Sys2Proof

open Machine

/-- A step is safe when it answers a next state: the block neither faults nor refuses. -/
def Safe (s : Machine.State) : Prop :=
  ∃ t, Machine.step s = .next t

/-- A family record keeps its laws: the run is 0 to 8, the count never passes its saturation value, neither does the target
of a pending set, an UNSET family counts nothing, and a family that counts has a last counted pulse (R1, R2, R3, R18). -/
def FamilyLaw (f : FamilyRecord) : Prop :=
  f.goodRun ≤ Config.fullRun ∧ f.count ≤ Config.countLimit ∧ (∀ p ∈ f.pendingSet, p.target ≤ Config.countLimit) ∧
  (f.state = .unset → f.count = 0) ∧ (f.state ≠ .unset → f.lastCounted.isSome)

/-- A body held as an amendment has the ID of its entry (R37). -/
def AmendmentLaw (e : Entry) : Prop :=
  ∀ b, e.amendment = some (.body b) → b.entryId = e.body.entryId

/-- A schedule keeps its laws: in order, each name once, at most 1,024 entries, held bodies under their own names (R21, R25,
R26, R37). -/
def ScheduleLaw (es : List Entry) : Prop :=
  es.Pairwise (fun a b => sortsAtOrBefore a.body.start a.key b.body.start b.key = true) ∧ (es.map Entry.key).Nodup ∧
  es.length ≤ Config.scheduleLimit ∧ ∀ e ∈ es, AmendmentLaw e

/-- A channel keeps its laws: its settings lie in range and are converted at its rate (R52); a channel not PROTECTED is in
MIRROR (R55); the flap counter does not exceed the flap limit (R126); a hold-off mark belongs to a TRIPPED channel (R125);
PINNED_HELD says whether an entry carries an amendment (R57); the schedule keeps its own laws. -/
def ChannelLaw (ch : Channel) : Prop :=
  ch.settings.clamped = ch.settings ∧ ch.settings.convert = ch.settings ∧
  (ch.settings.mode ≠ .protectedMode → ch.changeover = .mirror) ∧ ch.flapCounter ≤ ch.settings.flapLimit ∧
  (ch.holdOff = true → ch.supervision = .tripped) ∧
  ch.pinnedHeld = ch.schedule.any (fun e => e.amendment.isSome) ∧ ScheduleLaw ch.schedule

/-- The take queue keeps its laws: at most one request per channel, in grant order (R169). -/
def TakesLaw (q : List Request) : Prop :=
  (q.map Request.channel).Nodup ∧ q.Pairwise (fun a b => grantsBefore a b = true)

/-- The slots listed in channel schedules. -/
def listedSlots (s : State) : Nat :=
  ∑ c : ChannelNo, (s.chan c).schedule.length

/-- The staged slots. -/
def stagedSlots (s : State) : Nat :=
  (s.assembly.map (fun a => a.staged.length)).getD 0

/-- The laws of a state in which `inHand` slots have been granted and stand in no schedule yet, as happens within an act. -/
structure InvWith (inHand : Nat) (s : State) : Prop where
  /-- Every channel keeps its laws. -/
  channels : ∀ c, ChannelLaw (s.chan c)
  /-- Both families keep their laws. -/
  families : ∀ fam, FamilyLaw (s.family fam)
  /-- The device-wide settings lie in range (R62). -/
  device : s.device.clamped = s.device
  /-- Listed, staged and free slots number 8,192 (R21). -/
  pool : listedSlots s + stagedSlots s + s.freeCount + inHand = Config.poolSlots
  /-- No two staged slots hold the same entry ID (R44). -/
  staged : ∀ a ∈ s.assembly, (a.staged.map Body.entryId).Nodup
  /-- The attention set holds each channel once (R59). -/
  attention : s.attention.Pairwise (fun a b => a < b)
  /-- The take queue keeps its laws. -/
  takes : TakesLaw s.takeQueue
  /-- The resync queue holds each channel at most once (R87). -/
  resync : s.resyncQueue.Nodup
  /-- The deferral queue holds at most 32 updates (R89). -/
  deferral : s.deferral.length ≤ Config.deferralLimit
  /-- The pending-walk list holds at most 8 records (R102). -/
  walks : s.pendingWalks.length ≤ Config.pendingWalkLimit
  /-- The pending-walk list holds at most one record for each channel (R102). -/
  walkChannels : (s.pendingWalks.map WalkRecord.channel).Nodup

/-- A channel's schedule keeps the laws of service: only a held channel, in PREPARING, TAKE_PENDING, ON_DR or RETURNING, has
an entry in service, and no two entries are AIRING (R30). -/
def ServiceLaw (ch : Channel) : Prop :=
  (∀ e ∈ ch.schedule, e.inService = true → ch.changeover.held = true) ∧
  ∀ e ∈ ch.schedule, ∀ d ∈ ch.schedule, e.status = .airing → d.status = .airing → e.key = d.key

/-- An assembly keeps its laws: its channel was UNSEEDED or OUT_OF_STEP before the ask, its next index follows the items
staged, and it has a resume sequence and an item count from its SNAPSHOT OPEN on and only from then on (R87, R89, R91,
R92). -/
def AssemblyLaw (a : Assembly) : Prop :=
  (a.stateBefore = .unseeded ∨ a.stateBefore = .outOfStep) ∧ a.nextIndex = a.staged.length + 1 ∧
  (a.phase = .awaitingOpen → a.resume = none ∧ a.expected = none ∧ a.staged = []) ∧
  (a.phase = .receiving → a.resume.isSome = true ∧ ∃ n ∈ a.expected, n ≤ Config.scheduleLimit ∧ a.staged.length ≤ n)

/-- The walk records held: the running walk's and the pending ones. -/
def walkRecords (s : State) : List WalkRecord :=
  (s.walk.map Walk.record).toList ++ s.pendingWalks

/-- The channel is not OFF. -/
def isOn (s : State) (c : ChannelNo) : Bool :=
  decide ((s.chan c).settings.mode ≠ .off)

/-- The deferred updates keep their laws: no sequence number twice, and each after the resume sequence of a snapshot that is
being received (R89, R94). -/
def DeferralLaw (s : State) : Prop :=
  (s.deferral.map Update.sequence).Nodup ∧
  ∀ u ∈ s.deferral, ∃ a ∈ s.assembly, a.phase = .receiving ∧
    ∃ r ∈ a.resume, 1 ≤ distance r u.sequence ∧ distance r u.sequence ≤ 32768

/-- The laws of a state between acts: those of `InvWith` with no slot in hand, and those that an act may break on its way. -/
structure Inv (s : State) : Prop extends InvWith 0 s where
  /-- Every channel keeps the laws of service. -/
  service : ∀ c, ServiceLaw (s.chan c)
  /-- While the host is ABSENT no channel waits for confirmation (R132). -/
  confirm : s.hostPresent = false → ∀ c, (s.chan c).changeover ≠ .awaitConfirm
  /-- A queued channel is UNSEEDED or OUT_OF_STEP, and not OFF (R87). -/
  queued : ∀ c ∈ s.resyncQueue, ((s.chan c).replState = .unseeded ∨ (s.chan c).replState = .outOfStep) ∧ isOn s c = true
  /-- A channel with a walk, pending or running, is IN_STEP, in MIRROR and not OFF (R104, R105). -/
  walking : ∀ r ∈ walkRecords s,
    (s.chan r.channel).replState = .inStep ∧ (s.chan r.channel).changeover = .mirror ∧ isOn s r.channel = true
  /-- No channel has two walks, pending or running (R102). -/
  walkOnce : ((walkRecords s).map WalkRecord.channel).Nodup
  /-- A channel is RESYNCING exactly while the assembly names it (R89). -/
  resyncing : ∀ c, (s.chan c).replState = .resyncing ↔ ∃ a ∈ s.assembly, a.channel = c
  /-- The assembly keeps its laws, and its channel is not OFF (R89, R99). -/
  assembling : ∀ a ∈ s.assembly, AssemblyLaw a ∧ isOn s a.channel = true
  /-- The deferred updates keep their laws. -/
  deferred : DeferralLaw s

end Sys2Proof
end

