-- ==== Sys2Proof/Certificates/Slice0/Obligations.lean ====
section
/-! DEFINITION. The statements for the provers. -/

open Sys2Proof Sys2Proof.Machine

/-! ### Words of the statements -/

namespace Sys2Proof.Says

/-- What a step or a meaning answers. -/
abbrev Out := Host.Outcome State Fault Refusal

/-- The state once a whole command frame has arrived: the port byte is shifted out, the host-presence timer restarts, an
absent host is back (R131, R179, R194). -/
def heard (early : Bool) (s : State) : State :=
  { s with
    portOut := [s.portByte early], hostTimer := 0, hostPresent := true
    events := if s.hostPresent then s.events else { s.events with hostAbsentChange := true } }

/-- A transaction has ended: ALERT stands as it leaves it (R180, log 15). -/
def ended (s : State) : State :=
  { s with alertBefore := s.alert }

/-- A transaction has ended with a response of this tag written into the slot. -/
def answered (tag : Byte) (st : Status) (clamped : Bool) (body : List Field) (t : State) : State :=
  ended { t with slot := some { tag := tag, status := st, clamped := clamped, body := body } }

/-- A frame is accepted: it leaves state `t` and answers OK. -/
def accepted (write : Write) (clamped : Bool) (body : List Field) (t : State) : Out :=
  .next (answered write.tag .ok clamped body t)

/-- A frame is refused with a status: none of the command's own effects, an empty body, the clamped indicator clear (R183). -/
def refused (write : Write) (st : Status) (s : State) : Out :=
  .next (answered write.tag st false [] (heard write.early s))

/-- The WRITE of a command that is one whole command frame: the 26 commands, and a frame of an unknown code. -/
def frameWrite : Instr → Option Write
  | .readEntry w _ | .findAt w _ | .list w _ | .writeLocal w _ | .deleteLocal w _ | .pin w _ | .unpin w _ | .flush w _
  | .configureChannel w _ | .readChannel w _ | .clearChannel w _ | .resync w _ | .take w _ | .decline w _ | .giveback w _
  | .returnNow w _ | .abandon w _ | .releaseLatch w _ | .setStationTime w _ | .readTime w _ | .configureDevice w _
  | .configureSenseLine w _ | .readSenseLines w _ | .readEvents w _ | .linkRestart w _ | .noOp w _ => some w
  | .unknownCommand code w _ => if code.toNat ∈ commandCodes then none else some w
  | _ => none

/-- The nine commands whose body is one channel number. -/
def oneChannelCommands (write : Write) (body : List Byte) : List Instr :=
  [.readChannel write body, .clearChannel write body, .resync write body, .take write body, .decline write body,
   .giveback write body, .returnNow write body, .abandon write body, .releaseLatch write body]

/-- The 26 command codes, each with its command (R184 to R190, R192). -/
def codeTable (write : Write) (body : List Byte) : List (Byte × Instr) :=
  [(0x10, .readEntry write body), (0x11, .findAt write body), (0x12, .list write body), (0x13, .writeLocal write body),
   (0x14, .deleteLocal write body), (0x15, .pin write body), (0x16, .unpin write body), (0x17, .flush write body),
   (0x20, .configureChannel write body), (0x21, .readChannel write body), (0x22, .clearChannel write body),
   (0x23, .resync write body), (0x30, .take write body), (0x31, .decline write body), (0x32, .giveback write body),
   (0x33, .returnNow write body), (0x34, .abandon write body), (0x35, .releaseLatch write body),
   (0x40, .setStationTime write body), (0x41, .readTime write body), (0x50, .configureDevice write body),
   (0x51, .configureSenseLine write body), (0x52, .readSenseLines write body), (0x53, .readEvents write body),
   (0x54, .linkRestart write body), (0x55, .noOp write body)]

/-- The inbound kinds of the replication link, each with whether a body has its layout and its command (section 11.4). -/
def replicationKinds (body : List Byte) : List (Byte × Bool × Instr) :=
  [(0x01, (parseEntryPut body).isSome, .entryPut body), (0x02, (parseEntryDrop body).isSome, .entryDrop body),
   (0x03, (parseHeartbeat body).isSome, .siteHeartbeat body), (0x04, (parseSnapshotOpen body).isSome, .snapshotOpen body),
   (0x05, (parseEntryPut body).isSome, .snapshotItem body), (0x06, (parseSnapshotClose body).isSome, .snapshotClose body)]

/-- The replies of the cue and the router link (section 11.5): the reader of the link's bytes, a reply's kind and command, and
what a malformed one is. -/
def replyKinds (body : List Byte) : List ((List Byte → Instr) × Byte × Instr × (List Byte → Instr)) :=
  [(ofCue, 0x28, .cueReady body, .malformedCueReply), (ofCue, 0x29, .cueFail body, .malformedCueReply),
   (ofRouter, 0x38, .routerDone body, .malformedRouterReply), (ofRouter, 0x39, .routerFail body, .malformedRouterReply)]

/-- The status that an entry of this effective end takes at a join or replacement (R28). -/
def joinStatus (frame : Option Nat) (effEnd : Nat) : EntryStatus :=
  match frame with
  | none => .planned
  | some f => if f < effEnd then .planned else .passed

/-- The schedule `es` is `old` with the entry `e` joined to it in order, under the status R28 gives it there (R26, R28). -/
def joined (frame : Option Nat) (e : Entry) (old es : List Entry) : Prop :=
  es.Perm (e :: old) ∧ ScheduleLaw es ∧ ∃ n, (e, n) ∈ spans es ∧ e.status = joinStatus frame n

/-- Some entry of the schedule carries an amendment (R57). -/
def anyAmendment (es : List Entry) : Bool :=
  es.any (fun e => e.amendment.isSome)

/-- Write a channel's schedule, and PINNED_HELD with it (R57). -/
def rescheduled (c : ChannelNo) (es : List Entry) (s : State) : State :=
  modChan c (fun ch => { ch with schedule := es, pinnedHeld := anyAmendment es }) s

/-- No block has a part of an earlier frame event still to take (log 3). -/
def quiet (s : State) : Prop :=
  ∀ c, (s.chan c).due = []

/-- Every block's part of every channel's frame event: the list that leaves all of them to the rows that follow (log 3). -/
def everyBlock : List (ChannelNo × Block) :=
  allChannels.flatMap (fun c => allBlocks.map (fun b => (c, b)))

/-- Every part of a tick. -/
def everyPart : List TickPart :=
  allLines.map TickPart.sense ++ [.link, .status, .snapshot, .walk, .host] ++ allChannels.map TickPart.take

/-- The channel's part of a frame event has begun at CSV: its settings are in effect and its silence has been counted
(R116, R117, log 18). -/
def csvBegun (c : ChannelNo) (s : State) : State :=
  modChan c (fun ch => { ch with
    due := ch.due.erase .csv
    inEffect := { ch.inEffect with
      sources := ch.settings.sources, vote := ch.settings.vote, hbLimit := ch.settings.hbLimit
      tripDelay := ch.settings.tripDelay, recovery := ch.settings.recovery, flapLimit := ch.settings.flapLimit
      flapDecrement := ch.settings.flapDecrement }
    hbSilence := min (ch.hbSilence + 1) 65535 }) s

/-- The channel's part of a frame event has begun at COU: its settings are in effect (R135, log 18). -/
def couBegun (c : ChannelNo) (s : State) : State :=
  modChan c (fun ch => { ch with
    due := ch.due.erase .cou
    inEffect := { ch.inEffect with
      takeover := ch.settings.takeover, giveback := ch.settings.giveback, doubt := ch.settings.doubt
      defaultPriority := ch.settings.defaultPriority, confirm := ch.settings.confirm, cueLead := ch.settings.cueLead
      minJoin := ch.settings.minJoin } }) s

/-- The channel's part of a frame event has begun at RRX: its edit budget is in effect (R70, log 18). -/
def rrxBegun (c : ChannelNo) (s : State) : State :=
  modChan c (fun ch => { ch with
    due := ch.due.erase .rrx, inEffect := { ch.inEffect with editBudget := ch.settings.editBudget } }) s

/-- A part of a tick has been taken from those due. -/
def partTaken (p : TickPart) (s : State) : State :=
  { s with tickDue := s.tickDue.erase p }

/-- A message has arrived while the link is UP: the silence count restarts (R66). -/
def delivered (s : State) : State :=
  { s with silence := 0 }

/-- The place of a directive just sent to start at frame `x`. -/
def placed (kind : PlaceKind) (entry : Option EntryKey) (x : Nat) (playEnd : Option Nat) : Place :=
  { kind := kind, entry := entry, rollFrame := x, playEnd := playEnd, reply := .awaiting, rolled := false }

/-- From state `s` the channel has entered PREPARING: the joining directive with this body went out to start at `r` under the
next tag, its place is `p`, and the schedule is now `es` (R141, R164, R165). -/
def takeoverBegun (c : ChannelNo) (r : Nat) (doubt : Bool) (body : DirectiveBody) (p : Place) (es : List Entry) (s t : State) : Prop :=
  t.chan c = { s.chan c with
    changeover := .preparing, decisionFrame := (s.chan c).frame, rollFrame := some r, cueRetryUsed := false
    routerRetryUsed := false, outputLost := false, barrier := none, current := some p, next := none, joined := p.entry
    doubt := doubt, currentTag := ((s.chan c).lastTag + 1) % 256, lastTag := ((s.chan c).lastTag + 1) % 256, schedule := es
    flags := { (s.chan c).flags with changeover := true } } ∧
  t.cueOut = s.cueOut ++ [{ channel := c, tag := ((s.chan c).lastTag + 1) % 256, rate := (s.chan c).settings.rate, frame := some r, body := body }] ∧
  c ∈ t.attention ∧ (∀ d, d ≠ c → t.chan d = s.chan d) ∧ t.takeQueue = s.takeQueue ∧ t.replicationOut = s.replicationOut

/-- The entry of that name with its status set. -/
def marked (k : EntryKey) (st : EntryStatus) (es : List Entry) : List Entry :=
  es.map (fun e => if e.key = k then { e with status := st } else e)

/-- The four parts of a channel's frame event, in the model's order (log 3). -/
def channelParts (c : ChannelNo) (s : State) : State :=
  takeBlock .cou c (takeBlock .csv c (takeBlock .rrx c (takeBlock .sst c s)))

/-- A new frame of the channel begins at this count of its family (R8, R9). -/
def begins (fam : Family) (f : FamilyRecord) (ch : Channel) : Prop :=
  ch.settings.rate.family = fam ∧ (ch.settings.rate.isDouble = true ∨ (f.count % 2 = 0 ↔ f.parity = .even))

/-- The rows by which CSV takes its part of the channel's frame event. -/
def csvRows (c : ChannelNo) : List Instr :=
  [.hbSilenceLimit c, .trip c, .recovery c, .flapDecrement c]

/-- The rows by which COU takes its part of the channel's frame event. -/
def couRows (c : ChannelNo) : List Instr :=
  [.confirmWindowExpiry c, .directiveDeadlineMissed c]

/-- The flap decrement of a HEALTHY channel at the end of a frame event (R127). -/
def flapped (ch : Channel) : Channel :=
  if ch.latched = true ∨ ch.flapCounter = 0 then { ch with flapTimer := 0 }
  else if ch.inEffect.flapDecrement ≤ ch.flapTimer + 1 then { ch with flapCounter := ch.flapCounter - 1, flapTimer := 0 }
  else { ch with flapTimer := ch.flapTimer + 1 }

/-- The update that a well-formed ENTRY PUT or ENTRY DROP carries, with its channel. -/
def updateOf : Instr → Option (ChannelNo × Update)
  | .entryPut body => (parseEntryPut body).map (fun x => (x.1, .put x.2.1 x.2.2))
  | .entryDrop body => (parseEntryDrop body).map (fun x => (x.1, .drop x.2.1 x.2.2))
  | _ => none

/-- A replication message whose body does not have the layout of its kind, or one delivered as malformed (R64, R196). -/
def malformedMessages (body : List Byte) : List Instr :=
  (if (parseEntryPut body).isNone then [.entryPut body, .snapshotItem body] else [] : List Instr) ++
  (if (parseEntryDrop body).isNone then [.entryDrop body] else [] : List Instr) ++
  (if (parseHeartbeat body).isNone then [.siteHeartbeat body] else [] : List Instr) ++
  (if (parseSnapshotOpen body).isNone then [.snapshotOpen body] else [] : List Instr) ++
  (if (parseSnapshotClose body).isNone then [.snapshotClose body] else [] : List Instr) ++
  (if replicationWellFormed body then [] else [.malformedMessage body] : List Instr)

/-- An update has been consumed: its sequence is the last applied, the window's count goes up where it counts, and the walks of
the channel are abandoned (R57, R70, R72). -/
def consumed (c : ChannelNo) (counted : Bool) (seq : Nat) (s : State) : State :=
  abandonWalks c (modChan c (fun ch => { ch with
    lastApplied := some seq
    budget := if counted then { ch.budget with updates := min (ch.budget.updates + 1) 255 } else ch.budget }) s)

/-- A channel's schedule once an amendment has been written into it: DIVERGENCE is raised when PINNED_HELD becomes set (R57). -/
def amended (c : ChannelNo) (es : List Entry) (s : State) : State :=
  rescheduled c es (if (s.chan c).pinnedHeld then s else raise c .divergence s)

/-- A snapshot's channel has lost it: staged slots freed, assembly and deferral queue empty (R89). -/
def dropped (a : Assembly) (s : State) : State :=
  freeSlots a.staged.length { s with assembly := none, deferral := [] }

/-- A STANDBY STATUS of the state has been sent (R83, R84). -/
def statusSent (s : State) : State :=
  { s with
    statusNumber := (s.statusNumber + 1) % 65536
    replicationOut := s.replicationOut ++ [.standbyStatus s.statusNumber
      ((allChannels.filter (fun c => decide ((s.chan c).settings.mode ≠ .off))).map (fun c =>
        let ch := s.chan c
        { channel := c, mode := ch.settings.mode, changeover := ch.changeover, replState := ch.replState,
          lastApplied := ch.lastApplied, latched := ch.latched }))] }

/-- The link has become UP, before its messages leave (R66). -/
def linkedUp (s : State) : State :=
  { s with linkUp := true, statusCount := 0, events := { s.events with linkDownChange := true } }

/-- The doubt mark clears at a frame event of a held channel that is IN_STEP (R144). -/
def doubtCleared (c : ChannelNo) (s : State) : State :=
  if (s.chan c).replState = .inStep then modChan c (fun ch => { ch with doubt := false }) s else s

/-- A STANDBY has been sent into the channel's next place to start at frame `x`, under the next tag (R154, R165). -/
def standbyNext (c : ChannelNo) (x : Nat) (s : State) : State :=
  let tag := ((s.chan c).lastTag + 1) % 256
  let t := modChan c (fun ch => { ch with next := some (placed .standby none x none), nextTag := tag, lastTag := tag }) s
  { t with cueOut := s.cueOut ++ [{ channel := c, tag := tag, rate := (s.chan c).settings.rate, frame := some x, body := .standby }] }

/-- The frames at which the current item may end and the next entry may start, of which the transition is the earlier (R152). Where
the entry of the current place is no longer listed, its play end alone counts (log 36). -/
def transitionFrame (ch : Channel) (f x : Nat) : Prop :=
  (∃ p e, ch.current = some p ∧ p.playEnd = some e ∧
    ((∃ k n, p.entry = some k ∧ endOf k ch.schedule = some n ∧ x = min e n) ∨
     ((∀ k, p.entry = some k → endOf k ch.schedule = none) ∧ x = e))) ∨
  (∃ e n, (e, n) ∈ spans ch.schedule ∧ f < x ∧ (∀ p, ch.current = some p → p.rollFrame < x) ∧ e.body.start = x ∧
    e.status = .planned ∧ x < n)

/-- Router pulses in one frame of a channel of the other family, as a ratio (R146). -/
def pulsesPerFrame : RateCode → Nat × Nat
  | .r25 => (2400, 1001)
  | .r50 => (1200, 1001)
  | .r30d | .r30n => (1001, 600)
  | .r60d | .r60n => (1001, 1200)

/-- After a commit's deferred updates: one left over, or a noted gap, puts a channel still IN_STEP OUT_OF_STEP (R97). -/
def afterUpdates (c : ChannelNo) (gapNoted : Bool) (rest : List Update) (s : State) : State :=
  if (s.chan c).replState = .inStep ∧ (gapNoted = true ∨ rest ≠ []) then fallOut c .gap s else s

/-- The sequence number of an update. -/
def numberOfUpdate : Update → Nat
  | .put n _ => n
  | .drop n _ => n

/-- What a message leaves once its content has been taken: a link that was DOWN becomes UP (R66; log 8). -/
def arrived (wasUp : Bool) (s : State) : State :=
  if wasUp then s else linkComesUp s

/-- The level of one bit of the samples. -/
def sampled (levels : BitVec 16) (l : LineNo) : Level :=
  if levels.getLsbD l.val then .high else .low

end Sys2Proof.Says

open Sys2Proof.Says

/-! ### The queue, safety, the laws of every state -/

/-- A step takes the command at the front of the queue and runs it on the state with the queue's rest. -/
def Obligations.StepTakesFrontCommand : Prop :=
  ∀ (c : Instr) (rest : List Instr) (s : State), s.pending = c :: rest → step s = exec c { s with pending := rest }

/-- Every command, with every operand and in every state, answers a next state; and on an empty queue the block idles, which is the
model's choice (log 2). So every step is safe. -/
def Obligations.EveryStepAnswersNext : Prop :=
  (∀ (i : Instr) (s : State), ∃ t, exec i s = .next t) ∧ (∀ s : State, s.pending = [] → step s = .next s) ∧ ∀ s : State, Safe s

/-- DEVICE_RESET leaves the reset state and the waiting commands (log 2), whatever the state before; and what the reset state
holds of the reset values the chapters give. -/
def Obligations.DeviceResetPlacesResetValues : Prop :=
  ∀ s : State, ∃ t, exec .deviceReset s = .next t ∧ t = { State.reset with pending := s.pending } ∧
    (∀ fam, (t.family fam).state = .unset ∧ (t.family fam).count = 0 ∧ (t.family fam).parity = .even ∧ (t.family fam).goodRun = 0 ∧
      (t.family fam).lastReference = none ∧ (t.family fam).lastCounted = none ∧ (t.family fam).pendingSet = none) ∧
    t.freeCount = 8192 ∧ t.aging = .normal ∧
    (∀ c, (t.chan c).schedule = [] ∧ (t.chan c).settings = .reset ∧ (t.chan c).retention = 90000 ∧ (t.chan c).frame = none ∧
      (t.chan c).replState = .unseeded ∧ (t.chan c).cause = .none ∧ (t.chan c).lastApplied = none ∧ (t.chan c).attempts = 0 ∧
      (t.chan c).supervision = .healthy ∧ (t.chan c).listing = .none ∧ (t.chan c).hbSilence = 0 ∧ (t.chan c).flapCounter = 0 ∧
      (t.chan c).latched = false ∧ (t.chan c).holdOff = false ∧ (t.chan c).changeover = .mirror ∧ (t.chan c).current = none ∧
      (t.chan c).next = none ∧ (t.chan c).lastTag = 0 ∧ (t.chan c).takeTag = 0 ∧ (t.chan c).outstanding = none ∧
      (t.chan c).flags = .clear) ∧
    t.linkUp = false ∧ t.silence = 0 ∧ t.statusCount = 0 ∧ t.statusNumber = 0 ∧ t.resyncQueue = [] ∧ t.assembly = none ∧
    t.deferral = [] ∧ t.pendingWalks = [] ∧ t.walk = none ∧ (∀ l, t.line l = .reset) ∧ t.device = .reset ∧ t.takeQueue = [] ∧
    t.hostPresent = true ∧ t.hostTimer = 0 ∧ t.slot = none ∧ t.ready = false ∧ t.alert = false

/-- The laws hold of the state after reset. -/
def Obligations.LawsHoldAtReset : Prop :=
  Inv State.reset

/-- Every step keeps the laws. Of the store: schedules in order with one entry a name and at most 1,024; listed, staged and free
slots 8,192. Of the channels: settings in range and converted, the flap counter within its limit, hold-off only on a TRIPPED
channel, MIRROR outside PROTECTED, PINNED_HELD telling of amendments, counts within their saturation. Of service: an entry in
service only in a held state, at most one AIRING. While the host is ABSENT no channel in AWAIT_CONFIRM. Of the queues: each within
its bound and without repeats, the take queue in grant order, queued channels UNSEEDED or OUT_OF_STEP and not OFF, walks of
channels IN_STEP and in MIRROR, one a channel, a channel RESYNCING exactly while the assembly names it, deferred updates with
distinct numbers after the resume sequence. -/
def Obligations.EveryStepKeepsLaws : Prop :=
  ∀ s t : State, Inv s → step s = .next t → Inv t

/-! ### The control port -/

/-- A whole command frame that arrives while a response waits is BUSY: nothing changes but the host's presence, and the port
byte is shifted out. What is shifted out is the model's list `portOut` (log 15). -/
def Obligations.FrameWhilePendingIsBusy : Prop :=
  ∀ (i : Instr) (write : Write) (s : State), frameWrite i = some write → s.slot.isSome → exec i s = .next (ended (heard write.early s))

/-- A whole command frame that finds the slot EMPTY is answered in the slot under its own tag, and one that is refused leaves
everything else as the frame's arrival left it. -/
def Obligations.FrameIsAnsweredUnderItsTag : Prop :=
  ∀ (i : Instr) (write : Write) (s : State), frameWrite i = some write → s.slot = none →
    ∃ t r, exec i s = .next t ∧ t.slot = some r ∧ r.tag = write.tag ∧
      (r.status ≠ .ok → t = answered write.tag r.status false [] (heard write.early s))

/-- Which command a transaction is: a WRITE that is one whole frame is the command of its code, or UNKNOWN_COMMAND; any other WRITE is
INCOMPLETE_COMMAND_FRAME; a READ is RESPONSE_READ; any other first byte is INVALID_TRANSACTION. A WRITE whose header is incomplete
is discarded; one whose body length disagrees with its header is answered BAD_FIELD under its tag when the slot is EMPTY; a
transaction that names neither WRITE nor READ shifts out the port byte and zeros. None of these three changes any other state, and
none touches host presence. What a WRITE shifts out after the port byte, and the mark of the level of ALERT that the transaction
leaves, are the model's (log 15). -/
def Obligations.BrokenTransactions : Prop :=
  (∀ (early : Bool) (code tag len : Byte) (body : List Byte), body.length = len.toNat →
    (∀ p ∈ codeTable { tag := tag, early := early } body, code = p.1 →
      ofTransaction early (0x01 :: code :: tag :: len :: body) = some p.2) ∧
    ((∀ p ∈ codeTable { tag := tag, early := early } body, code ≠ p.1) →
      ofTransaction early (0x01 :: code :: tag :: len :: body) = some (.unknownCommand code { tag := tag, early := early } body) ∧
      code.toNat ∉ commandCodes)) ∧
  (∀ (early : Bool) (bytes : List Byte), bytes.length < 3 →
    ofTransaction early (0x01 :: bytes) = some (.incompleteCommandFrame { bytes := bytes, early := early })) ∧
  (∀ (early : Bool) (code tag len : Byte) (body : List Byte), body.length ≠ len.toNat →
    ofTransaction early (0x01 :: code :: tag :: len :: body) =
      some (.incompleteCommandFrame { bytes := code :: tag :: len :: body, early := early })) ∧
  (∀ (early : Bool) (bytes : List Byte),
    ofTransaction early (0x02 :: bytes) = some (.responseRead { count := bytes.length, early := early }) ∧
    ofTransaction early [] = none ∧
    ∀ first : Byte, first ≠ 1 → first ≠ 2 →
      ofTransaction early (first :: bytes) = some (.invalidTransaction first { count := bytes.length, early := early })) ∧
  (∀ (early : Bool) (s : State),
    (∀ bytes : List Byte, bytes.length < 3 →
      exec (.incompleteCommandFrame { bytes := bytes, early := early }) s = .next (ended { s with portOut := [s.portByte early] })) ∧
    (∀ (code tag len : Byte) (body : List Byte), body.length ≠ len.toNat →
      (s.slot = none → exec (.incompleteCommandFrame { bytes := code :: tag :: len :: body, early := early }) s =
        .next (answered tag .badField false [] { s with portOut := [s.portByte early] })) ∧
      (s.slot.isSome → exec (.incompleteCommandFrame { bytes := code :: tag :: len :: body, early := early }) s =
        .next (ended { s with portOut := [s.portByte early] }))) ∧
    (∀ (first : Byte) (n : Nat), first ≠ 1 → first ≠ 2 →
      exec (.invalidTransaction first { count := n, early := early }) s =
        .next (ended { s with portOut := s.portByte early :: List.replicate n 0 })))

/-- A READ with the slot EMPTY clocks out zeros and changes nothing; with a response waiting it clocks the response from its
first byte, and zeros beyond its end; it empties the slot exactly when every byte of the response was clocked. Host presence
is not touched. (The bytes shifted out and the level of ALERT that the transaction leaves are marks of the model's, log 15.) -/
def Obligations.ReadTransactionClocksResponse : Prop :=
  ∀ (n : Nat) (early : Bool) (s : State),
    (let out := exec (.responseRead { count := n, early := early }) s
     (s.slot = none → out = .next (ended { s with portOut := s.portByte early :: List.replicate n 0 })) ∧
     (∀ r, s.slot = some r → n < r.encode.length →
       out = .next (ended { s with portOut := s.portByte early :: r.encode.take n })) ∧
     (∀ r, s.slot = some r → r.encode.length ≤ n →
       out = .next (ended { s with
         portOut := s.portByte early :: (r.encode ++ List.replicate (n - r.encode.length) 0), slot := none })))

/-- NO-OP with the slot EMPTY answers OK with its own body, byte for byte, and changes nothing but the host's presence. -/
def Obligations.NoOpEchoesItsBody : Prop :=
  ∀ (write : Write) (body : List Byte) (s : State), s.slot = none → body.length ≤ 255 →
    exec (.noOp write body) s = accepted write false [.bytes body] (heard write.early s)

/-- Frames refused for their code, their length or their channel number, each with its status. That a FIND AT of length 7 or 8 with a
channel outside 0 to 63 is refused with BAD_CHANNEL whatever its form byte is read from the rules (log 30). -/
def Obligations.FramesRefusedBeforeTheirOwnChecks : Prop :=
  ∀ (write : Write) (body : List Byte) (s : State), s.slot = none →
    (∀ code : Byte, code.toNat ∉ commandCodes → exec (.unknownCommand code write body) s = refused write .badField s) ∧
    (body.length ≠ 1 → ∀ i ∈ .readTime write body :: oneChannelCommands write body, exec i s = refused write .badField s) ∧
    (body.length = 1 → 64 ≤ numAt body 0 1 → ∀ i ∈ oneChannelCommands write body, exec i s = refused write .badChannel s) ∧
    (body.length ≠ 0 → ∀ i ∈ [Instr.readSenseLines write body, .readEvents write body, .linkRestart write body],
      exec i s = refused write .badField s) ∧
    (body.length ≠ 5 → ∀ i ∈ [Instr.deleteLocal write body, .pin write body, .unpin write body], exec i s = refused write .badField s) ∧
    (body.length = 5 → 64 ≤ numAt body 0 1 →
      ∀ i ∈ [Instr.deleteLocal write body, .pin write body, .unpin write body], exec i s = refused write .badChannel s) ∧
    (body.length ≠ 2 → exec (.flush write body) s = refused write .badField s) ∧
    (body.length = 2 → 64 ≤ numAt body 0 1 → exec (.flush write body) s = refused write .badChannel s) ∧
    (body.length ≠ 6 → ∀ i ∈ [Instr.readEntry write body, .configureSenseLine write body], exec i s = refused write .badField s) ∧
    (body.length = 6 → 64 ≤ numAt body 0 1 → exec (.readEntry write body) s = refused write .badChannel s) ∧
    (body.length ≠ 7 → body.length ≠ 8 → exec (.findAt write body) s = refused write .badField s) ∧
    (body.length = 7 ∨ body.length = 8 → 64 ≤ numAt body 0 1 → exec (.findAt write body) s = refused write .badChannel s) ∧
    (body.length ≠ 12 → exec (.list write body) s = refused write .badField s) ∧
    (body.length = 12 → 64 ≤ numAt body 0 1 → exec (.list write body) s = refused write .badChannel s) ∧
    (body.length ≠ 33 → exec (.configureChannel write body) s = refused write .badField s) ∧
    (body.length = 33 → 64 ≤ numAt body 0 1 → exec (.configureChannel write body) s = refused write .badChannel s) ∧
    (body.length ≠ 8 → exec (.setStationTime write body) s = refused write .badField s) ∧
    (body.length ≠ 17 → exec (.configureDevice write body) s = refused write .badField s) ∧
    (parseEntryBody (body.drop 1) = none ∨ body = [] → exec (.writeLocal write body) s = refused write .badField s) ∧
    ((parseEntryBody (body.drop 1)).isSome → 64 ≤ numAt body 0 1 → exec (.writeLocal write body) s = refused write .badChannel s)

/-- READ EVENTS answers with the flags, the attention set, the link, the host's presence and timer, and the pool, as they stand
when it is taken, and clears the flags and empties the set, so that ALERT falls. The width and the telling of the response's
fields are the model's where the spec gives none (log 16), and so is that the timer reported is the one this frame restarted (log 37). -/
def Obligations.ReadEventsCollectsEvents : Prop :=
  ∀ (write : Write) (s : State), s.slot = none →
    (let e := (heard write.early s).events
     exec (.readEvents write []) s =
      accepted write false
        (([.flag e.linkMalformed, .flag e.linkDownChange, .flag e.refLoss, .flag e.refRelock, .flag e.refPhase, .flag e.poolLow,
           .flag e.hostAbsentChange] : List Field) ++
         allChannels.map (fun c => Field.flag (decide (c ∈ s.attention))) ++
         ([.u8 (if s.linkUp then 1 else 0), .u8 0, .u32 0, .u16 s.freeCount, .u8 (if s.aging = .fast then 1 else 0)] : List Field))
        { heard write.early s with events := .clear, attention := [] }) ∧
    ({ heard write.early s with events := .clear, attention := [] } : State).alert = false

/-- The port byte tells whether a response waits (bit 0) and the level of ALERT when chip select was asserted (bit 1); its other bits
are 0. ALERT is asserted exactly while a device event flag is set or the attention set holds a channel. A chip select asserted
early found the level that the transaction before left, which every transaction leaves for the next (log 15). Raising a change flag
sets that flag and no other, puts the channel in the attention set and takes none out, and changes nothing else. -/
def Obligations.AlertFollowsTheFlags : Prop :=
  (∀ (early : Bool) (s : State),
    (s.portByte early).getLsbD 0 = s.slot.isSome ∧
    (s.portByte early).getLsbD 1 = (if early then s.alertBefore else s.alert) ∧
    (∀ n, 2 ≤ n → (s.portByte early).getLsbD n = false) ∧
    (s.alert = true ↔
      s.events.linkMalformed = true ∨ s.events.linkDownChange = true ∨ s.events.refLoss = true ∨ s.events.refRelock = true ∨
      s.events.refPhase = true ∨ s.events.poolLow = true ∨ s.events.hostAbsentChange = true ∨ s.attention ≠ [])) ∧
  (∀ (i : Instr) (write : Write) (s t : State), frameWrite i = some write → exec i s = .next t → t.alertBefore = t.alert) ∧
  (∀ (c : ChannelNo) (f : ChangeFlag) (s : State),
    (raise c f s).chan c = { s.chan c with flags := ((raise c f s).chan c).flags } ∧
    (∀ g, ((raise c f s).chan c).flags.has g = (decide (g = f) || (s.chan c).flags.has g)) ∧
    (∀ d, d ≠ c → (raise c f s).chan d = s.chan d) ∧
    (∀ d, d ∈ (raise c f s).attention ↔ d = c ∨ d ∈ s.attention) ∧
    raise c f s = { s with channels := (raise c f s).channels, attention := (raise c f s).attention })

/-! ### The schedule store -/

/-- In a schedule in order, an entry whose effective span contains a frame is the one that a lookup at that frame finds. -/
def Obligations.LookupFindsTheSpanningEntry : Prop :=
  ∀ (es : List Entry) (e : Entry) (n x : Nat),
    es.Pairwise (fun a b => sortsAtOrBefore a.body.start a.key b.body.start b.key = true) →
    (e, n) ∈ spans es → e.body.start ≤ x → x < n → entryAt x es = some (e, n)

/-- READ ENTRY answers with the entry, its effective end and its place counted from 1, or NOT_FOUND, or BAD_FIELD for an
origin or ID outside its values, and changes nothing. The width and the telling of the response's fields are the model's
where the spec gives none (log 16). -/
def Obligations.ReadEntryAnswers : Prop :=
  ∀ (write : Write) (body : List Byte) (c : ChannelNo) (s : State), s.slot = none → body.length = 6 →
    channelOf (numAt body 0 1) = some c →
    (originOfCode (numAt body 1 1) = none ∨ numAt body 2 4 = 0 → exec (.readEntry write body) s = refused write .badField s) ∧
    (∀ o, originOfCode (numAt body 1 1) = some o → numAt body 2 4 ≠ 0 →
      (∀ e ∈ (s.chan c).schedule, e.key ≠ { origin := o, id := numAt body 2 4 }) →
      exec (.readEntry write body) s = refused write .notFound s) ∧
    (∀ o pre e post, originOfCode (numAt body 1 1) = some o → numAt body 2 4 ≠ 0 →
      (s.chan c).schedule = pre ++ e :: post → e.key = { origin := o, id := numAt body 2 4 } → (∀ d ∈ pre, d.key ≠ e.key) →
      exec (.readEntry write body) s =
        accepted write false
          (entryFields c (s.chan c).settings.rate e (effectiveEnd e post.head?) (pre.length + 1)) (heard write.early s))

/-- FIND AT answers with the summary of the entry whose span contains the position and the offset from its start, or
NOT_FOUND, in either form of position; a body whose form is not that of its length and a label that is invalid are refused and one that names a skipped number is clamped with
the indicator set; it changes nothing. The width and the telling of the response's fields are the model's where the spec
gives none (log 16). The order of the refusals is read from the rules (log 30). -/
def Obligations.FindAtAnswers : Prop :=
  ∀ (write : Write) (body : List Byte) (c : ChannelNo) (s : State), s.slot = none → channelOf (numAt body 0 1) = some c →
    (let r := (s.chan c).settings.rate
     let es := (s.chan c).schedule
     let x := numAt body 2 5
     let day := numAt body 2 2
     let l := labelAt body 4
     let y := absoluteFrame r day l
     (body.length = 7 → numAt body 1 1 = 1 → ∀ e n, entryAt x es = some (e, n) →
        exec (.findAt write body) s = accepted write false (summaryFields r (e, n) ++ [.u32 (x - e.body.start)]) (heard write.early s)) ∧
     (body.length = 7 → numAt body 1 1 = 1 → entryAt x es = none → exec (.findAt write body) s = refused write .notFound s) ∧
     (body.length = 8 → numAt body 1 1 = 2 → day ≤ 9999 → l.valid r = true → ∀ e n, entryAt y es = some (e, n) →
        exec (.findAt write body) s =
          accepted write (l.namesSkipped r) (summaryFields r (e, n) ++ [.u32 (y - e.body.start)]) (heard write.early s)) ∧
     (body.length = 8 → numAt body 1 1 = 2 → day ≤ 9999 → l.valid r = true → entryAt y es = none →
        exec (.findAt write body) s = refused write .notFound s) ∧
     (body.length = 8 → numAt body 1 1 = 2 → (9999 < day ∨ l.valid r = false) →
        exec (.findAt write body) s = refused write .badField s) ∧
     ((body.length = 7 ∧ numAt body 1 1 ≠ 1) ∨ (body.length = 8 ∧ numAt body 1 1 ≠ 2) →
        exec (.findAt write body) s = refused write .badField s))

/-- LIST answers with the entries at or after the cursor, in schedule order, up to the count given, and whether more follow;
an origin or a count outside its values is refused; it changes nothing. The width and the telling of the response's fields
are the model's where the spec gives none (log 16). -/
def Obligations.ListAnswers : Prop :=
  ∀ (write : Write) (body : List Byte) (c : ChannelNo) (s : State), s.slot = none → body.length = 12 →
    channelOf (numAt body 0 1) = some c →
    (originOfCode (numAt body 6 1) = none ∨ numAt body 11 1 = 0 ∨ 16 < numAt body 11 1 →
      exec (.list write body) s = refused write .badField s) ∧
    (∀ o, originOfCode (numAt body 6 1) = some o → 1 ≤ numAt body 11 1 → numAt body 11 1 ≤ 16 →
      (let rest := (spans (s.chan c).schedule).filter
         (fun p => sortsAtOrBefore (numAt body 1 5) { origin := o, id := numAt body 7 4 } p.1.body.start p.1.key)
       exec (.list write body) s =
        accepted write false
          ((rest.take (numAt body 11 1)).flatMap (summaryFields (s.chan c).settings.rate) ++
            [.flag (decide (numAt body 11 1 < rest.length))]) (heard write.early s)))

/-- When an entry body is valid, what it clamps, and its record form. WRITE LOCAL with a valid body: a new ID joins the schedule on a
slot the pool grants, an ID already LOCAL and not in service is replaced and takes its new place, and either has its status
computed there; refusals change nothing. The width and the telling of the response's fields are the model's where the spec gives
none (log 16). -/
def Obligations.WriteLocalInsertsOrReplaces : Prop :=
  (∀ (r : RateCode) (b : RawBody),
    (let n := min b.duration r.framesPerDay
     (b.valid r = true ↔
       b.entryId ≠ 0 ∧ b.day ≤ 9999 ∧ b.label.valid r = true ∧ b.duration ≠ 0 ∧ (b.kind = 1 ∨ b.kind = 2) ∧
       (b.kind = 1 → b.somLabel.valid r = true) ∧ (b.kind = 2 → 1 ≤ b.source ∧ b.source ≤ 1023) ∧ b.priority ≤ 3 ∧
       b.secondaries.length ≤ 4 ∧ ∀ x ∈ b.secondaries, 1 ≤ x.key ∧ x.key ≤ 255 ∧ x.duration ≠ 0 ∧ x.offset < n) ∧
     (b.clamps r = true ↔
       (b.label.valid r = true ∧ b.label.namesSkipped r = true) ∨
       (b.kind = 1 ∧ b.somLabel.valid r = true ∧ b.somLabel.namesSkipped r = true) ∨ r.framesPerDay < b.duration) ∧
     b.convert r = { entryId := b.entryId, revision := b.revision, start := b.day * r.framesPerDay + b.label.frameOfDay r
                     duration := n
                     content := if b.kind = 1 then .media b.reference (b.somLabel.frameOfDay r) else .live b.source
                     priority := b.priority, secondaries := b.secondaries })) ∧
  (∀ (write : Write) (body : List Byte) (c : ChannelNo) (raw : RawBody) (s : State), InvWith 0 s → s.slot = none → body ≠ [] →
    channelOf (numAt body 0 1) = some c → parseEntryBody (body.drop 1) = some raw →
    (let r := (s.chan c).settings.rate
     let key : EntryKey := { origin := .localEntry, id := raw.entryId }
     (raw.valid r = false → exec (.writeLocal write body) s = refused write .badField s) ∧
     (raw.valid r = true → (∀ e ∈ (s.chan c).schedule, e.key ≠ key) → 1024 ≤ (s.chan c).schedule.length →
        exec (.writeLocal write body) s = refused write .full s) ∧
     (raw.valid r = true → (∀ e ∈ (s.chan c).schedule, e.key ≠ key) → (s.chan c).schedule.length < 1024 →
        requestSlot (heard write.early s) = none → exec (.writeLocal write body) s = refused write .full s) ∧
     (∀ u, raw.valid r = true → (∀ e ∈ (s.chan c).schedule, e.key ≠ key) → (s.chan c).schedule.length < 1024 →
        requestSlot (heard write.early s) = some u →
        ∃ e es, e = { origin := .localEntry, body := raw.convert r, status := e.status, pinned := false, amendment := none } ∧
          joined (u.chan c).frame e (u.chan c).schedule es ∧
          exec (.writeLocal write body) s =
            accepted write (raw.clamps r) [.u8 1, .u8 e.status.code] (rescheduled c es u)) ∧
     (∀ pre d post, raw.valid r = true → (s.chan c).schedule = pre ++ d :: post → d.key = key → d.inService = true →
        exec (.writeLocal write body) s = refused write .inService s) ∧
     (∀ pre d post, raw.valid r = true → (s.chan c).schedule = pre ++ d :: post → d.key = key → d.inService = false →
        ∃ e es, e = { d with body := raw.convert r, status := e.status, amendment := none } ∧
          joined (s.chan c).frame e (pre ++ post) es ∧
          exec (.writeLocal write body) s =
            accepted write (raw.clamps r) [.u8 2, .u8 e.status.code] (rescheduled c es (heard write.early s)))))

/-- A slot request with free slots is granted at once; with none, the oldest DONE or PASSED entry of the pool is retired and
its slot granted; with none of those, the request fails. -/
def Obligations.SlotRequestsAreGrantedOrAged : Prop :=
  ∀ s : State,
    (0 < s.freeCount → requestSlot s = some (grantSlot s)) ∧
    (s.freeCount = 0 → (∀ c, ∀ e ∈ (s.chan c).schedule, e.isOver = false) → requestSlot s = none) ∧
    (∀ c e, s.freeCount = 0 → e ∈ (s.chan c).schedule → e.isOver = true →
      ∃ d f n, (f, n) ∈ spans (s.chan d).schedule ∧ f.isOver = true ∧ requestSlot s = some (grantSlot (removeEntry d f.key s)) ∧
        ∀ c' e' n', (e', n') ∈ spans (s.chan c').schedule → e'.isOver = true → ∀ x, (s.chan c').frame = some x →
          ∃ y, (s.chan d).frame = some y ∧ (x : Int) - n' ≤ (y : Int) - n) ∧
    (∀ t, t = grantSlot s → 0 < s.freeCount →
      t.freeCount + 1 = s.freeCount ∧ t.channels = s.channels ∧
      (s.aging = .normal → s.freeCount ≤ 256 → t.aging = .fast ∧ t.events.poolLow = true) ∧
      (s.aging = .normal → 256 < s.freeCount → t = { s with freeCount := s.freeCount - 1 }) ∧
      (s.aging = .fast → t = { s with freeCount := s.freeCount - 1 }))

/-- DELETE LOCAL removes the LOCAL entry it names and frees its slot, unless it is in service; it leaves the walks and every
other entry, the REPLICATED one of that ID among them, as they stand. -/
def Obligations.DeleteLocalRemovesEntry : Prop :=
  ∀ (write : Write) (body : List Byte) (s : State), InvWith 0 s → s.slot = none → body.length = 5 →
    (64 ≤ numAt body 0 1 → exec (.deleteLocal write body) s = refused write .badChannel s) ∧
    (∀ c, channelOf (numAt body 0 1) = some c →
     let key : EntryKey := { origin := .localEntry, id := numAt body 1 4 }
     (numAt body 1 4 = 0 → exec (.deleteLocal write body) s = refused write .badField s) ∧
     (numAt body 1 4 ≠ 0 → (∀ e ∈ (s.chan c).schedule, e.key ≠ key) → exec (.deleteLocal write body) s = refused write .notFound s) ∧
     (∀ pre e post, numAt body 1 4 ≠ 0 → (s.chan c).schedule = pre ++ e :: post → e.key = key → e.inService = true →
        exec (.deleteLocal write body) s = refused write .inService s) ∧
     (∀ pre e post, numAt body 1 4 ≠ 0 → (s.chan c).schedule = pre ++ e :: post → e.key = key → e.inService = false →
        exec (.deleteLocal write body) s = accepted write false [] (freeSlots 1 (rescheduled c (pre ++ post) (heard write.early s)))))

/-- PIN marks the REPLICATED entry it names, which abandons the channel's walks, and changes nothing for a pinned one. UNPIN's
table: nothing for an entry not pinned; the mark cleared and nothing more without an amendment; an amendment left waiting in
service; out of service a body replaces the entry and a deletion removes it. The width and the telling of the response's
fields are the model's where the spec gives none (log 16). -/
def Obligations.PinAndUnpin : Prop :=
  ∀ (write : Write) (body : List Byte) (c : ChannelNo) (s : State), InvWith 0 s → s.slot = none → body.length = 5 →
    channelOf (numAt body 0 1) = some c →
    (let key : EntryKey := { origin := .replicated, id := numAt body 1 4 }
     (numAt body 1 4 = 0 → exec (.pin write body) s = refused write .badField s ∧ exec (.unpin write body) s = refused write .badField s) ∧
     (numAt body 1 4 ≠ 0 → (∀ e ∈ (s.chan c).schedule, e.key ≠ key) →
        exec (.pin write body) s = refused write .notFound s ∧ exec (.unpin write body) s = refused write .notFound s) ∧
     (∀ pre e post, numAt body 1 4 ≠ 0 → (s.chan c).schedule = pre ++ e :: post → e.key = key →
        (e.pinned = true → exec (.pin write body) s = accepted write false [] (heard write.early s)) ∧
        (e.pinned = false →
          exec (.pin write body) s =
            accepted write false [] (abandonWalks c (rescheduled c (pre ++ ({ e with pinned := true } : Entry) :: post) (heard write.early s)))) ∧
        (e.pinned = false → exec (.unpin write body) s = accepted write false [.u8 0] (heard write.early s)) ∧
        (e.pinned = true → e.amendment = none →
          exec (.unpin write body) s =
            accepted write false [.u8 0] (abandonWalks c (rescheduled c (pre ++ ({ e with pinned := false } : Entry) :: post) (heard write.early s)))) ∧
        (e.pinned = true → e.amendment.isSome → e.inService = true →
          exec (.unpin write body) s =
            accepted write false [.u8 5] (abandonWalks c (rescheduled c (pre ++ ({ e with pinned := false } : Entry) :: post) (heard write.early s)))) ∧
        (∀ b, e.pinned = true → e.amendment = some (.body b) → e.inService = false →
          ∃ d es, d = { e with body := b, status := d.status, pinned := false, amendment := none } ∧
            joined (s.chan c).frame d (pre ++ post) es ∧
            exec (.unpin write body) s = accepted write false [.u8 3] (abandonWalks c (rescheduled c es (heard write.early s)))) ∧
        (e.pinned = true → e.amendment = some .deletion → e.inService = false →
          exec (.unpin write body) s =
            accepted write false [.u8 4] (abandonWalks c (freeSlots 1 (rescheduled c (pre ++ post) (heard write.early s)))))))

/-- FLUSH frees every matching entry that is not in service and reports both counts; freeing a REPLICATED entry abandons the
channel's walks; a flush of REPLICATED or ALL puts an IN_STEP channel OUT_OF_STEP with cause FLUSH and does not queue it. The
width and the telling of the response's fields are the model's where the spec gives none (log 16). -/
def Obligations.FlushFreesMatchingEntries : Prop :=
  ∀ (write : Write) (body : List Byte) (c : ChannelNo) (s : State), InvWith 0 s → s.slot = none → body.length = 2 →
    channelOf (numAt body 0 1) = some c →
    (selectionOfCode (numAt body 1 1) = none → exec (.flush write body) s = refused write .badField s) ∧
    (∀ x, selectionOfCode (numAt body 1 1) = some x →
      (let es := (s.chan c).schedule
       let kept := es.filter (fun e => !x.takes e || e.inService)
       let gone := es.filter (fun e => x.takes e && !e.inService)
       let t := freeSlots gone.length (rescheduled c kept (heard write.early s))
       let u := if gone.any Entry.isReplicated then abandonWalks c t else t
       exec (.flush write body) s =
        accepted write false [.u16 gone.length, .u16 (es.filter (fun e => x.takes e && e.inService)).length]
          (if x ≠ .localEntry ∧ (s.chan c).replState = .inStep then setReplication c .outOfStep .flush (s.chan c).attempts u else u)))

/-! ### The channel records and their commands -/

/-- CONFIGURE CHANNEL's checks, and what it stores when it changes neither the rate code nor whether the channel is OFF: every
field as given, numeric ones brought into range, each converted setting also in frames of the rate code; a flap limit below
the counter lowers the counter. The width and the telling of the response's fields are the model's where the spec gives none
(log 16). -/
def Obligations.ConfigureChannelStores : Prop :=
  ∀ (write : Write) (body : List Byte) (c : ChannelNo) (s : State), s.slot = none → body.length = 33 →
    channelOf (numAt body 0 1) = some c →
    (let old := (s.chan c).settings
     (settingsOf body = none → exec (.configureChannel write body) s = refused write .badField s) ∧
     (∀ g, settingsOf body = some g → g.rate ≠ old.rate → old.mode ≠ .off ∨ g.mode ≠ .off →
        exec (.configureChannel write body) s = refused write .state s) ∧
     (∀ g, settingsOf body = some g → old.mode = .protectedMode → g.mode ≠ .protectedMode → (s.chan c).changeover ≠ .mirror →
        exec (.configureChannel write body) s = refused write .state s) ∧
     (∀ g, settingsOf body = some g → g.mode = .protectedMode → (s.family g.rate.family).state = .unset →
        exec (.configureChannel write body) s = refused write .state s) ∧
     (∀ g, settingsOf body = some g → g.rate = old.rate → (g.mode = .off ↔ old.mode = .off) →
        (old.mode = .protectedMode → g.mode ≠ .protectedMode → (s.chan c).changeover = .mirror) →
        (g.mode = .protectedMode → (s.family g.rate.family).state ≠ .unset) →
        (let stored := g.clamped.convert
         exec (.configureChannel write body) s =
          accepted write (decide (g.clamped ≠ g)) (settingsFields stored)
            (modChan c (fun ch => { ch with settings := stored, flapCounter := min ch.flapCounter stored.flapLimit }) (heard write.early s)) ∧
         stored.hbLimitMs = min 60000 (max 40 (numAt body 9 4)) ∧ stored.tripDelayMs = min 60000 (numAt body 13 4) ∧
         stored.recoveryMs = min 600000 (numAt body 17 4) ∧ stored.confirmMs = min 60000 (numAt body 21 4) ∧
         stored.cueLead = min 250 (max 1 (numAt body 25 2)) ∧ stored.minJoin = min 1000 (numAt body 27 2) ∧
         stored.flapLimit = min 15 (numAt body 29 1) ∧ stored.flapDecrementS = min 3600 (max 1 (numAt body 30 2)) ∧
         stored.defaultPriority = min 3 (numAt body 6 1) ∧
         stored.hbLimit = msToFrames g.rate stored.hbLimitMs ∧ stored.tripDelay = msToFrames g.rate stored.tripDelayMs ∧
         stored.recovery = msToFrames g.rate stored.recoveryMs ∧ stored.confirm = msToFrames g.rate stored.confirmMs ∧
         stored.flapDecrement = msToFrames g.rate (1000 * stored.flapDecrementS))))

/-- A CONFIGURE CHANNEL that moves a channel into OFF takes it out of the resync queue, the assembly and the walks, puts a
RESYNCING channel OUT_OF_STEP and keeps its schedule; one that moves it out of OFF settles it by its replication state; one
that changes the rate code empties the schedule, reconverts the retention and resets the fields counted in frames; its current frame
is then NONE in an UNSET family, and otherwise the number its latest frame event carried (log 32). The width and the telling of
the response's fields are the model's where the spec gives none (log 16). -/
def Obligations.ConfigureChannelMoves : Prop :=
  ∀ (write : Write) (body : List Byte) (c : ChannelNo) (g : Settings) (s : State), s.slot = none → body.length = 33 →
    channelOf (numAt body 0 1) = some c → settingsOf body = some g →
    (let old := (s.chan c).settings
     let ch := s.chan c
     let stored := g.clamped.convert
     let reply := fun t => accepted write (decide (g.clamped ≠ g)) (settingsFields stored) t
     let u := modChan c (fun x => { x with settings := stored, flapCounter := min x.flapCounter stored.flapLimit }) (heard write.early s)
     (old.mode ≠ .off → g.mode = .off → g.rate = old.rate → (old.mode = .protectedMode → ch.changeover = .mirror) →
        ∃ t, exec (.configureChannel write body) s = reply t ∧ (t.chan c).settings = stored ∧ c ∉ t.resyncQueue ∧
          (∀ a ∈ t.assembly, a.channel ≠ c) ∧ (∀ r ∈ t.pendingWalks, r.channel ≠ c) ∧ (∀ w ∈ t.walk, w.record.channel ≠ c) ∧
          (t.chan c).replState = (if ch.replState = .resyncing then .outOfStep else ch.replState) ∧
          (t.chan c).cause = ch.cause ∧ (t.chan c).attempts = ch.attempts ∧ (t.chan c).lastApplied = ch.lastApplied ∧
          (∀ d, (t.chan d).schedule = (s.chan d).schedule)) ∧
     (old.mode = .off → g.mode ≠ .off → g.rate = old.rate →
        (g.mode = .protectedMode → (s.family g.rate.family).state ≠ .unset) →
        (ch.replState = .unseeded → exec (.configureChannel write body) s = reply (enqueue c u)) ∧
        (ch.replState = .inStep →
          exec (.configureChannel write body) s = reply (enqueue c (setReplication c .outOfStep .gap ch.attempts u))) ∧
        (ch.replState = .outOfStep → ch.cause = .flush → exec (.configureChannel write body) s = reply u) ∧
        (ch.replState = .outOfStep → ch.cause ≠ .flush → exec (.configureChannel write body) s = reply (enqueue c u)) ∧
        (ch.replState = .stale ∨ ch.replState = .resyncing → exec (.configureChannel write body) s = reply u)) ∧
     (old.mode = .off → g.mode = .off → g.rate ≠ old.rate →
        ∃ t, exec (.configureChannel write body) s = reply t ∧ t.freeCount = s.freeCount + ch.schedule.length ∧
          t.chan c = { ch with
            settings := stored, flapCounter := min ch.flapCounter stored.flapLimit, schedule := [], pinnedHeld := false
            retention := secondsToFrames g.rate s.device.retentionS
            frame := if (s.family g.rate.family).state = .unset then none else ch.eventFrame
            tripTimer := 0, recoveryTimer := 0, flapTimer := 0, hbSilence := 0
            decisionFrame := none, rollFrame := none, takeLatency := none, windowRestart := true, lastAgreed := none } ∧
          (∀ d, d ≠ c → t.chan d = s.chan d)))

/-- READ CHANNEL answers with the whole record as it stands, empties the channel's change flags and takes it out of the
attention set. The width and the telling of the response's fields are the model's where the spec gives none (log 16). -/
def Obligations.ReadChannelAnswers : Prop :=
  ∀ (write : Write) (body : List Byte) (c : ChannelNo) (s : State), s.slot = none → body.length = 1 →
    channelOf (numAt body 0 1) = some c →
    exec (.readChannel write body) s =
      accepted write false (channelFields s c)
        (modChan c (fun ch => { ch with flags := .clear })
          { heard write.early s with attention := s.attention.filter (fun d => decide (d ≠ c)) })

/-- CLEAR CHANNEL is refused outside MIRROR. In MIRROR it answers with the number of entries freed; the schedule, the staged
slots of the channel and its place in every queue go; every runtime field takes its cleared value, the configuration, the
retention, the current frame and the take tag stay; a channel not in OFF raises REPLICATION and asks for a snapshot. The
width and the telling of the response's fields are the model's where the spec gives none (log 16). -/
def Obligations.ClearChannelClears : Prop :=
  ∀ (write : Write) (body : List Byte) (c : ChannelNo) (s : State), s.slot = none → body.length = 1 →
    channelOf (numAt body 0 1) = some c →
    ((s.chan c).changeover ≠ .mirror → exec (.clearChannel write body) s = refused write .state s) ∧
    ((s.chan c).changeover = .mirror →
      ∃ t, exec (.clearChannel write body) s = accepted write false [.u16 (s.chan c).schedule.length] t ∧
        (s.chan c).cleared = { Channel.reset with
          settings := (s.chan c).settings, retention := (s.chan c).retention, inEffect := (s.chan c).inEffect
          frame := (s.chan c).frame, eventFrame := (s.chan c).eventFrame, due := (s.chan c).due, windowRestart := (s.chan c).windowRestart
          takeTag := (s.chan c).takeTag } ∧
        t.freeCount = s.freeCount + (s.chan c).schedule.length +
          ((s.assembly.filter (fun a => decide (a.channel = c))).map (fun a => a.staged.length)).getD 0 ∧
        (∀ r ∈ t.takeQueue, r.channel ≠ c) ∧ (∀ r ∈ s.takeQueue, r.channel ≠ c → r ∈ t.takeQueue) ∧
        (∀ r ∈ t.pendingWalks, r.channel ≠ c) ∧ (∀ w ∈ t.walk, w.record.channel ≠ c) ∧
        (∀ d, d ≠ c → (t.chan d).schedule = (s.chan d).schedule ∧ (t.chan d).settings = (s.chan d).settings) ∧
        ((s.chan c).settings.mode = .off →
          t.chan c = (s.chan c).cleared ∧ c ∉ t.resyncQueue ∧ c ∉ t.attention ∧ (∀ a ∈ t.assembly, a.channel ≠ c)) ∧
        ((s.chan c).settings.mode ≠ .off →
          t.chan c = { (s.chan c).cleared with
            flags := { ChangeFlags.clear with replication := true }, replState := (t.chan c).replState } ∧
          c ∈ t.attention ∧
          (((t.chan c).replState = .unseeded ∧ c ∈ t.resyncQueue) ∨
            ((t.chan c).replState = .resyncing ∧ ∃ a, t.assembly = some a ∧ a.channel = c ∧ a.phase = .awaitingOpen))))

/-- RESYNC: refused in OFF and IN_STEP; in progress for a RESYNCING channel; already queued for a waiting one, the attempts
starting again; queued otherwise, a STALE channel going OUT_OF_STEP with its cause kept. The width and the telling of the
response's fields are the model's where the spec gives none (log 16). -/
def Obligations.ResyncQueuesChannel : Prop :=
  ∀ (write : Write) (body : List Byte) (c : ChannelNo) (s : State), s.slot = none → body.length = 1 →
    channelOf (numAt body 0 1) = some c →
    (let ch := s.chan c
     (ch.settings.mode = .off ∨ ch.replState = .inStep → exec (.resync write body) s = refused write .state s) ∧
     (ch.settings.mode ≠ .off → ch.replState = .resyncing → exec (.resync write body) s = accepted write false [.u8 8] (heard write.early s)) ∧
     (ch.settings.mode ≠ .off → ch.replState = .unseeded ∨ ch.replState = .outOfStep → c ∈ s.resyncQueue →
        exec (.resync write body) s = accepted write false [.u8 9] (setReplication c ch.replState ch.cause 0 (heard write.early s))) ∧
     (ch.settings.mode ≠ .off → ch.replState = .unseeded ∨ ch.replState = .outOfStep → c ∉ s.resyncQueue →
        exec (.resync write body) s = accepted write false [.u8 10] (enqueue c (setReplication c ch.replState ch.cause 0 (heard write.early s)))) ∧
     (ch.settings.mode ≠ .off → ch.replState = .stale →
        exec (.resync write body) s = accepted write false [.u8 10] (enqueue c (setReplication c .outOfStep ch.cause 0 (heard write.early s)))))

/-- A channel's replication state, cause or attempts change with its REPLICATION flag, and leaving IN_STEP leaves no walk of the
channel; a channel joins the resync queue at the tail, once; and the head of the queue is asked for exactly when the link is UP and no
snapshot is in assembly. The next index of an assembly before its OPEN is 1 (log 25). -/
def Obligations.ReplicationStateAndQueue : Prop :=
  ∀ (c : ChannelNo) (s : State),
    (∀ st cause n, let t := setReplication c st cause n s
      t.chan c = { s.chan c with replState := st, cause := cause, attempts := n, flags := (t.chan c).flags } ∧
      ((s.chan c).replState ≠ st ∨ (s.chan c).cause ≠ cause ∨ (s.chan c).attempts ≠ n →
        (t.chan c).flags = { (s.chan c).flags with replication := true } ∧ c ∈ t.attention) ∧
      ((s.chan c).replState = st → (s.chan c).cause = cause → (s.chan c).attempts = n → t = s) ∧
      (∀ d, d ≠ c → t.chan d = s.chan d) ∧
      ((s.chan c).replState = .inStep → st ≠ .inStep →
        (∀ r ∈ t.pendingWalks, r.channel ≠ c) ∧ ∀ w ∈ t.walk, w.record.channel ≠ c)) ∧
    enqueue c s = serve { s with resyncQueue := if c ∈ s.resyncQueue then s.resyncQueue else s.resyncQueue ++ [c] } ∧
    ((s.resyncQueue = [] ∨ s.linkUp = false ∨ s.assembly ≠ none → serve s = s) ∧
     (∀ d rest, s.resyncQueue = d :: rest → s.linkUp = true → s.assembly = none →
        serve s = setReplication d .resyncing (s.chan d).cause (s.chan d).attempts
          { s with
            resyncQueue := rest
            assembly := some { channel := d, phase := .awaitingOpen, stateBefore := (s.chan d).replState,
                               causeBefore := (s.chan d).cause, resume := none, expected := none, nextIndex := 1, timer := 0,
                               gapNoted := false, staged := [] }
            replicationOut := s.replicationOut ++ [.resyncAsk d (s.chan d).cause (s.chan d).lastApplied] }))

/-! ### The changeover commands -/

/-- TAKE of a PROTECTED channel in MIRROR, AWAIT_CONFIRM or STRANDED enters PREPARING at the current frame. In doubt, with no
PLANNED entry at the roll frame, or with a MEDIA entry whose rest is too short (which is passed over), a STANDBY goes out; a
MEDIA entry is joined at its in-point for what is left of it, a LIVE entry likewise, and is CUED. (A channel that has had no
frame event has no current frame: then its number here is a free value, log 6.) The width and the telling of the response's
fields are the model's where the spec gives none (log 16). The confirm timer keeps its count (log 28), and the joined entry is a field of its own
(log 22). What secondaries a directive carries is said for those that start before their entry's effective end (log 35). -/
def Obligations.TakeStartsTakeover : Prop :=
  (∀ (write : Write) (body : List Byte) (c : ChannelNo) (s : State), InvWith 0 s → s.slot = none → body.length = 1 →
    channelOf (numAt body 0 1) = some c → (s.chan c).settings.mode = .protectedMode →
    (s.chan c).changeover = .mirror ∨ (s.chan c).changeover = .awaitConfirm ∨ (s.chan c).changeover = .stranded →
    (let ch := s.chan c
     let r := s.frameNow c + ch.inEffect.cueLead
     let es := ch.schedule
     let inDoubt := ch.replState ≠ .inStep ∧
       (ch.inEffect.doubt = .standby ∨ ((ch.replState = .unseeded ∨ ch.replState = .stale) ∧ es = []))
     let reply := fun (kind : Nat) (rest : List Field) (t : State) =>
       accepted write false ([.u8 6, .frame ch.frame, .frame (some r), .u8 kind] ++ rest) t
     (inDoubt → ∃ t, exec (.take write body) s = reply 3 [] t ∧
        takeoverBegun c r true .standby (placed .standby none r none) es s t) ∧
     (¬inDoubt → (∀ e n, entryAt r es = some (e, n) → e.status ≠ .planned) → ∃ t, exec (.take write body) s = reply 3 [] t ∧
        takeoverBegun c r false .standby (placed .standby none r none) es s t) ∧
     (∀ e n reference som, ¬inDoubt → entryAt r es = some (e, n) → e.status = .planned → e.body.content = .media reference som →
        n - r < ch.inEffect.minJoin → ∃ t, exec (.take write body) s = reply 3 [] t ∧
          takeoverBegun c r false .standby (placed .standby none r none) (marked e.key .passed es) s t) ∧
     (∀ e n reference som, ¬inDoubt → entryAt r es = some (e, n) → e.status = .planned → e.body.content = .media reference som →
        ch.inEffect.minJoin ≤ n - r → ∃ t,
          exec (.take write body) s =
            reply 1 [.u8 e.origin.code, .u32 e.body.entryId, .u32 (som + (r - e.body.start))] t ∧
          takeoverBegun c r false (.roll reference (som + (r - e.body.start)) (n - r) (secondariesFor e n r))
            (placed .roll (some e.key) r (some n)) (marked e.key .cued es) s t) ∧
     (∀ e n source, ¬inDoubt → entryAt r es = some (e, n) → e.status = .planned → e.body.content = .live source → ∃ t,
          exec (.take write body) s = reply 2 [.u8 e.origin.code, .u32 e.body.entryId] t ∧
          takeoverBegun c r false (.live source (n - r) (secondariesFor e n r)) (placed .live (some e.key) r (some n))
            (marked e.key .cued es) s t))) ∧
  (∀ (e : Entry) (n x : Nat), (∀ q ∈ e.body.secondaries, e.body.start + q.offset ≤ n) →
    (let last := fun q : Secondary => min (e.body.start + q.offset + q.duration) n
     secondariesFor e n x = (e.body.secondaries.filter (fun q => decide (x < last q))).map (fun q =>
       { offset := e.body.start + q.offset - x, key := q.key, duration := last q - max (e.body.start + q.offset) x })))

/-- TAKE answers ALREADY in PREPARING and TAKE_PENDING and changes nothing; it is refused in ON_DR and RETURNING, and for a
channel that is not PROTECTED. DECLINE in AWAIT_CONFIRM returns the channel to MIRROR with its confirm timer 0, the hold-off mark
set when it is TRIPPED, and CHANGEOVER raised; in every other state it is refused. ABANDON does the same in STRANDED, leaving the
timer as it stands. The width and the telling of the response's fields are the model's where the spec gives none (log 16). -/
def Obligations.TakeTurnedAwayDeclineAndAbandon : Prop :=
  ∀ (write : Write) (body : List Byte) (c : ChannelNo) (s : State), s.slot = none → body.length = 1 →
    channelOf (numAt body 0 1) = some c →
    ((s.chan c).settings.mode ≠ .protectedMode → exec (.take write body) s = refused write .state s) ∧
    ((s.chan c).changeover = .onDr ∨ (s.chan c).changeover = .returning → exec (.take write body) s = refused write .state s) ∧
    ((s.chan c).settings.mode = .protectedMode → (s.chan c).changeover = .preparing ∨ (s.chan c).changeover = .takePending →
      exec (.take write body) s = accepted write false [.u8 7] (heard write.early s)) ∧
    ((s.chan c).changeover = .awaitConfirm → exec (.decline write body) s = accepted write false []
      (raise c .changeover (modChan c (fun ch => { ch with
        changeover := .mirror, confirmTimer := 0
        holdOff := if ch.supervision = .tripped then true else ch.holdOff }) (heard write.early s)))) ∧
    ((s.chan c).changeover ≠ .awaitConfirm → exec (.decline write body) s = refused write .state s) ∧
    ((s.chan c).changeover = .stranded → exec (.abandon write body) s = accepted write false []
      (raise c .changeover (modChan c (fun ch => { ch with
        changeover := .mirror, holdOff := if ch.supervision = .tripped then true else ch.holdOff }) (heard write.early s)))) ∧
    ((s.chan c).changeover ≠ .stranded → exec (.abandon write body) s = refused write .state s)

/-- GIVEBACK in ON_DR enters RETURNING with the boundary the next directive or the plan step gives and requests the take to
MAIN for it; RETURN NOW requests it at once, moving a request that still waits and leaving a take that has gone out; both are
refused elsewhere. A boundary that is the current frame is NONE where there is none; the release pulse and the plan step then
compute with a free value, and `settleFrameNow` only counts it used up (log 6). The telling of a position of NONE in the
response is the model's (log 16). The boundary in doubt is the current frame (log 20). The release pulse is said for a channel
of either family. -/
def Obligations.GivebackAndReturnNow : Prop :=
  ∀ (write : Write) (body : List Byte) (c : ChannelNo) (s : State), s.slot = none → body.length = 1 →
    channelOf (numAt body 0 1) = some c →
    (let ch := s.chan c
     let f := s.frameNow c
     let b := boundaryOf ch f
     let toMain := fun (release : Nat) (b : Option Nat) (u : State) =>
       placeRequest { channel := c, direction := .main, release := release, priority := 4 }
         (modChan c (fun x => { x with boundary := b }) u)
     (ch.changeover = .onDr → exec (.giveback write body) s =
        accepted write false
          (match b with
           | some x => positionFields ch.settings.rate x
           | none => [.frame none])
          (settleFrameNow c
            (toMain (releasePulse s c f (b.getD f)) b (setChangeover c .returning (heard write.early s))))) ∧
     (ch.changeover ≠ .onDr → exec (.giveback write body) s = refused write .state s) ∧
     (ch.changeover = .onDr →
        exec (.returnNow write body) s =
          accepted write false [] (toMain (releaseNow s) ch.frame (setChangeover c .returning (heard write.early s)))) ∧
     (ch.changeover = .returning → s.hasRequest c = true →
        exec (.returnNow write body) s = accepted write false [] (toMain (releaseNow s) ch.frame (heard write.early s))) ∧
     (ch.changeover = .returning → s.hasRequest c = false → exec (.returnNow write body) s = accepted write false [] (heard write.early s)) ∧
     (ch.changeover ≠ .onDr → ch.changeover ≠ .returning → exec (.returnNow write body) s = refused write .state s) ∧
     (∀ p, ch.next = some p → b = some p.rollFrame) ∧
     (∀ x, ch.next = none → ch.doubt = false → transition ch f = some x → f < x → b = some x) ∧
     (∀ x, ch.next = none → ch.doubt = false → transition ch f = some x → x ≤ f → b = some (f + ch.inEffect.cueLead)) ∧
     (ch.next = none → ch.doubt = true ∨ transition ch f = none → b = ch.frame) ∧
     ((s.family s.device.routerFamily).state = .unset → ∀ x, releasePulse s c f x = 0) ∧
     ((s.family s.device.routerFamily).state ≠ .unset → ch.settings.rate.family = s.device.routerFamily → ∀ x,
        releasePulse s c f x = max s.routerCount
          ((if ch.settings.rate.isDouble then x else 2 * x + (s.family s.device.routerFamily).parity.e) - s.routerLead)) ∧
     ((s.family s.device.routerFamily).state ≠ .unset → ch.settings.rate.family ≠ s.device.routerFamily → ∀ (x : Nat) (k : Int),
        k * (pulsesPerFrame ch.settings.rate).2 ≤ ((x : Int) - f) * (pulsesPerFrame ch.settings.rate).1 →
        ((x : Int) - f) * (pulsesPerFrame ch.settings.rate).1 < (k + 1) * (pulsesPerFrame ch.settings.rate).2 →
        releasePulse s c f x = max s.routerCount ((s.routerCount : Int) + k - s.routerLead).toNat) ∧
     releaseNow s = (if (s.family s.device.routerFamily).state = .unset then 0 else s.routerCount))

/-- RELEASE LATCH answers with the flap counter and the latched mark as they stood, clears both and the decrement timer, and
raises LATCH where the channel was latched; nothing else changes. The width and the telling of the response's fields are the
model's where the spec gives none (log 16). -/
def Obligations.ReleaseLatchClears : Prop :=
  ∀ (write : Write) (body : List Byte) (s : State), s.slot = none → body.length = 1 →
    (64 ≤ numAt body 0 1 → exec (.releaseLatch write body) s = refused write .badChannel s) ∧
    (∀ c, channelOf (numAt body 0 1) = some c →
      (let u := modChan c (fun ch => { ch with latched := false, flapCounter := 0, flapTimer := 0 }) (heard write.early s)
       exec (.releaseLatch write body) s =
        accepted write false [.u8 (s.chan c).flapCounter, .flag (s.chan c).latched]
          (if (s.chan c).latched then raise c .latch u else u)))

/-! ### Station time, the device, the sense lines -/

/-- SET STATION TIME puts a pending set in place for its family, the label clamped when it names a skipped number, unless a
field is outside its values or a channel of the family is outside MIRROR; READ TIME answers with the family's record and the
frames of its rate codes and changes nothing. The width and the telling of the response's fields are the model's where the
spec gives none (log 16). READ TIME gives every rate code of the family, two or four (log 27). -/
def Obligations.StationTimeCommands : Prop :=
  ∀ (write : Write) (body : List Byte) (s : State), s.slot = none →
    (body.length = 8 →
      (let day := numAt body 1 2
       let l := labelAt body 3
       (familyOfCode (numAt body 0 1) = none ∨ rateOfCode (numAt body 7 1) = none →
          exec (.setStationTime write body) s = refused write .badField s) ∧
       (∀ fam r, familyOfCode (numAt body 0 1) = some fam → rateOfCode (numAt body 7 1) = some r →
          (r.family ≠ fam ∨ 9999 < day ∨ l.valid r = false → exec (.setStationTime write body) s = refused write .badField s) ∧
          (r.family = fam → day ≤ 9999 → l.valid r = true →
            (∃ c, (s.chan c).settings.rate.family = fam ∧ (s.chan c).changeover ≠ .mirror) →
            exec (.setStationTime write body) s = refused write .state s) ∧
          (r.family = fam → day ≤ 9999 → l.valid r = true →
            (∀ c, (s.chan c).settings.rate.family = fam → (s.chan c).changeover = .mirror) →
            (let f := day * r.framesPerDay + l.frameOfDay r
             let target := if r.isDouble then f else 2 * f
             exec (.setStationTime write body) s =
              accepted write (l.namesSkipped r) [.frame (some target)]
                (modFamily fam (fun x => { x with
                  pendingSet := some { target := target, rate := r, day := day, label := l.clamp r } }) (heard write.early s))))))) ∧
    (body.length = 1 →
      (familyOfCode (numAt body 0 1) = none → exec (.readTime write body) s = refused write .badField s) ∧
      (∀ fam, familyOfCode (numAt body 0 1) = some fam →
        (let x := s.family fam
         exec (.readTime write body) s =
          accepted write false
            (([.u8 x.state.code, .frame (some x.count), .u8 x.parity.e, .u8 x.goodRun] : List Field) ++
             (match x.pendingSet with
              | none => [.u8 0]
              | some p => [.u8 1, .frame (some p.target), .u8 p.rate.code, .u16 p.day, .label p.label] : List Field) ++
             (rateCodesOf fam).flatMap (fun r : RateCode =>
               if x.state = .unset then [.frame none] else
                 let f := if r.isDouble then x.count else (x.count - x.parity.e) / 2
                 [.frame (some f), .u16 (f / r.framesPerDay), .label (labelOf r (f % r.framesPerDay))]))
            (heard write.early s))))

/-- CONFIGURE DEVICE stores the device-wide settings, numeric ones brought into range, and reconverts every channel's retention;
a change of router family is refused while a take is queued or outstanding. The width and the telling of the response's
fields are the model's where the spec gives none (log 16). -/
def Obligations.ConfigureDeviceStores : Prop :=
  ∀ (write : Write) (body : List Byte) (s : State), s.slot = none → body.length = 17 →
    (familyOfCode (numAt body 4 1) = none → exec (.configureDevice write body) s = refused write .badField s) ∧
    (∀ fam, familyOfCode (numAt body 4 1) = some fam →
      (let busy := s.takeQueue ≠ [] ∨ ∃ c, (s.chan c).outstanding.isSome
       let given : DeviceSettings :=
         { retentionS := numAt body 0 4, routerFamily := fam, takesPerPulse := numAt body 5 1, routerLead := numAt body 6 1
           routerTimeout := numAt body 7 2, linkTimeout := numAt body 9 2, snapshotTimeoutS := numAt body 11 2
           statusInterval := numAt body 13 2, hostSilenceS := numAt body 15 2 }
       let d : DeviceSettings :=
         { retentionS := min 86400 given.retentionS, routerFamily := fam, takesPerPulse := min 8 (max 1 given.takesPerPulse)
           routerLead := min 15 given.routerLead, routerTimeout := min 2000 (max 10 given.routerTimeout)
           linkTimeout := min 10000 (max 100 given.linkTimeout), snapshotTimeoutS := min 600 (max 1 given.snapshotTimeoutS)
           statusInterval := min 5000 (max 100 given.statusInterval), hostSilenceS := min 600 given.hostSilenceS }
       (fam ≠ s.device.routerFamily → busy → exec (.configureDevice write body) s = refused write .state s) ∧
       (fam = s.device.routerFamily ∨ ¬busy → ∃ t,
          exec (.configureDevice write body) s = accepted write (decide (d ≠ given)) (deviceFields d) t ∧
          t = { heard write.early s with device := d, channels := t.channels } ∧
          ∀ c, t.chan c = { s.chan c with retention := secondsToFrames (s.chan c).settings.rate d.retentionS })))

/-- CONFIGURE SENSE LINE writes the line's function, mapping, expected level and debounce (at most 255); a line set UNUSED maps
no channel; a change that makes a source of the mapped channel begin to fault is reported to the supervisor in the act; a
source of a channel has one line. The width and the telling of the response's fields are the model's where the spec gives
none (log 16). -/
def Obligations.ConfigureSenseLineWrites : Prop :=
  ∀ (write : Write) (body : List Byte) (s : State), s.slot = none → body.length = 6 →
    (let debounce := numAt body 4 2
     (16 ≤ numAt body 0 1 ∨ senseFunctionOfCode (numAt body 1 1) = none ∨ levelOfCode (numAt body 3 1) = none →
        exec (.configureSenseLine write body) s = refused write .badField s) ∧
     (∀ (l : LineNo) (f : SenseFunction) (e : Level), numAt body 0 1 = l.val → senseFunctionOfCode (numAt body 1 1) = some f →
        levelOfCode (numAt body 3 1) = some e →
        (f = .unused →
          (let x := { s.line l with function := .unused, mapped := none, expected := e, debounce := min debounce 255 }
           exec (.configureSenseLine write body) s =
            accepted write (decide (255 < debounce)) (lineFields x) (modLine l (fun _ => x) (heard write.early s)))) ∧
        (f ≠ .unused → 64 ≤ numAt body 2 1 → exec (.configureSenseLine write body) s = refused write .badChannel s) ∧
        (∀ c, f ≠ .unused → channelOf (numAt body 2 1) = some c →
          (∃ m, m ≠ l ∧ (s.line m).function = f ∧ (s.line m).mapped = some c) →
          exec (.configureSenseLine write body) s = refused write .state s) ∧
        (∀ c, f ≠ .unused → channelOf (numAt body 2 1) = some c →
          (∀ m, m ≠ l → (s.line m).function = f → (s.line m).mapped ≠ some c) →
          (let src : Source := if f = .returnFeed then .rf else .tl
           let x := { s.line l with function := f, mapped := some c, expected := e, debounce := min debounce 255 }
           let u := modLine l (fun _ => x) (heard write.early s)
           exec (.configureSenseLine write body) s =
            accepted write (decide (255 < debounce)) (lineFields x)
              (if sourceFaults u c src = true ∧ sourceFaults (heard write.early s) c src = false then faultReported c u else u)))))

/-- READ SENSE LINES answers with the sixteen records, in line order, each telling whether the line shows its channel a fault now,
and clears every change-pending flag; it changes no level, no count and no mapping. The width and the telling of the
response's fields are the model's where the spec gives none (log 16). -/
def Obligations.ReadSenseLinesAnswers : Prop :=
  ∀ (write : Write) (s : State), s.slot = none → ∃ t,
    exec (.readSenseLines write []) s =
      accepted write false (allLines.flatMap (fun l =>
        let x := s.line l
        [.u8 x.function.code, .u8 (match x.mapped with
          | some c => c.val
          | none => 255), .u8 x.expected.code, .u16 x.debounce, .u8 x.raw.code, .u8 x.level.code, .u8 x.stability,
         .flag x.changePending, .flag (x.mapped.isSome && decide (x.level ≠ x.expected))])) t ∧
    t = { heard write.early s with lines := t.lines } ∧ ∀ l, t.line l = { s.line l with changePending := false }

/-- LINK RESTART puts the link DOWN with its counts at 0, and drops the deferral queue, the walks and the assembly, whose channel
goes back to the state and cause before its ask, at the head of the queue. That the status-interval count is 0 while the link
is DOWN is read from the rules (log 9). -/
def Obligations.LinkRestartDropsLink : Prop :=
  ∀ (write : Write) (s : State), s.slot = none → ∃ t, exec (.linkRestart write []) s = accepted write false [] t ∧
    t.linkUp = false ∧ t.silence = 0 ∧ t.statusCount = 0 ∧ t.pendingWalks = [] ∧ t.walk = none ∧ t.deferral = [] ∧
    t.assembly = none ∧ t.freeCount = s.freeCount + stagedSlots s ∧ t.takeQueue = s.takeQueue ∧
    t.events = (if s.linkUp then { (heard write.early s).events with linkDownChange := true } else (heard write.early s).events) ∧
    (s.assembly = none → t.resyncQueue = s.resyncQueue ∧ ∀ c, t.chan c = s.chan c) ∧
    (∀ a, s.assembly = some a → t.resyncQueue = a.channel :: s.resyncQueue.filter (fun d => decide (d ≠ a.channel)) ∧
      (t.chan a.channel).replState = a.stateBefore ∧ (t.chan a.channel).cause = a.causeBefore ∧
      (t.chan a.channel).attempts = (s.chan a.channel).attempts ∧
      (t.chan a.channel).schedule = (s.chan a.channel).schedule ∧ ∀ c, c ≠ a.channel → t.chan c = s.chan c)

/-! ### Pulses and frame events -/

/-- A reference pulse under half a period after the last is discarded and ends the run; any other is accepted, a good one
lengthening the run to at most 8 and another ending it. An accepted pulse that loads nothing is counted in LOCKED, and at the
full run in FREERUN, which locks again, the pulse being absorbed where it is the last counted one; it counts nothing in UNSET
nor with a shorter run. A marked pulse that is accepted takes the pending set with it, and in LOCKED checks the parity. The
unit of instants and the exact fractions are the model's (logs 1 and 24), and so is that parts left over come first (log 3). -/
def Obligations.ReferencePulseIsClassified : Prop :=
  ∀ (fam : Family) (instant : Instant) (mark grantsFirst : Bool) (held : List (ChannelNo × Block)) (s : State),
    (let u := workFrames [] s
     let f := u.family fam
     let period := familyPeriod fam
     let isShort := ∃ l, f.lastReference = some l ∧ 2 * (instant - l) < period
     let isGood := ∃ l, f.lastReference = some l ∧ 7 * period ≤ 8 * (instant - l) ∧ 8 * (instant - l) ≤ 9 * period
     let engaged := ∃ c, (u.chan c).settings.rate.family = fam ∧ (u.chan c).changeover ≠ .mirror
     let absorbed := ∃ l, f.lastCounted = some l ∧ 2 * (instant - l) < period
     let out := exec (.referencePulse fam instant mark grantsFirst held) s
     (quiet s → u = s) ∧
     (isShort → out = .next (modFamily fam (fun _ => { f with goodRun := 0 }) u)) ∧
     (∀ run, ¬isShort → (isGood → run = min (f.goodRun + 1) 8) → (¬isGood → run = 0) →
        (mark = true → f.pendingSet ≠ none → engaged) →
        (let x := { f with
           goodRun := run, lastReference := some instant, absenceFrom := some instant
           pendingSet := if mark = true then none else f.pendingSet }
         let counted := { x with count := min (f.count + 1) (2 ^ 40 - 2), lastCounted := some instant }
         (f.state = .unset → out = .next (modFamily fam (fun _ => x) u)) ∧
         (f.state = .locked →
            out = .next (parityCheck fam mark (pulseWork fam grantsFirst held (modFamily fam (fun _ => counted) u)))) ∧
         (f.state = .freerun → run ≠ 8 → out = .next (modFamily fam (fun _ => x) u)) ∧
         (f.state = .freerun → run = 8 → absorbed →
            out = .next (parityCheck fam mark (modFamily fam (fun _ => { x with state := .locked }) (raiseEvent .refRelock u)))) ∧
         (f.state = .freerun → run = 8 → ¬absorbed →
            out = .next (parityCheck fam mark (pulseWork fam grantsFirst held
              (modFamily fam (fun _ => { counted with state := .locked }) (raiseEvent .refRelock u))))))) ∧
     (∀ v, mark = false ∨ (v.family fam).state ≠ .locked ∨ ((v.family fam).count % 2 = 0 ↔ (v.family fam).parity = .even) →
        parityCheck fam mark v = v) ∧
     (∀ v, ¬((v.family fam).count % 2 = 0 ↔ (v.family fam).parity = .even) → mark = true → (v.family fam).state = .locked →
        parityCheck fam mark v = raiseEvent .refPhase v))

/-- A marked pulse that is accepted while a pending set waits and no channel of the family is outside MIRROR loads the family: its
count becomes the target, its parity that of the target, its state LOCKED with a full run or if it was LOCKED, else FREERUN; the
releases queued on the family shift by the change of count; and the pulse is a counted one. The unit of instants and the
exact fractions are the model's (logs 1 and 24), and so is that parts left over come first (log 3). -/
def Obligations.LoadingPulseLoadsFamily : Prop :=
  ∀ (fam : Family) (instant : Instant) (grantsFirst : Bool) (held : List (ChannelNo × Block)) (p : PendingSet) (s : State),
    (let u := workFrames [] s
     let f := u.family fam
     let period := familyPeriod fam
     let isGood := ∃ l, f.lastReference = some l ∧ 7 * period ≤ 8 * (instant - l) ∧ 8 * (instant - l) ≤ 9 * period
     (∀ run, f.pendingSet = some p → (∀ l, f.lastReference = some l → period ≤ 2 * (instant - l)) →
        (∀ c, (u.chan c).settings.rate.family = fam → (u.chan c).changeover = .mirror) →
        (isGood → run = min (f.goodRun + 1) 8) → (¬isGood → run = 0) →
        (let x := { f with
           goodRun := run, lastReference := some instant, absenceFrom := some instant, lastCounted := some instant
           pendingSet := none, count := p.target, parity := if p.target % 2 = 0 then .even else .odd
           state := if f.state = .locked ∨ run = 8 then .locked else .freerun }
         let v := modFamily fam (fun _ => x) (if f.state = .freerun ∧ run = 8 then raiseEvent .refRelock u else u)
         exec (.referencePulse fam instant true grantsFirst held) s =
          .next (pulseWork fam grantsFirst held (if u.device.routerFamily = fam then shiftReleases f.count p.target v else v)))) ∧
     (∀ a b v, (shiftReleases a b v).takeQueue.Perm (v.takeQueue.map (fun r => { r with release := r.release + b - a })) ∧
        (shiftReleases a b v).takeQueue.Pairwise (fun q r => grantsBefore q r = true) ∧
        shiftReleases a b v = { v with takeQueue := (shiftReleases a b v).takeQueue }))

/-- The absence limit ends the run, and in LOCKED puts the family in FREERUN with REF_LOSS and counts the pulse that was due; it
does nothing before another accepted pulse. A synthesised pulse is counted in FREERUN, one period after the last, and is none
in another state. When these rows come is the sender's (log 2); parts left over come first (log 3). -/
def Obligations.AbsenceAndSynthesis : Prop :=
  ∀ (fam : Family) (grantsFirst : Bool) (held : List (ChannelNo × Block)) (s : State),
    (let u := workFrames [] s
     let f := u.family fam
     let due := f.lastCounted.map (fun l => l + familyPeriod fam)
     let counted := { f with count := min (f.count + 1) (2 ^ 40 - 2), lastCounted := due }
     (f.absenceFrom = none → exec (.referenceAbsence fam grantsFirst held) s = .next u) ∧
     (f.absenceFrom.isSome → f.state ≠ .locked →
        exec (.referenceAbsence fam grantsFirst held) s =
          .next (modFamily fam (fun _ => { f with goodRun := 0, absenceFrom := none }) u)) ∧
     (f.absenceFrom.isSome → f.state = .locked →
        exec (.referenceAbsence fam grantsFirst held) s =
          .next (pulseWork fam grantsFirst held
            (modFamily fam (fun _ => { counted with goodRun := 0, absenceFrom := none, state := .freerun }) (raiseEvent .refLoss u)))) ∧
     (f.state = .freerun → exec (.synthesisedPulse fam grantsFirst held) s =
        .next (pulseWork fam grantsFirst held (modFamily fam (fun _ => counted) u))) ∧
     (f.state ≠ .freerun → exec (.synthesisedPulse fam grantsFirst held) s = .next u))

/-- A counted pulse raises the frame event of every channel of its family of which a frame begins: the frame number of R8, the
settings in effect those stored, a part for each block; and no other channel's. The parts are taken channel by channel, or left
to their rows; the grants of the router family come before or after them (logs 3, 5 and 18). -/
def Obligations.CountedPulseRaisesFrameEvents : Prop :=
  ∀ (fam : Family) (s : State), ∃ t, t = { s with channels := t.channels } ∧
    (∀ c, begins fam (s.family fam) (s.chan c) → t.chan c = { s.chan c with
      frame := some (if (s.chan c).settings.rate.isDouble then (s.family fam).count
                     else ((s.family fam).count - (s.family fam).parity.e) / 2)
      eventFrame := some (if (s.chan c).settings.rate.isDouble then (s.family fam).count
                          else ((s.family fam).count - (s.family fam).parity.e) / 2)
      inEffect := (s.chan c).settings.toInEffect, due := [.sst, .rrx, .csv, .cou] }) ∧
    (∀ c, ¬begins fam (s.family fam) (s.chan c) → t.chan c = s.chan c) ∧
    (∀ b, pulseWork fam b everyBlock s = if s.device.routerFamily = fam then grantPulse t else t) ∧
    pulseWork fam true [] s = forChannels channelParts allChannels (pulseWork fam true everyBlock s) ∧
    (let v := forChannels channelParts allChannels t
     pulseWork fam false [] s = if v.device.routerFamily = fam then grantPulse v else v)

/-- The router's take queue: a request placed replaces the channel's own and ends its outstanding take, and the queue stays in grant
order; a counted router pulse grants the first released requests, at most the takes per pulse, each with the next take tag and
the lead in effect, and passes over those not yet released. The priority of a takeover is the more urgent of the default priority
in effect and that of the entry named, if it is still listed. -/
def Obligations.RouterQueueAndGrants : Prop :=
  ∀ (s : State), InvWith 0 s →
    (∀ r : Request,
      (placeRequest r s).takeQueue.Perm (r :: s.takeQueue.filter (fun q => decide (q.channel ≠ r.channel))) ∧
      TakesLaw (placeRequest r s).takeQueue ∧
      (placeRequest r s).chan r.channel = { s.chan r.channel with outstanding := none } ∧
      (∀ c, c ≠ r.channel → (placeRequest r s).chan c = s.chan c)) ∧
    (let n := (s.family s.device.routerFamily).count
     let lead := s.device.routerLead
     let granted := (s.takeQueue.filter (fun r => decide (r.release ≤ n))).take s.device.takesPerPulse
     let tagOf := fun c : ChannelNo => ((s.chan c).takeTag + 1) % 256
     let t := grantPulse s
     t = { s with channels := t.channels, routerLead := lead, takeQueue := s.takeQueue.filter (fun r => decide (r ∉ granted))
                  routerOut := s.routerOut ++ granted.map (fun r =>
                    { tag := tagOf r.channel, channel := r.channel, direction := r.direction, family := s.device.routerFamily
                      executionPulse := n + lead }) } ∧
     (∀ r ∈ granted, t.chan r.channel = { s.chan r.channel with
       takeTag := tagOf r.channel
       outstanding := some { tag := tagOf r.channel, direction := r.direction, grantPulse := n, executionPulse := n + lead, timer := 0 } }) ∧
     (∀ c, (∀ r ∈ granted, r.channel ≠ c) → t.chan c = s.chan c)) ∧
    (∀ c : ChannelNo,
      (let d := (s.chan c).inEffect.defaultPriority
       takeoverPriority s c none = d ∧
       (∀ k, (∀ e ∈ (s.chan c).schedule, e.key ≠ k) → takeoverPriority s c (some k) = d) ∧
       (∀ e ∈ (s.chan c).schedule, takeoverPriority s c (some e.key) = min d e.body.priority)))

/-- A row of a frame event or of a tick whose part is not due, having been taken already, changes nothing; a block's part of a frame
event that is due is taken once, with the block's settings in effect from then on (logs 3 and 18). -/
def Obligations.PartsAreTakenOnce : Prop :=
  ∀ (c : ChannelNo) (s : State),
    (.sst ∉ (s.chan c).due → exec (.entryRetirement c) s = .next s) ∧
    (.rrx ∉ (s.chan c).due → exec (.editBudgetWindowEnd c) s = .next s) ∧
    (.csv ∉ (s.chan c).due → ∀ i ∈ csvRows c, exec i s = .next s) ∧
    (.cou ∉ (s.chan c).due → ∀ i ∈ couRows c, exec i s = .next s) ∧
    (.sst ∈ (s.chan c).due →
      exec (.entryRetirement c) s = .next (sstFrame c (modChan c (fun ch => { ch with due := ch.due.erase .sst }) s))) ∧
    (.rrx ∈ (s.chan c).due → exec (.editBudgetWindowEnd c) s = .next (rrxFrame c (rrxBegun c s))) ∧
    (.csv ∈ (s.chan c).due → ∀ i ∈ csvRows c, exec i s = .next (flapStep c (superviseStep c (csvBegun c s)))) ∧
    (.cou ∈ (s.chan c).due → ∀ i ∈ couRows c, exec i s = .next (couFrame c (couBegun c s))) ∧
    (∀ l, .sense l ∉ s.tickDue → exec (.senseLevelChange l) s = .next s) ∧
    (.link ∉ s.tickDue → exec .linkTimeout s = .next s ∧ (.snapshot ∉ s.tickDue → exec .snapshotTimeout s = .next s)) ∧
    (.status ∉ s.tickDue → exec .statusInterval s = .next s) ∧
    (.take c ∉ s.tickDue → exec (.routerTimeout c) s = .next s) ∧
    (.host ∉ s.tickDue → exec .hostAbsent s = .next s) ∧
    (.walk ∉ s.tickDue → exec .digestWalkComplete s = .next s)

/-! ### The blocks at a frame event -/

/-- SST's part of a frame event: in MIRROR the PLANNED entries whose effective end the frame has reached are PASSED; then the DONE
and PASSED entries whose effective end lies the retention (none in fast aging) behind the frame leave the schedule and free
their slots. The entries that leave at one frame event are judged together (log 11), by the aging mode that stood before (log 42). -/
def Obligations.EntryRetirementAtFrameEvent : Prop :=
  ∀ (c : ChannelNo) (f : Nat) (s : State), InvWith 0 s → .sst ∈ (s.chan c).due → (s.chan c).frame = some f →
    (let es := (s.chan c).schedule
     let passed := (spans es).map (fun p => if p.1.status = .planned ∧ p.2 ≤ f then { p.1 with status := .passed } else p.1)
     let now := if (s.chan c).changeover = .mirror then passed else es
     let retention := if s.aging = .fast then 0 else (s.chan c).retention
     let old := fun p : Entry × Nat => p.1.isOver && decide (p.2 + retention ≤ f)
     let kept := ((spans now).filter (fun p => !old p)).map Prod.fst
     let gone := ((spans now).filter old).map Prod.fst
     let t := freeSlots gone.length (rescheduled c kept (modChan c (fun ch => { ch with due := ch.due.erase .sst }) s))
     exec (.entryRetirement c) s = .next (if gone.any Entry.isReplicated then abandonWalks c t else t))

/-- When a source of a channel faults, the alert condition, and the vote: a source that is enabled in a channel not in OFF, by its
listing or silence or by its line; at least one; ANY at least one, ALL every one of at least one, TWO at least two, or the one
where only one is enabled. -/
def Obligations.FaultConditionsAndVote : Prop :=
  ∀ (c : ChannelNo) (s : State),
    (let ch := s.chan c
     let e := ch.inEffect.sources
     let onLine := fun f : SenseFunction => ∃ l, (s.line l).function = f ∧ (s.line l).mapped = some c ∧ (s.line l).level ≠ (s.line l).expected
     let hb := ch.settings.mode ≠ .off ∧ e.hb = true ∧ (ch.listing = .fail ∨ ch.inEffect.hbLimit ≤ ch.hbSilence)
     let rf := ch.settings.mode ≠ .off ∧ e.rf = true ∧ onLine .returnFeed
     let tl := ch.settings.mode ≠ .off ∧ e.tl = true ∧ onLine .tally
     let n := (if e.hb then 1 else 0) + (if e.rf then 1 else 0) + (if e.tl then 1 else 0)
     (sourceFaults s c .hb = true ↔ hb) ∧ (sourceFaults s c .rf = true ↔ rf) ∧ (sourceFaults s c .tl = true ↔ tl) ∧
     (alertCondition s c = true ↔ hb ∨ rf ∨ tl) ∧
     (∀ k, k = (if sourceFaults s c .hb then 1 else 0) + (if sourceFaults s c .rf then 1 else 0) +
         (if sourceFaults s c .tl then 1 else 0) →
        (voteMet s c = true ↔
          (ch.inEffect.vote = .any ∧ 1 ≤ k) ∨ (ch.inEffect.vote = .all ∧ 1 ≤ n ∧ k = n) ∨
          (ch.inEffect.vote = .two ∧ ((2 ≤ n ∧ 2 ≤ k) ∨ (n = 1 ∧ k = 1))))))

/-- CSV's part of a frame event short of a trip and of a recovery: the silence counts; HEALTHY becomes ALERT on a fault condition;
ALERT counts its trip timer while the vote is met, holds it at 0 while it is not, and ends with the condition; TRIPPED counts its
recovery timer without a condition and holds it at 0 with one; a HEALTHY channel's flap counter decrements. Each of the four
rows is CSV's one part (log 3). -/
def Obligations.SupervisionAtFrameEvent : Prop :=
  ∀ (c : ChannelNo) (s : State), .csv ∈ (s.chan c).due → ∀ i ∈ csvRows c,
    (let u := csvBegun c s
     let ch := u.chan c
     let faulty := alertCondition u c = true
     let voted := voteMet u c = true
     (ch.supervision = .healthy → ¬faulty → exec i s = .next (modChan c flapped u)) ∧
     (ch.supervision = .healthy → faulty → ¬voted →
        exec i s = .next (raise c .supervision (modChan c (fun x => { x with supervision := .alert, tripTimer := 0 }) u))) ∧
     (ch.supervision = .healthy → faulty → voted → 1 < ch.inEffect.tripDelay →
        exec i s = .next (raise c .supervision (modChan c (fun x => { x with supervision := .alert, tripTimer := 1 }) u))) ∧
     (ch.supervision = .alert → faulty → ¬voted → exec i s = .next (modChan c (fun x => { x with tripTimer := 0 }) u)) ∧
     (ch.supervision = .alert → faulty → voted → ch.tripTimer + 1 < ch.inEffect.tripDelay →
        exec i s = .next (modChan c (fun x => { x with tripTimer := x.tripTimer + 1 }) u)) ∧
     (ch.supervision = .alert → ¬faulty →
        exec i s = .next (raise c .supervision
          (modChan c (fun x => flapped { x with supervision := .healthy, tripTimer := 0 }) u))) ∧
     (ch.supervision = .tripped → faulty → exec i s = .next (modChan c (fun x => { x with recoveryTimer := 0 }) u)) ∧
     (ch.supervision = .tripped → ¬faulty → ch.recoveryTimer + 1 < ch.inEffect.recovery →
        exec i s = .next (modChan c (fun x => { x with recoveryTimer := x.recoveryTimer + 1 }) u)))

/-- A trip, when the vote has been met for the trip delay: TRIPPED, the timers 0, the flap counter up by one to the limit and latched
there, which raises LATCH, and a PROTECTED channel in MIRROR starts its takeover: it waits under CONFIRM while the host is PRESENT, and enters PREPARING
otherwise; a giveback that still waits for its take goes back to ON_DR. Each of the four rows is CSV's one part (log 3); the
takeover it starts has no further COU step in the same part (log 19). -/
def Obligations.TripTripsChannel : Prop :=
  ∀ (c : ChannelNo) (s : State), InvWith 0 s → .csv ∈ (s.chan c).due → ∀ i ∈ csvRows c,
    (let u := csvBegun c s
     let ch := u.chan c
     let limit := ch.inEffect.flapLimit
     let n := if ch.flapCounter < limit then ch.flapCounter + 1 else ch.flapCounter
     alertCondition u c = true → voteMet u c = true →
     (ch.supervision = .healthy ∧ ch.inEffect.tripDelay ≤ 1) ∨
       (ch.supervision = .alert ∧ ch.inEffect.tripDelay ≤ ch.tripTimer + 1) →
     ∃ t, exec i s = .next t ∧ (t.chan c).supervision = .tripped ∧ (t.chan c).tripTimer = 0 ∧ (t.chan c).recoveryTimer = 0 ∧
       (t.chan c).flapTimer = 0 ∧ (t.chan c).flags.supervision = true ∧ c ∈ t.attention ∧
       (limit = 0 → (t.chan c).flapCounter = ch.flapCounter ∧ (t.chan c).latched = ch.latched) ∧
       (limit ≠ 0 → (t.chan c).flapCounter = n ∧ ((t.chan c).latched = true ↔ ch.latched = true ∨ n = limit)) ∧
       ((t.chan c).flags.latch = true ↔ ch.flags.latch = true ∨ (limit ≠ 0 ∧ n = limit ∧ ch.latched = false)) ∧
       (ch.settings.mode = .protectedMode → ch.changeover = .mirror → .cou ∉ (t.chan c).due) ∧
       (ch.settings.mode ≠ .protectedMode ∨ ch.changeover ≠ .mirror → (t.chan c).due = ch.due) ∧
       (ch.settings.mode = .protectedMode → ch.changeover = .mirror → ch.inEffect.takeover = .confirm → s.hostPresent = true →
         (t.chan c).changeover = .awaitConfirm ∧ (t.chan c).confirmTimer = 0) ∧
       (ch.settings.mode = .protectedMode → ch.changeover = .mirror → ch.inEffect.takeover = .auto ∨ s.hostPresent = false →
         (t.chan c).changeover = .preparing ∧ (t.chan c).decisionFrame = ch.frame) ∧
       (ch.changeover = .returning → s.hasRequest c = true → (t.chan c).changeover = .onDr ∧ t.hasRequest c = false) ∧
       (ch.changeover = .returning → s.hasRequest c = false → (t.chan c).changeover = .returning) ∧
       (ch.changeover ≠ .returning → ch.settings.mode ≠ .protectedMode ∨ ch.changeover ≠ .mirror →
         (t.chan c).changeover = ch.changeover))

/-- A recovery, when a TRIPPED channel has had no fault condition for the recovery time: HEALTHY, the timer 0, the hold-off mark
clear; a takeover that waits for confirmation is called off and a STRANDED channel returns to MIRROR; any other changeover state
stays. Each of the four rows is CSV's one part (log 3). -/
def Obligations.RecoveryHealsChannel : Prop :=
  ∀ (c : ChannelNo) (s : State), .csv ∈ (s.chan c).due → ∀ i ∈ csvRows c,
    (let u := csvBegun c s
     let ch := u.chan c
     alertCondition u c = false → ch.supervision = .tripped → ch.inEffect.recovery ≤ ch.recoveryTimer + 1 →
     ∃ t, exec i s = .next t ∧ (t.chan c).supervision = .healthy ∧ (t.chan c).recoveryTimer = 0 ∧ (t.chan c).holdOff = false ∧
       (t.chan c).flags.supervision = true ∧ c ∈ t.attention ∧ (t.chan c).latched = ch.latched ∧
       (ch.changeover = .awaitConfirm → (t.chan c).changeover = .mirror ∧ (t.chan c).confirmTimer = 0) ∧
       (ch.changeover = .stranded → (t.chan c).changeover = .mirror) ∧
       (ch.changeover ≠ .awaitConfirm → ch.changeover ≠ .stranded → (t.chan c).changeover = ch.changeover))

/-- COU's part of a frame event outside ON_DR and the take: a TRIPPED PROTECTED channel in MIRROR without hold-off starts its takeover;
AWAIT_CONFIRM passes entries over, counts its window and enters PREPARING at its end; STRANDED passes entries over; PREPARING clears
the doubt mark in IN_STEP, passes entries over and plans; a joining directive still AWAITING at its roll frame gives way to a
STANDBY the cue lead later, and a second one strands the channel with nothing in service. Each of the two rows is COU's one part
(log 3), begun with the settings in effect (log 18); entries are passed over before the confirm timer counts (log 26). -/
def Obligations.ChangeoverAtFrameEvent : Prop :=
  ∀ (c : ChannelNo) (f : Nat) (s : State), InvWith 0 s → .cou ∈ (s.chan c).due → (s.chan c).frame = some f → ∀ i ∈ couRows c,
    (let v := couBegun c s
     let ch := v.chan c
     let counted := modChan c (fun x => { x with confirmTimer := x.confirmTimer + 1 }) (passEntries c f v)
     let starts := ch.settings.mode = .protectedMode ∧ ch.holdOff = false ∧ ch.supervision = .tripped
     (ch.changeover = .mirror → ¬starts → exec i s = .next v) ∧
     (ch.changeover = .mirror → starts → ∃ t, exec i s = .next t ∧
        (ch.inEffect.takeover = .confirm → s.hostPresent = true →
          (t.chan c).changeover = .awaitConfirm ∧ (t.chan c).confirmTimer = 0) ∧
        (ch.inEffect.takeover = .auto ∨ s.hostPresent = false →
          (t.chan c).changeover = .preparing ∧ (t.chan c).decisionFrame = some f ∧
          (t.chan c).rollFrame = some (f + ch.inEffect.cueLead))) ∧
     (ch.changeover = .awaitConfirm → ch.confirmTimer + 1 < ch.inEffect.confirm → exec i s = .next counted) ∧
     (ch.changeover = .awaitConfirm → ch.inEffect.confirm ≤ ch.confirmTimer + 1 → ∃ t, exec i s = .next t ∧
        (t.chan c).changeover = .preparing ∧ (t.chan c).decisionFrame = some f ∧
        (t.chan c).rollFrame = some (f + ch.inEffect.cueLead)) ∧
     (ch.changeover = .stranded → exec i s = .next (passEntries c f v)) ∧
     (ch.changeover = .preparing → (∀ p, ch.current = some p → p.reply ≠ .awaiting ∨ p.rollFrame ≠ f) →
        exec i s = .next (planStep c f (passEntries c f (finishStep c f (nextDeadline c f (doubtCleared c v))))) ∧
        ((∀ p, ch.current = some p → p.rolled = false) → (∀ p, ch.next = some p → p.reply ≠ .awaiting ∨ p.rollFrame ≠ f) →
          exec i s = .next (planStep c f (passEntries c f (doubtCleared c v))))) ∧
     (∀ p, ch.changeover = .preparing → ch.current = some p → p.reply = .awaiting → p.rollFrame = f → ch.cueRetryUsed = false →
        ∃ t, exec i s = .next t ∧ (t.chan c).changeover = .preparing ∧ (t.chan c).cueRetryUsed = true ∧
          (t.chan c).flags.cueFault = true ∧ (t.chan c).rollFrame = some (f + ch.inEffect.cueLead) ∧
          (t.chan c).current = some (placed .standby none (f + ch.inEffect.cueLead) none)) ∧
     (∀ p, ch.changeover = .preparing → ch.current = some p → p.reply = .awaiting → p.rollFrame = f → ch.cueRetryUsed = true →
        ∃ t, exec i s = .next t ∧ (t.chan c).changeover = .stranded ∧ (t.chan c).flags.cueFault = true ∧
          (t.chan c).current = none ∧ (t.chan c).next = none ∧ (t.chan c).doubt = false ∧
          (∃ d ∈ t.cueOut, d.channel = c ∧ d.body = .stop ∧ d.frame = some f) ∧ ∀ e ∈ (t.chan c).schedule, e.inService = false))

/-- RRX's part of a frame event: the edit-budget window is one nominal second of frames; at its end the counts start again and a
channel still OUT_OF_STEP with cause STORM whose mark is set joins the resync queue; a change of rate code restarts it. The
row is RRX's one part (log 3). -/
def Obligations.EditBudgetWindow : Prop :=
  ∀ (c : ChannelNo) (s : State), .rrx ∈ (s.chan c).due →
    (let w := rrxBegun c s
     let ch := w.chan c
     let restarted := fun (storm : Bool) => modChan c (fun x => { x with
       windowRestart := false, budget := { frames := 0, updates := 0, stormPending := storm } }) w
     let out := exec (.editBudgetWindowEnd c) s
     (ch.windowRestart = true → out = .next (restarted ch.budget.stormPending)) ∧
     (ch.windowRestart = false → ch.budget.frames + 1 < ch.settings.rate.nominal →
        out = .next (modChan c (fun x => { x with budget := { x.budget with frames := x.budget.frames + 1 } }) w)) ∧
     (ch.windowRestart = false → ch.settings.rate.nominal ≤ ch.budget.frames + 1 → ch.budget.stormPending = false →
        out = .next (restarted false)) ∧
     (ch.windowRestart = false → ch.settings.rate.nominal ≤ ch.budget.frames + 1 → ch.budget.stormPending = true →
        (ch.replState = .outOfStep ∧ ch.cause = .storm ∧ ch.settings.mode ≠ .off → out = .next (enqueue c (restarted false))) ∧
        (¬(ch.replState = .outOfStep ∧ ch.cause = .storm ∧ ch.settings.mode ≠ .off) → out = .next (restarted false))))

/-! ### Ticks -/

/-- A tick stores every line's sample and makes its parts due: a comparison for each line, but on the first tick, which sets the
levels instead; the link, the status, the snapshot and the walk; every take then outstanding; and the host. Parts that are not
held are taken in turn, parts of the tick before that nothing took come first (logs 3 and 4). A line's comparison: equal
clears its count, unequal counts up to the debounce time of the tick, and beyond it the level flips; a debounce time changed
after the tick is used from the next one (log 33); a source that begins to fault by it is reported to the supervisor in the
same act. -/
def Obligations.SenseLinesAtATick : Prop :=
  ∀ (levels : BitVec 16) (s : State),
    (∃ t, exec (.msTick levels everyPart) s = .next t ∧
      (let u := takeParts [] s.tickDue s
       (s.tickDue = [] → u = s) ∧
       exec (.msTick levels []) s = .next (takeParts [] t.tickDue t) ∧
       t.sampled = true ∧
       t.tickDue = (if u.sampled then allLines.map TickPart.sense else []) ++ [.link, .status, .snapshot, .walk] ++
         (allChannels.filter (fun c => (u.chan c).outstanding.isSome)).map TickPart.take ++ [.host] ∧
       (u.sampled = true → t = { u with lines := t.lines, tickDue := t.tickDue } ∧
         ∀ l, t.line l = { u.line l with raw := sampled levels l, tickDebounce := (u.line l).debounce }) ∧
       (u.sampled = false → ∀ l, t.line l = { u.line l with
         raw := sampled levels l, level := sampled levels l, stability := 0, tickDebounce := (u.line l).debounce }))) ∧
    (∀ l : LineNo, .sense l ∈ s.tickDue →
      (let x := s.line l
       let u := partTaken (.sense l) s
       let out := exec (.senseLevelChange l) s
       let v := modLine l (fun _ => { x with level := x.raw, stability := 0, changePending := true }) u
       (x.raw = x.level → out = .next (modLine l (fun _ => { x with stability := 0 }) u)) ∧
       (x.raw ≠ x.level → x.stability < x.tickDebounce → out = .next (modLine l (fun _ => { x with stability := x.stability + 1 }) u)) ∧
       (x.raw ≠ x.level → x.tickDebounce ≤ x.stability → x.function = .unused ∨ x.mapped = none → out = .next v) ∧
       (∀ c src, x.raw ≠ x.level → x.tickDebounce ≤ x.stability → x.mapped = some c →
          (x.function = .returnFeed ∧ src = .rf) ∨ (x.function = .tally ∧ src = .tl) →
          out = .next (if sourceFaults v c src = true ∧ sourceFaults u c src = false then faultReported c v else v)))) ∧
    (∀ c : ChannelNo,
      ((s.chan c).supervision = .healthy → faultReported c s =
        raise c .supervision (modChan c (fun ch => { ch with supervision := .alert, tripTimer := 0 }) s)) ∧
      ((s.chan c).supervision = .alert → faultReported c s = s) ∧
      ((s.chan c).supervision = .tripped → faultReported c s = modChan c (fun ch => { ch with recoveryTimer := 0 }) s))

/-- The timers of a tick, each counting to its limit and acting there: the link silent for the link timeout goes DOWN; a STANDBY STATUS
leaves at the status interval; a snapshot fails at the snapshot timeout, its part following the link's and none at the tick at which
the link goes DOWN; an outstanding take ends with
ROUTER_FAULT at the router timeout; a host silent for the host silence limit is ABSENT and no channel goes on waiting for it; the
walk engine reads one entry, or compares when none is left. Each row is one part of the tick, in an order of the model's
(logs 3 and 4); the status-interval count is 0 while the link is DOWN (log 9), and the snapshot timer is not compared then
(log 39). -/
def Obligations.TickTimersCountToTheirLimits : Prop :=
  ∀ s : State,
    (.link ∈ s.tickDue →
      (let u := partTaken .link s
       (s.linkUp = false → exec .linkTimeout s = .next u) ∧
       (s.linkUp = true → s.silence + 1 < s.device.linkTimeout → exec .linkTimeout s = .next { u with silence := s.silence + 1 }) ∧
       (s.linkUp = true → s.device.linkTimeout ≤ s.silence + 1 → exec .linkTimeout s =
          .next { u with silence := s.silence + 1, linkUp := false, statusCount := 0,
                         events := { s.events with linkDownChange := true }
                         tickDue := (s.tickDue.erase .link).filter (fun p => decide (p ≠ .snapshot)) }))) ∧
    (.status ∈ s.tickDue →
      (let u := partTaken .status s
       (s.linkUp = false → exec .statusInterval s = .next u) ∧
       (s.linkUp = true → s.statusCount + 1 < s.device.statusInterval →
          exec .statusInterval s = .next { u with statusCount := s.statusCount + 1 }) ∧
       (s.linkUp = true → s.device.statusInterval ≤ s.statusCount + 1 →
          exec .statusInterval s = .next (statusSent { u with statusCount := 0 })))) ∧
    (.link ∈ s.tickDue → .link ∉ s.tickDue.erase .link → ∃ v, exec .linkTimeout s = .next v ∧ exec .snapshotTimeout s = exec .snapshotTimeout v) ∧
    (.link ∉ s.tickDue → .snapshot ∈ s.tickDue →
      (let u := partTaken .snapshot s
       (s.assembly = none ∨ s.linkUp = false → exec .snapshotTimeout s = .next u) ∧
       (∀ a, s.assembly = some a → s.linkUp = true → a.timer + 1 < 1000 * s.device.snapshotTimeoutS →
          exec .snapshotTimeout s = .next { u with assembly := some { a with timer := a.timer + 1 } }) ∧
       (∀ a, s.assembly = some a → s.linkUp = true → 1000 * s.device.snapshotTimeoutS ≤ a.timer + 1 →
          exec .snapshotTimeout s = .next (failSnapshot false u)))) ∧
    (∀ c, .take c ∈ s.tickDue →
      (let u := partTaken (.take c) s
       ((s.chan c).outstanding = none → exec (.routerTimeout c) s = .next u) ∧
       (∀ o, (s.chan c).outstanding = some o → o.timer + 1 < s.device.routerTimeout →
          exec (.routerTimeout c) s = .next (modChan c (fun ch => { ch with outstanding := some { o with timer := o.timer + 1 } }) u)) ∧
       (∀ o, (s.chan c).outstanding = some o → s.device.routerTimeout ≤ o.timer + 1 →
          exec (.routerTimeout c) s =
            .next (takeFailed c o.direction (raise c .routerFault (modChan c (fun ch => { ch with outstanding := none }) u)))))) ∧
    (.host ∈ s.tickDue →
      (let u := partTaken .host s
       (s.hostPresent = false ∨ s.device.hostSilenceS = 0 → exec .hostAbsent s = .next u) ∧
       (s.hostPresent = true → s.device.hostSilenceS ≠ 0 → s.hostTimer + 1 < 1000 * s.device.hostSilenceS →
          exec .hostAbsent s = .next { u with hostTimer := s.hostTimer + 1 }) ∧
       (s.hostPresent = true → s.device.hostSilenceS ≠ 0 → 1000 * s.device.hostSilenceS ≤ s.hostTimer + 1 → ∃ t,
          exec .hostAbsent s = .next t ∧ t.hostPresent = false ∧ t.hostTimer = s.hostTimer + 1 ∧
          t.events = { s.events with hostAbsentChange := true } ∧
          ∀ c, (t.chan c).changeover =
            (if (s.chan c).changeover = .awaitConfirm then .preparing else (s.chan c).changeover)))) ∧
    (.walk ∈ s.tickDue →
      (let u := partTaken .walk s
       (s.walk = none → exec .digestWalkComplete s = .next u) ∧
       (∀ w, s.walk = some w →
         (let es := (s.chan w.record.channel).schedule.filter (fun e => decide (e.origin = .replicated))
          (∀ e, es[w.read]? = some e →
            (let view := match e.amendment with
               | none => some (e.body.revision, e.body.start)
               | some (.body b) => some (b.revision, b.start)
               | some .deletion => none
             ((∀ n x, view = some (n, x) → x < w.record.horizon) →
                exec .digestWalkComplete s = .next { u with walk := some { w with read := w.read + 1 } }) ∧
             (∀ n x, view = some (n, x) → w.record.horizon ≤ x →
                exec .digestWalkComplete s = .next { u with walk := some { w with
                  digest := (w.digest + (e.body.entryId * 40503 + n * 977 + x % 65536) % 2 ^ 32) % 2 ^ 32
                  count := w.count + 1, read := w.read + 1 } }))) ∧
          (es.length ≤ w.read → w.digest = w.record.mainDigest → w.count = w.record.mainCount →
            exec .digestWalkComplete s = .next (startWalk (modChan w.record.channel (fun ch => { ch with
              lastAgreed := some (ch.frame.getD w.record.horizon) }) { u with walk := none }))) ∧
          (es.length ≤ w.read → w.digest ≠ w.record.mainDigest ∨ w.count ≠ w.record.mainCount →
            exec .digestWalkComplete s = .next (startWalk (fallOut w.record.channel .digest { u with walk := none }))))))) ∧
    (∀ c cause, fallOut c cause s = enqueue c (setReplication c .outOfStep cause (s.chan c).attempts s))

/-! ### The replication link -/

/-- An update is discarded for a channel in OFF or neither IN_STEP nor RESYNCING. For an IN_STEP channel the distance of its sequence
number from the last applied tells a duplicate, which changes nothing, a gap, which puts the channel OUT_OF_STEP, and the next, which
is applied unless the edit budget is exceeded, when the channel is OUT_OF_STEP with cause STORM and waits for the window's end.
For a RESYNCING channel it is deferred while its snapshot is RECEIVING, once for each number, the 33rd noting a gap. An
update that finds the link DOWN makes it UP after its content is taken (log 8, and the statement on messages). -/
def Obligations.UpdatesAreClassed : Prop :=
  ∀ (i : Instr) (c : ChannelNo) (u : Update) (s : State), updateOf i = some (c, u) → s.linkUp = true →
    (let ch := s.chan c
     let t := delivered s
     let seq := match u with
       | .put n _ => n
       | .drop n _ => n
     let exceeded := ch.frame ≠ none ∧ ch.inEffect.editBudget ≠ 0 ∧ ch.inEffect.editBudget ≤ ch.budget.updates
     (ch.settings.mode = .off → exec i s = .next t) ∧
     (ch.replState = .outOfStep ∨ ch.replState = .unseeded ∨ ch.replState = .stale → exec i s = .next t) ∧
     (∀ last, ch.settings.mode ≠ .off → ch.replState = .inStep → ch.lastApplied = some last → last ≤ 65535 →
        (let d := (seq + 65536 - last) % 65536
         (d = 0 ∨ 32769 ≤ d → exec i s = .next t) ∧
         (2 ≤ d → d ≤ 32768 → exec i s = .next (enqueue c (setReplication c .outOfStep .gap ch.attempts t))) ∧
         (d = 1 → exceeded → exec i s = .next (setReplication c .outOfStep .storm ch.attempts
           (modChan c (fun x => { x with budget := { x.budget with stormPending := true } }) t))) ∧
         (d = 1 → ¬exceeded → exec i s = .next (applyUpdate c true u t)))) ∧
     (ch.settings.mode ≠ .off → ch.replState = .resyncing →
        ((∀ a, s.assembly = some a → a.channel ≠ c ∨ a.phase ≠ .receiving) → exec i s = .next t) ∧
        (∀ a resume, s.assembly = some a → a.channel = c → a.phase = .receiving → a.resume = some resume →
          (let d := (seq + 65536 - resume) % 65536
           let held := ∃ v ∈ s.deferral, v.sequence = seq
           (d = 0 ∨ 32769 ≤ d → exec i s = .next t) ∧
           (1 ≤ d → d ≤ 32768 → held → exec i s = .next t) ∧
           (1 ≤ d → d ≤ 32768 → ¬held → s.deferral.length < 32 → exec i s = .next { t with deferral := s.deferral ++ [u] }) ∧
           (1 ≤ d → d ≤ 32768 → ¬held → 32 ≤ s.deferral.length →
              exec i s = .next { t with assembly := some { a with gapNoted := true } })))))

/-- What an update that is next does: an invalid body or an entry ID 0 is consumed and puts the channel OUT_OF_STEP with cause
BAD_ENTRY; a body not newer than the revision of record is consumed and no more; one for a pinned or amended entry is held as its
amendment; one for an entry in service is refused; any other replaces the entry or joins the schedule, which needs room and a slot.
A drop removes its entry, or is held, or refused, in the same way. CLAMPED is raised for an invalid body too (log 14), and
the window's count stops at 255 (log 13). -/
def Obligations.UpdatesAreApplied : Prop :=
  ∀ (c : ChannelNo) (counted : Bool) (seq : Nat) (s : State), InvWith 0 s → (s.chan c).lastApplied ≠ some seq →
    (∀ raw : RawBody,
      (let r := (s.chan c).settings.rate
       let t := if raw.clamps r then raise c .clamped s else s
       let b := raw.convert r
       let key : EntryKey := { origin := .replicated, id := raw.entryId }
       let out := applyUpdate c counted (.put seq raw) s
       (raw.valid r = false → out = fallOut c .badEntry (consumed c counted seq t)) ∧
       (∀ pre e post, raw.valid r = true → (s.chan c).schedule = pre ++ e :: post → e.key = key →
          (let newest := match e.amendment with
             | some (.body d) => d.revision
             | _ => e.body.revision
           (raw.revision ≤ newest → out = consumed c counted seq t) ∧
           (newest < raw.revision → e.pinned = true ∨ e.amendment ≠ none →
              out = consumed c counted seq (amended c (pre ++ ({ e with amendment := some (.body b) } : Entry) :: post) t)) ∧
           (newest < raw.revision → e.pinned = false → e.amendment = none → e.inService = true →
              out = consumed c counted seq (raise c .divergence (modChan c (fun ch => { ch with inServiceRefused := true }) t))) ∧
           (newest < raw.revision → e.pinned = false → e.amendment = none → e.inService = false →
              ∃ d es, d = { e with body := b, status := d.status, amendment := none } ∧
                joined (s.chan c).frame d (pre ++ post) es ∧ out = consumed c counted seq (rescheduled c es t)))) ∧
       (raw.valid r = true → (∀ e ∈ (s.chan c).schedule, e.key ≠ key) →
          (1024 ≤ (s.chan c).schedule.length → out = fallOut c .full t) ∧
          ((s.chan c).schedule.length < 1024 → requestSlot t = none → out = fallOut c .pool t) ∧
          (∀ u, (s.chan c).schedule.length < 1024 → requestSlot t = some u →
            ∃ e es, e = { origin := .replicated, body := b, status := e.status, pinned := false, amendment := none } ∧
              joined (u.chan c).frame e (u.chan c).schedule es ∧ out = consumed c counted seq (rescheduled c es u))))) ∧
    (∀ id : Nat,
      (let key : EntryKey := { origin := .replicated, id := id }
       let out := applyUpdate c counted (.drop seq id) s
       (id = 0 → out = fallOut c .badEntry (consumed c counted seq s)) ∧
       (id ≠ 0 → (∀ e ∈ (s.chan c).schedule, e.key ≠ key) → out = consumed c counted seq s) ∧
       (∀ pre e post, id ≠ 0 → (s.chan c).schedule = pre ++ e :: post → e.key = key →
          (e.pinned = true ∨ e.amendment ≠ none →
             out = consumed c counted seq (amended c (pre ++ ({ e with amendment := some .deletion } : Entry) :: post) s)) ∧
          (e.pinned = false → e.amendment = none → e.inService = true →
             out = consumed c counted seq (raise c .divergence (modChan c (fun ch => { ch with inServiceRefused := true }) s))) ∧
          (e.pinned = false → e.amendment = none → e.inService = false →
             out = consumed c counted seq (freeSlots 1 (rescheduled c (pre ++ post) s))))))

/-- A heartbeat is taken record by record: each listed channel's health, with a gap where its last sequences differ, then the digest
records that a walk may be due for. A malformed message raises LINK_MALFORMED and is discarded. Any message restarts the silence count,
and one that finds the link DOWN makes it UP, its content taken first (log 8), with a STANDBY STATUS and the ask of the resync queue.
Which of the two messages leaves first is a free value (log 7). The kind byte of a delivered message picks its command; a message
row whose body does not have its layout is taken as malformed, and MALFORMED_MESSAGE with a well-formed message changes nothing
(log 23). -/
def Obligations.MessagesArriveAndKeepTheLinkUp : Prop :=
  (∀ (l1 l2 : Byte) (body : List Byte),
    (∀ k ∈ replicationKinds body,
      (256 * l1.toNat + l2.toNat = body.length → k.2.1 = true → ofReplication (k.1 :: l1 :: l2 :: body) = k.2.2) ∧
      (256 * l1.toNat + l2.toNat ≠ body.length ∨ k.2.1 = false →
        ofReplication (k.1 :: l1 :: l2 :: body) = .malformedMessage (k.1 :: l1 :: l2 :: body))) ∧
    (∀ kind : Byte, (∀ k ∈ replicationKinds body, kind ≠ k.1) →
      ofReplication (kind :: l1 :: l2 :: body) = .malformedMessage (kind :: l1 :: l2 :: body))) ∧
  (∀ bytes : List Byte, bytes.length < 3 → ofReplication bytes = .malformedMessage bytes) ∧
  (∀ s : State,
    (∀ body hs ds, parseHeartbeat body = some (hs, ds) →
      (let t := ds.foldl (fun t r => takeDigestRecord hs r t) (hs.foldl (fun t r => takeHealthRecord r t) (delivered s))
       (s.linkUp = true → exec (.siteHeartbeat body) s = .next t) ∧
       (s.linkUp = false → exec (.siteHeartbeat body) s = .next (linkComesUp t)))) ∧
    (∀ body, ∀ i ∈ malformedMessages body,
      (let t := { delivered s with events := { s.events with linkMalformed := true } }
       (s.linkUp = true → exec i s = .next t) ∧ (s.linkUp = false → exec i s = .next (linkComesUp t)))) ∧
    (∀ bytes, replicationWellFormed bytes = true → exec (.malformedMessage bytes) s = .next s) ∧
    (∀ i c u, updateOf i = some (c, u) → s.linkUp = false → exec i s = .next (linkComesUp (receiveUpdate c u (delivered s)))) ∧
    (∀ r : HealthRecord,
      (let c := r.channel
       let ok := modChan c (fun ch => { ch with listing := .ok, hbSilence := 0 }) s
       let fail := modChan c (fun ch => { ch with listing := .fail }) s
       let t := if r.fails then
           (if sourceFaults fail c .hb = true ∧ sourceFaults s c .hb = false then faultReported c fail else fail)
         else ok
       let behind := (s.chan c).replState = .inStep ∧ (s.chan c).settings.mode ≠ .off ∧ (s.chan c).lastApplied ≠ some r.mainLast
       (¬behind → takeHealthRecord r s = t) ∧ (behind → takeHealthRecord r s = fallOut c .gap t))) ∧
    (∀ (hs : List HealthRecord) (r : DigestRecord),
      (let ch := s.chan r.channel
       let wanted := ch.replState = .inStep ∧ ch.settings.mode ≠ .off ∧ ch.changeover = .mirror ∧
         (∃ h ∈ hs, h.channel = r.channel ∧ ch.lastApplied = some h.mainLast) ∧ (∀ w ∈ s.pendingWalks, w.channel ≠ r.channel) ∧
         (∀ w ∈ s.walk, w.record.channel ≠ r.channel) ∧ s.pendingWalks.length < 8 ∧ r.day ≤ 9999 ∧
         r.label.valid ch.settings.rate = true
       (¬wanted → takeDigestRecord hs r s = s) ∧
       (wanted → takeDigestRecord hs r s = startWalk { s with pendingWalks := s.pendingWalks ++
         [{ channel := r.channel, horizon := absoluteFrame ch.settings.rate r.day r.label,
            mainDigest := r.digest, mainCount := r.count }] }))) ∧
    (s.resyncQueue = [] ∨ s.assembly ≠ none → linkComesUp s = statusSent (linkedUp s)) ∧
    (∀ d rest, s.resyncQueue = d :: rest → s.assembly = none → ∃ number records,
      (let ask := ReplicationOut.resyncAsk d (s.chan d).cause (s.chan d).lastApplied
       let status := ReplicationOut.standbyStatus number records
       let t := linkComesUp s
       number = s.statusNumber ∧ t.linkUp = true ∧ t.statusCount = 0 ∧ t.resyncQueue = rest ∧
       (t.chan d).replState = .resyncing ∧ (∃ a, t.assembly = some a ∧ a.channel = d ∧ a.phase = .awaitingOpen) ∧
       (t.replicationOut = s.replicationOut ++ [ask, status] ∨ t.replicationOut = s.replicationOut ++ [status, ask]))))

/-- A snapshot, message by message: OPEN begins it, ITEM after ITEM in turn stages its entries, each on a slot of the pool, and CLOSE
with the right count and digest commits it: the channel is IN_STEP at the resume sequence, its schedule holds what was LOCAL, in
service or pinned and what was staged; the deferred updates that follow on are applied in sequence order while the channel stays
IN_STEP, one left over or a noted gap puts it OUT_OF_STEP with cause GAP; the assembly and the deferral queue end, and the resync
queue is served. Anything out of place fails it, a repeat is ignored, and a message for another channel or at another time does
nothing. A failure frees what was staged and puts the channel back, the third in a row as STALE, and serves the queue. A message
that finds the link DOWN makes it UP once its content is taken (log 8). CLAMPED of an item is raised when it is staged (log 14);
staged entries join one at a time at the commit (log 12); the next index before the OPEN is 1 (log 25). -/
def Obligations.SnapshotsAreAssembled : Prop :=
  ∀ (c : ChannelNo) (s : State), InvWith 0 s →
    (let t := delivered s
     let next := fun u : State => Host.Outcome.next (arrived s.linkUp u)
     let elsewhere := fun p : Phase => ∀ a, s.assembly = some a → a.channel ≠ c ∨ a.phase ≠ p
     (∀ body resume count, parseSnapshotOpen body = some (c, resume, count) →
       (elsewhere .awaitingOpen → exec (.snapshotOpen body) s = next t) ∧
       (∀ a, s.assembly = some a → a.channel = c → a.phase = .awaitingOpen → 1024 < count →
          exec (.snapshotOpen body) s = next (failSnapshot false t)) ∧
       (∀ a, s.assembly = some a → a.channel = c → a.phase = .awaitingOpen → count ≤ 1024 →
          exec (.snapshotOpen body) s = next (abandonWalks c { t with assembly := some { a with
            phase := .receiving, resume := some resume, expected := some count, nextIndex := 1 } }))) ∧
     (∀ body index raw, parseEntryPut body = some (c, index, raw) →
       (let r := (s.chan c).settings.rate
        let out := exec (.snapshotItem body) s
        (elsewhere .receiving → out = next t) ∧
        (∀ a n, s.assembly = some a → a.channel = c → a.phase = .receiving → a.expected = some n →
          (index = 0 ∨ n < index ∨ a.nextIndex < index → out = next (failSnapshot false t)) ∧
          (1 ≤ index → index ≤ n → index < a.nextIndex → out = next t) ∧
          (1 ≤ index → index ≤ n → index = a.nextIndex →
            (raw.valid r = false ∨ (∃ b ∈ a.staged, b.entryId = raw.entryId) → out = next (failSnapshot false t)) ∧
            (raw.valid r = true → (∀ b ∈ a.staged, b.entryId ≠ raw.entryId) → requestSlot t = none →
               out = next (failSnapshot true t)) ∧
            (∀ u, raw.valid r = true → (∀ b ∈ a.staged, b.entryId ≠ raw.entryId) → requestSlot t = some u →
               (let v := { u with assembly := some { a with
                  staged := a.staged ++ [raw.convert r], nextIndex := a.nextIndex + 1 } }
                out = next (if raw.clamps r then raise c .clamped v else v))))))) ∧
     (∀ body count digest, parseSnapshotClose body = some (c, count, digest) →
       (let out := exec (.snapshotClose body) s
        (elsewhere .receiving → out = next t) ∧
        (∀ a, s.assembly = some a → a.channel = c → a.phase = .receiving →
         (let es := (s.chan c).schedule
          let right := a.staged.length = count ∧ a.expected = some count ∧
            (a.staged.map (fun b => (b.entryId * 40503 + b.revision * 977 + b.start % 65536) % 2 ^ 32)).sum % 2 ^ 32 = digest
          let named := fun (e : Entry) (b : Body) => e.origin = .replicated ∧ e.body.entryId = b.entryId
          let stays := fun e : Entry => e.origin = .localEntry ∨ e.inService = true ∨ e.pinned = true
          let size := es.countP (fun e => decide (stays e)) +
            a.staged.countP (fun b => decide (∀ e ∈ es, named e b → ¬stays e))
          (¬right → out = next (failSnapshot false t)) ∧
          (right → 1024 < size → out = next (failSnapshot false t)) ∧
          (∀ resume, right → size ≤ 1024 → a.resume = some resume →
            ∃ v done rest,
              v.assembly = some { a with staged := [] } ∧ v.deferral = s.deferral ∧ v.resyncQueue = s.resyncQueue ∧
              (v.chan c).replState = .inStep ∧ (v.chan c).cause = .none ∧ (v.chan c).attempts = 0 ∧
              (v.chan c).lastApplied = some resume ∧
              ((v.chan c).inServiceRefused = true ↔ ∃ b ∈ a.staged, ∃ e ∈ es, named e b ∧ e.inService = true) ∧
              (v.chan c).schedule.length = size ∧
              (∀ e ∈ es, e.origin = .localEntry ∨ e.inService = true → e ∈ (v.chan c).schedule) ∧
              (∀ e ∈ es, e.origin = .replicated → e.inService = false → e.pinned = true →
                (∀ b ∈ a.staged, named e b → { e with amendment := some (.body b) } ∈ (v.chan c).schedule) ∧
                ((∀ b ∈ a.staged, ¬named e b) → { e with amendment := some .deletion } ∈ (v.chan c).schedule)) ∧
              (∀ b ∈ a.staged, (∀ e ∈ es, named e b → ¬stays e) →
                ∃ e ∈ (v.chan c).schedule, e.origin = .replicated ∧ e.body = b ∧ e.pinned = false ∧ e.amendment = none) ∧
              (∀ d, d ≠ c → v.chan d = s.chan d) ∧
              (done ++ rest).Perm s.deferral ∧
              done.map numberOfUpdate = (List.range done.length).map (fun k => (resume + 1 + k) % 65536) ∧
              (let after := fun us : List Update => us.foldl (fun w u => applyUpdate c false u w) v
               let w := after done
               (∀ k, k < done.length → ((after (done.take k)).chan c).replState = .inStep) ∧
               ((w.chan c).replState = .inStep → ∀ u ∈ rest, numberOfUpdate u ≠ (resume + 1 + done.length) % 65536) ∧
               out = next (serve { afterUpdates c a.gapNoted rest w with assembly := none, deferral := [] }))))))) ∧
     (∀ a forPool, s.assembly = some a →
       (let n := (s.chan a.channel).attempts + 1
        let cause := if forPool then .pool else a.causeBefore
        let st := if forPool then .outOfStep else a.stateBefore
        (n < 3 → failSnapshot forPool s = enqueue a.channel (setReplication a.channel st cause n (dropped a s))) ∧
        (3 ≤ n → failSnapshot forPool s = serve (setReplication a.channel .stale cause n (dropped a s))))))

/-! ### Replies -/

/-- A cue reply counts only for a directive of its tag still AWAITING. READY of the joining directive in PREPARING sends the channel to
TAKE_PENDING with its take requested; other READYs are noted; a joining directive that fails gives way to a STANDBY or strands the
channel; a failed directive of the next place gives way to a STANDBY, or is noted with the output lost. Malformed replies change
nothing. A channel without a current frame has a free value for it (log 6); the joined entry is a field of its own (log 22). The kind byte of
a delivered reply picks its command, on the cue link and on the router link; anything else is malformed (log 23). -/
def Obligations.CueRepliesAreMatched : Prop :=
  (∀ (l1 l2 : Byte) (body : List Byte),
    (∀ k ∈ replyKinds body,
      (256 * l1.toNat + l2.toNat = body.length → (parseReply body).isSome →
        k.1 (k.2.1 :: l1 :: l2 :: body) = k.2.2.1) ∧
      (256 * l1.toNat + l2.toNat ≠ body.length ∨ parseReply body = none →
        k.1 (k.2.1 :: l1 :: l2 :: body) = k.2.2.2 (k.2.1 :: l1 :: l2 :: body))) ∧
    (∀ kind : Byte, kind ≠ 0x28 → kind ≠ 0x29 → ofCue (kind :: l1 :: l2 :: body) = .malformedCueReply (kind :: l1 :: l2 :: body)) ∧
    (∀ kind : Byte, kind ≠ 0x38 → kind ≠ 0x39 →
      ofRouter (kind :: l1 :: l2 :: body) = .malformedRouterReply (kind :: l1 :: l2 :: body))) ∧
  (∀ bytes : List Byte, bytes.length < 3 → ofCue bytes = .malformedCueReply bytes ∧ ofRouter bytes = .malformedRouterReply bytes) ∧
  (∀ (body : List Byte) (s : State),
    (∀ i ∈ [Instr.malformedCueReply body, .malformedRouterReply body], exec i s = .next s) ∧
    (parseReply body = none →
      ∀ i ∈ [Instr.cueReady body, .cueFail body, .routerDone body, .routerFail body], exec i s = .next s) ∧
    (∀ c tag, parseReply body = some (c, tag) →
      (let ch := s.chan c
       let mine := fun (p : Option Place) (t : Nat) => ∃ q, p = some q ∧ q.reply = .awaiting ∧ t = tag
       (¬mine ch.current ch.currentTag → ¬mine ch.next ch.nextTag →
          exec (.cueReady body) s = .next s ∧ exec (.cueFail body) s = .next s) ∧
       (∀ p, ch.current = some p → mine ch.current ch.currentTag →
          (let t := modChan c (fun x => { x with current := some { p with reply := .ready } }) s
           (ch.changeover ≠ .preparing → exec (.cueReady body) s = .next t ∧ exec (.cueFail body) s = .next s) ∧
           (ch.changeover = .preparing → exec (.cueReady body) s = .next (settleFrameNow c (placeRequest
             { channel := c, direction := .dr, release := releasePulse s c (s.frameNow c) p.rollFrame,
               priority := takeoverPriority s c ch.joined } (setChangeover c .takePending t)))) ∧
           (ch.changeover = .preparing → ch.cueRetryUsed = false → ∃ u, exec (.cueFail body) s = .next u ∧
             (u.chan c).changeover = .preparing ∧ (u.chan c).cueRetryUsed = true ∧ (u.chan c).flags.cueFault = true ∧
             (u.chan c).rollFrame = some (s.frameNow c + ch.inEffect.cueLead) ∧
             (u.chan c).current = some (placed .standby none (s.frameNow c + ch.inEffect.cueLead) none)) ∧
           (ch.changeover = .preparing → ch.cueRetryUsed = true → ∃ u, exec (.cueFail body) s = .next u ∧
             (u.chan c).changeover = .stranded ∧ (u.chan c).flags.cueFault = true ∧ (u.chan c).current = none ∧
             (u.chan c).next = none ∧ ∃ d ∈ u.cueOut, d.channel = c ∧ d.body = .stop ∧ d.frame = ch.frame))) ∧
       (∀ p, ¬mine ch.current ch.currentTag → ch.next = some p → mine ch.next ch.nextTag →
          exec (.cueReady body) s = .next (modChan c (fun x => { x with next := some { p with reply := .ready } }) s) ∧
          (p.kind = .standby → exec (.cueFail body) s = .next (raise c .outputLost
            (modChan c (fun x => { x with next := some { p with reply := .failed }, outputLost := true }) (raise c .cueFault s)))) ∧
          (p.kind ≠ .standby → ∃ u x, exec (.cueFail body) s = .next u ∧
            x = (if s.frameNow c < p.rollFrame then p.rollFrame else s.frameNow c + ch.inEffect.cueLead) ∧
            (u.chan c).next = some (placed .standby none x none) ∧ (u.chan c).flags.cueFault = true ∧
            (u.chan c).changeover = ch.changeover)))))

/-- A router reply counts only for the outstanding take of its tag, which it ends. DONE of a takeover puts the channel ON_DR with its
latency; DONE of a giveback stops the server and puts it in MIRROR. FAIL raises ROUTER_FAULT: a takeover is requested once more, then
strands; a giveback goes back to ON_DR with the boundary as its barrier. A latency with no stated difference is a free value,
counted by `draws` (log 6); the boundary is kept (log 21). -/
def Obligations.RouterRepliesAreMatched : Prop :=
  ∀ (body : List Byte) (c : ChannelNo) (tag : Nat) (s : State), InvWith 0 s → parseReply body = some (c, tag) →
    (let ch := s.chan c
     let done := exec (.routerDone body) s
     let fail := exec (.routerFail body) s
     ((∀ o, ch.outstanding = some o → o.tag ≠ tag) → done = .next s ∧ fail = .next s) ∧
     (∀ o, ch.outstanding = some o → o.tag = tag →
       (let t := modChan c (fun x => { x with outstanding := none }) s
        let failed := raise c .routerFault t
        (∀ d f, o.direction = .dr → ch.changeover = .takePending → ch.frame = some f → ch.decisionFrame = some d → d ≤ f →
           done = .next (raise c .changeover (modChan c (fun x => { x with changeover := .onDr, takeLatency := some (f - d) })
             { t with draws := t.draws + 1 }))) ∧
        (o.direction = .dr → ch.changeover ≠ .takePending → done = .next t ∧ fail = .next failed) ∧
        (o.direction = .main → ch.changeover ≠ .returning → done = .next t ∧ fail = .next failed) ∧
        (o.direction = .main → ch.changeover = .returning → ∃ u, done = .next u ∧ (u.chan c).changeover = .mirror ∧
           (u.chan c).outstanding = none ∧ (u.chan c).current = none ∧ (u.chan c).next = none ∧ (u.chan c).doubt = false ∧
           (u.chan c).barrier = none ∧ (u.chan c).flags.changeover = true ∧
           (∃ d ∈ u.cueOut, d.channel = c ∧ d.body = .stop ∧ d.frame = ch.frame) ∧
           ∀ e ∈ (u.chan c).schedule, e.inService = false) ∧
        (o.direction = .main → ch.changeover = .returning → fail = .next (raise c .changeover
           (modChan c (fun x => { x with changeover := .onDr, barrier := x.boundary }) failed))) ∧
        (o.direction = .dr → ch.changeover = .takePending → ch.routerRetryUsed = false → fail = .next (placeRequest
           { channel := c, direction := .dr, release := releaseNow s, priority := takeoverPriority s c ch.joined }
           (modChan c (fun x => { x with routerRetryUsed := true }) failed))) ∧
        (o.direction = .dr → ch.changeover = .takePending → ch.routerRetryUsed = true → ∃ u, fail = .next u ∧
           (u.chan c).changeover = .stranded ∧ (u.chan c).flags.routerFault = true ∧ (u.chan c).outstanding = none ∧
           (u.chan c).current = none ∧ (u.chan c).next = none ∧ ∀ e ∈ (u.chan c).schedule, e.inService = false))))

/-- COU's part of a frame event of a channel in TAKE_PENDING, ON_DR or RETURNING: the doubt mark clears in IN_STEP, then the steps in
their order. A directive of the next place still AWAITING at its roll frame has failed: a ROLL or LIVE gives way to a STANDBY the cue
lead later and its entry is PASSED, a STANDBY is noted with the output lost; a directive READY at its roll frame rolls, its entry airs
and the one before it is DONE, and a failed STANDBY rolls with nothing on air; an item that reached its end is DONE, and an amendment
that waited for it is applied; entries passed over are PASSED; the next directive is sent a cue lead before the transition, the earlier
of the current item's end and the next start; and a HEALTHY channel under AUTO gives back past its barrier. Each of the two rows is
COU's one part (log 3), begun with the settings in effect (log 18); the boundary in doubt is the current frame (log 20); the end of an
item whose entry is no longer listed is its play end (log 36). -/
def Obligations.HeldChannelAtFrameEvent : Prop :=
  (∀ (c : ChannelNo) (f : Nat) (s : State), .cou ∈ (s.chan c).due → (s.chan c).frame = some f → ∀ i ∈ couRows c,
    (s.chan c).changeover = .takePending ∨ (s.chan c).changeover = .onDr ∨ (s.chan c).changeover = .returning →
    exec i s = .next (automaticGiveback c f (planStep c f (passEntries c f (finishStep c f (rollStep c f
      (nextDeadline c f (doubtCleared c (couBegun c s))))))))) ∧
  (∀ (c : ChannelNo) (f : Nat) (w : State), InvWith 0 w →
    (let ch := w.chan c
     let es := ch.schedule
     let airs := fun k : EntryKey => (∃ e ∈ es, e.key = k ∧ e.status = .cued) ∧ ∀ e ∈ es, e.status = .airing → e.key = k
     let ends := fun k : EntryKey => ∃ e ∈ es, e.key = k ∧ e.status = .airing ∧ (e.pinned = true ∨ e.amendment = none)
     ((∀ p, ch.next = some p → p.reply ≠ .awaiting ∨ p.rollFrame ≠ f) → nextDeadline c f w = w) ∧
     (∀ p, ch.next = some p → p.reply = .awaiting → p.rollFrame = f → p.kind = .standby →
        nextDeadline c f w = raise c .outputLost (modChan c (fun x => { x with
          next := some { p with reply := .failed }, outputLost := true }) (raise c .cueFault w))) ∧
     (∀ p, ch.next = some p → p.reply = .awaiting → p.rollFrame = f → p.kind ≠ .standby → ch.frame = some f →
        (let after := fun v : State => standbyNext c (f + ch.inEffect.cueLead) v
         (p.entry = none → nextDeadline c f w = after (raise c .cueFault w)) ∧
         (∀ k, p.entry = some k → (∃ e ∈ es, e.key = k ∧ e.inService = true ∧ (e.pinned = true ∨ e.amendment = none)) →
            nextDeadline c f w = after (rescheduled c (marked k .passed es) (raise c .cueFault w))))) ∧
     (ch.changeover = .preparing → rollStep c f w = w) ∧
     (ch.changeover ≠ .preparing →
       ((∀ p, ch.current = some p → p.rollFrame ≠ f ∨ p.reply ≠ .ready ∨ p.rolled = true) →
          (∀ p, ch.next = some p → p.rollFrame ≠ f ∨ p.reply = .awaiting ∨ (p.reply = .failed ∧ p.kind ≠ .standby)) →
          rollStep c f w = w) ∧
       (∀ p, ch.current = some p → p.rollFrame = f → p.reply = .ready → p.rolled = false → ch.next = none →
          (let x := modChan c (fun y => { y with current := some { p with rolled := true }, outputLost := false }) w
           (p.entry = none → rollStep c f w = x) ∧
           (∀ k, p.entry = some k → airs k → rollStep c f w = rescheduled c (marked k .airing es) x))) ∧
       (∀ q p, ch.current = some q → q.rolled = true → ch.next = some p → p.rollFrame = f → p.reply = .ready →
          (let x := modChan c (fun y => { y with
             current := some { p with rolled := true }, currentTag := y.nextTag, next := none, outputLost := false }) w
           (q.entry = none → p.entry = none → rollStep c f w = x) ∧
           (∀ k, q.entry = some k → ends k → p.entry = none → rollStep c f w = rescheduled c (marked k .done es) x) ∧
           (∀ k, q.entry = none → p.entry = some k → airs k → rollStep c f w = rescheduled c (marked k .airing es) x) ∧
           (∀ j k, q.entry = some j → ends j → p.entry = some k → k ≠ j → (∃ e ∈ es, e.key = k ∧ e.status = .cued) →
              (∀ e ∈ es, e.status = .airing → e.key = j) →
              rollStep c f w = rescheduled c (marked k .airing (marked j .done es)) x))) ∧
       (∀ q p, ch.current = some q → q.rolled = true → ch.next = some p → p.rollFrame = f → p.reply = .failed → p.kind = .standby →
          (let x := modChan c (fun y => { y with
             current := some { p with rolled := true }, currentTag := y.nextTag, next := none }) w
           (q.entry = none → rollStep c f w = x) ∧
           (∀ k, q.entry = some k → ends k → rollStep c f w = rescheduled c (marked k .done es) x)))) ∧
     (∀ p, ch.current = some p → p.rolled = false ∨ p.playEnd = none → finishStep c f w = w) ∧
     (∀ p k e x, ch.current = some p → p.rolled = true → p.playEnd = some e → p.entry = some k → endOf k es = some x →
        (f < min e x → finishStep c f w = w) ∧
        (min e x ≤ f → ends k → finishStep c f w = rescheduled c (marked k .done es) w)) ∧
     (∀ p pre d post e x, ch.current = some p → p.rolled = true → p.playEnd = some e → p.entry = some d.key →
        es = pre ++ d :: post → endOf d.key es = some x → min e x ≤ f → d.origin = .replicated → d.status = .airing →
        d.pinned = false →
        (∀ b, d.amendment = some (.body b) →
          ∃ d' es', d' = { d with body := b, status := d'.status, amendment := none } ∧ joined ch.frame d' (pre ++ post) es' ∧
            finishStep c f w = abandonWalks c (rescheduled c es' w)) ∧
        (d.amendment = some .deletion →
          finishStep c f w = abandonWalks c (freeSlots 1 (rescheduled c (pre ++ post) w)))) ∧
     ((transition ch f = none ↔ ∀ x, ¬transitionFrame ch f x) ∧
      ∀ x, transition ch f = some x ↔ transitionFrame ch f x ∧ ∀ y, transitionFrame ch f y → x ≤ y) ∧
     (ch.next ≠ none ∨ ch.doubt = true ∨ transition ch f = none → planStep c f w = w) ∧
     (∀ x, ch.next = none → ch.doubt = false → transition ch f = some x →
        (f + ch.inEffect.cueLead < x → planStep c f w = w) ∧
        (∀ y, x ≤ f + ch.inEffect.cueLead → y = (if f < x then x else f + ch.inEffect.cueLead) →
          (let d := computeDirective w c y
           let tag := (ch.lastTag + 1) % 256
           let t := planStep c f w
           t.cueOut = w.cueOut ++ [{ channel := c, tag := tag, rate := ch.settings.rate, frame := some y, body := d.body }] ∧
           (t.chan c).next = placeFor d y ∧ (t.chan c).nextTag = tag ∧ (t.chan c).lastTag = tag ∧
           (t.chan c).current = ch.current ∧ (t.chan c).changeover = ch.changeover ∧ ∀ b, b ≠ c → t.chan b = w.chan b))) ∧
     (let b := boundaryOf ch f
      let gives := ch.changeover = .onDr ∧ ch.supervision = .healthy ∧ ch.inEffect.giveback = .auto ∧ ch.latched = false ∧
        ∀ x, ch.barrier = some x → x < b.getD f
      (¬gives → automaticGiveback c f w = w) ∧
      (gives → automaticGiveback c f w =
        placeRequest { channel := c, direction := .main, release := releasePulse w c f (b.getD f), priority := 4 }
          (modChan c (fun x => { x with boundary := b }) (setChangeover c .returning w))))))

/-! ### Time -/

/-- The labels of a day: every frame of the day has a valid label that names no skipped number and comes back to the frame, and every
such label is that of a frame of the day; and a time setting in milliseconds takes the least number of frames that lasts as long. -/
def Obligations.LabelsAndFramesAgree : Prop :=
  ∀ r : RateCode,
    (∀ n, n < r.framesPerDay →
      (labelOf r n).valid r = true ∧ (labelOf r n).namesSkipped r = false ∧ (labelOf r n).frameOfDay r = n) ∧
    (∀ l : Label, l.valid r = true → l.namesSkipped r = false → l.frameOfDay r < r.framesPerDay ∧ labelOf r (l.frameOfDay r) = l) ∧
    (∀ l : Label, l.valid r = true → l.namesSkipped r = true → l.frameOfDay r = ({ l with ff := r.skipped } : Label).frameOfDay r) ∧
    (∀ day l, l.valid r = true → dayOf r (absoluteFrame r day l) = day ∧ labelOfFrame r (absoluteFrame r day l) = l.clamp r) ∧
    (∀ ms k, ms * r.num ≤ msToFrames r ms * (1000 * r.den) ∧ (ms * r.num ≤ k * (1000 * r.den) → msToFrames r ms ≤ k))
end

