-- ==== Sys2Proof/Laws/State.lean ====
section
/-! SUPPORT. One lemma per field per update of the state: what each of the plainest operations leaves as it was, and what it
writes. -/

namespace Sys2Proof.Machine

set_option Elab.async false

variable (s : State)

/-! ### modChan -/

@[simp] theorem modChan_familyP (c : ChannelNo) (f : Channel → Channel) : (modChan c f s).familyP = s.familyP := rfl
@[simp] theorem modChan_familyN (c : ChannelNo) (f : Channel → Channel) : (modChan c f s).familyN = s.familyN := rfl
@[simp] theorem modChan_freeCount (c : ChannelNo) (f : Channel → Channel) : (modChan c f s).freeCount = s.freeCount := rfl
@[simp] theorem modChan_aging (c : ChannelNo) (f : Channel → Channel) : (modChan c f s).aging = s.aging := rfl
@[simp] theorem modChan_device (c : ChannelNo) (f : Channel → Channel) : (modChan c f s).device = s.device := rfl
@[simp] theorem modChan_routerLead (c : ChannelNo) (f : Channel → Channel) : (modChan c f s).routerLead = s.routerLead := rfl
@[simp] theorem modChan_attention (c : ChannelNo) (f : Channel → Channel) : (modChan c f s).attention = s.attention := rfl
@[simp] theorem modChan_events (c : ChannelNo) (f : Channel → Channel) : (modChan c f s).events = s.events := rfl
@[simp] theorem modChan_linkUp (c : ChannelNo) (f : Channel → Channel) : (modChan c f s).linkUp = s.linkUp := rfl
@[simp] theorem modChan_silence (c : ChannelNo) (f : Channel → Channel) : (modChan c f s).silence = s.silence := rfl
@[simp] theorem modChan_statusCount (c : ChannelNo) (f : Channel → Channel) : (modChan c f s).statusCount = s.statusCount := rfl
@[simp] theorem modChan_statusNumber (c : ChannelNo) (f : Channel → Channel) : (modChan c f s).statusNumber = s.statusNumber := rfl
@[simp] theorem modChan_resyncQueue (c : ChannelNo) (f : Channel → Channel) : (modChan c f s).resyncQueue = s.resyncQueue := rfl
@[simp] theorem modChan_assembly (c : ChannelNo) (f : Channel → Channel) : (modChan c f s).assembly = s.assembly := rfl
@[simp] theorem modChan_deferral (c : ChannelNo) (f : Channel → Channel) : (modChan c f s).deferral = s.deferral := rfl
@[simp] theorem modChan_pendingWalks (c : ChannelNo) (f : Channel → Channel) : (modChan c f s).pendingWalks = s.pendingWalks := rfl
@[simp] theorem modChan_walk (c : ChannelNo) (f : Channel → Channel) : (modChan c f s).walk = s.walk := rfl
@[simp] theorem modChan_lines (c : ChannelNo) (f : Channel → Channel) : (modChan c f s).lines = s.lines := rfl
@[simp] theorem modChan_sampled (c : ChannelNo) (f : Channel → Channel) : (modChan c f s).sampled = s.sampled := rfl
@[simp] theorem modChan_hostPresent (c : ChannelNo) (f : Channel → Channel) : (modChan c f s).hostPresent = s.hostPresent := rfl
@[simp] theorem modChan_hostTimer (c : ChannelNo) (f : Channel → Channel) : (modChan c f s).hostTimer = s.hostTimer := rfl
@[simp] theorem modChan_takeQueue (c : ChannelNo) (f : Channel → Channel) : (modChan c f s).takeQueue = s.takeQueue := rfl
@[simp] theorem modChan_slot (c : ChannelNo) (f : Channel → Channel) : (modChan c f s).slot = s.slot := rfl
@[simp] theorem modChan_portOut (c : ChannelNo) (f : Channel → Channel) : (modChan c f s).portOut = s.portOut := rfl
@[simp] theorem modChan_alertBefore (c : ChannelNo) (f : Channel → Channel) : (modChan c f s).alertBefore = s.alertBefore := rfl
@[simp] theorem modChan_replicationOut (c : ChannelNo) (f : Channel → Channel) : (modChan c f s).replicationOut = s.replicationOut := rfl
@[simp] theorem modChan_cueOut (c : ChannelNo) (f : Channel → Channel) : (modChan c f s).cueOut = s.cueOut := rfl
@[simp] theorem modChan_routerOut (c : ChannelNo) (f : Channel → Channel) : (modChan c f s).routerOut = s.routerOut := rfl
@[simp] theorem modChan_tickDue (c : ChannelNo) (f : Channel → Channel) : (modChan c f s).tickDue = s.tickDue := rfl
@[simp] theorem modChan_draws (c : ChannelNo) (f : Channel → Channel) : (modChan c f s).draws = s.draws := rfl
@[simp] theorem modChan_pending (c : ChannelNo) (f : Channel → Channel) : (modChan c f s).pending = s.pending := rfl

/-! ### modLine -/

@[simp] theorem modLine_familyP (l : LineNo) (f : SenseLine → SenseLine) : (modLine l f s).familyP = s.familyP := rfl
@[simp] theorem modLine_familyN (l : LineNo) (f : SenseLine → SenseLine) : (modLine l f s).familyN = s.familyN := rfl
@[simp] theorem modLine_channels (l : LineNo) (f : SenseLine → SenseLine) : (modLine l f s).channels = s.channels := rfl
@[simp] theorem modLine_freeCount (l : LineNo) (f : SenseLine → SenseLine) : (modLine l f s).freeCount = s.freeCount := rfl
@[simp] theorem modLine_aging (l : LineNo) (f : SenseLine → SenseLine) : (modLine l f s).aging = s.aging := rfl
@[simp] theorem modLine_device (l : LineNo) (f : SenseLine → SenseLine) : (modLine l f s).device = s.device := rfl
@[simp] theorem modLine_routerLead (l : LineNo) (f : SenseLine → SenseLine) : (modLine l f s).routerLead = s.routerLead := rfl
@[simp] theorem modLine_attention (l : LineNo) (f : SenseLine → SenseLine) : (modLine l f s).attention = s.attention := rfl
@[simp] theorem modLine_events (l : LineNo) (f : SenseLine → SenseLine) : (modLine l f s).events = s.events := rfl
@[simp] theorem modLine_linkUp (l : LineNo) (f : SenseLine → SenseLine) : (modLine l f s).linkUp = s.linkUp := rfl
@[simp] theorem modLine_silence (l : LineNo) (f : SenseLine → SenseLine) : (modLine l f s).silence = s.silence := rfl
@[simp] theorem modLine_statusCount (l : LineNo) (f : SenseLine → SenseLine) : (modLine l f s).statusCount = s.statusCount := rfl
@[simp] theorem modLine_statusNumber (l : LineNo) (f : SenseLine → SenseLine) : (modLine l f s).statusNumber = s.statusNumber := rfl
@[simp] theorem modLine_resyncQueue (l : LineNo) (f : SenseLine → SenseLine) : (modLine l f s).resyncQueue = s.resyncQueue := rfl
@[simp] theorem modLine_assembly (l : LineNo) (f : SenseLine → SenseLine) : (modLine l f s).assembly = s.assembly := rfl
@[simp] theorem modLine_deferral (l : LineNo) (f : SenseLine → SenseLine) : (modLine l f s).deferral = s.deferral := rfl
@[simp] theorem modLine_pendingWalks (l : LineNo) (f : SenseLine → SenseLine) : (modLine l f s).pendingWalks = s.pendingWalks := rfl
@[simp] theorem modLine_walk (l : LineNo) (f : SenseLine → SenseLine) : (modLine l f s).walk = s.walk := rfl
@[simp] theorem modLine_sampled (l : LineNo) (f : SenseLine → SenseLine) : (modLine l f s).sampled = s.sampled := rfl
@[simp] theorem modLine_hostPresent (l : LineNo) (f : SenseLine → SenseLine) : (modLine l f s).hostPresent = s.hostPresent := rfl
@[simp] theorem modLine_hostTimer (l : LineNo) (f : SenseLine → SenseLine) : (modLine l f s).hostTimer = s.hostTimer := rfl
@[simp] theorem modLine_takeQueue (l : LineNo) (f : SenseLine → SenseLine) : (modLine l f s).takeQueue = s.takeQueue := rfl
@[simp] theorem modLine_slot (l : LineNo) (f : SenseLine → SenseLine) : (modLine l f s).slot = s.slot := rfl
@[simp] theorem modLine_portOut (l : LineNo) (f : SenseLine → SenseLine) : (modLine l f s).portOut = s.portOut := rfl
@[simp] theorem modLine_alertBefore (l : LineNo) (f : SenseLine → SenseLine) : (modLine l f s).alertBefore = s.alertBefore := rfl
@[simp] theorem modLine_replicationOut (l : LineNo) (f : SenseLine → SenseLine) : (modLine l f s).replicationOut = s.replicationOut := rfl
@[simp] theorem modLine_cueOut (l : LineNo) (f : SenseLine → SenseLine) : (modLine l f s).cueOut = s.cueOut := rfl
@[simp] theorem modLine_routerOut (l : LineNo) (f : SenseLine → SenseLine) : (modLine l f s).routerOut = s.routerOut := rfl
@[simp] theorem modLine_tickDue (l : LineNo) (f : SenseLine → SenseLine) : (modLine l f s).tickDue = s.tickDue := rfl
@[simp] theorem modLine_draws (l : LineNo) (f : SenseLine → SenseLine) : (modLine l f s).draws = s.draws := rfl
@[simp] theorem modLine_pending (l : LineNo) (f : SenseLine → SenseLine) : (modLine l f s).pending = s.pending := rfl

/-! ### bumpDraws -/

@[simp] theorem bumpDraws_familyP : (bumpDraws s).familyP = s.familyP := rfl
@[simp] theorem bumpDraws_familyN : (bumpDraws s).familyN = s.familyN := rfl
@[simp] theorem bumpDraws_channels : (bumpDraws s).channels = s.channels := rfl
@[simp] theorem bumpDraws_freeCount : (bumpDraws s).freeCount = s.freeCount := rfl
@[simp] theorem bumpDraws_aging : (bumpDraws s).aging = s.aging := rfl
@[simp] theorem bumpDraws_device : (bumpDraws s).device = s.device := rfl
@[simp] theorem bumpDraws_routerLead : (bumpDraws s).routerLead = s.routerLead := rfl
@[simp] theorem bumpDraws_attention : (bumpDraws s).attention = s.attention := rfl
@[simp] theorem bumpDraws_events : (bumpDraws s).events = s.events := rfl
@[simp] theorem bumpDraws_linkUp : (bumpDraws s).linkUp = s.linkUp := rfl
@[simp] theorem bumpDraws_silence : (bumpDraws s).silence = s.silence := rfl
@[simp] theorem bumpDraws_statusCount : (bumpDraws s).statusCount = s.statusCount := rfl
@[simp] theorem bumpDraws_statusNumber : (bumpDraws s).statusNumber = s.statusNumber := rfl
@[simp] theorem bumpDraws_resyncQueue : (bumpDraws s).resyncQueue = s.resyncQueue := rfl
@[simp] theorem bumpDraws_assembly : (bumpDraws s).assembly = s.assembly := rfl
@[simp] theorem bumpDraws_deferral : (bumpDraws s).deferral = s.deferral := rfl
@[simp] theorem bumpDraws_pendingWalks : (bumpDraws s).pendingWalks = s.pendingWalks := rfl
@[simp] theorem bumpDraws_walk : (bumpDraws s).walk = s.walk := rfl
@[simp] theorem bumpDraws_lines : (bumpDraws s).lines = s.lines := rfl
@[simp] theorem bumpDraws_sampled : (bumpDraws s).sampled = s.sampled := rfl
@[simp] theorem bumpDraws_hostPresent : (bumpDraws s).hostPresent = s.hostPresent := rfl
@[simp] theorem bumpDraws_hostTimer : (bumpDraws s).hostTimer = s.hostTimer := rfl
@[simp] theorem bumpDraws_takeQueue : (bumpDraws s).takeQueue = s.takeQueue := rfl
@[simp] theorem bumpDraws_slot : (bumpDraws s).slot = s.slot := rfl
@[simp] theorem bumpDraws_portOut : (bumpDraws s).portOut = s.portOut := rfl
@[simp] theorem bumpDraws_alertBefore : (bumpDraws s).alertBefore = s.alertBefore := rfl
@[simp] theorem bumpDraws_replicationOut : (bumpDraws s).replicationOut = s.replicationOut := rfl
@[simp] theorem bumpDraws_cueOut : (bumpDraws s).cueOut = s.cueOut := rfl
@[simp] theorem bumpDraws_routerOut : (bumpDraws s).routerOut = s.routerOut := rfl
@[simp] theorem bumpDraws_tickDue : (bumpDraws s).tickDue = s.tickDue := rfl
@[simp] theorem bumpDraws_pending : (bumpDraws s).pending = s.pending := rfl

/-! ### sendReplication -/

@[simp] theorem sendReplication_familyP (m : ReplicationOut) : (sendReplication m s).familyP = s.familyP := rfl
@[simp] theorem sendReplication_familyN (m : ReplicationOut) : (sendReplication m s).familyN = s.familyN := rfl
@[simp] theorem sendReplication_channels (m : ReplicationOut) : (sendReplication m s).channels = s.channels := rfl
@[simp] theorem sendReplication_freeCount (m : ReplicationOut) : (sendReplication m s).freeCount = s.freeCount := rfl
@[simp] theorem sendReplication_aging (m : ReplicationOut) : (sendReplication m s).aging = s.aging := rfl
@[simp] theorem sendReplication_device (m : ReplicationOut) : (sendReplication m s).device = s.device := rfl
@[simp] theorem sendReplication_routerLead (m : ReplicationOut) : (sendReplication m s).routerLead = s.routerLead := rfl
@[simp] theorem sendReplication_attention (m : ReplicationOut) : (sendReplication m s).attention = s.attention := rfl
@[simp] theorem sendReplication_events (m : ReplicationOut) : (sendReplication m s).events = s.events := rfl
@[simp] theorem sendReplication_linkUp (m : ReplicationOut) : (sendReplication m s).linkUp = s.linkUp := rfl
@[simp] theorem sendReplication_silence (m : ReplicationOut) : (sendReplication m s).silence = s.silence := rfl
@[simp] theorem sendReplication_statusCount (m : ReplicationOut) : (sendReplication m s).statusCount = s.statusCount := rfl
@[simp] theorem sendReplication_statusNumber (m : ReplicationOut) : (sendReplication m s).statusNumber = s.statusNumber := rfl
@[simp] theorem sendReplication_resyncQueue (m : ReplicationOut) : (sendReplication m s).resyncQueue = s.resyncQueue := rfl
@[simp] theorem sendReplication_assembly (m : ReplicationOut) : (sendReplication m s).assembly = s.assembly := rfl
@[simp] theorem sendReplication_deferral (m : ReplicationOut) : (sendReplication m s).deferral = s.deferral := rfl
@[simp] theorem sendReplication_pendingWalks (m : ReplicationOut) : (sendReplication m s).pendingWalks = s.pendingWalks := rfl
@[simp] theorem sendReplication_walk (m : ReplicationOut) : (sendReplication m s).walk = s.walk := rfl
@[simp] theorem sendReplication_lines (m : ReplicationOut) : (sendReplication m s).lines = s.lines := rfl
@[simp] theorem sendReplication_sampled (m : ReplicationOut) : (sendReplication m s).sampled = s.sampled := rfl
@[simp] theorem sendReplication_hostPresent (m : ReplicationOut) : (sendReplication m s).hostPresent = s.hostPresent := rfl
@[simp] theorem sendReplication_hostTimer (m : ReplicationOut) : (sendReplication m s).hostTimer = s.hostTimer := rfl
@[simp] theorem sendReplication_takeQueue (m : ReplicationOut) : (sendReplication m s).takeQueue = s.takeQueue := rfl
@[simp] theorem sendReplication_slot (m : ReplicationOut) : (sendReplication m s).slot = s.slot := rfl
@[simp] theorem sendReplication_portOut (m : ReplicationOut) : (sendReplication m s).portOut = s.portOut := rfl
@[simp] theorem sendReplication_alertBefore (m : ReplicationOut) : (sendReplication m s).alertBefore = s.alertBefore := rfl
@[simp] theorem sendReplication_cueOut (m : ReplicationOut) : (sendReplication m s).cueOut = s.cueOut := rfl
@[simp] theorem sendReplication_routerOut (m : ReplicationOut) : (sendReplication m s).routerOut = s.routerOut := rfl
@[simp] theorem sendReplication_tickDue (m : ReplicationOut) : (sendReplication m s).tickDue = s.tickDue := rfl
@[simp] theorem sendReplication_draws (m : ReplicationOut) : (sendReplication m s).draws = s.draws := rfl
@[simp] theorem sendReplication_pending (m : ReplicationOut) : (sendReplication m s).pending = s.pending := rfl

/-! ### sendCue -/

@[simp] theorem sendCue_familyP (d : Directive) : (sendCue d s).familyP = s.familyP := rfl
@[simp] theorem sendCue_familyN (d : Directive) : (sendCue d s).familyN = s.familyN := rfl
@[simp] theorem sendCue_channels (d : Directive) : (sendCue d s).channels = s.channels := rfl
@[simp] theorem sendCue_freeCount (d : Directive) : (sendCue d s).freeCount = s.freeCount := rfl
@[simp] theorem sendCue_aging (d : Directive) : (sendCue d s).aging = s.aging := rfl
@[simp] theorem sendCue_device (d : Directive) : (sendCue d s).device = s.device := rfl
@[simp] theorem sendCue_routerLead (d : Directive) : (sendCue d s).routerLead = s.routerLead := rfl
@[simp] theorem sendCue_attention (d : Directive) : (sendCue d s).attention = s.attention := rfl
@[simp] theorem sendCue_events (d : Directive) : (sendCue d s).events = s.events := rfl
@[simp] theorem sendCue_linkUp (d : Directive) : (sendCue d s).linkUp = s.linkUp := rfl
@[simp] theorem sendCue_silence (d : Directive) : (sendCue d s).silence = s.silence := rfl
@[simp] theorem sendCue_statusCount (d : Directive) : (sendCue d s).statusCount = s.statusCount := rfl
@[simp] theorem sendCue_statusNumber (d : Directive) : (sendCue d s).statusNumber = s.statusNumber := rfl
@[simp] theorem sendCue_resyncQueue (d : Directive) : (sendCue d s).resyncQueue = s.resyncQueue := rfl
@[simp] theorem sendCue_assembly (d : Directive) : (sendCue d s).assembly = s.assembly := rfl
@[simp] theorem sendCue_deferral (d : Directive) : (sendCue d s).deferral = s.deferral := rfl
@[simp] theorem sendCue_pendingWalks (d : Directive) : (sendCue d s).pendingWalks = s.pendingWalks := rfl
@[simp] theorem sendCue_walk (d : Directive) : (sendCue d s).walk = s.walk := rfl
@[simp] theorem sendCue_lines (d : Directive) : (sendCue d s).lines = s.lines := rfl
@[simp] theorem sendCue_sampled (d : Directive) : (sendCue d s).sampled = s.sampled := rfl
@[simp] theorem sendCue_hostPresent (d : Directive) : (sendCue d s).hostPresent = s.hostPresent := rfl
@[simp] theorem sendCue_hostTimer (d : Directive) : (sendCue d s).hostTimer = s.hostTimer := rfl
@[simp] theorem sendCue_takeQueue (d : Directive) : (sendCue d s).takeQueue = s.takeQueue := rfl
@[simp] theorem sendCue_slot (d : Directive) : (sendCue d s).slot = s.slot := rfl
@[simp] theorem sendCue_portOut (d : Directive) : (sendCue d s).portOut = s.portOut := rfl
@[simp] theorem sendCue_alertBefore (d : Directive) : (sendCue d s).alertBefore = s.alertBefore := rfl
@[simp] theorem sendCue_replicationOut (d : Directive) : (sendCue d s).replicationOut = s.replicationOut := rfl
@[simp] theorem sendCue_routerOut (d : Directive) : (sendCue d s).routerOut = s.routerOut := rfl
@[simp] theorem sendCue_tickDue (d : Directive) : (sendCue d s).tickDue = s.tickDue := rfl
@[simp] theorem sendCue_draws (d : Directive) : (sendCue d s).draws = s.draws := rfl
@[simp] theorem sendCue_pending (d : Directive) : (sendCue d s).pending = s.pending := rfl

/-! ### sendRouter -/

@[simp] theorem sendRouter_familyP (m : TakeOut) : (sendRouter m s).familyP = s.familyP := rfl
@[simp] theorem sendRouter_familyN (m : TakeOut) : (sendRouter m s).familyN = s.familyN := rfl
@[simp] theorem sendRouter_channels (m : TakeOut) : (sendRouter m s).channels = s.channels := rfl
@[simp] theorem sendRouter_freeCount (m : TakeOut) : (sendRouter m s).freeCount = s.freeCount := rfl
@[simp] theorem sendRouter_aging (m : TakeOut) : (sendRouter m s).aging = s.aging := rfl
@[simp] theorem sendRouter_device (m : TakeOut) : (sendRouter m s).device = s.device := rfl
@[simp] theorem sendRouter_routerLead (m : TakeOut) : (sendRouter m s).routerLead = s.routerLead := rfl
@[simp] theorem sendRouter_attention (m : TakeOut) : (sendRouter m s).attention = s.attention := rfl
@[simp] theorem sendRouter_events (m : TakeOut) : (sendRouter m s).events = s.events := rfl
@[simp] theorem sendRouter_linkUp (m : TakeOut) : (sendRouter m s).linkUp = s.linkUp := rfl
@[simp] theorem sendRouter_silence (m : TakeOut) : (sendRouter m s).silence = s.silence := rfl
@[simp] theorem sendRouter_statusCount (m : TakeOut) : (sendRouter m s).statusCount = s.statusCount := rfl
@[simp] theorem sendRouter_statusNumber (m : TakeOut) : (sendRouter m s).statusNumber = s.statusNumber := rfl
@[simp] theorem sendRouter_resyncQueue (m : TakeOut) : (sendRouter m s).resyncQueue = s.resyncQueue := rfl
@[simp] theorem sendRouter_assembly (m : TakeOut) : (sendRouter m s).assembly = s.assembly := rfl
@[simp] theorem sendRouter_deferral (m : TakeOut) : (sendRouter m s).deferral = s.deferral := rfl
@[simp] theorem sendRouter_pendingWalks (m : TakeOut) : (sendRouter m s).pendingWalks = s.pendingWalks := rfl
@[simp] theorem sendRouter_walk (m : TakeOut) : (sendRouter m s).walk = s.walk := rfl
@[simp] theorem sendRouter_lines (m : TakeOut) : (sendRouter m s).lines = s.lines := rfl
@[simp] theorem sendRouter_sampled (m : TakeOut) : (sendRouter m s).sampled = s.sampled := rfl
@[simp] theorem sendRouter_hostPresent (m : TakeOut) : (sendRouter m s).hostPresent = s.hostPresent := rfl
@[simp] theorem sendRouter_hostTimer (m : TakeOut) : (sendRouter m s).hostTimer = s.hostTimer := rfl
@[simp] theorem sendRouter_takeQueue (m : TakeOut) : (sendRouter m s).takeQueue = s.takeQueue := rfl
@[simp] theorem sendRouter_slot (m : TakeOut) : (sendRouter m s).slot = s.slot := rfl
@[simp] theorem sendRouter_portOut (m : TakeOut) : (sendRouter m s).portOut = s.portOut := rfl
@[simp] theorem sendRouter_alertBefore (m : TakeOut) : (sendRouter m s).alertBefore = s.alertBefore := rfl
@[simp] theorem sendRouter_replicationOut (m : TakeOut) : (sendRouter m s).replicationOut = s.replicationOut := rfl
@[simp] theorem sendRouter_cueOut (m : TakeOut) : (sendRouter m s).cueOut = s.cueOut := rfl
@[simp] theorem sendRouter_tickDue (m : TakeOut) : (sendRouter m s).tickDue = s.tickDue := rfl
@[simp] theorem sendRouter_draws (m : TakeOut) : (sendRouter m s).draws = s.draws := rfl
@[simp] theorem sendRouter_pending (m : TakeOut) : (sendRouter m s).pending = s.pending := rfl

/-! ### attend -/

@[simp] theorem attend_familyP (c : ChannelNo) : (attend c s).familyP = s.familyP := rfl
@[simp] theorem attend_familyN (c : ChannelNo) : (attend c s).familyN = s.familyN := rfl
@[simp] theorem attend_channels (c : ChannelNo) : (attend c s).channels = s.channels := rfl
@[simp] theorem attend_freeCount (c : ChannelNo) : (attend c s).freeCount = s.freeCount := rfl
@[simp] theorem attend_aging (c : ChannelNo) : (attend c s).aging = s.aging := rfl
@[simp] theorem attend_device (c : ChannelNo) : (attend c s).device = s.device := rfl
@[simp] theorem attend_routerLead (c : ChannelNo) : (attend c s).routerLead = s.routerLead := rfl
@[simp] theorem attend_events (c : ChannelNo) : (attend c s).events = s.events := rfl
@[simp] theorem attend_linkUp (c : ChannelNo) : (attend c s).linkUp = s.linkUp := rfl
@[simp] theorem attend_silence (c : ChannelNo) : (attend c s).silence = s.silence := rfl
@[simp] theorem attend_statusCount (c : ChannelNo) : (attend c s).statusCount = s.statusCount := rfl
@[simp] theorem attend_statusNumber (c : ChannelNo) : (attend c s).statusNumber = s.statusNumber := rfl
@[simp] theorem attend_resyncQueue (c : ChannelNo) : (attend c s).resyncQueue = s.resyncQueue := rfl
@[simp] theorem attend_assembly (c : ChannelNo) : (attend c s).assembly = s.assembly := rfl
@[simp] theorem attend_deferral (c : ChannelNo) : (attend c s).deferral = s.deferral := rfl
@[simp] theorem attend_pendingWalks (c : ChannelNo) : (attend c s).pendingWalks = s.pendingWalks := rfl
@[simp] theorem attend_walk (c : ChannelNo) : (attend c s).walk = s.walk := rfl
@[simp] theorem attend_lines (c : ChannelNo) : (attend c s).lines = s.lines := rfl
@[simp] theorem attend_sampled (c : ChannelNo) : (attend c s).sampled = s.sampled := rfl
@[simp] theorem attend_hostPresent (c : ChannelNo) : (attend c s).hostPresent = s.hostPresent := rfl
@[simp] theorem attend_hostTimer (c : ChannelNo) : (attend c s).hostTimer = s.hostTimer := rfl
@[simp] theorem attend_takeQueue (c : ChannelNo) : (attend c s).takeQueue = s.takeQueue := rfl
@[simp] theorem attend_slot (c : ChannelNo) : (attend c s).slot = s.slot := rfl
@[simp] theorem attend_portOut (c : ChannelNo) : (attend c s).portOut = s.portOut := rfl
@[simp] theorem attend_alertBefore (c : ChannelNo) : (attend c s).alertBefore = s.alertBefore := rfl
@[simp] theorem attend_replicationOut (c : ChannelNo) : (attend c s).replicationOut = s.replicationOut := rfl
@[simp] theorem attend_cueOut (c : ChannelNo) : (attend c s).cueOut = s.cueOut := rfl
@[simp] theorem attend_routerOut (c : ChannelNo) : (attend c s).routerOut = s.routerOut := rfl
@[simp] theorem attend_tickDue (c : ChannelNo) : (attend c s).tickDue = s.tickDue := rfl
@[simp] theorem attend_draws (c : ChannelNo) : (attend c s).draws = s.draws := rfl
@[simp] theorem attend_pending (c : ChannelNo) : (attend c s).pending = s.pending := rfl

/-! ### unattend -/

@[simp] theorem unattend_familyP (c : ChannelNo) : (unattend c s).familyP = s.familyP := rfl
@[simp] theorem unattend_familyN (c : ChannelNo) : (unattend c s).familyN = s.familyN := rfl
@[simp] theorem unattend_channels (c : ChannelNo) : (unattend c s).channels = s.channels := rfl
@[simp] theorem unattend_freeCount (c : ChannelNo) : (unattend c s).freeCount = s.freeCount := rfl
@[simp] theorem unattend_aging (c : ChannelNo) : (unattend c s).aging = s.aging := rfl
@[simp] theorem unattend_device (c : ChannelNo) : (unattend c s).device = s.device := rfl
@[simp] theorem unattend_routerLead (c : ChannelNo) : (unattend c s).routerLead = s.routerLead := rfl
@[simp] theorem unattend_events (c : ChannelNo) : (unattend c s).events = s.events := rfl
@[simp] theorem unattend_linkUp (c : ChannelNo) : (unattend c s).linkUp = s.linkUp := rfl
@[simp] theorem unattend_silence (c : ChannelNo) : (unattend c s).silence = s.silence := rfl
@[simp] theorem unattend_statusCount (c : ChannelNo) : (unattend c s).statusCount = s.statusCount := rfl
@[simp] theorem unattend_statusNumber (c : ChannelNo) : (unattend c s).statusNumber = s.statusNumber := rfl
@[simp] theorem unattend_resyncQueue (c : ChannelNo) : (unattend c s).resyncQueue = s.resyncQueue := rfl
@[simp] theorem unattend_assembly (c : ChannelNo) : (unattend c s).assembly = s.assembly := rfl
@[simp] theorem unattend_deferral (c : ChannelNo) : (unattend c s).deferral = s.deferral := rfl
@[simp] theorem unattend_pendingWalks (c : ChannelNo) : (unattend c s).pendingWalks = s.pendingWalks := rfl
@[simp] theorem unattend_walk (c : ChannelNo) : (unattend c s).walk = s.walk := rfl
@[simp] theorem unattend_lines (c : ChannelNo) : (unattend c s).lines = s.lines := rfl
@[simp] theorem unattend_sampled (c : ChannelNo) : (unattend c s).sampled = s.sampled := rfl
@[simp] theorem unattend_hostPresent (c : ChannelNo) : (unattend c s).hostPresent = s.hostPresent := rfl
@[simp] theorem unattend_hostTimer (c : ChannelNo) : (unattend c s).hostTimer = s.hostTimer := rfl
@[simp] theorem unattend_takeQueue (c : ChannelNo) : (unattend c s).takeQueue = s.takeQueue := rfl
@[simp] theorem unattend_slot (c : ChannelNo) : (unattend c s).slot = s.slot := rfl
@[simp] theorem unattend_portOut (c : ChannelNo) : (unattend c s).portOut = s.portOut := rfl
@[simp] theorem unattend_alertBefore (c : ChannelNo) : (unattend c s).alertBefore = s.alertBefore := rfl
@[simp] theorem unattend_replicationOut (c : ChannelNo) : (unattend c s).replicationOut = s.replicationOut := rfl
@[simp] theorem unattend_cueOut (c : ChannelNo) : (unattend c s).cueOut = s.cueOut := rfl
@[simp] theorem unattend_routerOut (c : ChannelNo) : (unattend c s).routerOut = s.routerOut := rfl
@[simp] theorem unattend_tickDue (c : ChannelNo) : (unattend c s).tickDue = s.tickDue := rfl
@[simp] theorem unattend_draws (c : ChannelNo) : (unattend c s).draws = s.draws := rfl
@[simp] theorem unattend_pending (c : ChannelNo) : (unattend c s).pending = s.pending := rfl

/-! ### raiseEvent -/

@[simp] theorem raiseEvent_familyP (e : DeviceFlag) : (raiseEvent e s).familyP = s.familyP := rfl
@[simp] theorem raiseEvent_familyN (e : DeviceFlag) : (raiseEvent e s).familyN = s.familyN := rfl
@[simp] theorem raiseEvent_channels (e : DeviceFlag) : (raiseEvent e s).channels = s.channels := rfl
@[simp] theorem raiseEvent_freeCount (e : DeviceFlag) : (raiseEvent e s).freeCount = s.freeCount := rfl
@[simp] theorem raiseEvent_aging (e : DeviceFlag) : (raiseEvent e s).aging = s.aging := rfl
@[simp] theorem raiseEvent_device (e : DeviceFlag) : (raiseEvent e s).device = s.device := rfl
@[simp] theorem raiseEvent_routerLead (e : DeviceFlag) : (raiseEvent e s).routerLead = s.routerLead := rfl
@[simp] theorem raiseEvent_attention (e : DeviceFlag) : (raiseEvent e s).attention = s.attention := rfl
@[simp] theorem raiseEvent_linkUp (e : DeviceFlag) : (raiseEvent e s).linkUp = s.linkUp := rfl
@[simp] theorem raiseEvent_silence (e : DeviceFlag) : (raiseEvent e s).silence = s.silence := rfl
@[simp] theorem raiseEvent_statusCount (e : DeviceFlag) : (raiseEvent e s).statusCount = s.statusCount := rfl
@[simp] theorem raiseEvent_statusNumber (e : DeviceFlag) : (raiseEvent e s).statusNumber = s.statusNumber := rfl
@[simp] theorem raiseEvent_resyncQueue (e : DeviceFlag) : (raiseEvent e s).resyncQueue = s.resyncQueue := rfl
@[simp] theorem raiseEvent_assembly (e : DeviceFlag) : (raiseEvent e s).assembly = s.assembly := rfl
@[simp] theorem raiseEvent_deferral (e : DeviceFlag) : (raiseEvent e s).deferral = s.deferral := rfl
@[simp] theorem raiseEvent_pendingWalks (e : DeviceFlag) : (raiseEvent e s).pendingWalks = s.pendingWalks := rfl
@[simp] theorem raiseEvent_walk (e : DeviceFlag) : (raiseEvent e s).walk = s.walk := rfl
@[simp] theorem raiseEvent_lines (e : DeviceFlag) : (raiseEvent e s).lines = s.lines := rfl
@[simp] theorem raiseEvent_sampled (e : DeviceFlag) : (raiseEvent e s).sampled = s.sampled := rfl
@[simp] theorem raiseEvent_hostPresent (e : DeviceFlag) : (raiseEvent e s).hostPresent = s.hostPresent := rfl
@[simp] theorem raiseEvent_hostTimer (e : DeviceFlag) : (raiseEvent e s).hostTimer = s.hostTimer := rfl
@[simp] theorem raiseEvent_takeQueue (e : DeviceFlag) : (raiseEvent e s).takeQueue = s.takeQueue := rfl
@[simp] theorem raiseEvent_slot (e : DeviceFlag) : (raiseEvent e s).slot = s.slot := rfl
@[simp] theorem raiseEvent_portOut (e : DeviceFlag) : (raiseEvent e s).portOut = s.portOut := rfl
@[simp] theorem raiseEvent_alertBefore (e : DeviceFlag) : (raiseEvent e s).alertBefore = s.alertBefore := rfl
@[simp] theorem raiseEvent_replicationOut (e : DeviceFlag) : (raiseEvent e s).replicationOut = s.replicationOut := rfl
@[simp] theorem raiseEvent_cueOut (e : DeviceFlag) : (raiseEvent e s).cueOut = s.cueOut := rfl
@[simp] theorem raiseEvent_routerOut (e : DeviceFlag) : (raiseEvent e s).routerOut = s.routerOut := rfl
@[simp] theorem raiseEvent_tickDue (e : DeviceFlag) : (raiseEvent e s).tickDue = s.tickDue := rfl
@[simp] theorem raiseEvent_draws (e : DeviceFlag) : (raiseEvent e s).draws = s.draws := rfl
@[simp] theorem raiseEvent_pending (e : DeviceFlag) : (raiseEvent e s).pending = s.pending := rfl

/-! ### raise -/

@[simp] theorem raise_familyP (c : ChannelNo) (f : ChangeFlag) : (raise c f s).familyP = s.familyP := rfl
@[simp] theorem raise_familyN (c : ChannelNo) (f : ChangeFlag) : (raise c f s).familyN = s.familyN := rfl
@[simp] theorem raise_freeCount (c : ChannelNo) (f : ChangeFlag) : (raise c f s).freeCount = s.freeCount := rfl
@[simp] theorem raise_aging (c : ChannelNo) (f : ChangeFlag) : (raise c f s).aging = s.aging := rfl
@[simp] theorem raise_device (c : ChannelNo) (f : ChangeFlag) : (raise c f s).device = s.device := rfl
@[simp] theorem raise_routerLead (c : ChannelNo) (f : ChangeFlag) : (raise c f s).routerLead = s.routerLead := rfl
@[simp] theorem raise_events (c : ChannelNo) (f : ChangeFlag) : (raise c f s).events = s.events := rfl
@[simp] theorem raise_linkUp (c : ChannelNo) (f : ChangeFlag) : (raise c f s).linkUp = s.linkUp := rfl
@[simp] theorem raise_silence (c : ChannelNo) (f : ChangeFlag) : (raise c f s).silence = s.silence := rfl
@[simp] theorem raise_statusCount (c : ChannelNo) (f : ChangeFlag) : (raise c f s).statusCount = s.statusCount := rfl
@[simp] theorem raise_statusNumber (c : ChannelNo) (f : ChangeFlag) : (raise c f s).statusNumber = s.statusNumber := rfl
@[simp] theorem raise_resyncQueue (c : ChannelNo) (f : ChangeFlag) : (raise c f s).resyncQueue = s.resyncQueue := rfl
@[simp] theorem raise_assembly (c : ChannelNo) (f : ChangeFlag) : (raise c f s).assembly = s.assembly := rfl
@[simp] theorem raise_deferral (c : ChannelNo) (f : ChangeFlag) : (raise c f s).deferral = s.deferral := rfl
@[simp] theorem raise_pendingWalks (c : ChannelNo) (f : ChangeFlag) : (raise c f s).pendingWalks = s.pendingWalks := rfl
@[simp] theorem raise_walk (c : ChannelNo) (f : ChangeFlag) : (raise c f s).walk = s.walk := rfl
@[simp] theorem raise_lines (c : ChannelNo) (f : ChangeFlag) : (raise c f s).lines = s.lines := rfl
@[simp] theorem raise_sampled (c : ChannelNo) (f : ChangeFlag) : (raise c f s).sampled = s.sampled := rfl
@[simp] theorem raise_hostPresent (c : ChannelNo) (f : ChangeFlag) : (raise c f s).hostPresent = s.hostPresent := rfl
@[simp] theorem raise_hostTimer (c : ChannelNo) (f : ChangeFlag) : (raise c f s).hostTimer = s.hostTimer := rfl
@[simp] theorem raise_takeQueue (c : ChannelNo) (f : ChangeFlag) : (raise c f s).takeQueue = s.takeQueue := rfl
@[simp] theorem raise_slot (c : ChannelNo) (f : ChangeFlag) : (raise c f s).slot = s.slot := rfl
@[simp] theorem raise_portOut (c : ChannelNo) (f : ChangeFlag) : (raise c f s).portOut = s.portOut := rfl
@[simp] theorem raise_alertBefore (c : ChannelNo) (f : ChangeFlag) : (raise c f s).alertBefore = s.alertBefore := rfl
@[simp] theorem raise_replicationOut (c : ChannelNo) (f : ChangeFlag) : (raise c f s).replicationOut = s.replicationOut := rfl
@[simp] theorem raise_cueOut (c : ChannelNo) (f : ChangeFlag) : (raise c f s).cueOut = s.cueOut := rfl
@[simp] theorem raise_routerOut (c : ChannelNo) (f : ChangeFlag) : (raise c f s).routerOut = s.routerOut := rfl
@[simp] theorem raise_tickDue (c : ChannelNo) (f : ChangeFlag) : (raise c f s).tickDue = s.tickDue := rfl
@[simp] theorem raise_draws (c : ChannelNo) (f : ChangeFlag) : (raise c f s).draws = s.draws := rfl
@[simp] theorem raise_pending (c : ChannelNo) (f : ChangeFlag) : (raise c f s).pending = s.pending := rfl

/-! ### modFamily -/

@[simp] theorem modFamily_channels (fam : Family) (f : FamilyRecord → FamilyRecord) : (modFamily fam f s).channels = s.channels := by cases fam <;> rfl
@[simp] theorem modFamily_freeCount (fam : Family) (f : FamilyRecord → FamilyRecord) : (modFamily fam f s).freeCount = s.freeCount := by cases fam <;> rfl
@[simp] theorem modFamily_aging (fam : Family) (f : FamilyRecord → FamilyRecord) : (modFamily fam f s).aging = s.aging := by cases fam <;> rfl
@[simp] theorem modFamily_device (fam : Family) (f : FamilyRecord → FamilyRecord) : (modFamily fam f s).device = s.device := by cases fam <;> rfl
@[simp] theorem modFamily_routerLead (fam : Family) (f : FamilyRecord → FamilyRecord) : (modFamily fam f s).routerLead = s.routerLead := by cases fam <;> rfl
@[simp] theorem modFamily_attention (fam : Family) (f : FamilyRecord → FamilyRecord) : (modFamily fam f s).attention = s.attention := by cases fam <;> rfl
@[simp] theorem modFamily_events (fam : Family) (f : FamilyRecord → FamilyRecord) : (modFamily fam f s).events = s.events := by cases fam <;> rfl
@[simp] theorem modFamily_linkUp (fam : Family) (f : FamilyRecord → FamilyRecord) : (modFamily fam f s).linkUp = s.linkUp := by cases fam <;> rfl
@[simp] theorem modFamily_silence (fam : Family) (f : FamilyRecord → FamilyRecord) : (modFamily fam f s).silence = s.silence := by cases fam <;> rfl
@[simp] theorem modFamily_statusCount (fam : Family) (f : FamilyRecord → FamilyRecord) : (modFamily fam f s).statusCount = s.statusCount := by cases fam <;> rfl
@[simp] theorem modFamily_statusNumber (fam : Family) (f : FamilyRecord → FamilyRecord) : (modFamily fam f s).statusNumber = s.statusNumber := by cases fam <;> rfl
@[simp] theorem modFamily_resyncQueue (fam : Family) (f : FamilyRecord → FamilyRecord) : (modFamily fam f s).resyncQueue = s.resyncQueue := by cases fam <;> rfl
@[simp] theorem modFamily_assembly (fam : Family) (f : FamilyRecord → FamilyRecord) : (modFamily fam f s).assembly = s.assembly := by cases fam <;> rfl
@[simp] theorem modFamily_deferral (fam : Family) (f : FamilyRecord → FamilyRecord) : (modFamily fam f s).deferral = s.deferral := by cases fam <;> rfl
@[simp] theorem modFamily_pendingWalks (fam : Family) (f : FamilyRecord → FamilyRecord) : (modFamily fam f s).pendingWalks = s.pendingWalks := by cases fam <;> rfl
@[simp] theorem modFamily_walk (fam : Family) (f : FamilyRecord → FamilyRecord) : (modFamily fam f s).walk = s.walk := by cases fam <;> rfl
@[simp] theorem modFamily_lines (fam : Family) (f : FamilyRecord → FamilyRecord) : (modFamily fam f s).lines = s.lines := by cases fam <;> rfl
@[simp] theorem modFamily_sampled (fam : Family) (f : FamilyRecord → FamilyRecord) : (modFamily fam f s).sampled = s.sampled := by cases fam <;> rfl
@[simp] theorem modFamily_hostPresent (fam : Family) (f : FamilyRecord → FamilyRecord) : (modFamily fam f s).hostPresent = s.hostPresent := by cases fam <;> rfl
@[simp] theorem modFamily_hostTimer (fam : Family) (f : FamilyRecord → FamilyRecord) : (modFamily fam f s).hostTimer = s.hostTimer := by cases fam <;> rfl
@[simp] theorem modFamily_takeQueue (fam : Family) (f : FamilyRecord → FamilyRecord) : (modFamily fam f s).takeQueue = s.takeQueue := by cases fam <;> rfl
@[simp] theorem modFamily_slot (fam : Family) (f : FamilyRecord → FamilyRecord) : (modFamily fam f s).slot = s.slot := by cases fam <;> rfl
@[simp] theorem modFamily_portOut (fam : Family) (f : FamilyRecord → FamilyRecord) : (modFamily fam f s).portOut = s.portOut := by cases fam <;> rfl
@[simp] theorem modFamily_alertBefore (fam : Family) (f : FamilyRecord → FamilyRecord) : (modFamily fam f s).alertBefore = s.alertBefore := by cases fam <;> rfl
@[simp] theorem modFamily_replicationOut (fam : Family) (f : FamilyRecord → FamilyRecord) : (modFamily fam f s).replicationOut = s.replicationOut := by cases fam <;> rfl
@[simp] theorem modFamily_cueOut (fam : Family) (f : FamilyRecord → FamilyRecord) : (modFamily fam f s).cueOut = s.cueOut := by cases fam <;> rfl
@[simp] theorem modFamily_routerOut (fam : Family) (f : FamilyRecord → FamilyRecord) : (modFamily fam f s).routerOut = s.routerOut := by cases fam <;> rfl
@[simp] theorem modFamily_tickDue (fam : Family) (f : FamilyRecord → FamilyRecord) : (modFamily fam f s).tickDue = s.tickDue := by cases fam <;> rfl
@[simp] theorem modFamily_draws (fam : Family) (f : FamilyRecord → FamilyRecord) : (modFamily fam f s).draws = s.draws := by cases fam <;> rfl
@[simp] theorem modFamily_pending (fam : Family) (f : FamilyRecord → FamilyRecord) : (modFamily fam f s).pending = s.pending := by cases fam <;> rfl

/-! ### What they write -/

@[simp] theorem modChan_channels (c : ChannelNo) (f : Channel → Channel) :
    (modChan c f s).channels = s.channels.set c.val (f (s.chan c)) := rfl

theorem chan_modChan (c d : ChannelNo) (f : Channel → Channel) :
    (modChan c f s).chan d = if d = c then f (s.chan c) else s.chan d := by
  by_cases h : d = c
  · subst h; simp [State.chan, modChan]
  · have h' : c.val ≠ d.val := fun e => h (Fin.ext e.symm)
    simp [State.chan, modChan, h, h']

@[simp] theorem chan_modChan_self (c : ChannelNo) (f : Channel → Channel) : (modChan c f s).chan c = f (s.chan c) := by
  simp [chan_modChan]

theorem chan_modChan_ne {c d : ChannelNo} (h : d ≠ c) (f : Channel → Channel) : (modChan c f s).chan d = s.chan d := by
  simp [chan_modChan, h]

theorem line_modLine (l m : LineNo) (f : SenseLine → SenseLine) :
    (modLine l f s).line m = if m = l then f (s.line l) else s.line m := by
  by_cases h : m = l
  · subst h; simp [State.line, modLine]
  · have h' : l.val ≠ m.val := fun e => h (Fin.ext e.symm)
    simp [State.line, modLine, h, h']

@[simp] theorem line_modLine_self (l : LineNo) (f : SenseLine → SenseLine) : (modLine l f s).line l = f (s.line l) := by
  simp [line_modLine]

@[simp] theorem family_modFamily_self (fam : Family) (f : FamilyRecord → FamilyRecord) :
    (modFamily fam f s).family fam = f (s.family fam) := by
  cases fam <;> rfl

theorem family_modFamily (fam g : Family) (f : FamilyRecord → FamilyRecord) :
    (modFamily fam f s).family g = if g = fam then f (s.family fam) else s.family g := by
  cases fam <;> cases g <;> rfl

/-! ### The named reads -/

@[simp] theorem modLine_chan (l : LineNo) (f : SenseLine → SenseLine) (d : ChannelNo) : (modLine l f s).chan d = s.chan d := rfl
@[simp] theorem bumpDraws_chan (d : ChannelNo) : (bumpDraws s).chan d = s.chan d := rfl
@[simp] theorem sendReplication_chan (m : ReplicationOut) (d : ChannelNo) : (sendReplication m s).chan d = s.chan d := rfl
@[simp] theorem sendCue_chan (m : Directive) (d : ChannelNo) : (sendCue m s).chan d = s.chan d := rfl
@[simp] theorem sendRouter_chan (m : TakeOut) (d : ChannelNo) : (sendRouter m s).chan d = s.chan d := rfl
@[simp] theorem attend_chan (c d : ChannelNo) : (attend c s).chan d = s.chan d := rfl
@[simp] theorem unattend_chan (c d : ChannelNo) : (unattend c s).chan d = s.chan d := rfl
@[simp] theorem raiseEvent_chan (e : DeviceFlag) (d : ChannelNo) : (raiseEvent e s).chan d = s.chan d := rfl
@[simp] theorem modFamily_chan (fam : Family) (f : FamilyRecord → FamilyRecord) (d : ChannelNo) :
    (modFamily fam f s).chan d = s.chan d := by cases fam <;> rfl
@[simp] theorem modChan_family (c : ChannelNo) (f : Channel → Channel) (fam : Family) :
    (modChan c f s).family fam = s.family fam := by cases fam <;> rfl
@[simp] theorem raise_family (c : ChannelNo) (f : ChangeFlag) (fam : Family) : (raise c f s).family fam = s.family fam := by
  cases fam <;> rfl
@[simp] theorem modChan_line (c : ChannelNo) (f : Channel → Channel) (l : LineNo) : (modChan c f s).line l = s.line l := rfl

theorem raise_chan (c : ChannelNo) (f : ChangeFlag) (d : ChannelNo) :
    (raise c f s).chan d = if d = c then { s.chan c with flags := (s.chan c).flags.raise f } else s.chan d := by
  simp [raise, chan_modChan]

theorem raise_attention (c : ChannelNo) (f : ChangeFlag) : (raise c f s).attention = insertChannel c s.attention := rfl

/-! ### Reset -/

@[simp] theorem reset_chan (c : ChannelNo) : State.reset.chan c = Channel.reset := by
  simp [State.chan, State.reset]

@[simp] theorem reset_line (l : LineNo) : State.reset.line l = SenseLine.reset := by
  simp [State.line, State.reset]

@[simp] theorem reset_family (fam : Family) : State.reset.family fam = FamilyRecord.reset := by
  cases fam <;> rfl

end Sys2Proof.Machine
end

