-- ==== Sys2Proof/Laws/Invariant.lean ====
section
/-! SUPPORT. The invariant under the plainest updates: what every other law of the invariant goes through. -/

namespace Sys2Proof.Machine

set_option Elab.async false

variable {k : Nat} {s : State}

/-! ### The pool sum -/

theorem listedSlots_modChan (c : ChannelNo) (f : Channel → Channel) (s : State) :
    listedSlots (modChan c f s) + (s.chan c).schedule.length = listedSlots s + (f (s.chan c)).schedule.length := by
  unfold listedSlots
  rw [← Finset.add_sum_erase Finset.univ (fun d => ((modChan c f s).chan d).schedule.length) (Finset.mem_univ c),
    ← Finset.add_sum_erase Finset.univ (fun d => (s.chan d).schedule.length) (Finset.mem_univ c)]
  have h : ∑ d ∈ Finset.univ.erase c, ((modChan c f s).chan d).schedule.length = ∑ d ∈ Finset.univ.erase c, (s.chan d).schedule.length := by
    refine Finset.sum_congr rfl (fun d hd => ?_)
    rw [chan_modChan_ne s (Finset.ne_of_mem_erase hd)]
  rw [h, chan_modChan_self]
  omega

theorem listedSlots_le (s : State) (c : ChannelNo) : (s.chan c).schedule.length ≤ listedSlots s := by
  unfold listedSlots
  exact Finset.single_le_sum (f := fun d => (s.chan d).schedule.length) (fun _ _ => Nat.zero_le _) (Finset.mem_univ c)

/-! ### Updates the invariant does not see -/

/-- A state that agrees on what the invariant reads keeps it. -/
theorem inv_touch {t : State} (h : InvWith k s) (hc : t.channels = s.channels := by rfl)
    (hp : t.familyP = s.familyP := by rfl) (hn : t.familyN = s.familyN := by rfl) (hd : t.device = s.device := by rfl)
    (hf : t.freeCount = s.freeCount := by rfl) (ha : t.assembly = s.assembly := by rfl)
    (hat : t.attention = s.attention := by rfl) (hq : t.takeQueue = s.takeQueue := by rfl)
    (hr : t.resyncQueue = s.resyncQueue := by rfl) (hdf : t.deferral = s.deferral := by rfl)
    (hw : t.pendingWalks = s.pendingWalks := by rfl) : InvWith k t := by
  have hchan : ∀ c, t.chan c = s.chan c := fun c => by simp [State.chan, hc]
  refine ⟨fun c => ?_, fun fam => ?_, ?_, ?_, ?_, ?_, ?_, ?_, ?_, ?_, ?_⟩
  · rw [hchan]; exact h.channels c
  · cases fam
    · simpa [State.family, hp] using h.families .p
    · simpa [State.family, hn] using h.families .n
  · rw [hd]; exact h.device
  · have : listedSlots t = listedSlots s := by simp [listedSlots, hchan]
    rw [this, stagedSlots, ha, hf]; exact h.pool
  · rw [ha]; exact h.staged
  · rw [hat]; exact h.attention
  · rw [hq]; exact h.takes
  · rw [hr]; exact h.resync
  · rw [hdf]; exact h.deferral
  · rw [hw]; exact h.walks
  · rw [hw]; exact h.walkChannels

/-- A channel's update that keeps its laws and its number of entries keeps the invariant. -/
theorem inv_modChan (h : InvWith k s) (c : ChannelNo) (f : Channel → Channel)
    (hl : ChannelLaw (s.chan c) → ChannelLaw (f (s.chan c)) := by exact fun h => h)
    (hs : (f (s.chan c)).schedule.length = (s.chan c).schedule.length := by rfl) : InvWith k (modChan c f s) := by
  refine ⟨fun d => ?_, fun fam => by simpa using h.families fam, h.device, ?_, h.staged, h.attention, h.takes, h.resync,
    h.deferral, h.walks, h.walkChannels⟩
  · rw [chan_modChan]
    split
    · exact hl (h.channels c)
    · exact h.channels d
  · have := listedSlots_modChan c f s
    have hp := h.pool
    simp only [stagedSlots, modChan_assembly, modChan_freeCount] at hp ⊢
    omega

theorem mem_insertChannel {c d : ChannelNo} {l : List ChannelNo} (h : d ∈ insertChannel c l) : d = c ∨ d ∈ l := by
  induction l with
  | nil => simpa [insertChannel] using h
  | cons a l ih =>
    unfold insertChannel at h
    split at h
    · simp at h ⊢; tauto
    · split at h
      · simp at h ⊢; tauto
      · simp at h ⊢
        rcases h with h | h
        · tauto
        · rcases ih h with h | h <;> tauto

theorem insertChannel_mem (c : ChannelNo) (l : List ChannelNo) : c ∈ insertChannel c l := by
  induction l with
  | nil => simp [insertChannel]
  | cons a l ih =>
    unfold insertChannel
    split
    · simp
    · split
      · simp_all
      · simp [ih]

theorem subset_insertChannel {c d : ChannelNo} {l : List ChannelNo} (h : d ∈ l) : d ∈ insertChannel c l := by
  induction l with
  | nil => simp at h
  | cons a l ih =>
    unfold insertChannel
    split
    · simp_all
    · split
      · exact h
      · rcases List.mem_cons.1 h with rfl | h
        · simp
        · simp [ih h]

theorem insertChannel_ordered {c : ChannelNo} {l : List ChannelNo} (h : l.Pairwise (fun a b => a < b)) :
    (insertChannel c l).Pairwise (fun a b => a < b) := by
  induction l with
  | nil => simp [insertChannel]
  | cons a l ih =>
    rw [List.pairwise_cons] at h
    unfold insertChannel
    split
    · rename_i hlt
      refine List.pairwise_cons.2 ⟨fun b hb => ?_, List.pairwise_cons.2 h⟩
      rcases List.mem_cons.1 hb with rfl | hb
      · exact hlt
      · exact lt_trans hlt (h.1 b hb)
    · split
      · exact List.pairwise_cons.2 h
      · rename_i h1 h2
        refine List.pairwise_cons.2 ⟨fun b hb => ?_, ih h.2⟩
        rcases mem_insertChannel hb with rfl | hb
        · exact lt_of_le_of_ne (not_lt.1 h1) (fun e => h2 e.symm)
        · exact h.1 b hb

theorem inv_attend (h : InvWith k s) (c : ChannelNo) : InvWith k (attend c s) :=
  ⟨h.channels, h.families, h.device, h.pool, h.staged, insertChannel_ordered h.attention, h.takes, h.resync, h.deferral,
    h.walks, h.walkChannels⟩

theorem inv_unattend (h : InvWith k s) (c : ChannelNo) : InvWith k (unattend c s) :=
  ⟨h.channels, h.families, h.device, h.pool, h.staged, h.attention.filter _, h.takes, h.resync, h.deferral,
    h.walks, h.walkChannels⟩

theorem inv_raise (h : InvWith k s) (c : ChannelNo) (f : ChangeFlag) : InvWith k (raise c f s) :=
  inv_attend (inv_modChan h c _) c

theorem inv_raiseIf (h : InvWith k s) (b : Bool) (c : ChannelNo) (f : ChangeFlag) : InvWith k (raiseIf b c f s) := by
  unfold raiseIf
  split
  · exact inv_raise h c f
  · exact h

theorem inv_raiseEvent (h : InvWith k s) (e : DeviceFlag) : InvWith k (raiseEvent e s) :=
  inv_touch h

theorem inv_bumpDraws (h : InvWith k s) : InvWith k (bumpDraws s) :=
  inv_touch h

theorem inv_settleFrameNow (h : InvWith k s) (c : ChannelNo) : InvWith k (settleFrameNow c s) := by
  unfold settleFrameNow
  split
  · exact h
  · exact inv_bumpDraws h

theorem inv_sendReplication (h : InvWith k s) (m : ReplicationOut) : InvWith k (sendReplication m s) :=
  inv_touch h

theorem inv_sendCue (h : InvWith k s) (d : Directive) : InvWith k (sendCue d s) :=
  inv_touch h

theorem inv_sendRouter (h : InvWith k s) (m : TakeOut) : InvWith k (sendRouter m s) :=
  inv_touch h

theorem inv_modLine (h : InvWith k s) (l : LineNo) (f : SenseLine → SenseLine) : InvWith k (modLine l f s) :=
  inv_touch h

/-- A family's update that keeps its laws keeps the invariant. -/
theorem inv_modFamily (h : InvWith k s) (fam : Family) (f : FamilyRecord → FamilyRecord)
    (hl : FamilyLaw (s.family fam) → FamilyLaw (f (s.family fam))) : InvWith k (modFamily fam f s) := by
  refine ⟨fun d => by simpa using h.channels d, fun g => ?_, by simpa using h.device, ?_, by simpa using h.staged,
    by simpa using h.attention, by simpa using h.takes, by simpa using h.resync, by simpa using h.deferral,
    by simpa using h.walks, by simpa using h.walkChannels⟩
  · rw [family_modFamily]
    split
    · exact hl (h.families fam)
    · exact h.families g
  · have := h.pool
    simpa [listedSlots, stagedSlots] using this

/-! ### Walks -/

theorem inv_startWalk (h : InvWith k s) : InvWith k (startWalk s) := by
  unfold startWalk
  split
  · rename_i r rest _ hp
    refine ⟨h.channels, h.families, h.device, h.pool, h.staged, h.attention, h.takes, h.resync, h.deferral, ?_, ?_⟩
    · have := h.walks; rw [hp] at this; simp at this; show rest.length ≤ _; omega
    · have := h.walkChannels; rw [hp, List.map_cons, List.nodup_cons] at this; exact this.2
  · exact h

theorem inv_abandonWalks (h : InvWith k s) (c : ChannelNo) : InvWith k (abandonWalks c s) := by
  unfold abandonWalks
  refine inv_startWalk ⟨h.channels, h.families, h.device, h.pool, h.staged, h.attention, h.takes, h.resync, h.deferral, ?_, ?_⟩
  · exact le_trans (List.length_filter_le _ _) h.walks
  · exact h.walkChannels.sublist (List.filter_sublist.map _)

/-! ### Going through lists -/

theorem inv_foldl {α : Type} {f : State → α → State} (hf : ∀ t a, InvWith k t → InvWith k (f t a)) (l : List α)
    (h : InvWith k s) : InvWith k (l.foldl f s) := by
  induction l generalizing s with
  | nil => exact h
  | cons a l ih => exact ih (hf _ _ h)

theorem inv_forChannels {f : ChannelNo → State → State} (hf : ∀ c t, InvWith k t → InvWith k (f c t))
    (cs : List ChannelNo) (h : InvWith k s) : InvWith k (forChannels f cs s) :=
  inv_foldl (fun t c ht => hf c t ht) cs h

end Sys2Proof.Machine
end

