-- ==== Sys2Proof/Laws/Schedules.lean ====
section
/-! SUPPORT. What the operations on one schedule do to its order, its names, its length and its amendments. -/

namespace Sys2Proof.Machine

set_option Elab.async false

/-! ### Order -/

theorem sorts_total (a b : Entry) :
    sortsAtOrBefore a.body.start a.key b.body.start b.key = true ∨ sortsAtOrBefore b.body.start b.key a.body.start a.key = true := by
  simp only [sortsAtOrBefore, Bool.or_eq_true, Bool.and_eq_true, decide_eq_true_eq]
  omega

theorem sorts_trans {a b c : Entry} (h1 : sortsAtOrBefore a.body.start a.key b.body.start b.key = true)
    (h2 : sortsAtOrBefore b.body.start b.key c.body.start c.key = true) :
    sortsAtOrBefore a.body.start a.key c.body.start c.key = true := by
  simp only [sortsAtOrBefore, Bool.or_eq_true, Bool.and_eq_true, decide_eq_true_eq] at *
  omega

theorem insertEntry_perm (e : Entry) (es : List Entry) : (insertEntry e es).Perm (e :: es) := by
  induction es with
  | nil => exact List.Perm.refl _
  | cons d rest ih =>
    unfold insertEntry
    split
    · exact (List.Perm.cons d ih).trans (List.Perm.swap e d rest)
    · exact List.Perm.refl _

theorem insertEntry_sorted (e : Entry) {es : List Entry}
    (h : es.Pairwise (fun a b => sortsAtOrBefore a.body.start a.key b.body.start b.key = true)) :
    (insertEntry e es).Pairwise (fun a b => sortsAtOrBefore a.body.start a.key b.body.start b.key = true) := by
  induction es with
  | nil => simp [insertEntry]
  | cons d rest ih =>
    rw [List.pairwise_cons] at h
    unfold insertEntry
    split
    · rename_i hd
      refine List.pairwise_cons.2 ⟨fun b hb => ?_, ih h.2⟩
      rcases List.mem_cons.1 ((insertEntry_perm e rest).mem_iff.1 hb) with rfl | hb
      · exact hd
      · exact h.1 b hb
    · rename_i hd
      have hed := (sorts_total e d).resolve_right hd
      refine List.pairwise_cons.2 ⟨fun b hb => ?_, List.pairwise_cons.2 h⟩
      rcases List.mem_cons.1 hb with rfl | hb
      · exact hed
      · exact sorts_trans hed (h.1 b hb)

/-! ### Names and places -/

theorem map_map_eq_map {f : Entry → Entry} {α : Type} {g : Entry → α} {es : List Entry} (h : ∀ e, g (f e) = g e) :
    (es.map f).map g = es.map g := by
  simp [h]

/-- A change of each entry that keeps name, start and a lawful amendment keeps the schedule's laws. -/
theorem scheduleLaw_map {es : List Entry} {f : Entry → Entry} (h : ScheduleLaw es) (hk : ∀ e, (f e).key = e.key)
    (hb : ∀ e, (f e).body.start = e.body.start) (ha : ∀ e, AmendmentLaw e → AmendmentLaw (f e)) : ScheduleLaw (es.map f) := by
  refine ⟨?_, ?_, by simpa using h.2.2.1, ?_⟩
  · rw [List.pairwise_map]
    simpa [hk, hb] using h.1
  · have : (es.map f).map Entry.key = es.map Entry.key := map_map_eq_map hk
    rw [this]; exact h.2.1
  · intro e he
    obtain ⟨d, hd, rfl⟩ := List.mem_map.1 he
    exact ha d (h.2.2.2 d hd)

theorem scheduleLaw_sublist {es ds : List Entry} (h : ScheduleLaw es) (hs : ds.Sublist es) : ScheduleLaw ds :=
  ⟨h.1.sublist hs, h.2.1.sublist (hs.map _), le_trans hs.length_le h.2.2.1, fun e he => h.2.2.2 e (hs.subset he)⟩

@[simp] theorem mapEntry_length (k : EntryKey) (f : Entry → Entry) (es : List Entry) : (mapEntry k f es).length = es.length := by
  simp [mapEntry]

theorem scheduleLaw_mapEntry {es : List Entry} {k : EntryKey} {f : Entry → Entry} (h : ScheduleLaw es)
    (hk : ∀ e, e.key = k → (f e).key = e.key := by intros; rfl) (hb : ∀ e, (f e).body.start = e.body.start := by intros; rfl)
    (ha : ∀ e, e.key = k → AmendmentLaw e → AmendmentLaw (f e) := by intro _ _ h; exact h) : ScheduleLaw (mapEntry k f es) := by
  unfold mapEntry
  refine scheduleLaw_map h (fun e => ?_) (fun e => ?_) (fun e he => ?_)
  · split
    · rename_i hke; exact hk e hke
    · rfl
  · split
    · exact hb e
    · rfl
  · split
    · rename_i hke; exact ha e hke he
    · exact he

theorem insertEntry_length (e : Entry) (es : List Entry) : (insertEntry e es).length = es.length + 1 := by
  simpa using (insertEntry_perm e es).length_eq

@[simp] theorem placeEntry_length (frame : Option Nat) (e : Entry) (es : List Entry) :
    (placeEntry frame e es).length = es.length + 1 := by
  simp [placeEntry, insertEntry_length]

theorem scheduleLaw_place {es : List Entry} (h : ScheduleLaw es) (frame : Option Nat) (e : Entry)
    (hk : e.key ∉ es.map Entry.key) (hlen : es.length < Config.scheduleLimit) (ha : AmendmentLaw e) :
    ScheduleLaw (placeEntry frame e es) := by
  unfold placeEntry
  refine scheduleLaw_mapEntry ⟨insertEntry_sorted e h.1, ?_, ?_, ?_⟩
  · rw [((insertEntry_perm e es).map Entry.key).nodup_iff]
    exact List.nodup_cons.2 ⟨hk, h.2.1⟩
  · rw [insertEntry_length]; omega
  · intro d hd
    rcases List.mem_cons.1 ((insertEntry_perm e es).mem_iff.1 hd) with rfl | hd
    · exact ha
    · exact h.2.2.2 d hd

theorem eraseEntry_sublist (k : EntryKey) (es : List Entry) : (eraseEntry k es).Sublist es :=
  List.filter_sublist

theorem not_mem_eraseEntry (k : EntryKey) (es : List Entry) : k ∉ (eraseEntry k es).map Entry.key := by
  simp [eraseEntry]

theorem eraseEntry_length {k : EntryKey} {es : List Entry} (hn : (es.map Entry.key).Nodup) (hm : k ∈ es.map Entry.key) :
    (eraseEntry k es).length + 1 = es.length := by
  induction es with
  | nil => simp at hm
  | cons e es ih =>
    rw [List.map_cons, List.nodup_cons] at hn
    by_cases he : e.key = k
    · have : eraseEntry k es = es := by
        unfold eraseEntry
        rw [List.filter_eq_self]
        intro d hd
        simp only [decide_eq_true_eq]
        rintro rfl
        exact hn.1 (he ▸ List.mem_map_of_mem hd)
      have h2 : eraseEntry k (e :: es) = eraseEntry k es := by simp [eraseEntry, he]
      rw [h2, this]; rfl
    · have h2 : eraseEntry k (e :: es) = e :: eraseEntry k es := by simp [eraseEntry, he]
      rw [List.map_cons, List.mem_cons] at hm
      rw [h2, List.length_cons, List.length_cons, ih hn.2 (hm.resolve_left (fun h => he h.symm))]

theorem lookupEntry_some {k : EntryKey} {es : List Entry} {e : Entry} (h : lookupEntry k es = some e) : e ∈ es ∧ e.key = k := by
  unfold lookupEntry at h
  exact ⟨List.mem_of_find?_eq_some h, by simpa using List.find?_some h⟩

theorem lookupEntry_none {k : EntryKey} {es : List Entry} : lookupEntry k es = none ↔ k ∉ es.map Entry.key := by
  unfold lookupEntry
  rw [List.find?_eq_none]
  simp only [decide_eq_true_eq, List.mem_map, not_exists, not_and]

/-! ### Spans -/

@[simp] theorem spans_fst (es : List Entry) : (spans es).map Prod.fst = es := by
  induction es with
  | nil => rfl
  | cons e es ih => simp [spans, ih]

@[simp] theorem spans_length (es : List Entry) : (spans es).length = es.length := by
  rw [← List.length_map (f := Prod.fst), spans_fst]

theorem kept_sublist (keep : Entry × Nat → Bool) (es : List Entry) : (((spans es).filter keep).map Prod.fst).Sublist es := by
  have := (List.filter_sublist (p := keep) (l := spans es)).map Prod.fst
  rwa [spans_fst] at this

theorem kept_add_gone (keep : Entry × Nat → Bool) (es : List Entry) :
    (((spans es).filter keep).map Prod.fst).length + ((spans es).filter (fun p => !keep p)).length = es.length := by
  rw [List.length_map, ← spans_length es]
  generalize spans es = l
  induction l with
  | nil => rfl
  | cons a l ih =>
    cases hk : keep a <;> simp [hk] at ih ⊢ <;> omega

/-- Keeping by a condition on the entry alone is filtering. -/
theorem kept_of_entry (keep : Entry → Bool) (es : List Entry) :
    ((spans es).filter (fun p => keep p.1)).map Prod.fst = es.filter keep := by
  have h := spans_fst es
  generalize spans es = l at h
  subst h
  induction l with
  | nil => rfl
  | cons a l ih => cases hk : keep a.1 <;> simp_all

end Sys2Proof.Machine
end

