-- ==== Sys2Proof/Laws/Store.lean ====
section
/-! SUPPORT. The Schedule Store's operations: what each leaves, and that each keeps the invariant. -/

namespace Sys2Proof.Machine

set_option Elab.async false

variable {k : Nat} {s : State}

/-! ### Writing a schedule -/

theorem raiseIf_chan_schedule (b : Bool) (c d : ChannelNo) (f : ChangeFlag) (s : State) :
    ((raiseIf b c f s).chan d).schedule = (s.chan d).schedule := by
  unfold raiseIf
  split
  · rw [raise_chan]; split
    · rename_i h; subst h; rfl
    · rfl
  · rfl

theorem setSchedule_schedule (c d : ChannelNo) (es : List Entry) (s : State) :
    ((setSchedule c es s).chan d).schedule = if d = c then es else (s.chan d).schedule := by
  unfold setSchedule
  rw [raiseIf_chan_schedule, chan_modChan]
  split <;> rfl

theorem raiseIf_freeCount (b : Bool) (c : ChannelNo) (f : ChangeFlag) (s : State) : (raiseIf b c f s).freeCount = s.freeCount := by
  unfold raiseIf; split <;> rfl

@[simp] theorem setSchedule_freeCount (c : ChannelNo) (es : List Entry) (s : State) : (setSchedule c es s).freeCount = s.freeCount := by
  unfold setSchedule; rw [raiseIf_freeCount]; rfl

/-- A channel's update that keeps its laws and changes its number of entries by slots in hand. -/
theorem inv_modChan_slots {k' : Nat} (h : InvWith k s) (c : ChannelNo) (f : Channel → Channel)
    (hl : ChannelLaw (s.chan c) → ChannelLaw (f (s.chan c)))
    (hs : (f (s.chan c)).schedule.length + k' = (s.chan c).schedule.length + k) : InvWith k' (modChan c f s) := by
  refine ⟨fun d => ?_, fun fam => by simpa using h.families fam, h.device, ?_, h.staged, h.attention, h.takes, h.resync,
    h.deferral, h.walks, h.walkChannels⟩
  · rw [chan_modChan]
    split
    · exact hl (h.channels c)
    · exact h.channels d
  · have := listedSlots_modChan c f s
    have hp := h.pool
    simp only [stagedSlots, modChan_assembly, modChan_freeCount] at hp ⊢
    omega

theorem inv_setSchedule {k' : Nat} (h : InvWith k s) (c : ChannelNo) {es : List Entry}
    (hl : ScheduleLaw (s.chan c).schedule → ScheduleLaw es) (hs : es.length + k' = (s.chan c).schedule.length + k) :
    InvWith k' (setSchedule c es s) := by
  unfold setSchedule
  exact inv_raiseIf (inv_modChan_slots h c _
    (fun hc => ⟨hc.1, hc.2.1, hc.2.2.1, hc.2.2.2.1, hc.2.2.2.2.1, rfl, hl hc.2.2.2.2.2.2⟩) hs) _ _ _

/-! ### The pool -/

theorem inv_freeSlots {n : Nat} (h : InvWith (k + n) s) : InvWith k (freeSlots n s) :=
  ⟨h.channels, h.families, h.device, by
    have := h.pool
    show listedSlots s + stagedSlots s + (s.freeCount + n) + k = _
    omega, h.staged, h.attention, h.takes, h.resync, h.deferral, h.walks, h.walkChannels⟩

theorem inv_grantSlot (h : InvWith k s) (hf : 0 < s.freeCount) : InvWith (k + 1) (grantSlot s) := by
  have h1 : InvWith (k + 1) { s with freeCount := s.freeCount - 1 } :=
    ⟨h.channels, h.families, h.device, by
      have := h.pool
      show listedSlots s + stagedSlots s + (s.freeCount - 1) + (k + 1) = _
      omega, h.staged, h.attention, h.takes, h.resync, h.deferral, h.walks, h.walkChannels⟩
  unfold grantSlot
  simp only
  split
  · exact inv_raiseEvent (inv_touch h1) _
  · exact h1

theorem startWalk_chan (s : State) (c : ChannelNo) : (startWalk s).chan c = s.chan c := by
  unfold startWalk; split <;> rfl

theorem startWalk_freeCount (s : State) : (startWalk s).freeCount = s.freeCount := by
  unfold startWalk; split <;> rfl

@[simp] theorem abandonWalks_chan (c d : ChannelNo) (s : State) : (abandonWalks c s).chan d = s.chan d := by
  unfold abandonWalks; rw [startWalk_chan]; rfl

@[simp] theorem abandonWalks_freeCount (c : ChannelNo) (s : State) : (abandonWalks c s).freeCount = s.freeCount := by
  unfold abandonWalks; rw [startWalk_freeCount]

@[simp] theorem freeSlots_chan (n : Nat) (d : ChannelNo) (s : State) : (freeSlots n s).chan d = s.chan d := rfl

theorem grantSlot_chan (d : ChannelNo) (s : State) : (grantSlot s).chan d = s.chan d := by
  unfold grantSlot; simp only; split <;> rfl

theorem keepOnly_schedule (c d : ChannelNo) (keep : Entry × Nat → Bool) (s : State) :
    ((keepOnly c keep s).chan d).schedule =
      if d = c then ((spans (s.chan c).schedule).filter keep).map Prod.fst else (s.chan d).schedule := by
  unfold keepOnly
  simp only
  split <;> simp [setSchedule_schedule]

theorem keepOnly_freeCount (c : ChannelNo) (keep : Entry × Nat → Bool) (s : State) :
    (keepOnly c keep s).freeCount = s.freeCount + ((spans (s.chan c).schedule).filter (fun p => !keep p)).length := by
  unfold keepOnly
  simp only
  split <;> simp [freeSlots]

theorem inv_keepOnly (h : InvWith k s) (c : ChannelNo) (keep : Entry × Nat → Bool) : InvWith k (keepOnly c keep s) := by
  have hlen := kept_add_gone keep (s.chan c).schedule
  have h1 : InvWith k (freeSlots ((spans (s.chan c).schedule).filter (fun p => !keep p)).length
      (setSchedule c (((spans (s.chan c).schedule).filter keep).map Prod.fst) s)) :=
    inv_freeSlots (inv_setSchedule h c (fun hl => scheduleLaw_sublist hl (kept_sublist keep _)) (by omega))
  unfold keepOnly
  simp only
  split
  · exact inv_abandonWalks h1 c
  · exact h1

theorem inv_removeEntry (h : InvWith k s) (c : ChannelNo) (key : EntryKey) : InvWith k (removeEntry c key s) :=
  inv_keepOnly h c _

theorem removeEntry_schedule_sublist (c d : ChannelNo) (key : EntryKey) (s : State) :
    ((removeEntry c key s).chan d).schedule.Sublist (s.chan d).schedule := by
  unfold removeEntry
  rw [keepOnly_schedule]
  split
  · rename_i h; subst h; exact kept_sublist _ _
  · exact List.Sublist.refl _

theorem removeEntry_frees {c : ChannelNo} {key : EntryKey} {s : State} (h : key ∈ (s.chan c).schedule.map Entry.key) :
    0 < (removeEntry c key s).freeCount := by
  unfold removeEntry
  rw [keepOnly_freeCount]
  have : ∃ p, p ∈ (spans (s.chan c).schedule).filter (fun p => !decide (p.1.key ≠ key)) := by
    rw [← spans_fst (s.chan c).schedule, List.map_map, List.mem_map] at h
    obtain ⟨p, hp, hk⟩ := h
    exact ⟨p, List.mem_filter.2 ⟨hp, by simpa using hk⟩⟩
  obtain ⟨p, hp⟩ := this
  have := List.length_pos_of_mem hp
  omega

theorem pickOldest_mem {l : List (ChannelNo × EntryKey × Option Int)} {a : ChannelNo × EntryKey × Option Int}
    (h : pickOldest l = some a) : a ∈ l := by
  induction l generalizing a with
  | nil => simp [pickOldest] at h
  | cons b l ih =>
    unfold pickOldest at h
    split at h
    · simp_all
    · rename_i c hc
      split at h
      · simp only [Option.some.injEq] at h; subst h; exact List.mem_cons_of_mem _ (ih hc)
      · simp only [Option.some.injEq] at h; subst h; exact List.mem_cons_self

theorem oldestEntry_mem {c : ChannelNo} {key : EntryKey} (h : oldestEntry s = some (c, key)) :
    key ∈ (s.chan c).schedule.map Entry.key := by
  unfold oldestEntry at h
  rw [Option.map_eq_some_iff] at h
  obtain ⟨p, hp, he⟩ := h
  have hm := pickOldest_mem hp
  rw [List.mem_flatMap] at hm
  obtain ⟨d, _, hd⟩ := hm
  unfold agedOf at hd
  rw [List.mem_filterMap] at hd
  obtain ⟨q, hq, hqe⟩ := hd
  split at hqe
  · simp only [Option.some.injEq] at hqe
    subst hqe
    simp only [Prod.mk.injEq] at he
    obtain ⟨rfl, rfl⟩ := he
    rw [← spans_fst (s.chan d).schedule, List.map_map]
    exact List.mem_map_of_mem (f := Entry.key ∘ Prod.fst) hq
  · simp at hqe

/-- A slot request that is granted leaves one slot in hand. -/
theorem inv_requestSlot {t : State} (h : InvWith k s) (hr : requestSlot s = some t) : InvWith (k + 1) t := by
  unfold requestSlot at hr
  split at hr
  · rename_i hf
    simp only [Option.some.injEq] at hr; subst hr
    exact inv_grantSlot h hf
  · split at hr
    · rename_i c key ho
      simp only [Option.some.injEq] at hr; subst hr
      exact inv_grantSlot (inv_removeEntry h c key) (removeEntry_frees (oldestEntry_mem ho))
    · simp at hr

/-- A slot request adds nothing to any schedule. -/
theorem requestSlot_schedule {t : State} (hr : requestSlot s = some t) (d : ChannelNo) :
    ((t.chan d).schedule).Sublist (s.chan d).schedule := by
  unfold requestSlot at hr
  split at hr
  · simp only [Option.some.injEq] at hr; subst hr
    rw [grantSlot_chan]
  · split at hr
    · rename_i c key _
      simp only [Option.some.injEq] at hr; subst hr
      rw [grantSlot_chan]; exact removeEntry_schedule_sublist c d key s
    · simp at hr

/-! ### Joins, replacements and amendments -/

theorem inv_joinEntry (h : InvWith (k + 1) s) (c : ChannelNo) (o : Origin) (b : Body)
    (hk : ({ origin := o, id := b.entryId } : EntryKey) ∉ (s.chan c).schedule.map Entry.key)
    (hlen : (s.chan c).schedule.length < Config.scheduleLimit) : InvWith k (joinEntry c o b s) := by
  unfold joinEntry
  refine inv_setSchedule h c (fun hl => scheduleLaw_place hl _ _ hk hlen (fun b' hb => ?_)) ?_
  · simp at hb
  · rw [placeEntry_length]; omega

theorem inv_replaceEntry (h : InvWith k s) (c : ChannelNo) {key : EntryKey} {b : Body} (hb : b.entryId = key.id) :
    InvWith k (replaceEntry c key b s) := by
  unfold replaceEntry
  split
  · exact h
  · rename_i e he
    obtain ⟨hm, hke⟩ := lookupEntry_some he
    have hmem : key ∈ (s.chan c).schedule.map Entry.key := hke ▸ List.mem_map_of_mem hm
    have hlaw := (h.channels c).2.2.2.2.2.2
    have hlen := eraseEntry_length hlaw.2.1 hmem
    have hkey : ({ e with body := b, amendment := none } : Entry).key = key := by
      rw [← hke]; simp only [Entry.key, EntryKey.mk.injEq, true_and]
      rw [hb, ← hke]; rfl
    refine inv_setSchedule h c (fun hl => scheduleLaw_place (scheduleLaw_sublist hl (eraseEntry_sublist _ _)) _ _ ?_ ?_ ?_) ?_
    · rw [hkey]; exact not_mem_eraseEntry _ _
    · have := hlaw.2.2.1; omega
    · intro b' hb'; simp at hb'
    · rw [placeEntry_length]; omega

theorem inv_writeAmendment (h : InvWith k s) (c : ChannelNo) (key : EntryKey) (a : Amendment)
    (ha : ∀ b, a = .body b → b.entryId = key.id) : InvWith k (writeAmendment c key a s) := by
  unfold writeAmendment
  refine inv_abandonWalks (inv_setSchedule h c (fun hl => scheduleLaw_mapEntry hl (ha := ?_)) (by simp)) c
  intro e he _ b hb
  simp only [Option.some.injEq] at hb
  rw [ha b hb, ← he]; rfl

theorem inv_applyAmendment (h : InvWith k s) (c : ChannelNo) (key : EntryKey) : InvWith k (applyAmendment c key s) := by
  unfold applyAmendment
  split
  · exact h
  · rename_i b hb
    rw [Option.bind_eq_some_iff] at hb
    obtain ⟨e, he, hab⟩ := hb
    obtain ⟨hm, hke⟩ := lookupEntry_some he
    have := (h.channels c).2.2.2.2.2.2.2.2.2 e hm b hab
    exact inv_abandonWalks (inv_replaceEntry h c (by rw [this, ← hke]; rfl)) c
  · exact inv_removeEntry h c key

/-! ### Statuses -/

theorem inv_mapEntry (h : InvWith k s) (c : ChannelNo) (key : EntryKey) (f : Entry → Entry)
    (hk : ∀ e, e.key = key → (f e).key = e.key := by intros; rfl) (hb : ∀ e, (f e).body.start = e.body.start := by intros; rfl)
    (ha : ∀ e, e.key = key → AmendmentLaw e → AmendmentLaw (f e) := by intro _ _ h; exact h) :
    InvWith k (setSchedule c (mapEntry key f (s.chan c).schedule) s) :=
  inv_setSchedule h c (fun hl => scheduleLaw_mapEntry hl hk hb ha) (by simp)

theorem inv_setStatus (h : InvWith k s) (c : ChannelNo) (key : EntryKey) (st : EntryStatus) : InvWith k (setStatus c key st s) :=
  inv_mapEntry h c key _

theorem inv_leaveService (h : InvWith k s) (c : ChannelNo) (key : EntryKey) (st : EntryStatus) :
    InvWith k (leaveService c key st s) := by
  have h1 := inv_setStatus h c key st
  unfold leaveService
  simp only
  split
  · split
    · exact inv_applyAmendment h1 c key
    · exact h1
  · exact h1

theorem inv_cueEntry (h : InvWith k s) (c : ChannelNo) (key : EntryKey) : InvWith k (cueEntry c key s) := by
  unfold cueEntry; split
  · exact inv_setStatus h c key _
  · exact h

theorem inv_airEntry (h : InvWith k s) (c : ChannelNo) (key : EntryKey) : InvWith k (airEntry c key s) := by
  unfold airEntry; split
  · exact inv_setStatus h c key _
  · exact h

theorem inv_finishEntry (h : InvWith k s) (c : ChannelNo) (key : EntryKey) : InvWith k (finishEntry c key s) := by
  unfold finishEntry; split
  · exact inv_leaveService h c key _
  · exact h

theorem inv_uncueEntry (h : InvWith k s) (c : ChannelNo) (key : EntryKey) : InvWith k (uncueEntry c key s) := by
  unfold uncueEntry; split
  · exact inv_leaveService h c key _
  · exact h

theorem inv_releaseEntry (h : InvWith k s) (c : ChannelNo) (key : EntryKey) : InvWith k (releaseEntry c key s) := by
  unfold releaseEntry; split
  · exact inv_leaveService h c key _
  · exact h

theorem inv_skipEntry (h : InvWith k s) (c : ChannelNo) (key : EntryKey) : InvWith k (skipEntry c key s) := by
  unfold skipEntry; split
  · exact inv_setStatus h c key _
  · exact h

/-! ### The frame event at SST -/

theorem inv_passEntries (h : InvWith k s) (c : ChannelNo) (f : Nat) : InvWith k (passEntries c f s) := by
  unfold passEntries
  have he : ∃ g : Entry × Nat → Entry, (∀ p, (g p).key = p.1.key ∧ (g p).body.start = p.1.body.start ∧
      (AmendmentLaw p.1 → AmendmentLaw (g p))) ∧ passOver f (s.chan c).schedule = (spans (s.chan c).schedule).map g := by
    refine ⟨_, fun p => ?_, rfl⟩
    dsimp only
    split
    · exact ⟨rfl, rfl, fun h => h⟩
    · exact ⟨rfl, rfl, fun h => h⟩
  obtain ⟨g, hg, he⟩ := he
  refine inv_setSchedule h c (fun hl => ?_) (by rw [he]; simp)
  rw [he]
  have hfst := spans_fst (s.chan c).schedule
  generalize hsp : spans (s.chan c).schedule = l at hfst he ⊢
  rw [← hfst] at hl
  refine ⟨?_, ?_, ?_, ?_⟩
  · rw [List.pairwise_map]
    have := hl.1
    rw [List.pairwise_map] at this
    exact this.imp (fun {a b} hab => by rw [(hg a).1, (hg a).2.1, (hg b).1, (hg b).2.1]; exact hab)
  · have : (l.map g).map Entry.key = (l.map Prod.fst).map Entry.key := by simp [hg]
    rw [this]; exact hl.2.1
  · simpa using hl.2.2.1
  · intro e he'
    obtain ⟨p, hp, rfl⟩ := List.mem_map.1 he'
    exact (hg p).2.2 (hl.2.2.2 p.1 (List.mem_map_of_mem hp))

theorem inv_retireEntries (h : InvWith k s) (c : ChannelNo) (f : Nat) : InvWith k (retireEntries c f s) :=
  inv_keepOnly h c _

theorem inv_sstFrame (h : InvWith k s) (c : ChannelNo) : InvWith k (sstFrame c s) := by
  unfold sstFrame
  split
  · exact h
  · split
    · exact inv_retireEntries (inv_passEntries h c _) c _
    · exact inv_retireEntries h c _

end Sys2Proof.Machine
end

