-- ==== Sys2Proof/Laws/ResyncLaws.lean ====
section
/-! SUPPORT. The Resync Unit's and the Router Arbiter's operations keep the invariant. -/

namespace Sys2Proof.Machine

set_option Elab.async false

variable {k : Nat} {s : State}

theorem inv_setReplication (h : InvWith k s) (c : ChannelNo) (st : ReplicationState) (cause : Cause) (n : Nat) :
    InvWith k (setReplication c st cause n s) := by
  unfold setReplication
  simp only
  split
  · exact inv_abandonWalks (inv_raiseIf (inv_modChan h c _) _ _ _) c
  · exact inv_raiseIf (inv_modChan h c _) _ _ _

theorem inv_setLastApplied (h : InvWith k s) (c : ChannelNo) (n : Nat) : InvWith k (setLastApplied c n s) := by
  unfold setLastApplied
  simp only
  split
  · exact inv_modChan h c _
  · exact inv_abandonWalks (inv_modChan h c _) c

theorem inv_resyncQueue (h : InvWith k s) (q : List ChannelNo) (hq : q.Nodup) : InvWith k { s with resyncQueue := q } :=
  ⟨h.channels, h.families, h.device, h.pool, h.staged, h.attention, h.takes, hq, h.deferral, h.walks, h.walkChannels⟩

theorem inv_openAssembly (h : InvWith k s) (ha : s.assembly = none) (a : Assembly) (hs : a.staged = []) :
    InvWith k { s with assembly := some a } := by
  refine ⟨h.channels, h.families, h.device, ?_, ?_, h.attention, h.takes, h.resync, h.deferral, h.walks, h.walkChannels⟩
  · have := h.pool
    rw [stagedSlots, ha] at this
    show listedSlots s + a.staged.length + s.freeCount + k = _
    rw [hs]
    simpa using this
  · intro b hb
    simp only [Option.mem_def, Option.some.injEq] at hb; subst hb
    rw [hs]; simp

theorem inv_serve (h : InvWith k s) : InvWith k (serve s) := by
  unfold serve
  split
  · rename_i c rest hq ha _
    have hn : rest.Nodup := by have := h.resync; rw [hq, List.nodup_cons] at this; exact this.2
    have h1 := inv_openAssembly (inv_resyncQueue h rest hn) ha (.opened c (s.chan c).replState (s.chan c).cause) rfl
    have h2 := inv_sendReplication h1 (.resyncAsk c (s.chan c).cause (s.chan c).lastApplied)
    exact inv_setReplication h2 c _ _ _
  · exact h

theorem inv_enqueue (h : InvWith k s) (c : ChannelNo) : InvWith k (enqueue c s) := by
  unfold enqueue
  refine inv_serve ?_
  split
  · exact h
  · rename_i hc
    refine inv_resyncQueue h _ ?_
    rw [List.nodup_append]
    refine ⟨h.resync, by simp, fun a ha b hb => ?_⟩
    simp only [List.mem_singleton] at hb
    rintro rfl; exact hc (hb ▸ ha)

theorem inv_dequeue (h : InvWith k s) (c : ChannelNo) : InvWith k (dequeue c s) :=
  ⟨h.channels, h.families, h.device, h.pool, h.staged, h.attention, h.takes, h.resync.filter _, h.deferral, h.walks,
    h.walkChannels⟩

theorem inv_fallOut (h : InvWith k s) (c : ChannelNo) (cause : Cause) : InvWith k (fallOut c cause s) :=
  inv_enqueue (inv_setReplication h c _ _ _) c

theorem inv_clearAssembly (h : InvWith k s) : InvWith k (clearAssembly s) := by
  unfold clearAssembly
  split
  · exact ⟨h.channels, h.families, h.device, h.pool, h.staged, h.attention, h.takes, h.resync, Nat.zero_le _, h.walks,
      h.walkChannels⟩
  · rename_i a ha
    refine inv_freeSlots ⟨h.channels, h.families, h.device, ?_, ?_, h.attention, h.takes, h.resync, Nat.zero_le _, h.walks,
      h.walkChannels⟩
    · have := h.pool
      rw [stagedSlots, ha] at this
      show listedSlots s + 0 + s.freeCount + (k + a.staged.length) = _
      simp at this
      omega
    · intro a he; simp at he

theorem inv_failSnapshot (h : InvWith k s) (b : Bool) : InvWith k (failSnapshot b s) := by
  unfold failSnapshot
  split
  · exact h
  · simp only
    split
    · exact inv_enqueue (inv_setReplication (inv_clearAssembly h) _ _ _ _) _
    · exact inv_serve (inv_setReplication (inv_clearAssembly h) _ _ _ _)

theorem inv_abandonAssemblyOf (h : InvWith k s) (c : ChannelNo) : InvWith k (abandonAssemblyOf c s) := by
  unfold abandonAssemblyOf
  split
  · split
    · exact inv_clearAssembly h
    · exact h
  · exact h

theorem inv_noWalks (h : InvWith k s) : InvWith k { s with pendingWalks := [], walk := none } :=
  ⟨h.channels, h.families, h.device, h.pool, h.staged, h.attention, h.takes, h.resync, h.deferral, Nat.zero_le _, by simp⟩

theorem inv_restartResync (h : InvWith k s) : InvWith k (restartResync s) := by
  unfold restartResync
  simp only
  split
  · exact inv_clearAssembly (inv_noWalks h)
  · rename_i a ha
    have h1 := inv_clearAssembly (inv_noWalks h)
    have h2 := inv_resyncQueue h1 (a.channel :: (clearAssembly { s with pendingWalks := [], walk := none }).resyncQueue.filter
      (fun d => decide (d ≠ a.channel))) (List.nodup_cons.2 ⟨by simp, h1.resync.filter _⟩)
    exact inv_setReplication h2 _ _ _ _

theorem inv_completeWalk (h : InvWith k s) (w : Walk) : InvWith k (completeWalk w s) := by
  unfold completeWalk
  simp only
  split
  · exact inv_startWalk (inv_modChan (inv_touch h) _ _)
  · exact inv_startWalk (inv_fallOut (inv_touch h) _ _)

theorem inv_walkTick (h : InvWith k s) : InvWith k (walkTick s) := by
  unfold walkTick
  split
  · exact h
  · split
    · exact inv_touch h
    · exact inv_completeWalk h _

/-! ### The Router Arbiter -/

theorem insertRequest_perm (r : Request) (q : List Request) : (insertRequest r q).Perm (r :: q) := by
  induction q with
  | nil => exact List.Perm.refl _
  | cons d rest ih =>
    unfold insertRequest
    split
    · exact (List.Perm.cons d ih).trans (List.Perm.swap r d rest)
    · exact List.Perm.refl _

theorem grantOrder_perm (q : List Request) : (grantOrder q).Perm q := by
  induction q with
  | nil => exact List.Perm.refl _
  | cons r q ih => exact (insertRequest_perm r _).trans (ih.cons r)

theorem grants_total (a b : Request) : grantsBefore a b = true ∨ grantsBefore b a = true := by
  unfold grantsBefore
  simp only [Bool.or_eq_true, Bool.and_eq_true, decide_eq_true_eq]
  rcases lt_trichotomy a.priority b.priority with h | h | h
  · exact Or.inl (Or.inl h)
  · rcases lt_trichotomy a.release b.release with h' | h' | h'
    · exact Or.inl (Or.inr ⟨h, Or.inl h'⟩)
    · rcases le_total a.channel b.channel with h'' | h''
      · exact Or.inl (Or.inr ⟨h, Or.inr ⟨h', h''⟩⟩)
      · exact Or.inr (Or.inr ⟨h.symm, Or.inr ⟨h'.symm, h''⟩⟩)
    · exact Or.inr (Or.inr ⟨h.symm, Or.inl h'⟩)
  · exact Or.inr (Or.inl h)

theorem grants_trans {a b c : Request} (h1 : grantsBefore a b = true) (h2 : grantsBefore b c = true) : grantsBefore a c = true := by
  unfold grantsBefore at *
  simp only [Bool.or_eq_true, Bool.and_eq_true, decide_eq_true_eq] at *
  rcases h1 with h1 | ⟨h1, h1' | ⟨h1', h1''⟩⟩
  · rcases h2 with h2 | ⟨h2, _⟩
    · exact Or.inl (lt_trans h1 h2)
    · exact Or.inl (h2 ▸ h1)
  · rcases h2 with h2 | ⟨h2, h2' | ⟨h2', _⟩⟩
    · exact Or.inl (h1 ▸ h2)
    · exact Or.inr ⟨h1.trans h2, Or.inl (lt_trans h1' h2')⟩
    · exact Or.inr ⟨h1.trans h2, Or.inl (h2' ▸ h1')⟩
  · rcases h2 with h2 | ⟨h2, h2' | ⟨h2', h2''⟩⟩
    · exact Or.inl (h1 ▸ h2)
    · exact Or.inr ⟨h1.trans h2, Or.inl (h1' ▸ h2')⟩
    · exact Or.inr ⟨h1.trans h2, Or.inr ⟨h1'.trans h2', le_trans h1'' h2''⟩⟩

theorem insertRequest_ordered (r : Request) {q : List Request} (h : q.Pairwise (fun a b => grantsBefore a b = true)) :
    (insertRequest r q).Pairwise (fun a b => grantsBefore a b = true) := by
  induction q with
  | nil => simp [insertRequest]
  | cons d rest ih =>
    rw [List.pairwise_cons] at h
    unfold insertRequest
    split
    · rename_i hd
      refine List.pairwise_cons.2 ⟨fun b hb => ?_, ih h.2⟩
      rcases List.mem_cons.1 ((insertRequest_perm r rest).mem_iff.1 hb) with rfl | hb
      · exact hd
      · exact h.1 b hb
    · rename_i hd
      have hrd := (grants_total d r).resolve_left hd
      refine List.pairwise_cons.2 ⟨fun b hb => ?_, List.pairwise_cons.2 h⟩
      rcases List.mem_cons.1 hb with rfl | hb
      · exact hrd
      · exact grants_trans hrd (h.1 b hb)

theorem grantOrder_ordered (q : List Request) : (grantOrder q).Pairwise (fun a b => grantsBefore a b = true) := by
  induction q with
  | nil => exact List.Pairwise.nil
  | cons r q ih => exact insertRequest_ordered r ih

theorem inv_takeQueue (h : InvWith k s) (q : List Request) (hq : TakesLaw q) : InvWith k { s with takeQueue := q } :=
  ⟨h.channels, h.families, h.device, h.pool, h.staged, h.attention, hq, h.resync, h.deferral, h.walks, h.walkChannels⟩

theorem withoutRequest_lawful {q : List Request} (h : TakesLaw q) (c : ChannelNo) : TakesLaw (withoutRequest c q) :=
  ⟨h.1.sublist (List.filter_sublist.map _), h.2.filter _⟩

theorem inv_placeRequest (h : InvWith k s) (r : Request) : InvWith k (placeRequest r s) := by
  unfold placeRequest
  refine inv_modChan (inv_takeQueue h _ ⟨?_, insertRequest_ordered r (withoutRequest_lawful h.takes _).2⟩) _ _
  rw [((insertRequest_perm r _).map Request.channel).nodup_iff, List.map_cons, List.nodup_cons]
  refine ⟨?_, (withoutRequest_lawful h.takes _).1⟩
  simp [withoutRequest]

theorem inv_dropRequest (h : InvWith k s) (c : ChannelNo) : InvWith k (dropRequest c s) :=
  inv_takeQueue h _ (withoutRequest_lawful h.takes c)

theorem inv_requestTakeover (h : InvWith k s) (c : ChannelNo) (n : Nat) : InvWith k (requestTakeover c n s) :=
  inv_placeRequest h _

theorem inv_requestGiveback (h : InvWith k s) (c : ChannelNo) (n : Nat) : InvWith k (requestGiveback c n s) :=
  inv_placeRequest h _

theorem inv_grantRequest (h : InvWith k s) (pulse : Nat) (r : Request) : InvWith k (grantRequest pulse r s) := by
  unfold grantRequest
  exact inv_sendRouter (inv_modChan (inv_dropRequest h _) _ _) _

theorem inv_grantPulse (h : InvWith k s) : InvWith k (grantPulse s) := by
  unfold grantPulse
  simp only
  exact inv_foldl (fun t r ht => inv_grantRequest ht _ r) _ (inv_touch h)

theorem inv_shiftReleases (h : InvWith k s) (a b : Nat) : InvWith k (shiftReleases a b s) := by
  unfold shiftReleases
  refine inv_takeQueue h _ ⟨?_, grantOrder_ordered _⟩
  rw [((grantOrder_perm _).map Request.channel).nodup_iff, List.map_map]
  exact h.takes.1

end Sys2Proof.Machine
end

