-- ==== Sys2Proof/Laws/ChangeoverLaws.lean ====
section
/-! SUPPORT. The Changeover Unit's operations: which keep a channel's settings, and that each keeps the invariant. -/

namespace Sys2Proof.Machine

set_option Elab.async false

variable {k : Nat} {s : State}

/-! ### Settings that stay -/

theorem modChan_settings (c d : ChannelNo) (f : Channel → Channel) (hf : (f (s.chan c)).settings = (s.chan c).settings := by rfl) :
    ((modChan c f s).chan d).settings = (s.chan d).settings := by
  rw [chan_modChan]; split
  · rename_i h; subst h; exact hf
  · rfl

theorem raise_settings (c d : ChannelNo) (f : ChangeFlag) : ((raise c f s).chan d).settings = (s.chan d).settings := by
  unfold raise; rw [attend_chan]; exact modChan_settings c d _

theorem raiseIf_settings (b : Bool) (c d : ChannelNo) (f : ChangeFlag) :
    ((raiseIf b c f s).chan d).settings = (s.chan d).settings := by
  unfold raiseIf; split
  · exact raise_settings c d f
  · rfl

theorem setSchedule_settings (c d : ChannelNo) (es : List Entry) : ((setSchedule c es s).chan d).settings = (s.chan d).settings := by
  unfold setSchedule; rw [raiseIf_settings]; exact modChan_settings c d _

theorem keepOnly_settings (c d : ChannelNo) (keep : Entry × Nat → Bool) :
    ((keepOnly c keep s).chan d).settings = (s.chan d).settings := by
  unfold keepOnly; simp only; split
  · rw [abandonWalks_chan, freeSlots_chan, setSchedule_settings]
  · rw [freeSlots_chan, setSchedule_settings]

theorem replaceEntry_settings (c d : ChannelNo) (key : EntryKey) (b : Body) :
    ((replaceEntry c key b s).chan d).settings = (s.chan d).settings := by
  unfold replaceEntry; split
  · rfl
  · exact setSchedule_settings c d _

theorem applyAmendment_settings (c d : ChannelNo) (key : EntryKey) :
    ((applyAmendment c key s).chan d).settings = (s.chan d).settings := by
  unfold applyAmendment; split
  · rfl
  · rw [abandonWalks_chan, replaceEntry_settings]
  · exact keepOnly_settings c d _

theorem leaveService_settings (c d : ChannelNo) (key : EntryKey) (st : EntryStatus) :
    ((leaveService c key st s).chan d).settings = (s.chan d).settings := by
  have h : ((setStatus c key st s).chan d).settings = (s.chan d).settings := setSchedule_settings c d _
  unfold leaveService; simp only; split
  · split
    · rw [applyAmendment_settings, h]
    · exact h
  · exact h

theorem uncueEntry_settings (c d : ChannelNo) (key : EntryKey) : ((uncueEntry c key s).chan d).settings = (s.chan d).settings := by
  unfold uncueEntry; split
  · exact leaveService_settings c d key _
  · rfl

theorem releaseEntry_settings (c d : ChannelNo) (key : EntryKey) :
    ((releaseEntry c key s).chan d).settings = (s.chan d).settings := by
  unfold releaseEntry; split
  · exact leaveService_settings c d key _
  · rfl

theorem uncueFor_settings (c d : ChannelNo) (p : Option Place) : ((uncueFor c p s).chan d).settings = (s.chan d).settings := by
  unfold uncueFor; split
  · exact uncueEntry_settings c d _
  · rfl

theorem clearService_settings (c d : ChannelNo) (s : State) : ((clearService c s).chan d).settings = (s.chan d).settings := by
  unfold clearService
  generalize (s.chan c).schedule = es
  induction es generalizing s with
  | nil => rfl
  | cons e es ih =>
    rw [List.foldl_cons, ih]
    split
    · exact releaseEntry_settings c d _
    · split
      · exact uncueEntry_settings c d _
      · rfl

theorem sendDirective_settings (c d : ChannelNo) (x : Option Nat) (b : DirectiveBody) :
    ((sendDirective c x b s).chan d).settings = (s.chan d).settings := by
  unfold sendDirective; rw [sendCue_chan]; exact modChan_settings c d _

theorem settleFrameNow_chan (c d : ChannelNo) : (settleFrameNow c s).chan d = s.chan d := by
  unfold settleFrameNow; split <;> rfl

theorem stopServer_settings (c d : ChannelNo) : ((stopServer c s).chan d).settings = (s.chan d).settings := by
  unfold stopServer; rw [sendDirective_settings]; exact modChan_settings c d _

theorem passEntries_settings (c d : ChannelNo) (f : Nat) : ((passEntries c f s).chan d).settings = (s.chan d).settings :=
  setSchedule_settings c d _

/-! ### The changeover state -/

/-- A channel out of MIRROR is PROTECTED (R55). -/
theorem protected_of_engaged (h : InvWith k s) {c : ChannelNo} (hc : (s.chan c).changeover ≠ .mirror) :
    (s.chan c).settings.mode = .protectedMode := by
  by_contra hm
  exact hc ((h.channels c).2.2.1 hm)

theorem inv_setChangeover (h : InvWith k s) (c : ChannelNo) (st : Changeover)
    (hst : st = .mirror ∨ (s.chan c).settings.mode = .protectedMode) : InvWith k (setChangeover c st s) := by
  have h1 : InvWith k (modChan c (fun ch => { ch with changeover := st }) s) :=
    inv_modChan h c _ (fun hc => ⟨hc.1, hc.2.1, fun hm => hst.resolve_right hm, hc.2.2.2⟩)
  unfold setChangeover
  simp only
  split
  · exact inv_abandonWalks (inv_raiseIf h1 _ _ _) c
  · exact inv_raiseIf h1 _ _ _

theorem setChangeover_settings (c d : ChannelNo) (st : Changeover) :
    ((setChangeover c st s).chan d).settings = (s.chan d).settings := by
  unfold setChangeover; simp only; split
  · rw [abandonWalks_chan, raiseIf_settings]; exact modChan_settings c d _
  · rw [raiseIf_settings]; exact modChan_settings c d _

theorem inv_setOutputLost (h : InvWith k s) (c : ChannelNo) (b : Bool) : InvWith k (setOutputLost c b s) :=
  inv_raiseIf (inv_modChan h c _) _ _ _

theorem inv_requestHoldOff (h : InvWith k s) (c : ChannelNo) : InvWith k (requestHoldOff c s) := by
  unfold requestHoldOff; split
  · rename_i ht
    exact inv_modChan h c _ (fun hc => ⟨hc.1, hc.2.1, hc.2.2.1, hc.2.2.2.1, fun _ => ht, hc.2.2.2.2.2⟩)
  · exact h

/-! ### Directives -/

theorem inv_skipShort (h : InvWith k s) (c : ChannelNo) (x : Nat) : InvWith k (skipShort c x s) := by
  unfold skipShort; split
  · split
    · split
      · exact inv_skipEntry h c _
      · exact h
    · exact h
  · exact h

theorem inv_sendDirective (h : InvWith k s) (c : ChannelNo) (x : Option Nat) (b : DirectiveBody) : InvWith k (sendDirective c x b s) :=
  inv_sendCue (inv_modChan h c _) _

theorem inv_cueFor (h : InvWith k s) (c : ChannelNo) (d : Computed) : InvWith k (cueFor c d s) := by
  unfold cueFor; split
  · exact inv_cueEntry h c _
  · exact h

theorem inv_sendCurrent (h : InvWith k s) (c : ChannelNo) (x : Nat) (d : Computed) : InvWith k (sendCurrent c x d s) :=
  inv_cueFor (inv_sendDirective (inv_modChan h c _) c (some x) _) c d

theorem inv_sendNext (h : InvWith k s) (c : ChannelNo) (x : Nat) (d : Computed) : InvWith k (sendNext c x d s) :=
  inv_cueFor (inv_sendDirective (inv_modChan h c _) c (some x) _) c d

theorem inv_sendJoining (h : InvWith k s) (c : ChannelNo) (r : Nat) : InvWith k (sendJoining c r s) := by
  unfold sendJoining; split
  · exact inv_sendCurrent h c r _
  · exact inv_sendCurrent (inv_modChan (inv_skipShort h c r) c _) c r _

/-! ### Starting a takeover -/

theorem inv_enterPreparing (h : InvWith k s) (c : ChannelNo) (hp : (s.chan c).settings.mode = .protectedMode) :
    InvWith k (enterPreparing c s) := by
  unfold enterPreparing
  exact inv_settleFrameNow (inv_sendJoining (inv_modChan (inv_setChangeover h c _ (Or.inr hp)) c _) c _) c

theorem inv_startTakeover (h : InvWith k s) (c : ChannelNo) (hp : (s.chan c).settings.mode = .protectedMode) :
    InvWith k (startTakeover c s) := by
  unfold startTakeover; split
  · exact inv_modChan (inv_setChangeover h c _ (Or.inr hp)) c _
  · exact inv_enterPreparing h c hp

theorem mayStart_protected {ch : Channel} (h : mayStartTakeover ch = true) : ch.settings.mode = .protectedMode := by
  simp only [mayStartTakeover, Bool.and_eq_true, decide_eq_true_eq] at h
  exact h.1.1

theorem inv_tripNotice (h : InvWith k s) (c : ChannelNo) : InvWith k (tripNotice c s) := by
  unfold tripNotice; split
  · rename_i hm
    refine inv_startTakeover (inv_modChan h c _) c ?_
    rw [modChan_settings _ _ _ rfl]; exact mayStart_protected hm
  · split
    · rename_i hr
      exact inv_setChangeover (inv_dropRequest h c) c _ (Or.inr (protected_of_engaged h (by rw [hr.1]; decide)))
    · exact h

theorem inv_recoveryNotice (h : InvWith k s) (c : ChannelNo) : InvWith k (recoveryNotice c s) := by
  unfold recoveryNotice; split
  · exact inv_modChan (inv_setChangeover h c _ (Or.inl rfl)) c _
  · exact inv_setChangeover h c _ (Or.inl rfl)
  all_goals exact h

theorem inv_hostAbsentAtCou (h : InvWith k s) : InvWith k (hostAbsentAtCou s) := by
  unfold hostAbsentAtCou
  refine inv_forChannels (fun c t ht => ?_) _ h
  split
  · rename_i hc
    exact inv_enterPreparing ht c (protected_of_engaged ht (by rw [hc]; decide))
  · exact ht

/-! ### Leaving DR -/

theorem inv_clearService (h : InvWith k s) (c : ChannelNo) : InvWith k (clearService c s) := by
  unfold clearService
  refine inv_foldl (fun t e ht => ?_) _ h
  split
  · exact inv_releaseEntry ht c _
  · split
    · exact inv_uncueEntry ht c _
    · exact ht

theorem inv_stopServer (h : InvWith k s) (c : ChannelNo) : InvWith k (stopServer c s) :=
  inv_sendDirective (inv_modChan h c _) c _ _

theorem inv_strand (h : InvWith k s) (c : ChannelNo) (hp : (s.chan c).settings.mode = .protectedMode) : InvWith k (strand c s) := by
  unfold strand
  refine inv_setChangeover (inv_modChan (inv_clearService (inv_stopServer h c) c) c _) c _ (Or.inr ?_)
  rw [modChan_settings _ _ _ rfl, clearService_settings, stopServer_settings, hp]

theorem inv_completeGiveback (h : InvWith k s) (c : ChannelNo) : InvWith k (completeGiveback c s) :=
  inv_setChangeover (inv_modChan (inv_clearService (inv_stopServer h c) c) c _) c _ (Or.inl rfl)

/-! ### Failures of directives -/

theorem inv_uncueFor (h : InvWith k s) (c : ChannelNo) (p : Option Place) : InvWith k (uncueFor c p s) := by
  unfold uncueFor; split
  · exact inv_uncueEntry h c _
  · exact h

theorem inv_joiningFails (h : InvWith k s) (c : ChannelNo) (hp : (s.chan c).settings.mode = .protectedMode) :
    InvWith k (joiningFails c s) := by
  have h1 := inv_uncueFor (inv_raise h c .cueFault) c (s.chan c).current
  unfold joiningFails
  simp only
  split
  · refine inv_strand h1 c ?_
    rw [uncueFor_settings, raise_settings, hp]
  · exact inv_settleFrameNow (inv_sendCurrent (inv_modChan (inv_modChan (inv_uncueFor h1 c _) c _) c _) c _ _) c

theorem inv_nextFails (h : InvWith k s) (c : ChannelNo) (p : Place) : InvWith k (nextFails c p s) := by
  have h1 := inv_raise h c .cueFault
  unfold nextFails
  simp only
  split
  · exact inv_setOutputLost (inv_modChan h1 c _) c _
  all_goals
    split
    · exact inv_settleFrameNow (inv_sendNext (inv_releaseEntry h1 c _) c _ _) c
    · exact inv_settleFrameNow (inv_sendNext h1 c _ _) c

/-! ### Frame events -/

theorem inv_clearDoubt (h : InvWith k s) (c : ChannelNo) : InvWith k (clearDoubt c s) := by
  unfold clearDoubt; split
  · exact inv_modChan h c _
  · exact h

theorem inv_currentDeadline (h : InvWith k s) (c : ChannelNo) (f : Nat) : InvWith k (currentDeadline c f s) := by
  unfold currentDeadline; split
  · split
    · rename_i hp
      exact inv_joiningFails h c (protected_of_engaged h (by rw [hp.2]; decide))
    · exact h
  · exact h

theorem inv_nextDeadline (h : InvWith k s) (c : ChannelNo) (f : Nat) : InvWith k (nextDeadline c f s) := by
  unfold nextDeadline; split
  · split
    · exact inv_nextFails h c _
    · exact h
  · exact h

theorem inv_rollCurrent (h : InvWith k s) (c : ChannelNo) (f : Nat) : InvWith k (rollCurrent c f s) := by
  unfold rollCurrent; split
  · exact h
  · split
    · simp only
      split
      · exact inv_airEntry (inv_setOutputLost (inv_modChan h c _) c _) c _
      · exact inv_setOutputLost (inv_modChan h c _) c _
    · exact h

theorem inv_rollNext (h : InvWith k s) (c : ChannelNo) (f : Nat) : InvWith k (rollNext c f s) := by
  unfold rollNext; split
  · exact h
  · split
    · have h1 : InvWith k (match entryOfPlace (s.chan c).current with
          | some key => finishEntry c key s
          | none => s) := by
        split
        · exact inv_finishEntry h c _
        · exact h
      simp only
      split
      · split
        · exact inv_airEntry (inv_setOutputLost (inv_modChan h1 c _) c _) c _
        · exact inv_setOutputLost (inv_modChan h1 c _) c _
      · exact inv_modChan h1 c _
    · exact h

theorem inv_rollStep (h : InvWith k s) (c : ChannelNo) (f : Nat) : InvWith k (rollStep c f s) := by
  unfold rollStep; split
  · exact h
  · exact inv_rollNext (inv_rollCurrent h c f) c f

theorem inv_finishStep (h : InvWith k s) (c : ChannelNo) (f : Nat) : InvWith k (finishStep c f s) := by
  unfold finishStep; split
  · split
    · split
      · exact inv_finishEntry h c _
      · exact h
    · exact h
  · exact h

theorem inv_planStep (h : InvWith k s) (c : ChannelNo) (f : Nat) : InvWith k (planStep c f s) := by
  unfold planStep; simp only; split
  · exact h
  · split
    · exact h
    · split
      · exact h
      · exact inv_sendNext (inv_skipShort h c _) c _ _

theorem inv_startGiveback (h : InvWith k s) (c : ChannelNo) (b : Option Nat) (release : Nat) (hp : (s.chan c).settings.mode = .protectedMode) :
    InvWith k (startGiveback c b release s) :=
  inv_requestGiveback (inv_modChan (inv_setChangeover h c _ (Or.inr hp)) c _) c release

theorem inv_automaticGiveback (h : InvWith k s) (c : ChannelNo) (f : Nat) : InvWith k (automaticGiveback c f s) := by
  unfold automaticGiveback; simp only; split
  · rename_i hc
    exact inv_startGiveback h c _ _ (protected_of_engaged h (by rw [hc.1]; decide))
  · exact h

theorem inv_heldSteps (h : InvWith k s) (c : ChannelNo) (f : Nat) : InvWith k (heldSteps c f s) :=
  inv_automaticGiveback (inv_planStep (inv_passEntries (inv_finishStep (inv_rollStep (inv_nextDeadline h c f) c f) c f) c f) c f) c f

theorem inv_couFrame (h : InvWith k s) (c : ChannelNo) : InvWith k (couFrame c s) := by
  unfold couFrame; split
  · exact h
  · rename_i f _
    split
    · split
      · rename_i hm
        exact inv_startTakeover h c (mayStart_protected hm.1)
      · exact h
    · rename_i hc
      have h1 : InvWith k (modChan c (fun ch => { ch with confirmTimer := ch.confirmTimer + 1 }) (passEntries c f s)) :=
        inv_modChan (inv_passEntries h c f) c _
      simp only
      split
      · refine inv_enterPreparing h1 c ?_
        rw [modChan_settings _ _ _ rfl, passEntries_settings]
        exact protected_of_engaged h (by rw [hc]; decide)
      · exact h1
    · exact inv_passEntries h c f
    all_goals
      have h1 := inv_currentDeadline (inv_clearDoubt h c) c f
      simp only
      split
      · exact inv_passEntries h1 c f
      · exact inv_heldSteps h1 c f

/-! ### Outcomes of directives and takes -/

theorem inv_currentReady (h : InvWith k s) (c : ChannelNo) (p : Place) : InvWith k (currentReady c p s) := by
  unfold currentReady; simp only; split
  · rename_i hc
    refine inv_settleFrameNow (inv_requestTakeover (inv_setChangeover (inv_modChan h c _) c _ (Or.inr ?_)) c _) c
    rw [modChan_settings _ _ _ rfl]; exact protected_of_engaged h (by rw [hc]; decide)
  · exact inv_modChan h c _

theorem inv_cueReply (h : InvWith k s) (ready : Bool) (c : ChannelNo) (tag : Nat) : InvWith k (cueReply ready c tag s) := by
  unfold cueReply; simp only; split
  · split
    · exact inv_currentReady h c _
    · split
      · rename_i hc
        exact inv_joiningFails h c (protected_of_engaged h (by rw [hc]; decide))
      · exact h
  · split
    · split
      · exact inv_modChan h c _
      · exact inv_nextFails h c _
    · exact h

theorem inv_takeDone (h : InvWith k s) (c : ChannelNo) (d : Direction) : InvWith k (takeDone c d s) := by
  unfold takeDone; split
  · rename_i hc
    refine inv_setChangeover (inv_bumpDraws (inv_modChan h c _)) c _ (Or.inr ?_)
    rw [bumpDraws_chan, modChan_settings _ _ _ rfl]; exact protected_of_engaged h (by rw [hc]; decide)
  · exact inv_completeGiveback h c
  · exact h

theorem inv_takeFailed (h : InvWith k s) (c : ChannelNo) (d : Direction) : InvWith k (takeFailed c d s) := by
  unfold takeFailed; split
  · rename_i hc
    split
    · exact inv_strand h c (protected_of_engaged h (by rw [hc]; decide))
    · exact inv_requestTakeover (inv_modChan h c _) c _
  · rename_i hc
    refine inv_setChangeover (inv_modChan h c _) c _ (Or.inr ?_)
    rw [modChan_settings _ _ _ rfl]; exact protected_of_engaged h (by rw [hc]; decide)
  · exact h

theorem inv_endTake (h : InvWith k s) (c : ChannelNo) : InvWith k (endTake c s) :=
  inv_modChan h c _

theorem inv_routerReply (h : InvWith k s) (done : Bool) (c : ChannelNo) (tag : Nat) : InvWith k (routerReply done c tag s) := by
  unfold routerReply; split
  · exact h
  · split
    · exact inv_takeDone (inv_endTake h c) c _
    · exact inv_takeFailed (inv_raise (inv_endTake h c) c _) c _

theorem inv_takeTick (h : InvWith k s) (c : ChannelNo) : InvWith k (takeTick c s) := by
  unfold takeTick; split
  · exact h
  · split
    · exact inv_takeFailed (inv_raise (inv_endTake h c) c _) c _
    · exact inv_modChan h c _

end Sys2Proof.Machine
end

