-- ==== Sys2Proof/Laws/SupervisionLaws.lean ====
section
/-! SUPPORT. The Channel Supervisor's operations keep the invariant. -/

namespace Sys2Proof.Machine

set_option Elab.async false

variable {k : Nat} {s : State}

theorem raiseIf_self (b : Bool) (c : ChannelNo) (f : ChangeFlag) (s : State) :
    ∃ fl, (raiseIf b c f s).chan c = { s.chan c with flags := fl } := by
  unfold raiseIf; split
  · exact ⟨_, by rw [raise_chan, if_pos rfl]⟩
  · exact ⟨(s.chan c).flags, rfl⟩

/-- What a channel's record is after its supervision state is written: only that state and the flags may differ. -/
theorem setSupervision_self (c : ChannelNo) (st : Supervision) (s : State) :
    ∃ fl, (setSupervision c st s).chan c = { s.chan c with supervision := st, flags := fl } := by
  unfold setSupervision
  obtain ⟨fl, h⟩ := raiseIf_self (decide ((s.chan c).supervision ≠ st)) c .supervision
    (modChan c (fun ch => { ch with supervision := st }) s)
  exact ⟨fl, by rw [h, chan_modChan_self]⟩

theorem inv_setSupervision (h : InvWith k s) (c : ChannelNo) (st : Supervision)
    (hst : st = .tripped ∨ (s.chan c).holdOff = false) : InvWith k (setSupervision c st s) := by
  unfold setSupervision
  refine inv_raiseIf (inv_modChan h c _ (fun hc => ⟨hc.1, hc.2.1, hc.2.2.1, hc.2.2.2.1, fun ho => ?_, hc.2.2.2.2.2⟩)) _ _ _
  rcases hst with hst | hst
  · exact hst
  · rw [hst] at ho; exact absurd ho (by decide)

/-- A channel that is not TRIPPED has no hold-off mark (R125). -/
theorem holdOff_clear (h : InvWith k s) {c : ChannelNo} (hc : (s.chan c).supervision ≠ .tripped) : (s.chan c).holdOff = false := by
  by_contra hn
  exact hc ((h.channels c).2.2.2.2.1 (by simpa using hn))

theorem inv_enterAlert (h : InvWith k s) (c : ChannelNo) (hc : (s.chan c).supervision ≠ .tripped) : InvWith k (enterAlert c s) := by
  unfold enterAlert
  refine inv_setSupervision (inv_modChan h c _) c _ (Or.inr ?_)
  rw [chan_modChan_self]; exact holdOff_clear h hc

theorem inv_faultReported (h : InvWith k s) (c : ChannelNo) : InvWith k (faultReported c s) := by
  unfold faultReported; split
  · rename_i hc; exact inv_enterAlert h c (by rw [hc]; decide)
  · exact h
  · exact inv_modChan h c _

theorem inv_reporting {change : State → State} (h : InvWith k (change s)) (c : ChannelNo) (src : Source) :
    InvWith k (reporting c src change s) := by
  unfold reporting; split
  · exact inv_faultReported h c
  · exact h

theorem inv_okListing (h : InvWith k s) (c : ChannelNo) : InvWith k (okListing c s) :=
  inv_modChan h c _

theorem inv_failListing (h : InvWith k s) (c : ChannelNo) : InvWith k (failListing c s) :=
  inv_reporting (change := modChan c (fun ch => { ch with listing := .fail })) (inv_modChan h c _) c .hb

theorem inv_countSilence (h : InvWith k s) (c : ChannelNo) : InvWith k (countSilence c s) :=
  inv_modChan h c _

theorem inv_countFlap (h : InvWith k s) (c : ChannelNo) (hf : (s.chan c).inEffect.flapLimit ≤ (s.chan c).settings.flapLimit) :
    InvWith k (countFlap c s) := by
  unfold countFlap
  simp only
  split
  · exact h
  · generalize hn : (if (s.chan c).flapCounter < (s.chan c).inEffect.flapLimit then (s.chan c).flapCounter + 1
      else (s.chan c).flapCounter) = n
    have hle : (s.chan c).flapCounter ≤ (s.chan c).settings.flapLimit → n ≤ (s.chan c).settings.flapLimit := by
      intro h0
      subst hn
      split
      · omega
      · exact h0
    have h1 : InvWith k (modChan c (fun ch => { ch with flapCounter := n }) s) :=
      inv_modChan h c _ (fun hc => ⟨hc.1, hc.2.1, hc.2.2.1, hle hc.2.2.2.1, hc.2.2.2.2⟩)
    split
    · exact inv_raise (inv_modChan h1 c (fun ch => { ch with latched := true })) c _
    · exact h1

theorem inv_tripChannel (h : InvWith k s) (c : ChannelNo) (hf : (s.chan c).inEffect.flapLimit ≤ (s.chan c).settings.flapLimit) :
    InvWith k (tripChannel c s) := by
  unfold tripChannel
  refine inv_tripNotice (inv_setSupervision (inv_countFlap (inv_modChan h c _) c ?_) c _ (Or.inl rfl)) c
  rw [chan_modChan_self]; exact hf

theorem inv_recoverChannel (h : InvWith k s) (c : ChannelNo) : InvWith k (recoverChannel c s) := by
  unfold recoverChannel
  refine inv_recoveryNotice (inv_setSupervision (inv_modChan h c _ (fun hc => ⟨hc.1, hc.2.1, hc.2.2.1, hc.2.2.2.1, fun ho => ?_,
    hc.2.2.2.2.2⟩)) c _ (Or.inr ?_)) c
  · simp at ho
  · rw [chan_modChan_self]

theorem inv_alertStep (h : InvWith k s) (c : ChannelNo) (hc : (s.chan c).supervision ≠ .tripped)
    (hf : (s.chan c).inEffect.flapLimit ≤ (s.chan c).settings.flapLimit) : InvWith k (alertStep c s) := by
  unfold alertStep; split
  · refine inv_setSupervision (inv_modChan h c _) c _ (Or.inr ?_)
    rw [chan_modChan_self]; exact holdOff_clear h hc
  · split
    · simp only
      split
      · refine inv_tripChannel (inv_modChan h c _) c ?_
        rw [chan_modChan_self]; exact hf
      · exact inv_modChan h c _
    · exact inv_modChan h c _

theorem inv_trippedStep (h : InvWith k s) (c : ChannelNo) : InvWith k (trippedStep c s) := by
  unfold trippedStep; split
  · exact inv_modChan h c _
  · simp only
    split
    · exact inv_recoverChannel (inv_modChan h c _) c
    · exact inv_modChan h c _

theorem inv_superviseStep (h : InvWith k s) (c : ChannelNo) (hf : (s.chan c).inEffect.flapLimit ≤ (s.chan c).settings.flapLimit) :
    InvWith k (superviseStep c s) := by
  unfold superviseStep; split
  · rename_i hc
    split
    · obtain ⟨fl, he⟩ := setSupervision_self c .alert (modChan c (fun ch => { ch with tripTimer := 0 }) s)
      rw [chan_modChan_self] at he
      refine inv_alertStep (inv_enterAlert h c (by rw [hc]; decide)) c ?_ ?_
      · unfold enterAlert; rw [he]; simp
      · unfold enterAlert; rw [he]; exact hf
    · exact h
  · rename_i hc; exact inv_alertStep h c (by rw [hc]; decide) hf
  · exact inv_trippedStep h c

theorem inv_flapStep (h : InvWith k s) (c : ChannelNo) : InvWith k (flapStep c s) := by
  unfold flapStep
  refine inv_modChan h c _ (fun hc => ?_) ?_
  · split
    · exact hc
    · exact hc
    · split
      · exact hc
      · split
        · exact ⟨hc.1, hc.2.1, hc.2.2.1, le_trans (Nat.sub_le _ _) hc.2.2.2.1, hc.2.2.2.2⟩
        · exact hc
  · split
    · rfl
    · rfl
    · split
      · rfl
      · split <;> rfl

theorem inv_csvFrame (h : InvWith k s) (c : ChannelNo) (hf : (s.chan c).inEffect.flapLimit ≤ (s.chan c).settings.flapLimit) :
    InvWith k (csvFrame c s) := by
  unfold csvFrame
  refine inv_flapStep (inv_superviseStep (inv_countSilence h c) c ?_) c
  unfold countSilence; rw [chan_modChan_self]; exact hf

end Sys2Proof.Machine
end

