-- ==== Sys2Proof/Laws/ReplicationLaws.lean ====
section
/-! SUPPORT. The Replication Receiver's operations keep the invariant. -/

namespace Sys2Proof.Machine

set_option Elab.async false

variable {k : Nat} {s : State}

theorem inv_consume (h : InvWith k s) (c : ChannelNo) (b : Bool) (n : Nat) : InvWith k (consume c b n s) := by
  unfold consume
  refine inv_setLastApplied ?_ c n
  split
  · exact inv_modChan h c _
  · exact h

theorem inv_refuseInService (h : InvWith k s) (c : ChannelNo) : InvWith k (refuseInService c s) :=
  inv_raise (inv_modChan h c _) c _

theorem inv_applyToListed (h : InvWith k s) (c : ChannelNo) {e : Entry} {b : Body}
    (hb : b.entryId = e.key.id) : InvWith k (applyToListed c e b s) := by
  unfold applyToListed; split
  · exact h
  · split
    · exact inv_writeAmendment h c _ _ (fun b' he => by simp only [Amendment.body.injEq] at he; subst he; exact hb)
    · split
      · exact inv_refuseInService h c
      · exact inv_abandonWalks (inv_replaceEntry h c hb) c

/-- A new entry joins a schedule that has room and no entry of its name, on a slot the pool grants. -/
theorem inv_joinNew {t : State} (h : InvWith k s) (hr : requestSlot s = some t) (c : ChannelNo) (o : Origin) (b : Body)
    (hk : lookupEntry { origin := o, id := b.entryId } (s.chan c).schedule = none)
    (hlen : (s.chan c).schedule.length < Config.scheduleLimit) : InvWith k (joinEntry c o b t) := by
  have hsub := requestSlot_schedule hr c
  refine inv_joinEntry (inv_requestSlot h hr) c o b (fun hm => ?_) (lt_of_le_of_lt hsub.length_le hlen)
  exact lookupEntry_none.1 hk ((hsub.map Entry.key).subset hm)

theorem inv_applyPut (h : InvWith k s) (c : ChannelNo) (b : Bool) (n : Nat) (raw : RawBody) : InvWith k (applyPut c b n raw s) := by
  have h1 : InvWith k (raiseIf (raw.clamps (s.chan c).settings.rate) c .clamped s) := inv_raiseIf h _ _ _
  unfold applyPut
  simp only
  split
  · exact inv_fallOut (inv_consume h1 c b n) c _
  · split
    · rename_i e he
      exact inv_consume (inv_applyToListed h1 c (by rw [(lookupEntry_some he).2])) c b n
    · rename_i hk
      split
      · exact inv_fallOut h1 c _
      · rename_i hlen
        split
        · exact inv_fallOut h1 c _
        · rename_i u hr
          exact inv_consume (inv_abandonWalks (inv_joinNew h1 hr c _ _ hk (not_le.1 hlen)) c) c b n

theorem inv_dropListed (h : InvWith k s) (c : ChannelNo) (e : Entry) : InvWith k (dropListed c e s) := by
  unfold dropListed; split
  · exact inv_writeAmendment h c _ _ (fun b he => by simp at he)
  · split
    · exact inv_refuseInService h c
    · exact inv_removeEntry h c _

theorem inv_applyDrop (h : InvWith k s) (c : ChannelNo) (b : Bool) (n id : Nat) : InvWith k (applyDrop c b n id s) := by
  unfold applyDrop; split
  · exact inv_fallOut (inv_consume h c b n) c _
  · split
    · exact inv_consume h c b n
    · exact inv_consume (inv_dropListed h c _) c b n

theorem inv_applyUpdate (h : InvWith k s) (c : ChannelNo) (b : Bool) (u : Update) : InvWith k (applyUpdate c b u s) := by
  unfold applyUpdate; split
  · exact inv_applyPut h c b _ _
  · exact inv_applyDrop h c b _ _

theorem inv_storm (h : InvWith k s) (c : ChannelNo) : InvWith k (storm c s) :=
  inv_setReplication (inv_modChan h c _) c _ _ _

theorem inv_checkUpdate (h : InvWith k s) (c : ChannelNo) (u : Update) : InvWith k (checkUpdate c u s) := by
  unfold checkUpdate; split
  · exact h
  · exact inv_fallOut h c _
  · split
    · exact inv_storm h c
    · exact inv_applyUpdate h c true u

/-- An assembly that stages the same bodies may replace the one in place. -/
theorem inv_sameStaged (h : InvWith k s) {a a' : Assembly} (ha : s.assembly = some a) (hs : a'.staged = a.staged) :
    InvWith k { s with assembly := some a' } := by
  refine ⟨h.channels, h.families, h.device, ?_, ?_, h.attention, h.takes, h.resync, h.deferral, h.walks, h.walkChannels⟩
  · have := h.pool
    rw [stagedSlots, ha] at this
    show listedSlots s + a'.staged.length + s.freeCount + k = _
    rw [hs]; exact this
  · intro b hb
    simp only [Option.mem_def, Option.some.injEq] at hb; subst hb
    rw [hs]; exact h.staged a ha

theorem inv_deferUpdate (h : InvWith k s) (c : ChannelNo) (u : Update) : InvWith k (deferUpdate c u s) := by
  unfold deferUpdate; split
  · exact h
  · rename_i a ha
    split
    · simp only
      split
      · exact h
      · split
        · exact h
        · split
          · rename_i hl
            refine ⟨h.channels, h.families, h.device, h.pool, h.staged, h.attention, h.takes, h.resync, ?_, h.walks, h.walkChannels⟩
            show (s.deferral ++ [u]).length ≤ _
            rw [List.length_append, List.length_singleton]; omega
          · exact inv_sameStaged h ha rfl
    · exact h

theorem inv_receiveUpdate (h : InvWith k s) (c : ChannelNo) (u : Update) : InvWith k (receiveUpdate c u s) := by
  unfold receiveUpdate; split
  · exact h
  · split
    · exact inv_checkUpdate h c u
    · exact inv_deferUpdate h c u
    all_goals exact h

theorem inv_examineStorm (h : InvWith k s) (c : ChannelNo) : InvWith k (examineStorm c s) := by
  unfold examineStorm; split
  · simp only
    split
    · exact inv_enqueue (inv_modChan h c _) c
    · exact inv_modChan h c _
  · exact h

theorem inv_rrxFrame (h : InvWith k s) (c : ChannelNo) : InvWith k (rrxFrame c s) := by
  unfold rrxFrame; simp only; split
  · exact inv_modChan h c _
  · split
    · exact inv_examineStorm (inv_modChan h c _) c
    · exact inv_modChan h c _

theorem inv_takeHealthRecord (h : InvWith k s) (r : HealthRecord) : InvWith k (takeHealthRecord r s) := by
  unfold takeHealthRecord
  dsimp only
  have h1 : InvWith k (if r.fails then failListing r.channel s else okListing r.channel s) := by
    split
    · exact inv_failListing h _
    · exact inv_okListing h _
  revert h1
  generalize (if r.fails then failListing r.channel s else okListing r.channel s) = t
  intro h1
  split
  · exact inv_fallOut h1 _ _
  · exact h1

theorem inv_takeDigestRecord (h : InvWith k s) (hs : List HealthRecord) (r : DigestRecord) : InvWith k (takeDigestRecord hs r s) := by
  unfold takeDigestRecord; split
  · rename_i ha
    simp only [acceptsDigest, Bool.and_eq_true, decide_eq_true_eq, Bool.not_eq_true', List.any_eq_false] at ha
    obtain ⟨⟨⟨⟨⟨_, hp⟩, _⟩, hl⟩, _⟩, _⟩ := ha
    refine inv_startWalk ⟨h.channels, h.families, h.device, h.pool, h.staged, h.attention, h.takes, h.resync, h.deferral, ?_, ?_⟩
    · show (s.pendingWalks ++ [_]).length ≤ _
      rw [List.length_append, List.length_singleton]; omega
    · show ((s.pendingWalks ++ [_]).map WalkRecord.channel).Nodup
      rw [List.map_append, List.nodup_append]
      refine ⟨h.walkChannels, by simp, fun a ha b hb => ?_⟩
      simp only [List.map_cons, List.map_nil, List.mem_singleton] at hb
      obtain ⟨w, hw, rfl⟩ := List.mem_map.1 ha
      rintro rfl
      exact hp w hw hb
  · exact h

theorem inv_takeHeartbeat (h : InvWith k s) (hs : List HealthRecord) (ds : List DigestRecord) : InvWith k (takeHeartbeat hs ds s) :=
  inv_foldl (fun _ r ht => inv_takeDigestRecord ht hs r) ds (inv_foldl (fun _ r ht => inv_takeHealthRecord ht r) hs h)

theorem inv_sendStatus (h : InvWith k s) : InvWith k (sendStatus s) :=
  inv_sendReplication (inv_touch h) _

theorem inv_linkComesUp (h : InvWith k s) : InvWith k (linkComesUp s) := by
  have h1 : InvWith k (raiseEvent .linkDownChange { s with linkUp := true, statusCount := 0 }) := inv_raiseEvent (inv_touch h) _
  unfold linkComesUp
  simp only
  split
  · refine inv_bumpDraws ?_
    split
    · exact inv_sendStatus (inv_serve h1)
    · exact inv_serve (inv_sendStatus h1)
  · exact inv_sendStatus h1

theorem inv_arrive {content : State → State} (hc : ∀ t, InvWith k t → InvWith k (content t)) (h : InvWith k s) :
    InvWith k (arrive content s) := by
  have h1 := hc { s with silence := 0 } (inv_touch h)
  unfold arrive
  simp only
  split
  · exact h1
  · exact inv_linkComesUp h1

theorem inv_malformed (h : InvWith k s) : InvWith k (malformed s) :=
  inv_raiseEvent h _

theorem inv_linkTick (h : InvWith k s) : InvWith k (linkTick s) := by
  unfold linkTick; split
  · split
    · exact inv_raiseEvent (inv_touch h) _
    · exact inv_touch h
  · exact h

theorem inv_statusTick (h : InvWith k s) : InvWith k (statusTick s) := by
  unfold statusTick; split
  · split
    · exact inv_sendStatus (inv_touch h)
    · exact inv_touch h
  · exact h

end Sys2Proof.Machine
end

