-- ==== Sys2Proof/Laws/SnapshotLaws.lean ====
section
/-! SUPPORT. The Resync Unit's snapshot operations keep the invariant: what a commit leaves, slot by slot. -/

namespace Sys2Proof.Machine

set_option Elab.async false

variable {k : Nat} {s : State}

/-! ### The staged slots -/

theorem startWalk_assembly (s : State) : (startWalk s).assembly = s.assembly := by
  unfold startWalk; split <;> rfl

theorem abandonWalks_assembly (c : ChannelNo) (s : State) : (abandonWalks c s).assembly = s.assembly := by
  unfold abandonWalks; rw [startWalk_assembly]

theorem raiseIf_assembly (b : Bool) (c : ChannelNo) (f : ChangeFlag) (s : State) : (raiseIf b c f s).assembly = s.assembly := by
  unfold raiseIf; split <;> rfl

theorem grantSlot_assembly (s : State) : (grantSlot s).assembly = s.assembly := by
  unfold grantSlot; simp only; split <;> rfl

theorem keepOnly_assembly (c : ChannelNo) (keep : Entry × Nat → Bool) (s : State) : (keepOnly c keep s).assembly = s.assembly := by
  have h : ∀ n, (freeSlots n (setSchedule c (((spans (s.chan c).schedule).filter keep).map Prod.fst) s)).assembly = s.assembly := by
    intro n; show (setSchedule c _ s).assembly = _; unfold setSchedule; rw [raiseIf_assembly]; rfl
  unfold keepOnly
  simp only
  split
  · rw [abandonWalks_assembly, h]
  · rw [h]

theorem requestSlot_assembly {t : State} (hr : requestSlot s = some t) : t.assembly = s.assembly := by
  unfold requestSlot at hr
  split at hr
  · simp only [Option.some.injEq] at hr; subst hr; exact grantSlot_assembly s
  · split at hr
    · simp only [Option.some.injEq] at hr; subst hr; rw [grantSlot_assembly]; exact keepOnly_assembly _ _ s
    · simp at hr

/-- The slot in hand goes to one more staged body of a new ID. -/
theorem inv_stageOne (h : InvWith (k + 1) s) {a a' : Assembly} (ha : s.assembly = some a) (b : Body)
    (hs : a'.staged = a.staged ++ [b]) (hn : b.entryId ∉ a.staged.map Body.entryId) :
    InvWith k { s with assembly := some a' } := by
  refine ⟨h.channels, h.families, h.device, ?_, ?_, h.attention, h.takes, h.resync, h.deferral, h.walks, h.walkChannels⟩
  · have := h.pool
    rw [stagedSlots, ha] at this
    show listedSlots s + a'.staged.length + s.freeCount + k = _
    rw [hs, List.length_append, List.length_singleton]
    simp at this
    omega
  · intro b' hb
    simp only [Option.mem_def, Option.some.injEq] at hb; subst hb
    rw [hs, List.map_append, List.nodup_append]
    refine ⟨h.staged a ha, by simp, fun x hx y hy => ?_⟩
    simp only [List.map_cons, List.map_nil, List.mem_singleton] at hy
    rintro rfl
    exact hn (hy ▸ hx)

/-- The staged slots are taken in hand. -/
theorem inv_takeInHand (h : InvWith k s) {a : Assembly} (ha : s.assembly = some a) :
    InvWith (k + a.staged.length) { s with assembly := some { a with staged := [] } } := by
  refine ⟨h.channels, h.families, h.device, ?_, ?_, h.attention, h.takes, h.resync, h.deferral, h.walks, h.walkChannels⟩
  · have := h.pool
    rw [stagedSlots, ha] at this
    show listedSlots s + 0 + s.freeCount + (k + a.staged.length) = _
    simp at this
    omega
  · intro b hb
    simp only [Option.mem_def, Option.some.injEq] at hb; subst hb
    exact List.nodup_nil

/-! ### The messages -/

theorem inv_takeOpen (h : InvWith k s) (c : ChannelNo) (resume count : Nat) : InvWith k (takeOpen c resume count s) := by
  unfold takeOpen; split
  · exact h
  · rename_i a ha
    split
    · exact h
    · split
      · exact inv_failSnapshot h _
      · exact inv_abandonWalks (inv_sameStaged (a' := { a with
          phase := .receiving, resume := some resume, expected := some count, nextIndex := 1 }) h ha rfl) c

theorem inv_stageItem (h : InvWith k s) (c : ChannelNo) {a : Assembly} (ha : s.assembly = some a) (raw : RawBody) :
    InvWith k (stageItem c a raw s) := by
  unfold stageItem
  simp only
  split
  · exact inv_failSnapshot h _
  · split
    · exact inv_failSnapshot h _
    · rename_i hn
      split
      · exact inv_failSnapshot h _
      · rename_i u hr
        refine inv_raiseIf (inv_stageOne (inv_requestSlot h hr) ((requestSlot_assembly hr).trans ha) (raw.convert _) rfl ?_) _ _ _
        intro hm
        obtain ⟨b, hb, he⟩ := List.mem_map.1 hm
        exact hn (List.any_eq_true.2 ⟨b, hb, by rw [decide_eq_true_eq]; exact he⟩)

theorem inv_takeItem (h : InvWith k s) (c : ChannelNo) (index : Nat) (raw : RawBody) : InvWith k (takeItem c index raw s) := by
  unfold takeItem; split
  · exact h
  · rename_i a ha
    split
    · exact h
    · split
      · exact inv_failSnapshot h _
      · split
        · exact h
        · exact inv_stageItem h c ha raw

/-! ### The commit -/

theorem mapEntry_keys (key : EntryKey) (f : Entry → Entry) (hk : ∀ e, (f e).key = e.key) (es : List Entry) :
    (mapEntry key f es).map Entry.key = es.map Entry.key := by
  unfold mapEntry
  refine map_map_eq_map (fun e => ?_)
  split
  · exact hk e
  · rfl

theorem placeEntry_keys (frame : Option Nat) (e : Entry) (es : List Entry) :
    ((placeEntry frame e es).map Entry.key).Perm (e.key :: es.map Entry.key) := by
  unfold placeEntry
  rw [mapEntry_keys]
  · exact (insertEntry_perm e es).map _
  · intro _; rfl

theorem writeAmendment_keys (c : ChannelNo) (key : EntryKey) (a : Amendment) (s : State) :
    ((writeAmendment c key a s).chan c).schedule.map Entry.key = (s.chan c).schedule.map Entry.key := by
  unfold writeAmendment
  rw [abandonWalks_chan, setSchedule_schedule, if_pos rfl, mapEntry_keys]
  intro _; rfl

theorem joinEntry_keys (c : ChannelNo) (o : Origin) (b : Body) (s : State) :
    (((joinEntry c o b s).chan c).schedule.map Entry.key).Perm
      ({ origin := o, id := b.entryId } :: (s.chan c).schedule.map Entry.key) := by
  unfold joinEntry
  rw [setSchedule_schedule, if_pos rfl]
  exact placeEntry_keys _ _ _

/-- Taking the staged entries one by one frees or lists the slots in hand. -/
theorem inv_takeStaged_all (c : ChannelNo) (es : List Entry) (bs : List Body) {s : State} (h : InvWith (k + bs.length) s)
    (hn : (bs.map Body.entryId).Nodup)
    (hk : ∀ b ∈ bs, stagedFate es b = .joins → ({ origin := .replicated, id := b.entryId } : EntryKey) ∉ (s.chan c).schedule.map Entry.key)
    (hl : (s.chan c).schedule.length + bs.countP (fun b => decide (stagedFate es b = .joins)) ≤ Config.scheduleLimit) :
    InvWith k (bs.foldl (fun v b => takeStaged c es b v) s) := by
  induction bs generalizing s with
  | nil => exact h
  | cons b bs ih =>
    rw [List.map_cons, List.nodup_cons] at hn
    rw [List.foldl_cons]
    have h' : InvWith ((k + bs.length) + 1) s := h
    cases hf : stagedFate es b with
    | freed =>
      have ht : takeStaged c es b s = freeSlots 1 s := by simp only [takeStaged, hf]
      rw [ht]
      refine ih (inv_freeSlots h') hn.2 (fun d hd hj => hk d (List.mem_cons_of_mem _ hd) hj) ?_
      rw [List.countP_cons] at hl
      exact le_trans (by rw [freeSlots_chan]; omega) hl
    | amends =>
      have ht : takeStaged c es b s = freeSlots 1 (writeAmendment c { origin := .replicated, id := b.entryId } (.body b) s) := by
        simp only [takeStaged, hf]
      have hkeys := writeAmendment_keys c { origin := .replicated, id := b.entryId } (.body b) s
      have hlen : ((writeAmendment c { origin := .replicated, id := b.entryId } (.body b) s).chan c).schedule.length
          = (s.chan c).schedule.length := by simpa using congrArg List.length hkeys
      rw [ht]
      refine ih (inv_freeSlots (inv_writeAmendment h' c _ _ (fun b' he => ?_))) hn.2 (fun d hd hj => ?_) ?_
      · simp only [Amendment.body.injEq] at he; subst he; rfl
      · rw [freeSlots_chan, hkeys]; exact hk d (List.mem_cons_of_mem _ hd) hj
      · rw [freeSlots_chan, hlen]
        rw [List.countP_cons] at hl
        omega
    | joins =>
      have ht : takeStaged c es b s = joinEntry c .replicated b s := by simp only [takeStaged, hf]
      have hkeys := joinEntry_keys c .replicated b s
      have hlen : ((joinEntry c .replicated b s).chan c).schedule.length = (s.chan c).schedule.length + 1 := by
        simpa using hkeys.length_eq
      rw [List.countP_cons, if_pos (by simpa using hf)] at hl
      rw [ht]
      refine ih (inv_joinEntry h' c _ _ (hk b List.mem_cons_self hf) (by omega)) hn.2 (fun d hd hj => ?_) (by omega)
      rw [hkeys.mem_iff, List.mem_cons, not_or]
      refine ⟨fun he => ?_, hk d (List.mem_cons_of_mem _ hd) hj⟩
      simp only [EntryKey.mk.injEq, true_and] at he
      exact hn.1 (he ▸ List.mem_map_of_mem hd)

theorem inv_holdDeletions (h : InvWith k s) (c : ChannelNo) (es : List Entry) (staged : List Body) :
    InvWith k (holdDeletions c es staged s) := by
  refine inv_foldl (fun t e ht => ?_) es h
  split
  · exact inv_writeAmendment ht c _ _ (fun b hb => by simp at hb)
  · exact ht

theorem inv_settleRefused (h : InvWith k s) (c : ChannelNo) (b : Bool) : InvWith k (settleRefused c b s) := by
  unfold settleRefused; split
  · exact inv_refuseInService h c
  · exact inv_modChan h c _

/-- An entry that a staged body of fate `joins` names is not kept at the commit. -/
theorem joins_not_kept {es : List Entry} (hn : (es.map Entry.key).Nodup) {b : Body} (hf : stagedFate es b = .joins) :
    ({ origin := .replicated, id := b.entryId } : EntryKey) ∉ (es.filter keptAtCommit).map Entry.key := by
  intro hm
  obtain ⟨e, he, hke⟩ := List.mem_map.1 hm
  obtain ⟨hes, hkeep⟩ := List.mem_filter.1 he
  have hrep : e.isReplicated = true := by
    have := congrArg EntryKey.origin hke
    simpa [Entry.key, Entry.isReplicated] using this
  unfold stagedFate at hf
  split at hf
  · rename_i e' he'
    obtain ⟨hm', hk'⟩ := lookupEntry_some he'
    have : e' = e := List.inj_on_of_nodup_map hn hm' hes (hk'.trans hke.symm)
    subst this
    unfold keptAtCommit at hkeep
    rw [hrep] at hkeep
    cases hi : e'.inService <;> cases hp : e'.pinned <;> simp_all
  · rename_i hnone
    exact lookupEntry_none.1 hnone (hke ▸ List.mem_map_of_mem hes)

theorem inv_joinStaged (h : InvWith k s) (c : ChannelNo) {a : Assembly} (ha : s.assembly = some a)
    (hl : countAfterCommit (s.chan c).schedule a.staged ≤ Config.scheduleLimit) : InvWith k (joinStaged c a s) := by
  unfold joinStaged
  simp only
  have hsch := keepOnly_schedule c c (fun p => keptAtCommit p.1) { s with assembly := some { a with staged := [] } }
  rw [if_pos rfl, kept_of_entry] at hsch
  refine inv_settleRefused (inv_holdDeletions (inv_takeStaged_all c _ _ (inv_keepOnly (inv_takeInHand h ha) c _)
    (h.staged a ha) (fun b _ hf => ?_) ?_) c _ _) c _
  · rw [hsch]; exact joins_not_kept (h.channels c).2.2.2.2.2.2.2.1 hf
  · rw [hsch, ← List.countP_eq_length_filter]; exact hl

theorem inv_applyDeferred (turns : Nat) (c : ChannelNo) (q : List Update) {s : State} (h : InvWith k s) :
    InvWith k (applyDeferred turns c q s).1 := by
  induction turns generalizing q s with
  | zero => exact h
  | succ n ih =>
    unfold applyDeferred
    split
    · exact h
    · split
      · exact h
      · exact ih _ (inv_applyUpdate h c false _)

theorem inv_afterDeferred (c : ChannelNo) (b : Bool) (p : State × List Update) (h : InvWith k p.1) : InvWith k (afterDeferred c b p) := by
  unfold afterDeferred; split
  · exact inv_fallOut h c _
  · exact h

theorem inv_commitSnapshot (h : InvWith k s) (c : ChannelNo) {a : Assembly} (ha : s.assembly = some a) :
    InvWith k (commitSnapshot c a s) := by
  unfold commitSnapshot; split
  · exact inv_failSnapshot h _
  · rename_i hl
    exact inv_serve (inv_clearAssembly (inv_afterDeferred c _ _ (inv_applyDeferred _ c _ (inv_setReplication
      (inv_setLastApplied (inv_abandonWalks (inv_joinStaged h c ha (not_lt.1 hl)) c) c _) c _ _ _))))

theorem inv_takeClose (h : InvWith k s) (c : ChannelNo) (count digest : Nat) : InvWith k (takeClose c count digest s) := by
  unfold takeClose; split
  · exact h
  · rename_i a ha
    split
    · exact h
    · split
      · exact inv_commitSnapshot h c ha
      · exact inv_failSnapshot h _

theorem inv_snapshotTick (h : InvWith k s) : InvWith k (snapshotTick s) := by
  unfold snapshotTick; split
  · rename_i a ha _
    split
    · exact inv_failSnapshot h _
    · exact inv_sameStaged h ha rfl
  · exact h

end Sys2Proof.Machine
end

