-- ==== Sys2Proof/Laws/TimingLaws.lean ====
section
/-! SUPPORT. The Frame Timing Unit's pulses, the frame events and the millisecond tick keep the invariant. -/

namespace Sys2Proof.Machine

set_option Elab.async false

variable {k : Nat} {s : State}

/-! ### Frame events -/

theorem chan_mapChannels (f : Channel → Channel) (s : State) (c : ChannelNo) :
    ({ s with channels := s.channels.map f } : State).chan c = f (s.chan c) := by
  simp [State.chan]

/-- A change of every channel that keeps its laws and its schedule keeps the invariant. -/
theorem inv_mapChannels (h : InvWith k s) (f : Channel → Channel) (hl : ∀ ch, ChannelLaw ch → ChannelLaw (f ch))
    (hs : ∀ ch, (f ch).schedule = ch.schedule) : InvWith k { s with channels := s.channels.map f } := by
  refine ⟨fun c => ?_, fun fam => ?_, h.device, ?_, h.staged, h.attention, h.takes, h.resync, h.deferral, h.walks, h.walkChannels⟩
  · rw [chan_mapChannels]; exact hl _ (h.channels c)
  · have := h.families fam
    cases fam <;> exact this
  · have hp := h.pool
    have : listedSlots { s with channels := s.channels.map f } = listedSlots s := by
      unfold listedSlots
      exact Finset.sum_congr rfl (fun c _ => by rw [chan_mapChannels, hs])
    rw [this]; exact hp

theorem inv_blockFrame (h : InvWith k s) (b : Block) (c : ChannelNo)
    (hf : b = .csv → (s.chan c).inEffect.flapLimit ≤ (s.chan c).settings.flapLimit) : InvWith k (blockFrame b c s) := by
  cases b
  · exact inv_sstFrame h c
  · exact inv_rrxFrame h c
  · exact inv_csvFrame h c (hf rfl)
  · exact inv_couFrame h c

theorem inv_takeBlock (h : InvWith k s) (b : Block) (c : ChannelNo) : InvWith k (takeBlock b c s) := by
  unfold takeBlock; split
  · refine inv_blockFrame (inv_modChan h c (beginPart b)) b c (fun hb => ?_)
    subst hb
    rw [chan_modChan_self]
    exact le_refl _
  · exact h

theorem inv_workChannel (h : InvWith k s) (held : List (ChannelNo × Block)) (c : ChannelNo) : InvWith k (workChannel held c s) := by
  refine inv_foldl (fun t b ht => ?_) _ h
  split
  · exact ht
  · exact inv_takeBlock ht b c

theorem inv_workFrames (h : InvWith k s) (held : List (ChannelNo × Block)) : InvWith k (workFrames held s) :=
  inv_forChannels (fun c _ ht => inv_workChannel ht held c) _ h

theorem inv_raiseFrames (h : InvWith k s) (fam : Family) : InvWith k (raiseFrames fam s) := by
  refine inv_mapChannels h _ (fun ch hc => ?_) (fun ch => ?_)
  · unfold frameAt; simp only; split
    · exact hc
    · exact hc
  · unfold frameAt; simp only; split <;> rfl

theorem inv_pulseWork (h : InvWith k s) (fam : Family) (b : Bool) (held : List (ChannelNo × Block)) : InvWith k (pulseWork fam b held s) := by
  have h1 := inv_raiseFrames h fam
  have hg : ∀ u : State, InvWith k u → InvWith k (if u.device.routerFamily = fam then grantPulse u else u) := by
    intro u hu
    split
    · exact inv_grantPulse hu
    · exact hu
  unfold pulseWork
  simp only
  split
  · exact inv_workFrames (hg _ h1) held
  · exact hg _ (inv_workFrames h1 held)

/-! ### Pulses -/

theorem inv_countPulse (h : InvWith k s) (fam : Family) {at_ : Option Instant} (hs : (s.family fam).state ≠ .unset)
    (ha : at_.isSome) (b : Bool) (held : List (ChannelNo × Block)) : InvWith k (countPulse fam at_ b held s) :=
  inv_pulseWork (inv_modFamily h fam _ (fun hf => ⟨hf.1, Nat.min_le_right _ _, hf.2.2.1, fun hu => absurd hu hs, fun _ => ha⟩)) fam b held

theorem inv_parityCheck (h : InvWith k s) (fam : Family) (m : Bool) : InvWith k (parityCheck fam m s) := by
  unfold parityCheck; simp only; split
  · exact inv_raiseEvent h _
  · exact h

theorem family_raiseEvent (e : DeviceFlag) (fam : Family) (s : State) : (raiseEvent e s).family fam = s.family fam := by
  cases fam <;> rfl

theorem inv_acceptedPulse (h : InvWith k s) (fam : Family) (instant : Instant) (m b : Bool) (held : List (ChannelNo × Block)) :
    InvWith k (acceptedPulse fam instant m b held s) := by
  unfold acceptedPulse
  simp only
  split
  · exact h
  · rename_i hs
    exact inv_parityCheck (inv_countPulse h fam (by rw [hs]; decide) rfl b held) fam m
  · rename_i hs
    split
    · have h1 : InvWith k (raiseEvent .refRelock (modFamily fam (fun x => { x with state := .locked }) s)) :=
        inv_raiseEvent (inv_modFamily h fam _ (fun hf => ⟨hf.1, hf.2.1, hf.2.2.1, fun hu => (by cases hu),
          fun _ => hf.2.2.2.2 (by rw [hs]; decide)⟩)) _
      refine inv_parityCheck ?_ fam m
      split
      · exact h1
      · refine inv_countPulse h1 fam ?_ rfl b held
        rw [family_raiseEvent, family_modFamily_self]
        exact FamilyState.noConfusion
    · exact h

theorem stateAfterLoad_counts (st : FamilyState) (n : Nat) : stateAfterLoad st n ≠ .unset := by
  unfold stateAfterLoad
  by_cases hn : n = Config.fullRun <;> cases st <;> simp [hn]

theorem inv_loadPulse (h : InvWith k s) (fam : Family) (instant : Instant) (p : PendingSet) (hp : p.target ≤ Config.countLimit)
    (b : Bool) (held : List (ChannelNo × Block)) : InvWith k (loadPulse fam instant p b held s) := by
  have h1 : InvWith k (modFamily fam (FamilyRecord.loaded p.target instant) s) :=
    inv_modFamily h fam _ (fun hf => ⟨hf.1, hp, fun q hq => (by cases hq), fun hu => absurd hu (stateAfterLoad_counts _ _), fun _ => rfl⟩)
  have h2 : InvWith k (if (s.family fam).state = .freerun ∧ (s.family fam).goodRun = Config.fullRun then
      raiseEvent .refRelock (modFamily fam (FamilyRecord.loaded p.target instant) s)
      else modFamily fam (FamilyRecord.loaded p.target instant) s) := by
    split
    · exact inv_raiseEvent h1 _
    · exact h1
  unfold loadPulse
  refine inv_pulseWork ?_ fam b held
  revert h2
  generalize (if (s.family fam).state = .freerun ∧ (s.family fam).goodRun = Config.fullRun then
      raiseEvent .refRelock (modFamily fam (FamilyRecord.loaded p.target instant) s)
      else modFamily fam (FamilyRecord.loaded p.target instant) s) = u
  intro h2
  split
  · exact inv_shiftReleases h2 _ _
  · exact h2

theorem inv_referencePulse (h : InvWith k s) (fam : Family) (instant : Instant) (m b : Bool) (held : List (ChannelNo × Block)) :
    InvWith k (referencePulse fam instant m b held s) := by
  unfold referencePulse
  split
  · exact inv_modFamily h fam _ (fun hf => ⟨Nat.zero_le _, hf.2⟩)
  · have h1 : InvWith k (modFamily fam (FamilyRecord.accept fam instant) s) :=
      inv_modFamily h fam _ (fun hf => ⟨by
        show (if _ then min _ Config.fullRun else 0) ≤ Config.fullRun
        split
        · exact Nat.min_le_right _ _
        · exact Nat.zero_le _, hf.2⟩)
    simp only
    split
    · rename_i p hp
      split
      · exact inv_acceptedPulse (inv_modFamily h1 fam _ (fun hf => ⟨hf.1, hf.2.1, fun q hq => (by cases hq), hf.2.2.2⟩)) fam instant _ b held
      · exact inv_loadPulse h1 fam instant p ((h.families fam).2.2.1 p hp) b held
    · exact inv_acceptedPulse h1 fam instant _ b held
    · exact inv_acceptedPulse h1 fam instant _ b held

theorem nextDue_isSome (h : InvWith k s) (fam : Family) (hs : (s.family fam).state ≠ .unset) : ((s.family fam).nextDue fam).isSome := by
  have := (h.families fam).2.2.2.2 hs
  unfold FamilyRecord.nextDue
  rw [Option.isSome_map]; exact this

theorem inv_referenceAbsent (h : InvWith k s) (fam : Family) (b : Bool) (held : List (ChannelNo × Block)) :
    InvWith k (referenceAbsent fam b held s) := by
  have h1 : InvWith k (modFamily fam (fun x => { x with goodRun := 0, absenceFrom := none }) s) :=
    inv_modFamily h fam _ (fun hf => ⟨Nat.zero_le _, hf.2⟩)
  unfold referenceAbsent
  simp only
  split
  · exact h
  · split
    · rename_i hs
      refine inv_countPulse (inv_raiseEvent (inv_modFamily h1 fam _ (fun hf => ⟨hf.1, hf.2.1, hf.2.2.1, fun hu => (by cases hu),
        fun _ => ?_⟩)) _) fam ?_ (nextDue_isSome h fam (by rw [hs]; decide)) b held
      · rw [family_modFamily_self] at hf ⊢
        exact hf.2.2.2.2 (by show (s.family fam).state ≠ _; rw [hs]; decide)
      · rw [family_raiseEvent, family_modFamily_self]; exact FamilyState.noConfusion
    · exact h1

theorem inv_synthesise (h : InvWith k s) (fam : Family) (b : Bool) (held : List (ChannelNo × Block)) :
    InvWith k (synthesise fam b held s) := by
  unfold synthesise
  simp only
  split
  · rename_i hs
    have hs' : (s.family fam).state ≠ .unset := by rw [hs]; decide
    exact inv_countPulse h fam hs' (nextDue_isSome h fam hs') b held
  · exact h

/-! ### The tick -/

theorem inv_changeLine (h : InvWith k s) (l : LineNo) (f : SenseLine → SenseLine) : InvWith k (changeLine l f s) := by
  unfold changeLine; simp only; split
  · exact inv_reporting (inv_modLine h l _) _ _
  · exact inv_modLine h l _

theorem inv_hostTick (h : InvWith k s) : InvWith k (hostTick s) := by
  unfold hostTick; split
  · split
    · exact inv_hostAbsentAtCou (inv_raiseEvent (inv_touch h) _)
    · exact inv_touch h
  · exact h

theorem inv_partTick (h : InvWith k s) (p : TickPart) : InvWith k (partTick p s) := by
  cases p
  · exact inv_changeLine h _ _
  · exact inv_linkTick h
  · exact inv_statusTick h
  · exact inv_snapshotTick h
  · exact inv_walkTick h
  · exact inv_takeTick h _
  · exact inv_hostTick h

theorem inv_takePart (h : InvWith k s) (p : TickPart) : InvWith k (takePart p s) := by
  unfold takePart; split
  · exact inv_partTick (inv_touch h) p
  · exact h

theorem inv_takePartInOrder (h : InvWith k s) (p : TickPart) : InvWith k (takePartInOrder p s) := by
  unfold takePartInOrder; split
  · exact inv_takePart (inv_takePart h _) _
  · exact inv_takePart h p

theorem inv_takeParts (h : InvWith k s) (held ps : List TickPart) : InvWith k (takeParts held ps s) := by
  refine inv_foldl (fun t p ht => ?_) ps h
  split
  · exact ht
  · exact inv_takePartInOrder ht p

theorem inv_tickDue (h : InvWith k s) (ps : List TickPart) : InvWith k { s with tickDue := ps } :=
  inv_touch h

theorem inv_msTick (h : InvWith k s) (levels : BitVec 16) (held : List TickPart) : InvWith k (msTick levels held s) := by
  have h1 : InvWith k (sampleLines levels (takeParts [] s.tickDue s)) :=
    inv_foldl (fun _ l ht => inv_modLine ht l _) _ (inv_takeParts h [] _)
  unfold msTick
  revert h1
  generalize sampleLines levels (takeParts [] s.tickDue s) = t
  intro h1
  refine inv_takeParts (inv_tickDue ?_ (tickParts t)) held (tickParts t)
  split
  · exact h1
  · exact inv_foldl (fun _ l ht => inv_changeLine ht l _) _ (inv_touch h1)

end Sys2Proof.Machine
end

