-- ==== Sys2Proof/Laws/CommandLaws.lean ====
section
/-! SUPPORT. The command frame, and every command's effect, keep the invariant. -/

namespace Sys2Proof.Machine

set_option Elab.async false

variable {k : Nat} {s : State}

/-! ### The command frame -/

theorem inv_hostSpeaks (h : InvWith k s) : InvWith k (hostSpeaks s) := by
  unfold hostSpeaks; simp only; split
  · exact inv_touch h
  · exact inv_raiseEvent (inv_touch h) _

theorem inv_withSlot (h : InvWith k s) (r : Option Response) : InvWith k { s with slot := r } :=
  inv_touch h

theorem inv_shiftPortByte (h : InvWith k s) (early : Bool) : InvWith k (shiftPortByte early s) :=
  inv_touch h

theorem inv_endTransaction (h : InvWith k s) : InvWith k (endTransaction s) :=
  inv_touch h

theorem inv_portCommand {run : State → Answer} (hr : ∀ t, InvWith k t → InvWith k (run t).state) (h : InvWith k s)
    (write : Write) : InvWith k (portCommand write run s) := by
  have h1 := inv_hostSpeaks (inv_shiftPortByte h write.early)
  unfold portCommand
  refine inv_endTransaction ?_
  split
  · exact h1
  · exact inv_withSlot (hr _ h1) _

theorem inv_withLength {run : State → Answer} (hr : ∀ t, InvWith k t → InvWith k (run t).state) (n : Nat) (body : List Byte) :
    ∀ t, InvWith k t → InvWith k (withLength n body run t).state := by
  intro t ht
  unfold withLength; split
  · exact hr t ht
  · exact ht

theorem inv_withChannel {run : ChannelNo → State → Answer} (hr : ∀ c t, InvWith k t → InvWith k (run c t).state) (body : List Byte) :
    ∀ t, InvWith k t → InvWith k (withChannel body run t).state := by
  intro t ht
  unfold withChannel; split
  · exact ht
  · exact hr _ t ht

theorem inv_channelCommand {run : ChannelNo → State → Answer} (hr : ∀ c t, InvWith k t → InvWith k (run c t).state) (body : List Byte) :
    ∀ t, InvWith k t → InvWith k (channelCommand body run t).state :=
  inv_withLength (inv_withChannel hr body) 1 body

/-! ### Store commands -/

theorem inv_readEntry (body : List Byte) (c : ChannelNo) (h : InvWith k s) : InvWith k (readEntry body c s).state := by
  unfold readEntry; simp only; split
  · exact h
  · exact h
  · split <;> exact h

theorem inv_findAt (body : List Byte) (c : ChannelNo) (h : InvWith k s) : InvWith k (findAt body c s).state := by
  unfold findAt; simp only; split
  · exact h
  · split <;> exact h

theorem inv_listEntries (body : List Byte) (c : ChannelNo) (h : InvWith k s) : InvWith k (listEntries body c s).state := by
  unfold listEntries; simp only; split
  · exact h
  · split <;> exact h

theorem inv_writeLocal (raw : RawBody) (c : ChannelNo) (h : InvWith k s) : InvWith k (writeLocal raw c s).state := by
  unfold writeLocal; simp only; split
  · exact h
  · split
    · split
      · exact h
      · exact inv_replaceEntry h c rfl
    · rename_i hk
      split
      · exact h
      · rename_i hl
        split
        · exact h
        · rename_i t hr
          exact inv_joinNew h hr c _ _ hk (not_le.1 hl)

theorem inv_entryCommand {run : ChannelNo → Entry → State → Answer} (hr : ∀ c e t, InvWith k t → InvWith k (run c e t).state)
    (o : Origin) (body : List Byte) : ∀ t, InvWith k t → InvWith k (entryCommand o body run t).state := by
  unfold entryCommand
  refine inv_withLength (inv_withChannel (fun c t ht => ?_) body) 5 body
  simp only
  split
  · exact ht
  · split
    · exact ht
    · exact hr _ _ t ht

theorem inv_deleteLocal (c : ChannelNo) (e : Entry) (h : InvWith k s) : InvWith k (deleteLocal c e s).state := by
  unfold deleteLocal; split
  · exact h
  · exact inv_removeEntry h c _

theorem inv_setPinned (h : InvWith k s) (c : ChannelNo) (key : EntryKey) (b : Bool) : InvWith k (setPinned c key b s) :=
  inv_abandonWalks (inv_mapEntry h c key _) c

theorem inv_pinEntry (c : ChannelNo) (e : Entry) (h : InvWith k s) : InvWith k (pinEntry c e s).state := by
  show InvWith k (if e.pinned then s else setPinned c e.key true s)
  split
  · exact h
  · exact inv_setPinned h c _ _

theorem inv_unpinEntry (c : ChannelNo) (e : Entry) (h : InvWith k s) : InvWith k (unpinEntry c e s).state := by
  show InvWith k (if !e.pinned then s else _)
  split
  · exact h
  · split
    · exact inv_setPinned h c _ _
    · exact inv_applyAmendment (inv_setPinned h c _ _) c _

theorem inv_flushReported (h : InvWith k s) (c : ChannelNo) : InvWith k (flushReported c s) := by
  unfold flushReported; split
  · exact inv_setReplication h c _ _ _
  · exact h

theorem inv_flush (body : List Byte) (c : ChannelNo) (h : InvWith k s) : InvWith k (flush body c s).state := by
  unfold flush; split
  · exact h
  · rename_i x _
    show InvWith k (if x = .localEntry then _ else _)
    split
    · exact inv_keepOnly h c _
    · exact inv_flushReported (inv_keepOnly h c _) c

/-! ### Channel commands -/

theorem clampTo_idem (lo hi n : Nat) : clampTo lo hi (clampTo lo hi n) = clampTo lo hi n := by
  unfold clampTo; omega

theorem clampTo_le (lo hi n : Nat) : clampTo lo hi n ≤ hi := by
  unfold clampTo; omega

/-- Settings brought into range and converted are in range and converted. -/
theorem settings_lawful (g : Settings) :
    g.clamped.convert.clamped = g.clamped.convert ∧ g.clamped.convert.convert = g.clamped.convert := by
  refine ⟨?_, rfl⟩
  simp only [Settings.clamped, Settings.convert, clampTo_idem]

theorem inv_writeSettings (h : InvWith k s) (c : ChannelNo) (g : Settings) (hg : g.clamped = g ∧ g.convert = g)
    (hm : g.mode ≠ .protectedMode → (s.chan c).changeover = .mirror) : InvWith k (writeSettings c g s) :=
  inv_modChan h c _ (fun hc => ⟨hg.1, hg.2, hm, Nat.min_le_right _ _, hc.2.2.2.2⟩)

theorem inv_changeRate (h : InvWith k s) (c : ChannelNo) : InvWith k (changeRate c s) := by
  unfold changeRate; exact inv_modChan (inv_keepOnly h c _) c _

theorem inv_moveIntoOff (h : InvWith k s) (c : ChannelNo) : InvWith k (moveIntoOff c s) := by
  unfold moveIntoOff
  refine inv_serve ?_
  split
  · exact inv_setReplication (inv_abandonAssemblyOf (inv_abandonWalks (inv_dequeue h c) c) c) c _ _ _
  · exact inv_abandonAssemblyOf (inv_abandonWalks (inv_dequeue h c) c) c

theorem inv_moveOutOfOff (h : InvWith k s) (c : ChannelNo) : InvWith k (moveOutOfOff c s) := by
  unfold moveOutOfOff; split
  · exact inv_enqueue h c
  · exact inv_fallOut h c _
  · split
    · exact h
    · exact inv_enqueue h c
  all_goals exact h

theorem inv_changeMode (h : InvWith k s) (c : ChannelNo) (m : ServiceMode) : InvWith k (changeMode c m s) := by
  unfold changeMode; simp only; split
  · exact inv_moveIntoOff h c
  · split
    · exact inv_moveOutOfOff h c
    · exact h

theorem inv_configureAnswer (body : List Byte) (c : ChannelNo) (h : InvWith k s) : InvWith k (configureAnswer body c s).state := by
  unfold configureAnswer; split
  · exact h
  · rename_i g _
    split
    · exact h
    · rename_i hr
      have hm : g.clamped.convert.mode ≠ .protectedMode → (s.chan c).changeover = .mirror := by
        intro hg
        have hg' : g.mode ≠ .protectedMode := hg
        by_cases hp : (s.chan c).settings.mode = .protectedMode
        · simp only [modeOrRateRefused, Bool.or_eq_true, not_or] at hr
          have := hr.1.2
          simpa [hp, hg'] using this
        · exact (h.channels c).2.2.1 hp
      have h1 := inv_writeSettings h c _ (settings_lawful g) hm
      show InvWith k (configure c g.clamped.convert s)
      unfold configure
      refine inv_changeMode ?_ c _
      split
      · exact h1
      · exact inv_changeRate h1 c

theorem inv_readChannelAnswer (c : ChannelNo) (h : InvWith k s) : InvWith k (readChannelAnswer c s).state :=
  inv_unattend (inv_modChan h c _) c

theorem abandonAssemblyOf_chan (c d : ChannelNo) (s : State) : (abandonAssemblyOf c s).chan d = s.chan d := by
  unfold abandonAssemblyOf clearAssembly
  split
  · split
    · split <;> rfl
    · rfl
  · rfl

theorem inv_clearChannel (h : InvWith k s) (c : ChannelNo) : InvWith k (clearChannel c s) := by
  have h1 := inv_dropRequest (inv_abandonAssemblyOf (inv_dequeue (inv_abandonWalks (inv_keepOnly h c (fun _ => false)) c) c) c) c
  have he : ((dropRequest c (abandonAssemblyOf c (dequeue c (abandonWalks c (keepOnly c (fun _ => false) s))))).chan c).schedule = [] := by
    show ((abandonAssemblyOf c (dequeue c (abandonWalks c (keepOnly c (fun _ => false) s)))).chan c).schedule = []
    rw [abandonAssemblyOf_chan]
    show ((abandonWalks c (keepOnly c (fun _ => false) s)).chan c).schedule = []
    rw [abandonWalks_chan, keepOnly_schedule, if_pos rfl]
    simp
  unfold clearChannel
  revert h1 he
  dsimp only
  generalize dropRequest c (abandonAssemblyOf c (dequeue c (abandonWalks c (keepOnly c (fun _ => false) s)))) = t
  intro h1 he
  have h2 : InvWith k (unattend c (modChan c Channel.cleared t)) :=
    inv_unattend (inv_modChan h1 c Channel.cleared (fun hc => ⟨hc.1, hc.2.1, fun _ => rfl, Nat.zero_le _, fun ho => Bool.noConfusion ho, rfl,
      ⟨List.Pairwise.nil, List.nodup_nil, Nat.zero_le _, fun e he => absurd he List.not_mem_nil⟩⟩)
      (by rw [he]; rfl)) c
  split
  · exact inv_serve h2
  · exact inv_enqueue (inv_raise h2 c _) c

theorem inv_clearAnswer (c : ChannelNo) (h : InvWith k s) : InvWith k (clearAnswer c s).state := by
  unfold clearAnswer; split
  · exact h
  · exact inv_clearChannel h c

theorem inv_resyncAnswer (c : ChannelNo) (h : InvWith k s) : InvWith k (resyncAnswer c s).state := by
  unfold resyncAnswer; simp only; split
  · exact h
  · split
    · exact h
    · exact h
    · split
      · exact inv_setReplication h c _ _ _
      · exact inv_enqueue (inv_setReplication h c _ _ _) c
    · split
      · exact inv_setReplication h c _ _ _
      · exact inv_enqueue (inv_setReplication h c _ _ _) c
    · exact inv_enqueue (inv_setReplication h c _ _ _) c

/-! ### Changeover commands -/

theorem inv_takeAnswer (c : ChannelNo) (h : InvWith k s) : InvWith k (takeAnswer c s).state := by
  unfold takeAnswer; split
  · exact h
  · rename_i hm
    have hp : (s.chan c).settings.mode = .protectedMode := by simpa using hm
    split
    · exact inv_enterPreparing h c hp
    · exact inv_enterPreparing h c hp
    · exact inv_enterPreparing h c hp
    all_goals exact h

theorem inv_declineAnswer (c : ChannelNo) (h : InvWith k s) : InvWith k (declineAnswer c s).state := by
  unfold declineAnswer; split
  · exact inv_requestHoldOff (inv_modChan (inv_setChangeover h c _ (Or.inl rfl)) c _) c
  · exact h

theorem inv_givebackAnswer (c : ChannelNo) (h : InvWith k s) : InvWith k (givebackAnswer c s).state := by
  unfold givebackAnswer; split
  · rename_i hc
    exact inv_settleFrameNow (inv_startGiveback h c _ _ (protected_of_engaged h (by rw [hc]; decide))) c
  · exact h

theorem inv_returnNowAnswer (c : ChannelNo) (h : InvWith k s) : InvWith k (returnNowAnswer c s).state := by
  unfold returnNowAnswer; split
  · rename_i hc
    exact inv_startGiveback h c _ _ (protected_of_engaged h (by rw [hc]; decide))
  · show InvWith k (if _ then _ else s)
    split
    · exact inv_requestGiveback (inv_modChan h c _) c _
    · exact h
  all_goals exact h

theorem inv_abandonAnswer (c : ChannelNo) (h : InvWith k s) : InvWith k (abandonAnswer c s).state := by
  unfold abandonAnswer; split
  · exact inv_requestHoldOff (inv_setChangeover h c _ (Or.inl rfl)) c
  · exact h

theorem inv_releaseLatchAnswer (c : ChannelNo) (h : InvWith k s) : InvWith k (releaseLatchAnswer c s).state :=
  inv_raiseIf (inv_modChan h c _ (fun hc => ⟨hc.1, hc.2.1, hc.2.2.1, Nat.zero_le _, hc.2.2.2.2⟩)) _ c _

/-! ### Time and device commands -/

theorem frameOfDay_le (r : RateCode) {l : Label} (hl : l.valid r = true) : l.frameOfDay r < 24 * 3600 * 60 + 64 := by
  simp only [Label.valid, Bool.and_eq_true, decide_eq_true_eq] at hl
  have hff : (l.clamp r).ff < 64 ∧ (l.clamp r).hh = l.hh ∧ (l.clamp r).mm = l.mm ∧ (l.clamp r).ss = l.ss := by
    unfold Label.clamp
    split
    · exact ⟨by cases r <;> simp [RateCode.skipped], rfl, rfl, rfl⟩
    · refine ⟨lt_of_lt_of_le hl.2 ?_, rfl, rfl, rfl⟩
      cases r <;> simp [RateCode.nominal]
  obtain ⟨h1, h2, h3, h4⟩ := hff
  have hn : r.nominal ≤ 60 := by cases r <;> simp [RateCode.nominal]
  unfold Label.frameOfDay
  simp only [h2, h3, h4]
  have hs : 3600 * l.hh + 60 * l.mm + l.ss ≤ 24 * 3600 - 1 := by omega
  have hm : (3600 * l.hh + 60 * l.mm + l.ss) * r.nominal ≤ (24 * 3600 - 1) * 60 := Nat.mul_le_mul hs hn
  generalize (3600 * l.hh + 60 * l.mm + l.ss) * r.nominal = x at hm
  omega

theorem targetCount_le (r : RateCode) {day : Nat} {l : Label} (hd : validDay day = true) (hl : l.valid r = true) :
    targetCount r (absoluteFrame r day l) ≤ Config.countLimit := by
  have h1 := frameOfDay_le r hl
  have h2 : day ≤ 9999 := by simpa [validDay] using hd
  have h3 : r.framesPerDay ≤ 5184000 := by cases r <;> simp [RateCode.framesPerDay]
  have h4 : day * r.framesPerDay ≤ 9999 * 5184000 := Nat.mul_le_mul h2 h3
  unfold targetCount absoluteFrame Config.countLimit
  generalize day * r.framesPerDay = x at h4 ⊢
  split <;> omega

theorem inv_pendingSet (h : InvWith k s) (fam : Family) (p : PendingSet) (hp : p.target ≤ Config.countLimit) :
    InvWith k (modFamily fam (fun f => { f with pendingSet := some p }) s) := by
  refine inv_modFamily h fam _ (fun hf => ⟨hf.1, hf.2.1, fun q hq => ?_, hf.2.2.2⟩)
  simp only [Option.mem_def, Option.some.injEq] at hq
  exact hq ▸ hp

theorem inv_setTimeAnswer (body : List Byte) (h : InvWith k s) : InvWith k (setTimeAnswer body s).state := by
  unfold setTimeAnswer; simp only; split
  · rename_i fam r _ _
    split
    · exact h
    · rename_i hv
      simp only [not_or, Bool.not_eq_true, Bool.not_eq_false'] at hv
      split
      · exact h
      · exact inv_pendingSet h fam _ (targetCount_le r hv.2.1 hv.2.2)
  · exact h

theorem inv_readTimeAnswer (body : List Byte) (h : InvWith k s) : InvWith k (readTimeAnswer body s).state := by
  unfold readTimeAnswer; split <;> exact h

theorem device_lawful (d : DeviceSettings) : d.clamped.clamped = d.clamped := by
  simp only [DeviceSettings.clamped, clampTo_idem]

theorem inv_withDevice (h : InvWith k s) (d : DeviceSettings) (hd : d.clamped = d) : InvWith k { s with device := d } :=
  ⟨h.channels, fun fam => by have := h.families fam; cases fam <;> exact this, hd, h.pool, h.staged, h.attention, h.takes, h.resync,
    h.deferral, h.walks, h.walkChannels⟩

theorem inv_storeDevice (h : InvWith k s) (d : DeviceSettings) (hd : d.clamped = d) : InvWith k (storeDevice d s) :=
  inv_mapChannels (inv_withDevice h d hd) _ (fun _ hc => hc) (fun _ => rfl)

theorem inv_configureDeviceAnswer (body : List Byte) (h : InvWith k s) : InvWith k (configureDeviceAnswer body s).state := by
  unfold configureDeviceAnswer; split
  · exact h
  · split
    · exact h
    · exact inv_storeDevice h _ (device_lawful _)

theorem inv_configureLine (h : InvWith k s) (l : LineNo) (f : SenseFunction) (m : Option ChannelNo) (e : Level) (d : Nat) :
    InvWith k (configureLine l f m e d s).state := by
  exact inv_changeLine h l (fun x => { x with function := f, mapped := m, expected := e, debounce := min d 255 })

theorem inv_configureLineAnswer (body : List Byte) (h : InvWith k s) : InvWith k (configureLineAnswer body s).state := by
  unfold configureLineAnswer; split
  · exact inv_configureLine h _ _ _ _ _
  · split
    · exact h
    · split
      · exact h
      · exact inv_configureLine h _ _ _ _ _
  · exact h

theorem inv_readLinesAnswer (h : InvWith k s) : InvWith k (readLinesAnswer s).state :=
  inv_touch h

theorem inv_restartLink (h : InvWith k s) : InvWith k (restartLink s) := by
  have h1 : InvWith k (if s.linkUp then raiseEvent .linkDownChange s else s) := by
    split
    · exact inv_raiseEvent h _
    · exact h
  unfold restartLink
  exact inv_restartResync (inv_touch h1)

/-! ### Messages -/

theorem inv_receive {α : Type} {content : α → State → State} (hc : ∀ x t, InvWith k t → InvWith k (content x t)) (h : InvWith k s)
    (p : Option α) : InvWith k (receive p content s) := by
  unfold receive; split
  · exact inv_arrive (hc _) h
  · exact inv_arrive (fun t ht => inv_malformed ht) h

end Sys2Proof.Machine
end

