-- ==== Sys2Proof/Laws/OperationLaws.lean ====
section
/-! SUPPORT. What the shared operations do, said once: the statements' proofs cite these instead of unfolding the operations. -/

namespace Sys2Proof.Machine

set_option Elab.async false

variable {s t : State}

/-! ### Writing channels -/

/-- Two writes of one channel are one. -/
theorem modChan_modChan (c : ChannelNo) (f g : Channel → Channel) (s : State) :
    modChan c g (modChan c f s) = modChan c (fun ch => g (f ch)) s := by
  have h := chan_modChan_self s c f
  unfold modChan at h ⊢
  rw [h]
  simp

/-- Only what a write gives for the channel as it stands matters. -/
theorem modChan_congr {c : ChannelNo} {f g : Channel → Channel} (h : f (s.chan c) = g (s.chan c)) :
    modChan c f s = modChan c g s := by
  unfold modChan; rw [h]

/-- A write that gives the channel as it stands changes nothing. -/
theorem modChan_same {c : ChannelNo} {f : Channel → Channel} (h : f (s.chan c) = s.chan c) : modChan c f s = s := by
  unfold modChan; rw [h]; simp [State.chan]

/-- The channels of two states agree when each channel does. -/
theorem channels_ext (h : ∀ d, s.chan d = t.chan d) : s.channels = t.channels := by
  refine Vector.ext (fun i hi => ?_)
  exact h ⟨i, hi⟩

/-- A write does not read the fields outside the channels. -/
theorem modLine_eq_self {l : LineNo} {f : SenseLine → SenseLine} (h : f (s.line l) = s.line l) : modLine l f s = s := by
  unfold modLine; rw [h]; simp [State.line]

theorem modChan_outside (c : ChannelNo) (f : Channel → Channel) (s : State) :
    modChan c f s = { s with channels := (modChan c f s).channels } := rfl

/-! ### The port -/

/-- A whole frame's arrival (R131, R179, R194). -/
theorem hostSpeaks_shiftPortByte (early : Bool) (s : State) :
    hostSpeaks (shiftPortByte early s) = { s with
      portOut := [s.portByte early], hostTimer := 0, hostPresent := true
      events := if s.hostPresent then s.events else { s.events with hostAbsentChange := true } } := by
  unfold hostSpeaks shiftPortByte
  cases s.hostPresent <;> rfl

/-- A frame that finds the slot EMPTY is taken and answered. -/
theorem portCommand_empty (h : s.slot = none) (write : Write) (run : State → Answer) :
    portCommand write run s =
      endTransaction { (run (hostSpeaks (shiftPortByte write.early s))).state with
        slot := some { tag := write.tag, status := (run (hostSpeaks (shiftPortByte write.early s))).status
                       clamped := (run (hostSpeaks (shiftPortByte write.early s))).clamped
                       body := (run (hostSpeaks (shiftPortByte write.early s))).body } } := by
  unfold portCommand; simp [h]

/-- A frame that finds a response waiting is BUSY. -/
theorem portCommand_busy (h : s.slot.isSome) (write : Write) (run : State → Answer) :
    portCommand write run s = endTransaction (hostSpeaks (shiftPortByte write.early s)) := by
  unfold portCommand; simp [h]

theorem withLength_eq {n : Nat} {body : List Byte} (h : body.length = n) (run : State → Answer) (s : State) :
    withLength n body run s = run s := by
  unfold withLength; simp [h]

theorem withChannel_eq {body : List Byte} {c : ChannelNo} (h : channelOf (numAt body 0 1) = some c)
    (run : ChannelNo → State → Answer) (s : State) : withChannel body run s = run c s := by
  unfold withChannel; rw [h]

theorem channelOf_none {n : Nat} (h : 64 ≤ n) : channelOf n = none := by
  unfold channelOf; split
  · omega
  · rfl

/-! ### Flags -/

theorem raiseIf_chan (b : Bool) (c : ChannelNo) (f : ChangeFlag) (d : ChannelNo) (s : State) :
    (raiseIf b c f s).chan d =
      if d = c then { s.chan c with flags := if b then (s.chan c).flags.raise f else (s.chan c).flags } else s.chan d := by
  unfold raiseIf
  cases b
  · simp; intro h; subst h; rfl
  · simp [raise_chan]

/-- Raising writes the channel's flags and the attention set only. -/
theorem raise_eq (c : ChannelNo) (f : ChangeFlag) (s : State) :
    raise c f s = { modChan c (fun ch => { ch with flags := ch.flags.raise f }) s with
      attention := insertChannel c s.attention } := rfl

/-! ### Walks -/

theorem startWalk_eq (s : State) : startWalk s = { s with pendingWalks := (startWalk s).pendingWalks, walk := (startWalk s).walk } := by
  unfold startWalk; split <;> rfl

/-- Abandoning walks writes the pending-walk list and the running walk only. -/
theorem abandonWalks_eq (c : ChannelNo) (s : State) :
    abandonWalks c s = { s with pendingWalks := (abandonWalks c s).pendingWalks, walk := (abandonWalks c s).walk } := by
  unfold abandonWalks; rw [startWalk_eq]

/-- After abandoning, no walk of the channel is pending or running. -/
theorem abandonWalks_none (c : ChannelNo) (s : State) :
    (∀ r ∈ (abandonWalks c s).pendingWalks, r.channel ≠ c) ∧ ∀ w ∈ (abandonWalks c s).walk, w.record.channel ≠ c := by
  have hw : ∀ w ∈ s.walk.filter (fun w => decide (w.record.channel ≠ c)), w.record.channel ≠ c := by
    intro w h; cases hs : s.walk with
    | none => simp [hs] at h
    | some v => simp [hs, Option.filter] at h; obtain ⟨h1, h2⟩ := h; subst h2; exact h1
  have hp : ∀ r ∈ s.pendingWalks.filter (fun r => decide (r.channel ≠ c)), r.channel ≠ c := by
    intro r h; simpa using (List.mem_filter.1 h).2
  unfold abandonWalks startWalk
  simp only
  split
  · rename_i r rest _ he
    rw [he] at hp
    refine ⟨fun x hx => hp x (List.mem_cons_of_mem _ hx), fun w h => ?_⟩
    simp only [Option.mem_def, Option.some.injEq] at h; subst h
    exact hp r List.mem_cons_self
  · exact ⟨hp, hw⟩

/-- No walk of a channel stays so. -/
theorem startWalk_none {c : ChannelNo} (hp : ∀ r ∈ s.pendingWalks, r.channel ≠ c) (hw : ∀ w ∈ s.walk, w.record.channel ≠ c) :
    (∀ r ∈ (startWalk s).pendingWalks, r.channel ≠ c) ∧ ∀ w ∈ (startWalk s).walk, w.record.channel ≠ c := by
  unfold startWalk
  split
  · rename_i r rest _ he
    rw [he] at hp
    refine ⟨fun x hx => hp x (List.mem_cons_of_mem _ hx), fun w h => ?_⟩
    simp only [Option.mem_def, Option.some.injEq] at h; subst h
    exact hp r List.mem_cons_self
  · exact ⟨hp, hw⟩

theorem abandonWalks_keeps_none {c : ChannelNo} (d : ChannelNo) (hp : ∀ r ∈ s.pendingWalks, r.channel ≠ c)
    (hw : ∀ w ∈ s.walk, w.record.channel ≠ c) :
    (∀ r ∈ (abandonWalks d s).pendingWalks, r.channel ≠ c) ∧ ∀ w ∈ (abandonWalks d s).walk, w.record.channel ≠ c := by
  unfold abandonWalks
  refine startWalk_none (fun r h => hp r (List.mem_filter.1 h).1) (fun w h => ?_)
  cases hs : s.walk with
  | none => simp [hs] at h
  | some v => simp [hs, Option.filter] at h; obtain ⟨_, h2⟩ := h; subst h2; exact hw v (by simp [hs])

theorem filter_walk_twice (p : Walk → Bool) (o : Option Walk) : (o.filter p).filter p = o.filter p := by
  cases o with
  | none => rfl
  | some w => simp

/-- Abandoning twice is abandoning once. -/
theorem abandonWalks_twice (c : ChannelNo) (s : State) : abandonWalks c (abandonWalks c s) = abandonWalks c s := by
  obtain ⟨hp, hw⟩ := abandonWalks_none c s
  have hf : (abandonWalks c s).pendingWalks.filter (fun r => decide (r.channel ≠ c)) = (abandonWalks c s).pendingWalks :=
    List.filter_eq_self.2 (fun r h => by simpa using hp r h)
  have hg : (abandonWalks c s).walk.filter (fun w => decide (w.record.channel ≠ c)) = (abandonWalks c s).walk := by
    cases he : (abandonWalks c s).walk with
    | none => rfl
    | some w => simpa using hw w (by simp [he])
  have hs : startWalk (abandonWalks c s) = abandonWalks c s := by
    generalize hx : ({ s with pendingWalks := s.pendingWalks.filter (fun r => decide (r.channel ≠ c))
                              walk := s.walk.filter (fun w => decide (w.record.channel ≠ c)) } : State) = x
    have : abandonWalks c s = startWalk x := by rw [← hx]; rfl
    rw [this]
    cases hw : x.walk <;> cases hp : x.pendingWalks <;> simp [startWalk, hw, hp]
  show startWalk { abandonWalks c s with
    pendingWalks := (abandonWalks c s).pendingWalks.filter (fun r => decide (r.channel ≠ c))
    walk := (abandonWalks c s).walk.filter (fun w => decide (w.record.channel ≠ c)) } = _
  rw [hf, hg]
  exact hs

/-- Abandoning commutes with a write of a channel. -/
theorem abandonWalks_modChan (c d : ChannelNo) (f : Channel → Channel) (s : State) :
    abandonWalks c (modChan d f s) = modChan d f (abandonWalks c s) := by
  rw [abandonWalks_eq c s]
  unfold abandonWalks startWalk
  simp only [modChan_pendingWalks, modChan_walk]
  split <;> rfl

/-! ### Replication state -/

theorem setReplication_eq (c : ChannelNo) (st : ReplicationState) (cause : Cause) (n : Nat) (s : State) :
    setReplication c st cause n s =
      (let t := raiseIf (decide ((s.chan c).replState ≠ st) || decide ((s.chan c).cause ≠ cause) || decide ((s.chan c).attempts ≠ n))
          c .replication (modChan c (fun x => { x with replState := st, cause := cause, attempts := n }) s)
       if (s.chan c).replState = .inStep ∧ st ≠ .inStep then abandonWalks c t else t) := rfl

theorem setReplication_chan (c d : ChannelNo) (st : ReplicationState) (cause : Cause) (n : Nat) (s : State) :
    (setReplication c st cause n s).chan d =
      if d = c then { s.chan c with
        replState := st, cause := cause, attempts := n
        flags := if (s.chan c).replState ≠ st ∨ (s.chan c).cause ≠ cause ∨ (s.chan c).attempts ≠ n
          then (s.chan c).flags.raise .replication else (s.chan c).flags }
      else s.chan d := by
  rw [setReplication_eq]
  simp only
  have : ∀ u : State, (if (s.chan c).replState = .inStep ∧ st ≠ .inStep then abandonWalks c u else u).chan d = u.chan d := by
    intro u; split
    · simp
    · rfl
  rw [this, raiseIf_chan]
  simp only [chan_modChan_self, chan_modChan]
  split
  · simp only [Bool.or_eq_true, decide_eq_true_eq, or_assoc]
  · rfl

theorem setReplication_freeCount (c : ChannelNo) (st : ReplicationState) (cause : Cause) (n : Nat) (s : State) :
    (setReplication c st cause n s).freeCount = s.freeCount := by
  rw [setReplication_eq]; simp only; split <;> simp [raiseIf_freeCount]

theorem raiseIf_resyncQueue (b : Bool) (c : ChannelNo) (f : ChangeFlag) (s : State) : (raiseIf b c f s).resyncQueue = s.resyncQueue := by
  unfold raiseIf; split <;> rfl

theorem abandonWalks_resyncQueue (c : ChannelNo) (s : State) : (abandonWalks c s).resyncQueue = s.resyncQueue := by
  rw [abandonWalks_eq]

theorem setReplication_resyncQueue (c : ChannelNo) (st : ReplicationState) (cause : Cause) (n : Nat) (s : State) :
    (setReplication c st cause n s).resyncQueue = s.resyncQueue := by
  rw [setReplication_eq]; simp only; split
  · rw [abandonWalks_resyncQueue, raiseIf_resyncQueue]; rfl
  · rw [raiseIf_resyncQueue]; rfl

theorem setReplication_assembly (c : ChannelNo) (st : ReplicationState) (cause : Cause) (n : Nat) (s : State) :
    (setReplication c st cause n s).assembly = s.assembly := by
  rw [setReplication_eq]; simp only; split
  · rw [abandonWalks_assembly, raiseIf_assembly]; rfl
  · rw [raiseIf_assembly]; rfl

theorem abandonWalks_takeQueue (c : ChannelNo) (s : State) : (abandonWalks c s).takeQueue = s.takeQueue := by
  rw [abandonWalks_eq]

theorem raiseIf_takeQueue (b : Bool) (c : ChannelNo) (f : ChangeFlag) (s : State) : (raiseIf b c f s).takeQueue = s.takeQueue := by
  unfold raiseIf; split <;> rfl

theorem setReplication_takeQueue (c : ChannelNo) (st : ReplicationState) (cause : Cause) (n : Nat) (s : State) :
    (setReplication c st cause n s).takeQueue = s.takeQueue := by
  rw [setReplication_eq]; simp only; split
  · rw [abandonWalks_takeQueue, raiseIf_takeQueue]; rfl
  · rw [raiseIf_takeQueue]; rfl

/-- Writing the replication state keeps a channel without walks. -/
theorem setReplication_keeps_none {c : ChannelNo} (d : ChannelNo) (st : ReplicationState) (cause : Cause) (n : Nat)
    (hp : ∀ r ∈ s.pendingWalks, r.channel ≠ c) (hw : ∀ w ∈ s.walk, w.record.channel ≠ c) :
    (∀ r ∈ (setReplication d st cause n s).pendingWalks, r.channel ≠ c) ∧
    ∀ w ∈ (setReplication d st cause n s).walk, w.record.channel ≠ c := by
  have hr : ∀ (b : Bool) (u : State), (raiseIf b d .replication u).pendingWalks = u.pendingWalks ∧
      (raiseIf b d .replication u).walk = u.walk := by
    intro b u; unfold raiseIf; split <;> exact ⟨rfl, rfl⟩
  rw [setReplication_eq]
  simp only
  split
  · refine abandonWalks_keeps_none d ?_ ?_
    · rw [(hr _ _).1]; exact hp
    · rw [(hr _ _).2]; exact hw
  · rw [(hr _ _).1, (hr _ _).2]; exact ⟨hp, hw⟩

/-- Nothing changes when the replication state is written as it stands. -/
theorem setReplication_same (c : ChannelNo) (s : State) :
    setReplication c (s.chan c).replState (s.chan c).cause (s.chan c).attempts s = s := by
  rw [setReplication_eq]
  simp only [ne_eq, not_true_eq_false, decide_false, Bool.or_self, raiseIf, Bool.false_eq_true, if_false, and_not_self]
  exact modChan_same rfl

/-! ### Serving the resync queue -/

/-- Either nothing is served, or the head is asked for. -/
theorem serve_cases (s : State) :
    (serve s = s ∧ (s.resyncQueue = [] ∨ s.assembly ≠ none ∨ s.linkUp = false)) ∨
    ∃ c rest, s.resyncQueue = c :: rest ∧ s.assembly = none ∧ s.linkUp = true ∧
      serve s = setReplication c .resyncing (s.chan c).cause (s.chan c).attempts
        (sendReplication (.resyncAsk c (s.chan c).cause (s.chan c).lastApplied)
          { s with resyncQueue := rest, assembly := some (.opened c (s.chan c).replState (s.chan c).cause) }) := by
  unfold serve
  split
  · rename_i c rest h1 h2 h3
    exact Or.inr ⟨c, rest, h1, h2, h3, rfl⟩
  · rename_i h
    refine Or.inl ⟨rfl, ?_⟩
    cases h1 : s.resyncQueue with
    | nil => exact Or.inl rfl
    | cons c rest =>
      cases h2 : s.assembly with
      | some a => exact Or.inr (Or.inl (by simp))
      | none =>
        cases h3 : s.linkUp with
        | false => exact Or.inr (Or.inr rfl)
        | true => exact absurd h3 (fun h3 => h c rest h1 h2 h3)

theorem serve_freeCount (s : State) : (serve s).freeCount = s.freeCount := by
  rcases serve_cases s with ⟨h, _⟩ | ⟨c, rest, _, _, _, h⟩
  · rw [h]
  · rw [h, setReplication_freeCount]; rfl

theorem serve_takeQueue (s : State) : (serve s).takeQueue = s.takeQueue := by
  rcases serve_cases s with ⟨h, _⟩ | ⟨c, rest, _, _, _, h⟩
  · rw [h]
  · rw [h, setReplication_takeQueue]; rfl

/-- Serving writes the replication fields of the channel served only. -/
theorem serve_chan (s : State) (d : ChannelNo) :
    (serve s).chan d = { s.chan d with
      replState := ((serve s).chan d).replState, flags := ((serve s).chan d).flags } := by
  rcases serve_cases s with ⟨h, _⟩ | ⟨c, rest, _, _, _, h⟩
  · rw [h]
  · rw [h, setReplication_chan]
    split
    · rename_i he; subst he; rfl
    · rfl

/-- A channel outside the queue is left as it stands. -/
theorem serve_chan_outside {d : ChannelNo} (h : d ∉ s.resyncQueue) : (serve s).chan d = s.chan d := by
  rcases serve_cases s with ⟨h', _⟩ | ⟨c, rest, hq, _, _, h'⟩
  · rw [h']
  · rw [h', setReplication_chan, if_neg]
    · rfl
    · rintro rfl; exact h (hq ▸ List.mem_cons_self)

theorem serve_resyncQueue_sub (s : State) {d : ChannelNo} (h : d ∈ (serve s).resyncQueue) : d ∈ s.resyncQueue := by
  rcases serve_cases s with ⟨h', _⟩ | ⟨c, rest, hq, _, _, h'⟩
  · rwa [h'] at h
  · rw [h', setReplication_resyncQueue] at h
    rw [hq]; exact List.mem_cons_of_mem _ h

theorem serve_keeps_none {c : ChannelNo} (hp : ∀ r ∈ s.pendingWalks, r.channel ≠ c) (hw : ∀ w ∈ s.walk, w.record.channel ≠ c) :
    (∀ r ∈ (serve s).pendingWalks, r.channel ≠ c) ∧ ∀ w ∈ (serve s).walk, w.record.channel ≠ c := by
  rcases serve_cases s with ⟨h', _⟩ | ⟨d, rest, hq, _, _, h'⟩
  · rw [h']; exact ⟨hp, hw⟩
  · rw [h']; exact setReplication_keeps_none d _ _ _ hp hw

/-- An assembly that is there after serving was there, or belongs to a channel of the queue. -/
theorem serve_assembly {a : Assembly} (h : (serve s).assembly = some a) : s.assembly = some a ∨ a.channel ∈ s.resyncQueue := by
  rcases serve_cases s with ⟨h', _⟩ | ⟨d, rest, hq, _, _, h'⟩
  · rw [h'] at h; exact Or.inl h
  · rw [h', setReplication_assembly] at h
    right
    have : a = .opened d (s.chan d).replState (s.chan d).cause := by simpa [sendReplication] using h.symm
    rw [this, hq]; exact List.mem_cons_self

end Sys2Proof.Machine
end

