-- ==== Sys2Proof/Laws/LinkLaws.lean ====
section
/-! SUPPORT. What leaves the link state alone: the content of a message changes neither the link's state nor the counts the
link keeps. -/

namespace Sys2Proof.Machine

set_option Elab.async false

variable {s t : State}


@[simp] theorem raiseIf_linkUp (b : Bool) (c : ChannelNo) (f : ChangeFlag) (s : State) : (raiseIf b c f s).linkUp = s.linkUp := by
  unfold raiseIf; split <;> rfl

@[simp] theorem abandonWalks_linkUp (c : ChannelNo) (s : State) : (abandonWalks c s).linkUp = s.linkUp := by
  rw [abandonWalks_eq]

@[simp] theorem startWalk_linkUp (s : State) : (startWalk s).linkUp = s.linkUp := by
  rw [startWalk_eq]

@[simp] theorem setSchedule_linkUp (c : ChannelNo) (es : List Entry) (s : State) : (setSchedule c es s).linkUp = s.linkUp := by
  unfold setSchedule; simp

@[simp] theorem freeSlots_linkUp (n : Nat) (s : State) : (freeSlots n s).linkUp = s.linkUp := rfl

@[simp] theorem grantSlot_linkUp (s : State) : (grantSlot s).linkUp = s.linkUp := by
  unfold grantSlot; simp only; split <;> rfl

@[simp] theorem keepOnly_linkUp (c : ChannelNo) (keep : Entry × Nat → Bool) (s : State) : (keepOnly c keep s).linkUp = s.linkUp := by
  unfold keepOnly; simp only; split <;> simp

theorem requestSlot_linkUp (h : requestSlot s = some t) : t.linkUp = s.linkUp := by
  unfold requestSlot at h
  split at h
  · cases h; simp
  · split at h
    · cases h; simp [removeEntry]
    · cases h

@[simp] theorem joinEntry_linkUp (c : ChannelNo) (o : Origin) (b : Body) (s : State) : (joinEntry c o b s).linkUp = s.linkUp := by
  unfold joinEntry; simp

@[simp] theorem replaceEntry_linkUp (c : ChannelNo) (k : EntryKey) (b : Body) (s : State) : (replaceEntry c k b s).linkUp = s.linkUp := by
  unfold replaceEntry; split <;> simp

@[simp] theorem writeAmendment_linkUp (c : ChannelNo) (k : EntryKey) (a : Amendment) (s : State) :
    (writeAmendment c k a s).linkUp = s.linkUp := by
  unfold writeAmendment; simp

@[simp] theorem setReplication_linkUp (c : ChannelNo) (st : ReplicationState) (cause : Cause) (n : Nat) (s : State) :
    (setReplication c st cause n s).linkUp = s.linkUp := by
  unfold setReplication; simp only; split <;> simp

@[simp] theorem serve_linkUp (s : State) : (serve s).linkUp = s.linkUp := by
  unfold serve; split
  · simp [sendReplication]
  · rfl

@[simp] theorem enqueue_linkUp (c : ChannelNo) (s : State) : (enqueue c s).linkUp = s.linkUp := by
  unfold enqueue; rw [serve_linkUp]; split <;> rfl

@[simp] theorem fallOut_linkUp (c : ChannelNo) (cause : Cause) (s : State) : (fallOut c cause s).linkUp = s.linkUp := by
  unfold fallOut; simp

@[simp] theorem consume_linkUp (c : ChannelNo) (counted : Bool) (n : Nat) (s : State) : (consume c counted n s).linkUp = s.linkUp := by
  unfold consume setLastApplied; simp only; split <;> split <;> simp

@[simp] theorem applyToListed_linkUp (c : ChannelNo) (e : Entry) (b : Body) (s : State) : (applyToListed c e b s).linkUp = s.linkUp := by
  unfold applyToListed refuseInService; repeat' split
  all_goals simp

@[simp] theorem applyUpdate_linkUp (c : ChannelNo) (counted : Bool) (u : Update) (s : State) : (applyUpdate c counted u s).linkUp = s.linkUp := by
  unfold applyUpdate; split
  · unfold applyPut; simp only; split
    · simp
    · split
      · simp
      · split
        · simp
        · split
          · simp
          · rename_i h; simp [requestSlot_linkUp h]
  · unfold applyDrop; split
    · simp
    · split
      · simp
      · unfold dropListed removeEntry refuseInService; simp only [consume_linkUp]; repeat' split
        all_goals simp

/-- Taking an update leaves the link as it is. -/
@[simp] theorem receiveUpdate_linkUp (c : ChannelNo) (u : Update) (s : State) : (receiveUpdate c u s).linkUp = s.linkUp := by
  unfold receiveUpdate; split
  · rfl
  · split
    · unfold checkUpdate storm; split
      · rfl
      · simp
      · split <;> simp
    · unfold deferUpdate; simp only; repeat' split
      all_goals rfl
    all_goals rfl

@[simp] theorem setSupervision_linkUp (c : ChannelNo) (st : Supervision) (s : State) : (setSupervision c st s).linkUp = s.linkUp := by
  unfold setSupervision; simp

@[simp] theorem faultReported_linkUp (c : ChannelNo) (s : State) : (faultReported c s).linkUp = s.linkUp := by
  unfold faultReported enterAlert; split <;> simp

@[simp] theorem takeHealthRecord_linkUp (r : HealthRecord) (s : State) : (takeHealthRecord r s).linkUp = s.linkUp := by
  have h : (if r.fails then failListing r.channel s else okListing r.channel s).linkUp = s.linkUp := by
    unfold failListing okListing reporting; split
    · split <;> simp
    · rfl
  unfold takeHealthRecord; simp only
  generalize (if r.fails then failListing r.channel s else okListing r.channel s) = t at h ⊢
  split
  · rw [fallOut_linkUp, h]
  · exact h

@[simp] theorem takeDigestRecord_linkUp (hs : List HealthRecord) (r : DigestRecord) (s : State) : (takeDigestRecord hs r s).linkUp = s.linkUp := by
  unfold takeDigestRecord; split <;> simp

theorem foldl_linkUp {α : Type} {f : State → α → State} (hf : ∀ t a, (f t a).linkUp = t.linkUp) (l : List α) (s : State) :
    (l.foldl f s).linkUp = s.linkUp := by
  induction l generalizing s with
  | nil => rfl
  | cons a l ih => rw [List.foldl_cons, ih, hf]

/-- Taking a heartbeat leaves the link as it is. -/
@[simp] theorem takeHeartbeat_linkUp (hs : List HealthRecord) (ds : List DigestRecord) (s : State) : (takeHeartbeat hs ds s).linkUp = s.linkUp := by
  unfold takeHeartbeat
  rw [foldl_linkUp (fun t r => takeDigestRecord_linkUp hs r t), foldl_linkUp (fun t r => takeHealthRecord_linkUp r t)]

@[simp] theorem clearAssembly_linkUp (s : State) : (clearAssembly s).linkUp = s.linkUp := by
  unfold clearAssembly; split <;> rfl

@[simp] theorem failSnapshot_linkUp (p : Bool) (s : State) : (failSnapshot p s).linkUp = s.linkUp := by
  unfold failSnapshot; split
  · rfl
  · simp only; split <;> simp

@[simp] theorem takeOpen_linkUp (c : ChannelNo) (n k : Nat) (s : State) : (takeOpen c n k s).linkUp = s.linkUp := by
  unfold takeOpen; repeat' split
  all_goals simp

@[simp] theorem takeItem_linkUp (c : ChannelNo) (n : Nat) (b : RawBody) (s : State) : (takeItem c n b s).linkUp = s.linkUp := by
  unfold takeItem stageItem; simp only; repeat' split
  all_goals simp
  rename_i h; exact requestSlot_linkUp h

theorem applyDeferred_linkUp (n : Nat) (c : ChannelNo) (q : List Update) (s : State) : (applyDeferred n c q s).1.linkUp = s.linkUp := by
  induction n generalizing q s with
  | zero => rfl
  | succ n ih =>
    unfold applyDeferred; split
    · rfl
    · split
      · rfl
      · rw [ih]; simp

@[simp] theorem joinStaged_linkUp (c : ChannelNo) (a : Assembly) (s : State) : (joinStaged c a s).linkUp = s.linkUp := by
  have h1 : ∀ (es : List Entry) (t : State) (b : Body), (takeStaged c es b t).linkUp = t.linkUp := by
    intro es t b; unfold takeStaged; split <;> simp
  have h2 : ∀ (es : List Entry) (l : List Body) (t : State), (holdDeletions c es l t).linkUp = t.linkUp := by
    intro es l t; unfold holdDeletions
    refine foldl_linkUp (fun t e => ?_) _ t
    split <;> simp
  unfold joinStaged settleRefused refuseInService; simp only
  split
  · simp [h2, foldl_linkUp (h1 _)]
  · simp [h2, foldl_linkUp (h1 _)]

/-- Taking a SNAPSHOT CLOSE leaves the link as it is. -/
@[simp] theorem takeClose_linkUp (c : ChannelNo) (n d : Nat) (s : State) : (takeClose c n d s).linkUp = s.linkUp := by
  have h : ∀ a t, (commitSnapshot c a t).linkUp = t.linkUp := by
    intro a t; unfold commitSnapshot; split
    · simp
    · simp only [serve_linkUp, clearAssembly_linkUp]
      have : ∀ g p, (afterDeferred c g p).linkUp = p.1.linkUp := by intro g p; unfold afterDeferred; split <;> simp
      rw [this, applyDeferred_linkUp]; unfold setLastApplied; simp only [setReplication_linkUp]; split <;> simp
  unfold takeClose; repeat' split
  all_goals simp [h]

end Sys2Proof.Machine
end

