-- ==== Sys2Proof/Laws/Quiet.lean ====
section
/-! SUPPORT. What an operation outside the Resync Unit leaves as it was, as one relation, and the operations of the
flags, the Schedule Store and the Router Arbiter that keep to it. -/

namespace Sys2Proof.Machine

set_option Elab.async false

/-! ### The relations -/

/-- From `s` to `t` no law of service is broken, no service mode is changed, and no channel has begun to wait for confirmation
without the host. -/
structure Serves (s t : State) : Prop where
  service : ∀ c, ServiceLaw (s.chan c) → ServiceLaw (t.chan c)
  mode : ∀ c, (t.chan c).settings.mode = (s.chan c).settings.mode
  host : t.hostPresent = s.hostPresent
  confirm : ∀ c, (t.chan c).changeover = .awaitConfirm → (s.chan c).changeover = .awaitConfirm ∨ s.hostPresent = true

/-- From `s` to `t` the Resync Unit's own records stay as they are, but for walks that were abandoned. -/
structure Quiet (s t : State) : Prop extends Serves s t where
  repl : ∀ c, (t.chan c).replState = (s.chan c).replState
  queue : t.resyncQueue = s.resyncQueue
  assembly : t.assembly = s.assembly
  deferral : t.deferral = s.deferral
  walks : (walkRecords t).Sublist (walkRecords s)
  mirror : ∀ r ∈ walkRecords t, (s.chan r.channel).changeover = .mirror → (t.chan r.channel).changeover = .mirror

variable {k : Nat} {z s t : State}

theorem Serves.refl (s : State) : Serves s s :=
  ⟨fun _ h => h, fun _ => rfl, rfl, fun _ h => Or.inl h⟩

theorem Serves.trans (h : Serves z s) (q : Serves s t) : Serves z t :=
  ⟨fun c hc => q.service c (h.service c hc), fun c => (q.mode c).trans (h.mode c), q.host.trans h.host, fun c hc =>
    (q.confirm c hc).elim (h.confirm c) (fun hp => Or.inr (h.host ▸ hp))⟩

theorem Quiet.refl (s : State) : Quiet s s :=
  { Serves.refl s with
    repl := fun _ => rfl, queue := rfl, assembly := rfl, deferral := rfl, walks := List.Sublist.refl _, mirror := fun _ _ h => h }

theorem Quiet.trans (h : Quiet z s) (q : Quiet s t) : Quiet z t :=
  { h.toServes.trans q.toServes with
    repl := fun c => (q.repl c).trans (h.repl c)
    queue := q.queue.trans h.queue
    assembly := q.assembly.trans h.assembly
    deferral := q.deferral.trans h.deferral
    walks := q.walks.trans h.walks
    mirror := fun r hr hm => q.mirror r hr (h.mirror r (q.walks.subset hr) hm) }

/-! ### The plainest updates -/

theorem serves_touch (h : Serves z s) (hc : t.channels = s.channels := by rfl) (hp : t.hostPresent = s.hostPresent := by rfl) :
    Serves z t := by
  have hchan : ∀ c, t.chan c = s.chan c := fun c => by simp [State.chan, hc]
  exact h.trans ⟨fun c h => by rwa [hchan], fun c => by rw [hchan], hp, fun c h => by rw [hchan] at h; exact Or.inl h⟩

theorem quiet_touch (h : Quiet z s) (hc : t.channels = s.channels := by rfl) (hp : t.hostPresent = s.hostPresent := by rfl)
    (hq : t.resyncQueue = s.resyncQueue := by rfl) (ha : t.assembly = s.assembly := by rfl)
    (hd : t.deferral = s.deferral := by rfl) (hw : walkRecords t = walkRecords s := by rfl) : Quiet z t := by
  have hchan : ∀ c, t.chan c = s.chan c := fun c => by simp [State.chan, hc]
  exact h.trans { serves_touch (Serves.refl s) hc hp with
    repl := fun c => by rw [hchan], queue := hq, assembly := ha, deferral := hd, walks := by rw [hw]
    mirror := fun r _ hm => by rwa [hchan] }

theorem serves_modChan (h : Serves z s) (c : ChannelNo) (f : Channel → Channel)
    (hs : ServiceLaw (s.chan c) → ServiceLaw (f (s.chan c)) := by exact fun h => h)
    (hm : (f (s.chan c)).settings.mode = (s.chan c).settings.mode := by rfl)
    (hc : (f (s.chan c)).changeover = (s.chan c).changeover := by rfl) : Serves z (modChan c f s) := by
  refine h.trans ⟨fun d hd => ?_, fun d => ?_, rfl, fun d hd => ?_⟩
  · rw [chan_modChan]; split
    · rename_i he; subst he; exact hs hd
    · exact hd
  · rw [chan_modChan]; split
    · rename_i he; subst he; exact hm
    · rfl
  · rw [chan_modChan] at hd; split at hd
    · rename_i he; subst he; exact Or.inl (hc ▸ hd)
    · exact Or.inl hd

theorem quiet_modChan (h : Quiet z s) (c : ChannelNo) (f : Channel → Channel)
    (hs : ServiceLaw (s.chan c) → ServiceLaw (f (s.chan c)) := by exact fun h => h)
    (hm : (f (s.chan c)).settings.mode = (s.chan c).settings.mode := by rfl)
    (hc : (f (s.chan c)).changeover = (s.chan c).changeover := by rfl)
    (hr : (f (s.chan c)).replState = (s.chan c).replState := by rfl) : Quiet z (modChan c f s) := by
  refine h.trans { serves_modChan (Serves.refl s) c f hs hm hc with
    repl := fun d => ?_, queue := rfl, assembly := rfl, deferral := rfl, walks := List.Sublist.refl _, mirror := fun r _ hr => ?_ }
  · rw [chan_modChan]; split
    · rename_i he; subst he; exact hr
    · rfl
  · rw [chan_modChan]; split
    · rename_i he; rw [hc, ← he]; exact hr
    · exact hr

theorem quiet_attend (h : Quiet z s) (c : ChannelNo) : Quiet z (attend c s) :=
  quiet_touch h

theorem quiet_unattend (h : Quiet z s) (c : ChannelNo) : Quiet z (unattend c s) :=
  quiet_touch h

theorem quiet_raise (h : Quiet z s) (c : ChannelNo) (f : ChangeFlag) : Quiet z (raise c f s) :=
  quiet_attend (quiet_modChan h c _) c

theorem quiet_raiseIf (h : Quiet z s) (b : Bool) (c : ChannelNo) (f : ChangeFlag) : Quiet z (raiseIf b c f s) := by
  unfold raiseIf; split
  · exact quiet_raise h c f
  · exact h

theorem quiet_raiseEvent (h : Quiet z s) (e : DeviceFlag) : Quiet z (raiseEvent e s) :=
  quiet_touch h

theorem quiet_bumpDraws (h : Quiet z s) : Quiet z (bumpDraws s) :=
  quiet_touch h

theorem quiet_settleFrameNow (h : Quiet z s) (c : ChannelNo) : Quiet z (settleFrameNow c s) := by
  unfold settleFrameNow; split
  · exact h
  · exact quiet_bumpDraws h

theorem quiet_sendReplication (h : Quiet z s) (m : ReplicationOut) : Quiet z (sendReplication m s) :=
  quiet_touch h

theorem quiet_sendCue (h : Quiet z s) (d : Directive) : Quiet z (sendCue d s) :=
  quiet_touch h

theorem quiet_sendRouter (h : Quiet z s) (m : TakeOut) : Quiet z (sendRouter m s) :=
  quiet_touch h

theorem quiet_modLine (h : Quiet z s) (l : LineNo) (f : SenseLine → SenseLine) : Quiet z (modLine l f s) :=
  quiet_touch h

theorem quiet_modFamily (h : Quiet z s) (fam : Family) (f : FamilyRecord → FamilyRecord) : Quiet z (modFamily fam f s) := by
  cases fam
  · exact quiet_touch h
  · exact quiet_touch h

theorem quiet_mapChannels (h : Quiet z s) (f : Channel → Channel) (hs : ∀ ch, (f ch).schedule = ch.schedule)
    (hm : ∀ ch, (f ch).settings.mode = ch.settings.mode) (hc : ∀ ch, (f ch).changeover = ch.changeover)
    (hr : ∀ ch, (f ch).replState = ch.replState) : Quiet z { s with channels := s.channels.map f } := by
  refine h.trans
    { service := fun c hl => ?_, mode := fun c => ?_, host := rfl, confirm := fun c hw => ?_, repl := fun c => ?_, queue := rfl
      assembly := rfl, deferral := rfl, walks := List.Sublist.refl _, mirror := fun r _ hw => ?_ }
  · rw [chan_mapChannels]; unfold ServiceLaw at hl ⊢; rw [hs, hc]; exact hl
  · rw [chan_mapChannels, hm]
  · rw [chan_mapChannels, hc] at hw; exact Or.inl hw
  · rw [chan_mapChannels, hr]
  · rw [chan_mapChannels, hc]; exact hw

/-! ### Walks -/

theorem walkRecords_startWalk (s : State) : walkRecords (startWalk s) = walkRecords s := by
  unfold startWalk; split
  · rename_i r rest hw hp
    simp [walkRecords, hw, hp]
  · rfl

theorem walkRecords_abandonWalks (c : ChannelNo) (s : State) :
    walkRecords (abandonWalks c s) = (walkRecords s).filter (fun r => decide (r.channel ≠ c)) := by
  unfold abandonWalks
  rw [walkRecords_startWalk]
  unfold walkRecords
  rw [List.filter_append]
  congr 1
  cases s.walk with
  | none => rfl
  | some w => by_cases hc : w.record.channel = c <;> simp [Option.filter, hc]

theorem quiet_startWalk (h : Quiet z s) : Quiet z (startWalk s) := by
  refine quiet_touch h ?_ ?_ ?_ ?_ ?_ (walkRecords_startWalk s) <;> (unfold startWalk; split <;> rfl)

theorem abandonWalks_queue (c : ChannelNo) (s : State) : (abandonWalks c s).resyncQueue = s.resyncQueue := by
  unfold abandonWalks startWalk; split <;> rfl

theorem abandonWalks_deferral (c : ChannelNo) (s : State) : (abandonWalks c s).deferral = s.deferral := by
  unfold abandonWalks startWalk; split <;> rfl

theorem abandonWalks_hostPresent (c : ChannelNo) (s : State) : (abandonWalks c s).hostPresent = s.hostPresent := by
  unfold abandonWalks startWalk; split <;> rfl

theorem quiet_abandonWalks (h : Quiet z s) (c : ChannelNo) : Quiet z (abandonWalks c s) :=
  h.trans
    { service := fun d hd => by rw [abandonWalks_chan]; exact hd
      mode := fun d => by rw [abandonWalks_chan]
      host := abandonWalks_hostPresent c s
      confirm := fun d hd => by rw [abandonWalks_chan] at hd; exact Or.inl hd
      repl := fun d => by rw [abandonWalks_chan]
      queue := abandonWalks_queue c s
      assembly := abandonWalks_assembly c s
      deferral := abandonWalks_deferral c s
      walks := by rw [walkRecords_abandonWalks]; exact List.filter_sublist
      mirror := fun r _ hm => by rw [abandonWalks_chan]; exact hm }

/-! ### Going through lists -/

theorem quiet_foldl {α : Type} {f : State → α → State} (hf : ∀ t a, Quiet z t → Quiet z (f t a)) (l : List α)
    (h : Quiet z s) : Quiet z (l.foldl f s) := by
  induction l generalizing s with
  | nil => exact h
  | cons a l ih => exact ih (hf _ _ h)

theorem serves_foldl {α : Type} {f : State → α → State} (hf : ∀ t a, Serves z t → Serves z (f t a)) (l : List α)
    (h : Serves z s) : Serves z (l.foldl f s) := by
  induction l generalizing s with
  | nil => exact h
  | cons a l ih => exact ih (hf _ _ h)

/-! ### Schedules -/

/-- Every entry in service in `es'` stands in service in `es` under its name and with its status. -/
def Settles (es es' : List Entry) : Prop :=
  ∀ e ∈ es', e.inService = true → ∃ d ∈ es, d.key = e.key ∧ d.status = e.status

theorem inService_congr {d e : Entry} (h : d.status = e.status) : d.inService = e.inService := by
  unfold Entry.inService; rw [h]

theorem service_settles {ch : Channel} {es' : List Entry} {st : Changeover} (h : ServiceLaw ch) (hs : Settles ch.schedule es')
    (hst : ch.changeover.held = true → st.held = true) :
    (∀ e ∈ es', e.inService = true → st.held = true) ∧
    ∀ e ∈ es', ∀ d ∈ es', e.status = .airing → d.status = .airing → e.key = d.key := by
  refine ⟨fun e he hi => ?_, fun e he d hd ha hb => ?_⟩
  · obtain ⟨x, hx, _, hxs⟩ := hs e he hi
    exact hst (h.1 x hx (by rw [inService_congr hxs]; exact hi))
  · obtain ⟨x, hx, hxk, hxs⟩ := hs e he (by simp [Entry.inService, ha])
    obtain ⟨y, hy, hyk, hys⟩ := hs d hd (by simp [Entry.inService, hb])
    rw [← hxk, ← hyk]
    exact h.2 x hx y hy (hxs.trans ha) (hys.trans hb)

theorem settles_sublist {es es' : List Entry} (h : es'.Sublist es) : Settles es es' :=
  fun e he _ => ⟨e, h.subset he, rfl, rfl⟩

theorem settles_mapEntry {es : List Entry} {key : EntryKey} {f : Entry → Entry} (hk : ∀ e, e.key = key → (f e).key = e.key)
    (hf : ∀ e, (f e).inService = true → (f e).status = e.status) : Settles es (mapEntry key f es) := by
  intro e he hi
  obtain ⟨d, hd, rfl⟩ := List.mem_map.1 he
  refine ⟨d, hd, ?_⟩
  by_cases hkey : d.key = key
  · rw [if_pos hkey] at hi ⊢; exact ⟨(hk d hkey).symm, (hf d hi).symm⟩
  · rw [if_neg hkey]; exact ⟨rfl, rfl⟩

theorem statusFor_rest (frame : Option Nat) (n : Nat) : statusFor frame n = .planned ∨ statusFor frame n = .passed := by
  unfold statusFor; split
  · exact Or.inl rfl
  · split
    · exact Or.inl rfl
    · exact Or.inr rfl

theorem settles_place (frame : Option Nat) (e : Entry) (es : List Entry) : Settles es (placeEntry frame e es) := by
  intro d hd hi
  unfold placeEntry at hd
  obtain ⟨x, hx, rfl⟩ := List.mem_map.1 hd
  by_cases hk : x.key = e.key
  · rw [if_pos hk] at hi
    rcases statusFor_rest frame ((endOf e.key (insertEntry e es)).getD 0) with h | h <;> simp [Entry.inService, h] at hi
  · rw [if_neg hk]
    rcases List.mem_cons.1 ((insertEntry_perm e es).mem_iff.1 hx) with rfl | hx
    · exact absurd rfl hk
    · exact ⟨x, hx, rfl, rfl⟩

theorem settles_passOver (f : Nat) (es : List Entry) : Settles es (passOver f es) := by
  intro e he hi
  obtain ⟨p, hp, rfl⟩ := List.mem_map.1 he
  have hm : p.1 ∈ es := by rw [← spans_fst es]; exact List.mem_map_of_mem hp
  by_cases hp : p.1.status = .planned ∧ p.2 ≤ f
  · rw [if_pos hp] at hi; simp [Entry.inService] at hi
  · rw [if_neg hp]; exact ⟨p.1, hm, rfl, rfl⟩

/-! ### The Schedule Store -/

theorem quiet_freeSlots (h : Quiet z s) (n : Nat) : Quiet z (freeSlots n s) :=
  quiet_touch h

theorem quiet_grantSlot (h : Quiet z s) : Quiet z (grantSlot s) := by
  unfold grantSlot; simp only; split
  · exact quiet_raiseEvent (quiet_touch h) _
  · exact quiet_touch h

/-- A schedule written with its laws of service kept. -/
theorem quiet_writeSchedule (h : Quiet z s) (c : ChannelNo) {es : List Entry}
    (hs : ServiceLaw (s.chan c) → ServiceLaw { s.chan c with schedule := es }) : Quiet z (setSchedule c es s) :=
  quiet_raiseIf (quiet_modChan h c _ hs) _ _ _

theorem quiet_setSchedule (h : Quiet z s) (c : ChannelNo) {es : List Entry} (hs : Settles (s.chan c).schedule es) :
    Quiet z (setSchedule c es s) :=
  quiet_writeSchedule h c (fun hl => service_settles hl hs (fun h => h))

theorem quiet_keepOnly (h : Quiet z s) (c : ChannelNo) (keep : Entry × Nat → Bool) : Quiet z (keepOnly c keep s) := by
  have h1 : ∀ n, Quiet z (freeSlots n (setSchedule c (((spans (s.chan c).schedule).filter keep).map Prod.fst) s)) :=
    fun n => quiet_freeSlots (quiet_setSchedule h c (settles_sublist (kept_sublist keep _))) n
  unfold keepOnly; simp only; split
  · exact quiet_abandonWalks (h1 _) c
  · exact h1 _

theorem quiet_removeEntry (h : Quiet z s) (c : ChannelNo) (key : EntryKey) : Quiet z (removeEntry c key s) :=
  quiet_keepOnly h c _

theorem quiet_requestSlot (h : Quiet z s) (hr : requestSlot s = some t) : Quiet z t := by
  unfold requestSlot at hr
  split at hr
  · simp only [Option.some.injEq] at hr; subst hr; exact quiet_grantSlot h
  · split at hr
    · simp only [Option.some.injEq] at hr; subst hr; exact quiet_grantSlot (quiet_removeEntry h _ _)
    · simp at hr

theorem quiet_joinEntry (h : Quiet z s) (c : ChannelNo) (o : Origin) (b : Body) : Quiet z (joinEntry c o b s) :=
  quiet_setSchedule h c (settles_place _ _ _)

theorem quiet_replaceEntry (h : Quiet z s) (c : ChannelNo) (key : EntryKey) (b : Body) : Quiet z (replaceEntry c key b s) := by
  unfold replaceEntry; split
  · exact h
  · refine quiet_setSchedule h c (fun e he hi => ?_)
    obtain ⟨d, hd, hk⟩ := settles_place _ _ _ e he hi
    exact ⟨d, (eraseEntry_sublist _ _).subset hd, hk⟩

theorem quiet_mapEntry (h : Quiet z s) (c : ChannelNo) (key : EntryKey) (f : Entry → Entry)
    (hk : ∀ e, e.key = key → (f e).key = e.key := by intros; rfl)
    (hf : ∀ e, (f e).inService = true → (f e).status = e.status := by intros; rfl) :
    Quiet z (setSchedule c (mapEntry key f (s.chan c).schedule) s) :=
  quiet_setSchedule h c (settles_mapEntry hk hf)

theorem quiet_writeAmendment (h : Quiet z s) (c : ChannelNo) (key : EntryKey) (a : Amendment) : Quiet z (writeAmendment c key a s) :=
  quiet_abandonWalks (quiet_mapEntry h c key _) c

theorem quiet_applyAmendment (h : Quiet z s) (c : ChannelNo) (key : EntryKey) : Quiet z (applyAmendment c key s) := by
  unfold applyAmendment; split
  · exact h
  · exact quiet_abandonWalks (quiet_replaceEntry h c _ _) c
  · exact quiet_removeEntry h c key

theorem quiet_setRest (h : Quiet z s) (c : ChannelNo) (key : EntryKey) {st : EntryStatus} (hst : st ≠ .cued ∧ st ≠ .airing) :
    Quiet z (setStatus c key st s) :=
  quiet_mapEntry h c key _ (hf := fun e hi => by simp [Entry.inService, hst.1, hst.2] at hi)

theorem quiet_leaveService (h : Quiet z s) (c : ChannelNo) (key : EntryKey) {st : EntryStatus} (hst : st ≠ .cued ∧ st ≠ .airing) :
    Quiet z (leaveService c key st s) := by
  have h1 := quiet_setRest h c key hst
  unfold leaveService; simp only; split
  · split
    · exact quiet_applyAmendment h1 c key
    · exact h1
  · exact h1

theorem hasStatus_mem {c : ChannelNo} {key : EntryKey} {st : EntryStatus} (h : hasStatus s c key st = true) :
    ∃ e ∈ (s.chan c).schedule, e.key = key ∧ e.status = st := by
  unfold hasStatus at h
  split at h
  · rename_i e he
    obtain ⟨hm, hk⟩ := lookupEntry_some he
    exact ⟨e, hm, hk, by simpa using h⟩
  · simp at h

theorem quiet_cueEntry (h : Quiet z s) (c : ChannelNo) (key : EntryKey) : Quiet z (cueEntry c key s) := by
  unfold cueEntry; split
  · rename_i hc
    simp only [Bool.and_eq_true] at hc
    refine quiet_writeSchedule h c (fun hl => ⟨fun _ _ _ => hc.2, fun e he d hd ha hb => ?_⟩)
    obtain ⟨x, hx, rfl⟩ := List.mem_map.1 he
    obtain ⟨y, hy, rfl⟩ := List.mem_map.1 hd
    split at ha
    · simp at ha
    · split at hb
      · simp at hb
      · rename_i h1 h2
        rw [if_neg h1, if_neg h2]
        exact hl.2 x hx y hy ha hb
  · exact h

theorem quiet_airEntry (h : Quiet z s) (c : ChannelNo) (key : EntryKey) : Quiet z (airEntry c key s) := by
  unfold airEntry; split
  · rename_i hc
    simp only [Bool.and_eq_true, Bool.not_eq_true', List.any_eq_false, decide_eq_true_eq, not_and] at hc
    refine quiet_writeSchedule h c (fun hl => ⟨fun _ _ _ => ?_, fun e he d hd ha hb => ?_⟩)
    · obtain ⟨x, hx, _, hxs⟩ := hasStatus_mem hc.1
      exact hl.1 x hx (by simp [Entry.inService, hxs])
    · have hkey : ∀ x ∈ mapEntry key (fun e => { e with status := .airing }) (s.chan c).schedule, x.status = .airing → x.key = key := by
        intro x hx hs
        obtain ⟨y, hy, rfl⟩ := List.mem_map.1 hx
        by_cases hk : y.key = key
        · rw [if_pos hk]; exact hk
        · rw [if_neg hk] at hs
          have := hc.2 y hy hs
          exact absurd hk (by simpa using this)
      rw [hkey e he ha, hkey d hd hb]
  · exact h

theorem quiet_finishEntry (h : Quiet z s) (c : ChannelNo) (key : EntryKey) : Quiet z (finishEntry c key s) := by
  unfold finishEntry; split
  · exact quiet_leaveService h c key (by decide)
  · exact h

theorem rest_of_statusFor (frame : Option Nat) (n : Nat) : statusFor frame n ≠ .cued ∧ statusFor frame n ≠ .airing := by
  rcases statusFor_rest frame n with h | h <;> rw [h] <;> decide

theorem quiet_uncueEntry (h : Quiet z s) (c : ChannelNo) (key : EntryKey) : Quiet z (uncueEntry c key s) := by
  unfold uncueEntry; split
  · exact quiet_leaveService h c key (rest_of_statusFor _ _)
  · exact h

theorem quiet_releaseEntry (h : Quiet z s) (c : ChannelNo) (key : EntryKey) : Quiet z (releaseEntry c key s) := by
  unfold releaseEntry; split
  · exact quiet_leaveService h c key (by decide)
  · exact h

theorem quiet_skipEntry (h : Quiet z s) (c : ChannelNo) (key : EntryKey) : Quiet z (skipEntry c key s) := by
  unfold skipEntry; split
  · exact quiet_setRest h c key (by decide)
  · exact h

theorem quiet_passEntries (h : Quiet z s) (c : ChannelNo) (f : Nat) : Quiet z (passEntries c f s) :=
  quiet_setSchedule h c (settles_passOver f _)

theorem quiet_retireEntries (h : Quiet z s) (c : ChannelNo) (f : Nat) : Quiet z (retireEntries c f s) :=
  quiet_keepOnly h c _

theorem quiet_sstFrame (h : Quiet z s) (c : ChannelNo) : Quiet z (sstFrame c s) := by
  unfold sstFrame; split
  · exact h
  · split
    · exact quiet_retireEntries (quiet_passEntries h c _) c _
    · exact quiet_retireEntries h c _

/-! ### The Router Arbiter -/

theorem quiet_dropRequest (h : Quiet z s) (c : ChannelNo) : Quiet z (dropRequest c s) :=
  quiet_touch h

theorem quiet_placeRequest (h : Quiet z s) (r : Request) : Quiet z (placeRequest r s) :=
  quiet_modChan (quiet_touch h) _ _

theorem quiet_requestTakeover (h : Quiet z s) (c : ChannelNo) (n : Nat) : Quiet z (requestTakeover c n s) :=
  quiet_placeRequest h _

theorem quiet_requestGiveback (h : Quiet z s) (c : ChannelNo) (n : Nat) : Quiet z (requestGiveback c n s) :=
  quiet_placeRequest h _

theorem quiet_grantRequest (h : Quiet z s) (pulse : Nat) (r : Request) : Quiet z (grantRequest pulse r s) :=
  quiet_sendRouter (quiet_modChan (quiet_dropRequest h _) _ _) _

theorem quiet_grantPulse (h : Quiet z s) : Quiet z (grantPulse s) :=
  quiet_foldl (fun _ r ht => quiet_grantRequest ht _ r) _ (quiet_touch h)

theorem quiet_shiftReleases (h : Quiet z s) (a b : Nat) : Quiet z (shiftReleases a b s) :=
  quiet_touch h

end Sys2Proof.Machine
end

