-- ==== Sys2Proof/Laws/QuietChangeover.lean ====
section
/-! SUPPORT. The operations of the Changeover Unit, the Channel Supervisor and the Sense Inputs leave the Resync Unit's
records as they are, and a channel that is no longer held has no entry in service. -/

namespace Sys2Proof.Machine

set_option Elab.async false

variable {k : Nat} {z s t : State}

/-! ### The changeover state -/

/-- A channel has no entry in service. -/
def Unserved (ch : Channel) : Prop :=
  ∀ e ∈ ch.schedule, e.inService = false

theorem unserved_of_rest {ch : Channel} (h : ServiceLaw ch) (hc : ch.changeover.held = false) : Unserved ch := by
  intro e he
  by_contra hi
  have := h.1 e he (by simpa using hi)
  rw [hc] at this; exact absurd this (by decide)

theorem setChangeover_chan (c d : ChannelNo) (st : Changeover) : ∃ fl, (setChangeover c st s).chan d =
    if d = c then { s.chan c with changeover := st, flags := fl } else s.chan d := by
  have h : ∃ fl, (raiseIf (decide ((s.chan c).changeover ≠ st)) c .changeover
      (modChan c (fun ch => { ch with changeover := st }) s)).chan d =
      if d = c then { s.chan c with changeover := st, flags := fl } else s.chan d := by
    unfold raiseIf
    split
    · refine ⟨((s.chan c).flags.raise .changeover), ?_⟩
      rw [raise_chan, chan_modChan_self, chan_modChan]
      split <;> simp_all
    · refine ⟨(s.chan c).flags, ?_⟩
      rw [chan_modChan]
  obtain ⟨fl, h⟩ := h
  refine ⟨fl, ?_⟩
  unfold setChangeover
  simp only
  split
  · rw [abandonWalks_chan, h]
  · exact h

theorem quiet_setChangeover (h : Quiet z s) (c : ChannelNo) (st : Changeover)
    (hst : st.held = true ∨ (ServiceLaw (s.chan c) → Unserved (s.chan c)))
    (hw : st = .awaitConfirm → s.hostPresent = true) : Quiet z (setChangeover c st s) := by
  have hb : Quiet s (raiseIf (decide ((s.chan c).changeover ≠ st)) c .changeover s) := quiet_raiseIf (Quiet.refl s) _ _ _
  refine h.trans ⟨⟨fun d hd => ?_, fun d => ?_, ?_, fun d hd => ?_⟩, fun d => ?_, ?_, ?_, ?_, ?_, fun r hr hm => ?_⟩
  · obtain ⟨fl, he⟩ := setChangeover_chan (s := s) c d st
    rw [he]; split
    · rename_i hdc; subst hdc
      refine ⟨fun e hm hi => ?_, hd.2⟩
      rcases hst with hst | hst
      · exact hst
      · exact absurd (hst hd e hm) (by rw [hi]; decide)
    · exact hd
  · obtain ⟨fl, he⟩ := setChangeover_chan (s := s) c d st
    rw [he]; split
    · rename_i hdc; subst hdc; rfl
    · rfl
  · unfold setChangeover raiseIf; simp only; split <;> split <;> first | rfl | (rw [abandonWalks_hostPresent]; rfl)
  · obtain ⟨fl, he⟩ := setChangeover_chan (s := s) c d st
    rw [he] at hd; split at hd
    · exact Or.inr (hw hd)
    · exact Or.inl hd
  · obtain ⟨fl, he⟩ := setChangeover_chan (s := s) c d st
    rw [he]; split
    · rename_i hdc; subst hdc; rfl
    · rfl
  · unfold setChangeover raiseIf; simp only; split <;> split <;> first | rfl | (rw [abandonWalks_queue]; rfl)
  · unfold setChangeover raiseIf; simp only; split <;> split <;> first | rfl | (rw [abandonWalks_assembly]; rfl)
  · unfold setChangeover raiseIf; simp only; split <;> split <;> first | rfl | (rw [abandonWalks_deferral]; rfl)
  · unfold setChangeover; simp only; split
    · rw [walkRecords_abandonWalks]; unfold raiseIf; split <;> exact List.filter_sublist
    · unfold raiseIf; split <;> exact List.Sublist.refl _
  · obtain ⟨fl, he⟩ := setChangeover_chan (s := s) c r.channel st
    rw [he]; split
    · rename_i hdc
      rw [hdc] at hm
      by_cases hst' : st = .mirror
      · exact hst'
      · unfold setChangeover at hr
        simp only [hm, hst', ne_eq, not_false_eq_true, and_self, if_true] at hr
        rw [walkRecords_abandonWalks, List.mem_filter] at hr
        exact absurd hdc (by simpa using hr.2)
    · exact hm

theorem quiet_setOutputLost (h : Quiet z s) (c : ChannelNo) (b : Bool) : Quiet z (setOutputLost c b s) :=
  quiet_raiseIf (quiet_modChan h c _) _ _ _

theorem quiet_requestHoldOff (h : Quiet z s) (c : ChannelNo) : Quiet z (requestHoldOff c s) := by
  unfold requestHoldOff; split
  · exact quiet_modChan h c _
  · exact h

/-! ### Directives -/

theorem quiet_skipShort (h : Quiet z s) (c : ChannelNo) (x : Nat) : Quiet z (skipShort c x s) := by
  unfold skipShort; split
  · split
    · split
      · exact quiet_skipEntry h c _
      · exact h
    · exact h
  · exact h

theorem quiet_sendDirective (h : Quiet z s) (c : ChannelNo) (x : Option Nat) (b : DirectiveBody) : Quiet z (sendDirective c x b s) :=
  quiet_sendCue (quiet_modChan h c _) _

theorem quiet_cueFor (h : Quiet z s) (c : ChannelNo) (d : Computed) : Quiet z (cueFor c d s) := by
  unfold cueFor; split
  · exact quiet_cueEntry h c _
  · exact h

theorem quiet_sendCurrent (h : Quiet z s) (c : ChannelNo) (x : Nat) (d : Computed) : Quiet z (sendCurrent c x d s) :=
  quiet_cueFor (quiet_sendDirective (quiet_modChan h c _) c (some x) _) c d

theorem quiet_sendNext (h : Quiet z s) (c : ChannelNo) (x : Nat) (d : Computed) : Quiet z (sendNext c x d s) :=
  quiet_cueFor (quiet_sendDirective (quiet_modChan h c _) c (some x) _) c d

theorem quiet_sendJoining (h : Quiet z s) (c : ChannelNo) (r : Nat) : Quiet z (sendJoining c r s) := by
  unfold sendJoining; split
  · exact quiet_sendCurrent h c r _
  · exact quiet_sendCurrent (quiet_modChan (quiet_skipShort h c r) c _) c r _

/-! ### Starting a takeover -/

theorem quiet_enterPreparing (h : Quiet z s) (c : ChannelNo) : Quiet z (enterPreparing c s) := by
  unfold enterPreparing
  exact quiet_settleFrameNow (quiet_sendJoining (quiet_modChan (quiet_setChangeover h c _ (Or.inl rfl) (fun he => by cases he)) c _) c _) c

theorem quiet_startTakeover (h : Quiet z s) (c : ChannelNo) (hc : (s.chan c).changeover.held = false) : Quiet z (startTakeover c s) := by
  unfold startTakeover; split
  · rename_i hp
    exact quiet_modChan (quiet_setChangeover h c _ (Or.inr (fun hl => unserved_of_rest hl hc)) (fun _ => hp.2)) c _
  · exact quiet_enterPreparing h c

theorem mayStart_mirror {ch : Channel} (h : mayStartTakeover ch = true) : ch.changeover = .mirror := by
  simp only [mayStartTakeover, Bool.and_eq_true, decide_eq_true_eq] at h
  exact h.1.2

theorem quiet_tripNotice (h : Quiet z s) (c : ChannelNo) : Quiet z (tripNotice c s) := by
  unfold tripNotice; split
  · rename_i hm
    refine quiet_startTakeover (quiet_modChan h c _) c ?_
    rw [chan_modChan_self]
    show (s.chan c).changeover.held = false
    rw [mayStart_mirror hm]; rfl
  · split
    · exact quiet_setChangeover (quiet_dropRequest h c) c _ (Or.inl rfl) (fun he => by cases he)
    · exact h

/-- A channel that is not held may leave for any state but AWAIT_CONFIRM. -/
theorem quiet_leaveRest (h : Quiet z s) (c : ChannelNo) (st : Changeover) (hc : (s.chan c).changeover.held = false)
    (hst : st ≠ .awaitConfirm) : Quiet z (setChangeover c st s) :=
  quiet_setChangeover h c st (Or.inr (fun hl => unserved_of_rest hl hc)) (fun he => absurd he hst)

theorem quiet_recoveryNotice (h : Quiet z s) (c : ChannelNo) : Quiet z (recoveryNotice c s) := by
  unfold recoveryNotice; split
  · rename_i hc; exact quiet_modChan (quiet_leaveRest h c _ (by rw [hc]; rfl) (by decide)) c _
  · rename_i hc; exact quiet_leaveRest h c _ (by rw [hc]; rfl) (by decide)
  all_goals exact h

theorem quiet_hostAbsentAtCou (h : Quiet z s) : Quiet z (hostAbsentAtCou s) := by
  refine quiet_foldl (fun t c ht => ?_) _ h
  dsimp only
  split
  · exact quiet_enterPreparing ht c
  · exact ht

/-! ### Leaving DR -/

/-- What an entry in service at the end was already: nothing comes into service, and the entry of that name is out. -/
structure Withdraws (c : ChannelNo) (key : EntryKey) (s t : State) : Prop where
  settles : Settles (s.chan c).schedule (t.chan c).schedule
  gone : ∀ e ∈ (t.chan c).schedule, e.key = key → e.inService = false

theorem setSchedule_settles (c : ChannelNo) {es : List Entry} (h : Settles (s.chan c).schedule es) :
    Settles (s.chan c).schedule ((setSchedule c es s).chan c).schedule := by
  rw [setSchedule_schedule, if_pos rfl]; exact h

theorem settles_trans {a b d : List Entry} (h : Settles a b) (h' : Settles b d) : Settles a d := by
  intro e he hi
  obtain ⟨x, hx, hk, hs⟩ := h' e he hi
  obtain ⟨y, hy, hk', hs'⟩ := h x hx (by rw [inService_congr hs]; exact hi)
  exact ⟨y, hy, hk'.trans hk, hs'.trans hs⟩

theorem replaceEntry_settles (c : ChannelNo) (key : EntryKey) (b : Body) :
    Settles (s.chan c).schedule ((replaceEntry c key b s).chan c).schedule := by
  unfold replaceEntry; split
  · exact settles_sublist (List.Sublist.refl _)
  · exact setSchedule_settles c (settles_trans (settles_sublist (eraseEntry_sublist key _)) (settles_place _ _ _))

theorem applyAmendment_settles (c : ChannelNo) (key : EntryKey) :
    Settles (s.chan c).schedule ((applyAmendment c key s).chan c).schedule := by
  unfold applyAmendment; split
  · exact settles_sublist (List.Sublist.refl _)
  · rw [abandonWalks_chan]; exact replaceEntry_settles c key _
  · exact settles_sublist (removeEntry_schedule_sublist c c key s)

theorem withdraws_leaveService (c : ChannelNo) (key : EntryKey) {st : EntryStatus} (hst : st ≠ .cued ∧ st ≠ .airing) :
    Withdraws c key s (leaveService c key st s) := by
  have h1 : Withdraws c key s (setStatus c key st s) := by
    refine ⟨setSchedule_settles c (settles_mapEntry (fun _ _ => rfl) (fun e hi => by simp [Entry.inService, hst.1, hst.2] at hi)), ?_⟩
    intro e he hk
    unfold setStatus at he
    rw [setSchedule_schedule, if_pos rfl] at he
    obtain ⟨d, _, rfl⟩ := List.mem_map.1 he
    by_cases hd : d.key = key
    · rw [if_pos hd]; simp [Entry.inService, hst.1, hst.2]
    · rw [if_neg hd] at hk; exact absurd hk hd
  unfold leaveService
  simp only
  split
  · split
    · have h2 := applyAmendment_settles (s := setStatus c key st s) c key
      refine ⟨settles_trans h1.settles h2, fun e he hk => ?_⟩
      by_contra hi
      obtain ⟨x, hx, hxk, hxs⟩ := h2 e he (by simpa using hi)
      have := h1.gone x hx (hxk.trans hk)
      rw [inService_congr hxs] at this; exact hi this
    · exact h1
  · exact h1

theorem withdraws_notServed (c : ChannelNo) {e : Entry} (hn : ((s.chan c).schedule.map Entry.key).Nodup)
    (h : hasStatus s c e.key .airing = false) (h' : hasStatus s c e.key .cued = false) : Withdraws c e.key s s := by
  refine ⟨settles_sublist (List.Sublist.refl _), fun d hd hk => ?_⟩
  cases hl : lookupEntry e.key (s.chan c).schedule with
  | none => exact absurd (hk ▸ List.mem_map_of_mem hd) (lookupEntry_none.1 hl)
  | some x =>
    obtain ⟨hx, hxk⟩ := lookupEntry_some hl
    have hdx : d = x := List.inj_on_of_nodup_map hn hd hx (hk.trans hxk.symm)
    subst hdx
    simp only [hasStatus, hl, decide_eq_false_iff_not] at h h'
    simp [Entry.inService, h, h']

theorem withdraws_release (c : ChannelNo) (e : Entry) (hn : ((s.chan c).schedule.map Entry.key).Nodup) :
    Withdraws c e.key s (releaseEntry c e.key s) := by
  unfold releaseEntry; split
  · exact withdraws_leaveService c _ (by decide)
  · rename_i h
    simp only [Bool.or_eq_true, not_or, Bool.not_eq_true] at h
    exact withdraws_notServed c hn h.1 h.2

/-- A channel whose entries all take the release or the uncue request has none in service (R158, R159). -/
theorem clearService_unserved (h : InvWith k s) (c : ChannelNo) : Unserved ((clearService c s).chan c) := by
  -- after the turns of a list of entries, what is still in service stands in service at the start under another name
  have main : ∀ (es : List Entry) (s : State), InvWith k s → ∀ e ∈ ((es.foldl (fun t e =>
      if e.status = .airing then releaseEntry c e.key t else if e.status = .cued then uncueEntry c e.key t else t) s).chan c).schedule,
      e.inService = true → ∃ d ∈ (s.chan c).schedule, d.key = e.key ∧ d.status = e.status ∧
        ∀ x ∈ es, x.key = e.key → x.status ≠ e.status := by
    intro es
    induction es with
    | nil => intro s _ e he _; exact ⟨e, he, rfl, rfl, fun x hx => absurd hx List.not_mem_nil⟩
    | cons a es ih =>
      intro s hs e he hi
      rw [List.foldl_cons] at he
      have hturn : InvWith k (if a.status = .airing then releaseEntry c a.key s else if a.status = .cued then uncueEntry c a.key s else s) := by
        split
        · exact inv_releaseEntry hs c _
        · split
          · exact inv_uncueEntry hs c _
          · exact hs
      obtain ⟨d, hd, hdk, hds, hx⟩ := ih _ hturn e he hi
      have hdi : d.inService = true := by rw [inService_congr hds]; exact hi
      have hn := (hs.channels c).2.2.2.2.2.2.2.1
      have hw : Settles (s.chan c).schedule ((if a.status = .airing then releaseEntry c a.key s else if a.status = .cued then
          uncueEntry c a.key s else s).chan c).schedule ∧
          ∀ d ∈ ((if a.status = .airing then releaseEntry c a.key s else if a.status = .cued then uncueEntry c a.key s else s).chan c).schedule,
            d.key = a.key → d.status = a.status → d.inService = false := by
        split
        · have := withdraws_release c a hn
          exact ⟨this.settles, fun d hd hk _ => this.gone d hd hk⟩
        · split
          · rename_i hcued
            unfold uncueEntry; split
            · have := withdraws_leaveService (s := s) c a.key (rest_of_statusFor (s.chan c).frame ((endOf a.key (s.chan c).schedule).getD 0))
              exact ⟨this.settles, fun d hd hk _ => this.gone d hd hk⟩
            · rename_i hno
              refine ⟨settles_sublist (List.Sublist.refl _), fun d hd hk hst => ?_⟩
              exfalso
              apply hno
              unfold hasStatus
              cases hl : lookupEntry a.key (s.chan c).schedule with
              | none => exact absurd (hk ▸ List.mem_map_of_mem hd) (lookupEntry_none.1 hl)
              | some x =>
                obtain ⟨hx, hxk⟩ := lookupEntry_some hl
                have : d = x := List.inj_on_of_nodup_map hn hd hx (hk.trans hxk.symm)
                subst this
                simp [hst, hcued]
          · rename_i h1 h2
            refine ⟨settles_sublist (List.Sublist.refl _), fun d hd hk hst => ?_⟩
            rw [← hst] at h1 h2
            simp [Entry.inService, h1, h2]
      obtain ⟨y, hy, hyk, hys⟩ := hw.1 d hd hdi
      refine ⟨y, hy, hyk.trans hdk, hys.trans hds, fun x hxm hxk => ?_⟩
      rcases List.mem_cons.1 hxm with rfl | hxm
      · intro hst
        have := hw.2 d hd (hdk.trans hxk.symm) (hds.trans hst.symm)
        rw [hdi] at this; exact absurd this (by decide)
      · exact hx x hxm hxk
  intro e he
  by_contra hi
  obtain ⟨d, hd, hdk, hds, hx⟩ := main _ s h e he (by simpa using hi)
  exact hx d hd hdk hds

theorem quiet_clearService (h : Quiet z s) (c : ChannelNo) : Quiet z (clearService c s) := by
  refine quiet_foldl (fun t e ht => ?_) _ h
  split
  · exact quiet_releaseEntry ht c _
  · split
    · exact quiet_uncueEntry ht c _
    · exact ht

theorem quiet_stopServer (h : Quiet z s) (c : ChannelNo) : Quiet z (stopServer c s) :=
  quiet_sendDirective (quiet_modChan h c _) c _ _

theorem quiet_strand (h : Quiet z s) (hk : InvWith k s) (c : ChannelNo) : Quiet z (strand c s) := by
  unfold strand
  refine quiet_setChangeover (quiet_modChan (quiet_clearService (quiet_stopServer h c) c) c _) c _ (Or.inr (fun _ => ?_))
    (fun he => by cases he)
  rw [chan_modChan_self]
  exact clearService_unserved (inv_stopServer hk c) c

theorem quiet_completeGiveback (h : Quiet z s) (hk : InvWith k s) (c : ChannelNo) : Quiet z (completeGiveback c s) := by
  unfold completeGiveback
  refine quiet_setChangeover (quiet_modChan (quiet_clearService (quiet_stopServer h c) c) c _) c _ (Or.inr (fun _ => ?_))
    (fun he => by cases he)
  rw [chan_modChan_self]
  exact clearService_unserved (inv_stopServer hk c) c

/-! ### Failures of directives -/

theorem quiet_uncueFor (h : Quiet z s) (c : ChannelNo) (p : Option Place) : Quiet z (uncueFor c p s) := by
  unfold uncueFor; split
  · exact quiet_uncueEntry h c _
  · exact h

theorem quiet_joiningFails (h : Quiet z s) (hk : InvWith k s) (c : ChannelNo) : Quiet z (joiningFails c s) := by
  have h1 := quiet_uncueFor (quiet_raise h c .cueFault) c (s.chan c).current
  unfold joiningFails
  simp only
  split
  · exact quiet_strand h1 (inv_uncueFor (inv_raise hk c .cueFault) c (s.chan c).current) c
  · exact quiet_settleFrameNow (quiet_sendCurrent (quiet_modChan (quiet_modChan (quiet_uncueFor h1 c _) c _) c _) c _ _) c

theorem quiet_nextFails (h : Quiet z s) (c : ChannelNo) (p : Place) : Quiet z (nextFails c p s) := by
  have h1 := quiet_raise h c .cueFault
  unfold nextFails
  simp only
  split
  · exact quiet_setOutputLost (quiet_modChan h1 c _) c _
  all_goals
    split
    · exact quiet_settleFrameNow (quiet_sendNext (quiet_releaseEntry h1 c _) c _ _) c
    · exact quiet_settleFrameNow (quiet_sendNext h1 c _ _) c

/-! ### Frame events -/

theorem quiet_clearDoubt (h : Quiet z s) (c : ChannelNo) : Quiet z (clearDoubt c s) := by
  unfold clearDoubt; split
  · exact quiet_modChan h c _
  · exact h

theorem quiet_currentDeadline (h : Quiet z s) (hk : InvWith k s) (c : ChannelNo) (f : Nat) : Quiet z (currentDeadline c f s) := by
  unfold currentDeadline; split
  · split
    · exact quiet_joiningFails h hk c
    · exact h
  · exact h

theorem quiet_nextDeadline (h : Quiet z s) (c : ChannelNo) (f : Nat) : Quiet z (nextDeadline c f s) := by
  unfold nextDeadline; split
  · split
    · exact quiet_nextFails h c _
    · exact h
  · exact h

theorem quiet_rollCurrent (h : Quiet z s) (c : ChannelNo) (f : Nat) : Quiet z (rollCurrent c f s) := by
  unfold rollCurrent; split
  · exact h
  · split
    · simp only
      split
      · exact quiet_airEntry (quiet_setOutputLost (quiet_modChan h c _) c _) c _
      · exact quiet_setOutputLost (quiet_modChan h c _) c _
    · exact h

theorem quiet_rollNext (h : Quiet z s) (c : ChannelNo) (f : Nat) : Quiet z (rollNext c f s) := by
  unfold rollNext; split
  · exact h
  · split
    · have h1 : Quiet z (match entryOfPlace (s.chan c).current with
          | some key => finishEntry c key s
          | none => s) := by
        split
        · exact quiet_finishEntry h c _
        · exact h
      simp only
      split
      · split
        · exact quiet_airEntry (quiet_setOutputLost (quiet_modChan h1 c _) c _) c _
        · exact quiet_setOutputLost (quiet_modChan h1 c _) c _
      · exact quiet_modChan h1 c _
    · exact h

theorem quiet_rollStep (h : Quiet z s) (c : ChannelNo) (f : Nat) : Quiet z (rollStep c f s) := by
  unfold rollStep; split
  · exact h
  · exact quiet_rollNext (quiet_rollCurrent h c f) c f

theorem quiet_finishStep (h : Quiet z s) (c : ChannelNo) (f : Nat) : Quiet z (finishStep c f s) := by
  unfold finishStep; split
  · split
    · split
      · exact quiet_finishEntry h c _
      · exact h
    · exact h
  · exact h

theorem quiet_planStep (h : Quiet z s) (c : ChannelNo) (f : Nat) : Quiet z (planStep c f s) := by
  unfold planStep; simp only; split
  · exact h
  · split
    · exact h
    · split
      · exact h
      · exact quiet_sendNext (quiet_skipShort h c _) c _ _

theorem quiet_startGiveback (h : Quiet z s) (c : ChannelNo) (b : Option Nat) (release : Nat) : Quiet z (startGiveback c b release s) :=
  quiet_requestGiveback (quiet_modChan (quiet_setChangeover h c _ (Or.inl rfl) (fun he => by cases he)) c _) c release

theorem quiet_automaticGiveback (h : Quiet z s) (c : ChannelNo) (f : Nat) : Quiet z (automaticGiveback c f s) := by
  unfold automaticGiveback; simp only; split
  · exact quiet_startGiveback h c _ _
  · exact h

theorem quiet_heldSteps (h : Quiet z s) (c : ChannelNo) (f : Nat) : Quiet z (heldSteps c f s) :=
  quiet_automaticGiveback (quiet_planStep (quiet_passEntries (quiet_finishStep (quiet_rollStep (quiet_nextDeadline h c f) c f) c f) c f) c f) c f

theorem quiet_couFrame (h : Quiet z s) (hk : InvWith k s) (c : ChannelNo) : Quiet z (couFrame c s) := by
  unfold couFrame; split
  · exact h
  · rename_i f _
    split
    · split
      · rename_i hc _; exact quiet_startTakeover h c (by rw [hc]; rfl)
      · exact h
    · simp only
      split
      · exact quiet_enterPreparing (quiet_modChan (quiet_passEntries h c f) c _) c
      · exact quiet_modChan (quiet_passEntries h c f) c _
    · exact quiet_passEntries h c f
    all_goals
      have h1 := quiet_currentDeadline (quiet_clearDoubt h c) (inv_clearDoubt hk c) c f
      simp only
      split
      · exact quiet_passEntries h1 c f
      · exact quiet_heldSteps h1 c f

/-! ### Outcomes of directives and takes -/

theorem quiet_currentReady (h : Quiet z s) (c : ChannelNo) (p : Place) : Quiet z (currentReady c p s) := by
  unfold currentReady; simp only; split
  · exact quiet_settleFrameNow (quiet_requestTakeover (quiet_setChangeover (quiet_modChan h c _) c _ (Or.inl rfl) (fun he => by cases he)) c _) c
  · exact quiet_modChan h c _

theorem quiet_cueReply (h : Quiet z s) (hk : InvWith k s) (ready : Bool) (c : ChannelNo) (tag : Nat) : Quiet z (cueReply ready c tag s) := by
  unfold cueReply; simp only; split
  · split
    · exact quiet_currentReady h c _
    · split
      · exact quiet_joiningFails h hk c
      · exact h
  · split
    · split
      · exact quiet_modChan h c _
      · exact quiet_nextFails h c _
    · exact h

theorem quiet_takeDone (h : Quiet z s) (hk : InvWith k s) (c : ChannelNo) (d : Direction) : Quiet z (takeDone c d s) := by
  unfold takeDone; split
  · exact quiet_setChangeover (quiet_bumpDraws (quiet_modChan h c _)) c _ (Or.inl rfl) (fun he => by cases he)
  · exact quiet_completeGiveback h hk c
  · exact h

theorem quiet_takeFailed (h : Quiet z s) (hk : InvWith k s) (c : ChannelNo) (d : Direction) : Quiet z (takeFailed c d s) := by
  unfold takeFailed; split
  · split
    · exact quiet_strand h hk c
    · exact quiet_requestTakeover (quiet_modChan h c _) c _
  · exact quiet_setChangeover (quiet_modChan h c _) c _ (Or.inl rfl) (fun he => by cases he)
  · exact h

theorem quiet_endTake (h : Quiet z s) (c : ChannelNo) : Quiet z (endTake c s) :=
  quiet_modChan h c _

theorem quiet_routerReply (h : Quiet z s) (hk : InvWith k s) (done : Bool) (c : ChannelNo) (tag : Nat) :
    Quiet z (routerReply done c tag s) := by
  unfold routerReply; split
  · exact h
  · split
    · exact quiet_takeDone (quiet_endTake h c) (inv_endTake hk c) c _
    · exact quiet_takeFailed (quiet_raise (quiet_endTake h c) c _) (inv_raise (inv_endTake hk c) c .routerFault) c _

theorem quiet_takeTick (h : Quiet z s) (hk : InvWith k s) (c : ChannelNo) : Quiet z (takeTick c s) := by
  unfold takeTick; split
  · exact h
  · split
    · exact quiet_takeFailed (quiet_raise (quiet_endTake h c) c _) (inv_raise (inv_endTake hk c) c .routerFault) c _
    · exact quiet_modChan h c _

/-! ### The Channel Supervisor -/

theorem quiet_setSupervision (h : Quiet z s) (c : ChannelNo) (st : Supervision) : Quiet z (setSupervision c st s) :=
  quiet_raiseIf (quiet_modChan h c _) _ _ _

theorem quiet_enterAlert (h : Quiet z s) (c : ChannelNo) : Quiet z (enterAlert c s) :=
  quiet_setSupervision (quiet_modChan h c _) c _

theorem quiet_faultReported (h : Quiet z s) (c : ChannelNo) : Quiet z (faultReported c s) := by
  unfold faultReported; split
  · exact quiet_enterAlert h c
  · exact h
  · exact quiet_modChan h c _

theorem quiet_reporting {change : State → State} (h : Quiet z (change s)) (c : ChannelNo) (src : Source) :
    Quiet z (reporting c src change s) := by
  unfold reporting; split
  · exact quiet_faultReported h c
  · exact h

theorem quiet_okListing (h : Quiet z s) (c : ChannelNo) : Quiet z (okListing c s) :=
  quiet_modChan h c _

theorem quiet_failListing (h : Quiet z s) (c : ChannelNo) : Quiet z (failListing c s) :=
  quiet_reporting (change := modChan c (fun ch => { ch with listing := .fail })) (quiet_modChan h c _) c .hb

theorem quiet_countSilence (h : Quiet z s) (c : ChannelNo) : Quiet z (countSilence c s) :=
  quiet_modChan h c _

theorem quiet_countFlap (h : Quiet z s) (c : ChannelNo) : Quiet z (countFlap c s) := by
  unfold countFlap
  simp only
  split
  · exact h
  · generalize (if (s.chan c).flapCounter < (s.chan c).inEffect.flapLimit then (s.chan c).flapCounter + 1
      else (s.chan c).flapCounter) = n
    have h1 : Quiet z (modChan c (fun ch => { ch with flapCounter := n }) s) := quiet_modChan h c _
    split
    · exact quiet_raise (quiet_modChan h1 c (fun ch => { ch with latched := true })) c _
    · exact h1

theorem quiet_tripChannel (h : Quiet z s) (c : ChannelNo) : Quiet z (tripChannel c s) :=
  quiet_tripNotice (quiet_setSupervision (quiet_countFlap (quiet_modChan h c _) c) c _) c

theorem quiet_recoverChannel (h : Quiet z s) (c : ChannelNo) : Quiet z (recoverChannel c s) :=
  quiet_recoveryNotice (quiet_setSupervision (quiet_modChan h c _) c _) c

theorem quiet_alertStep (h : Quiet z s) (c : ChannelNo) : Quiet z (alertStep c s) := by
  unfold alertStep; split
  · exact quiet_setSupervision (quiet_modChan h c _) c _
  · split
    · simp only
      split
      · exact quiet_tripChannel (quiet_modChan h c _) c
      · exact quiet_modChan h c _
    · exact quiet_modChan h c _

theorem quiet_trippedStep (h : Quiet z s) (c : ChannelNo) : Quiet z (trippedStep c s) := by
  unfold trippedStep; split
  · exact quiet_modChan h c _
  · simp only
    split
    · exact quiet_recoverChannel (quiet_modChan h c _) c
    · exact quiet_modChan h c _

theorem quiet_superviseStep (h : Quiet z s) (c : ChannelNo) : Quiet z (superviseStep c s) := by
  unfold superviseStep; split
  · split
    · exact quiet_alertStep (quiet_enterAlert h c) c
    · exact h
  · exact quiet_alertStep h c
  · exact quiet_trippedStep h c

theorem quiet_flapStep (h : Quiet z s) (c : ChannelNo) : Quiet z (flapStep c s) := by
  unfold flapStep
  refine quiet_modChan h c _ (fun hc => ?_) ?_ ?_ ?_
  all_goals
    split
    · first | exact hc | rfl
    · first | exact hc | rfl
    · split
      · first | exact hc | rfl
      · split <;> first | exact hc | rfl

theorem quiet_csvFrame (h : Quiet z s) (c : ChannelNo) : Quiet z (csvFrame c s) :=
  quiet_flapStep (quiet_superviseStep (quiet_countSilence h c) c) c

/-! ### The Sense Inputs -/

theorem quiet_changeLine (h : Quiet z s) (l : LineNo) (f : SenseLine → SenseLine) : Quiet z (changeLine l f s) := by
  unfold changeLine; simp only; split
  · exact quiet_reporting (quiet_modLine h l _) _ _
  · exact quiet_modLine h l _

end Sys2Proof.Machine
end

