-- ==== Sys2Proof/Laws/QuietResync.lean ====
section
/-! SUPPORT. The Resync Unit's own operations keep its laws, and they break no law of service. -/

namespace Sys2Proof.Machine

set_option Elab.async false

variable {k : Nat} {z s t : State}

/-! ### The laws in general form -/

/-- The Resync Unit's laws of `Inv`, for channels that count as not OFF by `on`; while a snapshot is `closing`, its channel
has left RESYNCING and its assembly is about to be cleared. -/
structure ResyncWith (closing : Bool) (on : ChannelNo → Bool) (s : State) : Prop where
  once : s.resyncQueue.Nodup
  queued : ∀ c ∈ s.resyncQueue, ((s.chan c).replState = .unseeded ∨ (s.chan c).replState = .outOfStep) ∧ on c = true
  walking : ∀ r ∈ walkRecords s,
    (s.chan r.channel).replState = .inStep ∧ (s.chan r.channel).changeover = .mirror ∧ on r.channel = true
  walkOnce : ((walkRecords s).map WalkRecord.channel).Nodup
  resyncing : ∀ c, (s.chan c).replState = .resyncing ↔ closing = false ∧ ∃ a ∈ s.assembly, a.channel = c
  assembling : ∀ a ∈ s.assembly, on a.channel = true ∧ (closing = false → AssemblyLaw a)
  deferred : closing = false → DeferralLaw s
  closes : closing = true → s.assembly.isSome = true

variable {cl : Bool} {on : ChannelNo → Bool}

theorem resyncWith_of_inv (h : Inv s) : ResyncWith false (isOn s) s :=
  ⟨h.resync, h.queued, h.walking, h.walkOnce, fun c => (h.resyncing c).trans (by simp),
    fun a ha => ⟨(h.assembling a ha).2, fun _ => (h.assembling a ha).1⟩, fun _ => h.deferred, fun h => by cases h⟩

theorem inv_of_parts (hk : InvWith 0 s) (hs : ∀ c, ServiceLaw (s.chan c))
    (hc : s.hostPresent = false → ∀ c, (s.chan c).changeover ≠ .awaitConfirm) (h : ResyncWith false (isOn s) s) : Inv s :=
  { hk with
    service := hs, confirm := hc, queued := h.queued, walking := h.walking, walkOnce := h.walkOnce
    resyncing := fun c => (h.resyncing c).trans (by simp)
    assembling := fun a ha => ⟨(h.assembling a ha).2 rfl, (h.assembling a ha).1⟩
    deferred := h.deferred rfl }

theorem isOn_serves (q : Serves s t) : isOn t = isOn s := by
  funext c; unfold isOn; rw [q.mode]

theorem deferralLaw_congr (h : DeferralLaw s) (ha : t.assembly = s.assembly) (hd : t.deferral = s.deferral) : DeferralLaw t := by
  unfold DeferralLaw at h ⊢; rw [ha, hd]; exact h

theorem deferralLaw_empty (hd : t.deferral = []) : DeferralLaw t := by
  unfold DeferralLaw; rw [hd]; exact ⟨List.nodup_nil, fun u hu => absurd hu List.not_mem_nil⟩

/-- With no assembly nothing is deferred (R89). -/
theorem deferral_none (h : DeferralLaw s) (ha : s.assembly = none) : s.deferral = [] := by
  rw [List.eq_nil_iff_forall_not_mem]
  intro u hu
  obtain ⟨a, hm, _⟩ := h.2 u hu
  rw [ha] at hm; cases hm

theorem resync_quiet (h : ResyncWith cl on s) (q : Quiet s t) : ResyncWith cl on t where
  once := by rw [q.queue]; exact h.once
  queued c hc := by rw [q.queue] at hc; rw [q.repl]; exact h.queued c hc
  walking r hr := by
    have := h.walking r (q.walks.subset hr)
    exact ⟨by rw [q.repl]; exact this.1, q.mirror r hr this.2.1, this.2.2⟩
  walkOnce := h.walkOnce.sublist (q.walks.map _)
  resyncing c := by rw [q.repl, q.assembly]; exact h.resyncing c
  assembling a ha := by rw [q.assembly] at ha; exact h.assembling a ha
  deferred hc := deferralLaw_congr (h.deferred hc) q.assembly q.deferral
  closes hc := by rw [q.assembly]; exact h.closes hc

/-- More channels may count as not OFF. -/
theorem resync_mono {on' : ChannelNo → Bool} (h : ResyncWith cl on s) (ho : ∀ c, on c = true → on' c = true) : ResyncWith cl on' s :=
  ⟨h.once, fun c hc => ⟨(h.queued c hc).1, ho c (h.queued c hc).2⟩,
    fun r hr => ⟨(h.walking r hr).1, (h.walking r hr).2.1, ho _ (h.walking r hr).2.2⟩, h.walkOnce, h.resyncing,
    fun a ha => ⟨ho _ (h.assembling a ha).1, (h.assembling a ha).2⟩, h.deferred, h.closes⟩

/-! ### Replication states -/

theorem setReplication_replState (c d : ChannelNo) (st : ReplicationState) (cause : Cause) (n : Nat) :
    ((setReplication c st cause n s).chan d).replState = if d = c then st else (s.chan d).replState := by
  have he := setReplication_chan c d st cause n s
  rw [he]; split <;> rfl

theorem setReplication_changeover (c d : ChannelNo) (st : ReplicationState) (cause : Cause) (n : Nat) :
    ((setReplication c st cause n s).chan d).changeover = (s.chan d).changeover := by
  have he := setReplication_chan c d st cause n s
  rw [he]; split
  · rename_i h; subst h; rfl
  · rfl

theorem setReplication_deferral (c : ChannelNo) (st : ReplicationState) (cause : Cause) (n : Nat) :
    (setReplication c st cause n s).deferral = s.deferral := by
  unfold setReplication raiseIf; simp only; split <;> split <;> first | rfl | (rw [abandonWalks_deferral]; rfl)

theorem setReplication_hostPresent (c : ChannelNo) (st : ReplicationState) (cause : Cause) (n : Nat) :
    (setReplication c st cause n s).hostPresent = s.hostPresent := by
  unfold setReplication raiseIf; simp only; split <;> split <;> first | rfl | (rw [abandonWalks_hostPresent]; rfl)

theorem walkRecords_raiseIf (b : Bool) (c : ChannelNo) (f : ChangeFlag) (s : State) : walkRecords (raiseIf b c f s) = walkRecords s := by
  unfold raiseIf; split <;> rfl

theorem walkRecords_setReplication (c : ChannelNo) (st : ReplicationState) (cause : Cause) (n : Nat) :
    walkRecords (setReplication c st cause n s) =
      if (s.chan c).replState = .inStep ∧ st ≠ .inStep then (walkRecords s).filter (fun r => decide (r.channel ≠ c)) else walkRecords s := by
  unfold setReplication
  simp only
  split
  · rw [walkRecords_abandonWalks, walkRecords_raiseIf]; rfl
  · rw [walkRecords_raiseIf]; rfl

theorem serves_setReplication (h : Serves z s) (c : ChannelNo) (st : ReplicationState) (cause : Cause) (n : Nat) :
    Serves z (setReplication c st cause n s) := by
  refine h.trans ⟨fun d hd => ?_, fun d => ?_, setReplication_hostPresent c st cause n, fun d hd => ?_⟩
  · have he := setReplication_chan c d st cause n s
    rw [he]; split
    · rename_i h; subst h; exact hd
    · exact hd
  · have he := setReplication_chan c d st cause n s
    rw [he]; split
    · rename_i h; subst h; rfl
    · rfl
  · rw [setReplication_changeover] at hd; exact Or.inl hd

/-- A replication state other than RESYNCING, of a channel that is not RESYNCING. -/
theorem resync_setReplication (h : ResyncWith cl on s) (c : ChannelNo) {st : ReplicationState} (cause : Cause) (n : Nat)
    (hst : st ≠ .resyncing) (hc : (s.chan c).replState ≠ .resyncing)
    (hq : c ∈ s.resyncQueue → st = .unseeded ∨ st = .outOfStep) : ResyncWith cl on (setReplication c st cause n s) where
  once := by rw [setReplication_resyncQueue]; exact h.once
  queued d hd := by
    rw [setReplication_resyncQueue] at hd
    rw [setReplication_replState]
    split
    · rename_i he; subst he; exact ⟨hq hd, (h.queued d hd).2⟩
    · exact h.queued d hd
  walking r hr := by
    rw [walkRecords_setReplication] at hr
    rw [setReplication_replState, setReplication_changeover]
    split at hr
    · obtain ⟨hr, hn⟩ := List.mem_filter.1 hr
      rw [if_neg (by simpa using hn)]
      exact h.walking r hr
    · rename_i hno
      have := h.walking r hr
      split
      · rename_i he
        refine ⟨?_, this.2⟩
        by_contra hs
        exact hno ⟨he ▸ this.1, hs⟩
      · exact this
  walkOnce := by
    rw [walkRecords_setReplication]; split
    · exact h.walkOnce.sublist (List.filter_sublist.map _)
    · exact h.walkOnce
  resyncing d := by
    rw [setReplication_replState, setReplication_assembly, ← h.resyncing d]
    split
    · rename_i he; subst he; exact ⟨fun he => absurd he hst, fun he => absurd he hc⟩
    · rfl
  assembling a ha := by rw [setReplication_assembly] at ha; exact h.assembling a ha
  deferred hcl := deferralLaw_congr (h.deferred hcl) (setReplication_assembly _ _ _ _ _) (setReplication_deferral _ _ _ _)
  closes hcl := by rw [setReplication_assembly]; exact h.closes hcl

theorem quiet_setLastApplied (h : Quiet z s) (c : ChannelNo) (n : Nat) : Quiet z (setLastApplied c n s) := by
  unfold setLastApplied
  simp only
  split
  · exact quiet_modChan h c _
  · exact quiet_abandonWalks (quiet_modChan h c _) c

/-! ### The resync queue -/

theorem serves_quiet (h : Serves z s) (q : Quiet s t) : Serves z t :=
  h.trans q.toServes

theorem serves_serve (h : Serves z s) : Serves z (serve s) := by
  unfold serve; split
  · exact serves_setReplication (serves_touch h) _ _ _ _
  · exact h

theorem serves_enqueue (h : Serves z s) (c : ChannelNo) : Serves z (enqueue c s) := by
  unfold enqueue
  refine serves_serve ?_
  split
  · exact h
  · exact serves_touch h

theorem serves_fallOut (h : Serves z s) (c : ChannelNo) (cause : Cause) : Serves z (fallOut c cause s) :=
  serves_enqueue (serves_setReplication h c _ _ _) c

theorem resync_serve (h : ResyncWith cl on s) : ResyncWith cl on (serve s) := by
  unfold serve
  split
  · rename_i c rest hq ha _
    have hcl : cl = false := by
      cases cl with
      | false => rfl
      | true => have := h.closes rfl; rw [ha] at this; cases this
    subst hcl
    have hc := h.queued c (by rw [hq]; exact List.mem_cons_self)
    have hnd := h.once
    rw [hq, List.nodup_cons] at hnd
    have hstep : (s.chan c).replState ≠ .inStep := by rcases hc.1 with he | he <;> rw [he] <;> decide
    have hnone : ∀ d, (s.chan d).replState ≠ .resyncing := by
      intro d hd
      obtain ⟨_, a, hm, _⟩ := (h.resyncing d).1 hd
      rw [ha] at hm; cases hm
    refine ⟨?_, fun d hd => ?_, fun r hr => ?_, ?_, fun d => ?_, fun a hm => ?_, fun _ => deferralLaw_empty ?_, fun h => by cases h⟩
    · rw [setReplication_resyncQueue]; exact hnd.2
    · rw [setReplication_resyncQueue] at hd
      change d ∈ rest at hd
      rw [setReplication_replState, if_neg (fun he : d = c => hnd.1 (he ▸ hd))]
      exact h.queued d (by rw [hq]; exact List.mem_cons_of_mem _ hd)
    · rw [walkRecords_setReplication, if_neg (fun hh => hstep hh.1)] at hr
      have := h.walking r hr
      rw [setReplication_replState, setReplication_changeover, if_neg (fun he : r.channel = c => hstep (he ▸ this.1))]
      exact this
    · rw [walkRecords_setReplication, if_neg (fun hh => hstep hh.1)]; exact h.walkOnce
    · rw [setReplication_replState, setReplication_assembly]
      simp only [true_and]
      change (if d = c then _ else (s.chan d).replState) = _ ↔ ∃ a : Assembly, a ∈ some _ ∧ a.channel = d
      split
      · rename_i he; subst he
        exact ⟨fun _ => ⟨_, rfl, rfl⟩, fun _ => rfl⟩
      · rename_i hne
        refine ⟨fun he => absurd he (hnone d), fun ⟨a, hm, he⟩ => ?_⟩
        simp only [Option.mem_def, Option.some.injEq] at hm
        subst hm
        exact absurd he.symm hne
    · rw [setReplication_assembly] at hm
      simp only [sendReplication_assembly, Option.mem_def, Option.some.injEq] at hm
      subst hm
      refine ⟨hc.2, fun _ => ⟨hc.1, rfl, fun _ => ⟨rfl, rfl, rfl⟩, fun hp => by cases hp⟩⟩
    · rw [setReplication_deferral]; exact deferral_none (s := s) (h.deferred rfl) ha
  · exact h

theorem resync_enqueue (h : ResyncWith cl on s) (c : ChannelNo)
    (hc : (s.chan c).replState = .unseeded ∨ (s.chan c).replState = .outOfStep) (hon : on c = true) : ResyncWith cl on (enqueue c s) := by
  unfold enqueue
  refine resync_serve ?_
  split
  · exact h
  · rename_i hm
    refine ⟨?_, fun d hd => ?_, h.walking, h.walkOnce, h.resyncing, h.assembling, fun hcl => deferralLaw_congr (h.deferred hcl) rfl rfl, h.closes⟩
    · show (s.resyncQueue ++ [c]).Nodup
      rw [List.nodup_append]
      refine ⟨h.once, by simp, fun a ha b hb => ?_⟩
      simp only [List.mem_singleton] at hb
      rintro rfl; exact hm (hb ▸ ha)
    · rcases List.mem_append.1 hd with hd | hd
      · exact h.queued d hd
      · simp only [List.mem_singleton] at hd; subst hd; exact ⟨hc, hon⟩

theorem resync_fallOut (h : ResyncWith cl on s) (c : ChannelNo) (cause : Cause) (hc : (s.chan c).replState = .inStep)
    (hon : on c = true) : ResyncWith cl on (fallOut c cause s) := by
  unfold fallOut
  refine resync_enqueue (resync_setReplication h c cause _ (by decide) (by rw [hc]; decide) (fun _ => Or.inr rfl)) c ?_ hon
  rw [setReplication_replState, if_pos rfl]; exact Or.inr rfl

theorem resync_dequeue (h : ResyncWith cl on s) (c : ChannelNo) : ResyncWith cl on (dequeue c s) :=
  ⟨h.once.filter _, fun d hd => h.queued d (List.mem_filter.1 hd).1, h.walking, h.walkOnce, h.resyncing, h.assembling,
    fun hcl => deferralLaw_congr (h.deferred hcl) rfl rfl, h.closes⟩

/-! ### End of an assembly -/

theorem clearAssembly_parts (s : State) : (clearAssembly s).channels = s.channels ∧ (clearAssembly s).resyncQueue = s.resyncQueue ∧
    (clearAssembly s).assembly = none ∧ (clearAssembly s).deferral = [] ∧ walkRecords (clearAssembly s) = walkRecords s ∧
    (clearAssembly s).hostPresent = s.hostPresent := by
  unfold clearAssembly
  split
  · rename_i h; exact ⟨rfl, rfl, h, rfl, rfl, rfl⟩
  · exact ⟨rfl, rfl, rfl, rfl, rfl, rfl⟩

theorem clearAssembly_chan (s : State) (c : ChannelNo) : (clearAssembly s).chan c = s.chan c := by
  simp [State.chan, (clearAssembly_parts s).1]

theorem serves_clearAssembly (h : Serves z s) : Serves z (clearAssembly s) :=
  serves_touch h (clearAssembly_parts s).1 (clearAssembly_parts s).2.2.2.2.2

/-- A snapshot that was closing is closed. -/
theorem resync_close (h : ResyncWith true on s) : ResyncWith false on (clearAssembly s) := by
  obtain ⟨_, hq, ha, hd, hw, _⟩ := clearAssembly_parts s
  refine ⟨by rw [hq]; exact h.once, fun c hc => ?_, fun r hr => ?_, by rw [hw]; exact h.walkOnce, fun c => ?_, fun a hm => ?_,
    fun _ => deferralLaw_empty hd, fun h => by cases h⟩
  · rw [clearAssembly_chan]; rw [hq] at hc; exact h.queued c hc
  · rw [clearAssembly_chan]; rw [hw] at hr; exact h.walking r hr
  · rw [clearAssembly_chan, ha]
    exact ⟨fun he => absurd ((h.resyncing c).1 he).1 (by decide), fun ⟨_, a, hm, _⟩ => by cases hm⟩
  · rw [ha] at hm; cases hm

/-- One channel's replication state is written anew, and it is then in none of the unit's lists; if the assembly named it, the
assembly is gone. -/
theorem resync_rewrite (h : ResyncWith false on s) (c : ChannelNo) (hn : t.resyncQueue.Nodup)
    (hq : ∀ d ∈ t.resyncQueue, d ∈ s.resyncQueue ∧ d ≠ c) (hw : (walkRecords t).Sublist (walkRecords s))
    (hwc : ∀ r ∈ walkRecords t, r.channel ≠ c) (hr : ∀ d, d ≠ c → (t.chan d).replState = (s.chan d).replState)
    (hm : ∀ d, d ≠ c → (t.chan d).changeover = (s.chan d).changeover) (hst : (t.chan c).replState ≠ .resyncing)
    (ha : (t.assembly = s.assembly ∧ t.deferral = s.deferral ∧ ∀ a ∈ s.assembly, a.channel ≠ c) ∨
          (t.assembly = none ∧ t.deferral = [] ∧ ∀ a ∈ s.assembly, a.channel = c)) : ResyncWith false on t := by
  refine ⟨hn, fun d hd => ?_, fun r hr' => ?_, h.walkOnce.sublist (hw.map _), fun d => ?_, fun a hm' => ?_, fun _ => ?_, fun h => by cases h⟩
  · rw [hr d (hq d hd).2]; exact h.queued d (hq d hd).1
  · rw [hr _ (hwc r hr'), hm _ (hwc r hr')]; exact h.walking r (hw.subset hr')
  · by_cases hd : d = c
    · subst hd
      refine ⟨fun he => absurd he hst, fun ⟨_, a, hm', he⟩ => ?_⟩
      rcases ha with ⟨ha, _, hne⟩ | ⟨ha, _, _⟩
      · rw [ha] at hm'; exact absurd he (hne a hm')
      · rw [ha] at hm'; cases hm'
    · rw [hr d hd, h.resyncing d]
      rcases ha with ⟨ha, _, _⟩ | ⟨ha, _, he⟩
      · rw [ha]
      · rw [ha]
        refine ⟨fun ⟨_, a, hm', hac⟩ => absurd ((he a hm').symm.trans hac).symm hd, fun ⟨_, a, hm', _⟩ => by cases hm'⟩
  · rcases ha with ⟨ha, _, _⟩ | ⟨ha, _, _⟩
    · rw [ha] at hm'; exact h.assembling a hm'
    · rw [ha] at hm'; cases hm'
  · rcases ha with ⟨ha, hd, _⟩ | ⟨_, hd, _⟩
    · exact deferralLaw_congr (h.deferred rfl) ha hd
    · exact deferralLaw_empty hd

/-- The assembly's channel is RESYNCING, so it is in no other list. -/
theorem assembled_resyncing (h : ResyncWith false on s) {a : Assembly} (ha : s.assembly = some a) :
    (s.chan a.channel).replState = .resyncing :=
  (h.resyncing a.channel).2 ⟨rfl, a, ha, rfl⟩

theorem queued_ne (h : ResyncWith false on s) {a : Assembly} (ha : s.assembly = some a) {d : ChannelNo} (hd : d ∈ s.resyncQueue) :
    d ≠ a.channel := by
  rintro rfl
  have h1 := assembled_resyncing h ha
  rcases (h.queued _ hd).1 with h2 | h2 <;> rw [h1] at h2 <;> cases h2

theorem walking_ne (h : ResyncWith false on s) {a : Assembly} (ha : s.assembly = some a) {r : WalkRecord} (hr : r ∈ walkRecords s) :
    r.channel ≠ a.channel := by
  intro he
  have h1 := assembled_resyncing h ha
  have h2 := (h.walking r hr).1
  rw [he, h1] at h2; cases h2

/-- The assembly is cleared and its channel leaves RESYNCING. -/
theorem resync_settle (h : ResyncWith false on s) {a : Assembly} (ha : s.assembly = some a) {st : ReplicationState} (cause : Cause)
    (n : Nat) (hst : st ≠ .resyncing) : ResyncWith false on (setReplication a.channel st cause n (clearAssembly s)) := by
  obtain ⟨_, hq, hna, hd, hw, _⟩ := clearAssembly_parts s
  have hwr : (walkRecords (setReplication a.channel st cause n (clearAssembly s))).Sublist (walkRecords s) := by
    rw [walkRecords_setReplication, hw]; split
    · exact List.filter_sublist
    · exact List.Sublist.refl _
  refine resync_rewrite h a.channel ?_ (fun d hd' => ?_) hwr (fun r hr => walking_ne h ha (hwr.subset hr)) (fun d hd' => ?_) (fun d _ => ?_)
    ?_ (Or.inr ⟨?_, ?_, fun b hb => ?_⟩)
  · rw [setReplication_resyncQueue, hq]; exact h.once
  · rw [setReplication_resyncQueue, hq] at hd'; exact ⟨hd', queued_ne h ha hd'⟩
  · rw [setReplication_replState, if_neg hd', clearAssembly_chan]
  · rw [setReplication_changeover, clearAssembly_chan]
  · rw [setReplication_replState, if_pos rfl]; exact hst
  · rw [setReplication_assembly, hna]
  · rw [setReplication_deferral, hd]
  · rw [ha] at hb; simp only [Option.mem_def, Option.some.injEq] at hb; rw [hb]

theorem serves_failSnapshot (h : Serves z s) (b : Bool) : Serves z (failSnapshot b s) := by
  unfold failSnapshot; split
  · exact h
  · simp only
    split
    · exact serves_enqueue (serves_setReplication (serves_clearAssembly h) _ _ _ _) _
    · exact serves_serve (serves_setReplication (serves_clearAssembly h) _ _ _ _)

theorem resync_failSnapshot (h : ResyncWith false on s) (b : Bool) : ResyncWith false on (failSnapshot b s) := by
  unfold failSnapshot; split
  · exact h
  · rename_i a ha
    have hlaw := h.assembling a ha
    have hst : (if b = true then ReplicationState.outOfStep else a.stateBefore) = .unseeded ∨
        (if b = true then ReplicationState.outOfStep else a.stateBefore) = .outOfStep := by
      split
      · exact Or.inr rfl
      · exact (hlaw.2 rfl).1
    simp only
    split
    · refine resync_enqueue (resync_settle h ha _ _ (by rcases hst with e | e <;> rw [e] <;> decide)) _ ?_ hlaw.1
      rw [setReplication_replState, if_pos rfl]; exact hst
    · exact resync_serve (resync_settle h ha _ _ (by decide))

theorem serves_abandonAssemblyOf (h : Serves z s) (c : ChannelNo) : Serves z (abandonAssemblyOf c s) := by
  unfold abandonAssemblyOf; split
  · split
    · exact serves_clearAssembly h
    · exact h
  · exact h

theorem serves_dequeue (h : Serves z s) (c : ChannelNo) : Serves z (dequeue c s) :=
  serves_touch h

theorem serves_restartResync (h : Serves z s) : Serves z (restartResync s) := by
  have h1 : Serves z (clearAssembly { s with pendingWalks := [], walk := none }) := serves_clearAssembly (serves_touch h)
  unfold restartResync
  simp only
  split
  · exact h1
  · exact serves_setReplication (serves_touch h1) _ _ _ _

theorem resync_restartResync (h : ResyncWith false on s) : ResyncWith false on (restartResync s) := by
  have h0 : ResyncWith false on { s with pendingWalks := [], walk := none } :=
    ⟨h.once, h.queued, fun r hr => absurd hr List.not_mem_nil, List.nodup_nil, h.resyncing, h.assembling,
      fun hcl => deferralLaw_congr (h.deferred hcl) rfl rfl, h.closes⟩
  unfold restartResync
  simp only
  split
  · rename_i ha
    have hd := deferral_none (h.deferred rfl) ha
    have he : clearAssembly { s with pendingWalks := [], walk := none } = { s with pendingWalks := [], walk := none, deferral := [] } := by
      unfold clearAssembly; rw [show ({ s with pendingWalks := [], walk := none } : State).assembly = none from ha]
    rw [he]
    refine resync_quiet h0 (quiet_touch (Quiet.refl _) (hd := hd.symm))
  · rename_i a ha
    have ha' : ({ s with pendingWalks := [], walk := none } : State).assembly = some a := ha
    have hlaw := h.assembling a ha
    obtain ⟨_, hq, hna, hd, hw, _⟩ := clearAssembly_parts { s with pendingWalks := [], walk := none }
    have hst : a.stateBefore ≠ .resyncing := by rcases (hlaw.2 rfl).1 with e | e <;> rw [e] <;> decide
    have h1 := resync_settle h0 ha' a.causeBefore ((clearAssembly { s with pendingWalks := [], walk := none }).chan a.channel).attempts hst
    have hns : ({ s with pendingWalks := [], walk := none } : State).resyncQueue.filter (fun d => decide (d ≠ a.channel)) = s.resyncQueue := by
      rw [List.filter_eq_self]
      intro d hd'
      simpa using queued_ne h ha hd'
    rw [hq, hns]
    -- the queue gains its head beside what `resync_settle` gives
    refine ⟨?_, fun d hd' => ?_, fun r hr => ?_, ?_, fun d => ?_, fun b hb => ?_, fun _ => deferralLaw_empty ?_, fun h => by cases h⟩
    · rw [setReplication_resyncQueue]
      exact List.nodup_cons.2 ⟨fun hm => queued_ne h ha hm rfl, h.once⟩
    · rw [setReplication_resyncQueue] at hd'
      rw [setReplication_replState]
      split
      · rename_i he; subst he; exact ⟨(hlaw.2 rfl).1, hlaw.1⟩
      · rename_i hne
        rw [show (({ clearAssembly { s with pendingWalks := [], walk := none } with resyncQueue := a.channel :: s.resyncQueue } : State).chan d)
          = (clearAssembly { s with pendingWalks := [], walk := none }).chan d from rfl, clearAssembly_chan]
        rcases List.mem_cons.1 hd' with he | hm
        · exact absurd he hne
        · exact h.queued d hm
    · rw [walkRecords_setReplication] at hr
      have hnil : walkRecords ({ clearAssembly { s with pendingWalks := [], walk := none } with resyncQueue := a.channel :: s.resyncQueue } : State) = [] := hw
      rw [hnil] at hr
      split at hr <;> simp at hr
    · rw [walkRecords_setReplication]
      have hnil : walkRecords ({ clearAssembly { s with pendingWalks := [], walk := none } with resyncQueue := a.channel :: s.resyncQueue } : State) = [] := hw
      rw [hnil]
      split <;> exact List.nodup_nil
    · have := h1.resyncing d
      rw [setReplication_replState, setReplication_assembly] at this ⊢
      exact this
    · rw [setReplication_assembly] at hb
      rw [show ({ clearAssembly { s with pendingWalks := [], walk := none } with resyncQueue := a.channel :: s.resyncQueue } : State).assembly
        = none from hna] at hb
      cases hb
    · rw [setReplication_deferral]; exact hd

/-! ### Digests -/

theorem serves_completeWalk (h : Serves z s) (w : Walk) : Serves z (completeWalk w s) := by
  unfold completeWalk
  simp only
  split
  · exact serves_quiet (serves_modChan (serves_touch h) _ _) (quiet_startWalk (Quiet.refl _))
  · exact serves_quiet (serves_fallOut (serves_touch h) _ _) (quiet_startWalk (Quiet.refl _))

theorem serves_walkTick (h : Serves z s) : Serves z (walkTick s) := by
  unfold walkTick; split
  · exact h
  · split
    · exact serves_touch h
    · exact serves_completeWalk h _

theorem resync_completeWalk (h : ResyncWith false on s) {w : Walk} (hw : s.walk = some w) : ResyncWith false on (completeWalk w s) := by
  have hwc := h.walking w.record (by simp [walkRecords, hw])
  have hq : Quiet s { s with walk := none } :=
    { Serves.refl s with
      repl := fun _ => rfl, queue := rfl, assembly := rfl, deferral := rfl
      walks := List.sublist_append_right _ _, mirror := fun _ _ h => h }
  have h1 := resync_quiet h hq
  unfold completeWalk
  simp only
  split
  · exact resync_quiet h1 (quiet_startWalk (quiet_modChan (Quiet.refl _) _ _))
  · exact resync_quiet (resync_fallOut h1 _ _ hwc.1 hwc.2.2) (quiet_startWalk (Quiet.refl _))

theorem readEntry_record (w : Walk) (e : Entry) : (w.readEntry e).record = w.record := by
  unfold Walk.readEntry; split
  · split <;> rfl
  · rfl

theorem resync_walkTick (h : ResyncWith false on s) : ResyncWith false on (walkTick s) := by
  unfold walkTick; split
  · exact h
  · rename_i w hw
    split
    · refine resync_quiet h (quiet_touch (Quiet.refl _) (hw := ?_))
      simp [walkRecords, hw, readEntry_record]
    · exact resync_completeWalk h hw

end Sys2Proof.Machine
end

