-- ==== Sys2Proof/Laws/QuietReplication.lean ====
section
/-! SUPPORT. The Replication Receiver's operations and the snapshots keep the Resync Unit's laws and the laws of service. -/

namespace Sys2Proof.Machine

set_option Elab.async false

variable {k : Nat} {z s t : State} {cl : Bool} {on : ChannelNo → Bool}

/-! ### Application of updates -/

theorem quiet_consume (h : Quiet z s) (c : ChannelNo) (b : Bool) (n : Nat) : Quiet z (consume c b n s) := by
  unfold consume
  refine quiet_setLastApplied ?_ c n
  split
  · exact quiet_modChan h c _
  · exact h

theorem quiet_refuseInService (h : Quiet z s) (c : ChannelNo) : Quiet z (refuseInService c s) :=
  quiet_raise (quiet_modChan h c _) c _

theorem quiet_applyToListed (h : Quiet z s) (c : ChannelNo) (e : Entry) (b : Body) : Quiet z (applyToListed c e b s) := by
  unfold applyToListed; split
  · exact h
  · split
    · exact quiet_writeAmendment h c _ _
    · split
      · exact quiet_refuseInService h c
      · exact quiet_abandonWalks (quiet_replaceEntry h c _ _) c

theorem quiet_dropListed (h : Quiet z s) (c : ChannelNo) (e : Entry) : Quiet z (dropListed c e s) := by
  unfold dropListed; split
  · exact quiet_writeAmendment h c _ _
  · split
    · exact quiet_refuseInService h c
    · exact quiet_removeEntry h c _

theorem resync_fallOutAfter (h : ResyncWith cl on s) (q : Quiet s t) (c : ChannelNo) (cause : Cause)
    (hc : (s.chan c).replState = .inStep) (hon : on c = true) : ResyncWith cl on (fallOut c cause t) :=
  resync_fallOut (resync_quiet h q) c cause (by rw [q.repl]; exact hc) hon

theorem serves_fallOutAfter (q : Quiet s t) (c : ChannelNo) (cause : Cause) : Serves s (fallOut c cause t) :=
  serves_fallOut q.toServes c cause

/-- What an update leaves: a quiet change, or one after which the channel falls out of step. -/
theorem applyUpdate_cases (c : ChannelNo) (b : Bool) (u : Update) (s : State) :
    Quiet s (applyUpdate c b u s) ∨ ∃ t cause, Quiet s t ∧ applyUpdate c b u s = fallOut c cause t := by
  cases u with
  | put n raw =>
    show Quiet s (applyPut c b n raw s) ∨ ∃ t cause, Quiet s t ∧ applyPut c b n raw s = fallOut c cause t
    have h1 : Quiet s (raiseIf (raw.clamps (s.chan c).settings.rate) c .clamped s) := quiet_raiseIf (Quiet.refl s) _ _ _
    unfold applyPut
    simp only
    split
    · exact Or.inr ⟨_, _, quiet_consume h1 c b n, rfl⟩
    · split
      · exact Or.inl (quiet_consume (quiet_applyToListed h1 c _ _) c b n)
      · split
        · exact Or.inr ⟨_, _, h1, rfl⟩
        · split
          · exact Or.inr ⟨_, _, h1, rfl⟩
          · rename_i hr
            exact Or.inl (quiet_consume (quiet_abandonWalks (quiet_joinEntry (quiet_requestSlot h1 hr) c _ _) c) c b n)
  | drop n id =>
    show Quiet s (applyDrop c b n id s) ∨ ∃ t cause, Quiet s t ∧ applyDrop c b n id s = fallOut c cause t
    unfold applyDrop
    split
    · exact Or.inr ⟨_, _, quiet_consume (Quiet.refl s) c b n, rfl⟩
    · split
      · exact Or.inl (quiet_consume (Quiet.refl s) c b n)
      · exact Or.inl (quiet_consume (quiet_dropListed (Quiet.refl s) c _) c b n)

theorem serves_applyUpdate (h : Serves z s) (c : ChannelNo) (b : Bool) (u : Update) : Serves z (applyUpdate c b u s) := by
  rcases applyUpdate_cases c b u s with q | ⟨t, cause, q, he⟩
  · exact serves_quiet h q
  · rw [he]; exact h.trans (serves_fallOutAfter q c cause)

theorem resync_applyUpdate (h : ResyncWith cl on s) (c : ChannelNo) (b : Bool) (u : Update) (hc : (s.chan c).replState = .inStep)
    (hon : on c = true) : ResyncWith cl on (applyUpdate c b u s) := by
  rcases applyUpdate_cases c b u s with q | ⟨t, cause, q, he⟩
  · exact resync_quiet h q
  · rw [he]; exact resync_fallOutAfter h q c cause hc hon

/-! ### What the block keeps, from one state to another -/

/-- From `z`, which keeps the Resync Unit's laws, to `s`: these are kept, and the laws of service with them. -/
structure Keeps (z s : State) : Prop where
  serves : Serves z s
  resync : ResyncWith false (isOn z) s

theorem Keeps.quiet (h : Keeps z s) (q : Quiet s t) : Keeps z t :=
  ⟨serves_quiet h.serves q, resync_quiet h.resync q⟩

theorem Keeps.counts (h : Keeps z s) {c : ChannelNo} (hm : (s.chan c).settings.mode ≠ .off) : isOn z c = true := by
  rw [← isOn_serves h.serves]; simpa [isOn] using hm

theorem keeps_foldl {α : Type} {f : State → α → State} (hf : ∀ t a, Keeps z t → Keeps z (f t a)) (l : List α)
    (h : Keeps z s) : Keeps z (l.foldl f s) := by
  induction l generalizing s with
  | nil => exact h
  | cons a l ih => exact ih (hf _ _ h)

theorem keeps_fallOut (h : Keeps z s) (c : ChannelNo) (cause : Cause) (hc : (s.chan c).replState = .inStep)
    (hm : (s.chan c).settings.mode ≠ .off) : Keeps z (fallOut c cause s) :=
  ⟨serves_fallOut h.serves c cause, resync_fallOut h.resync c cause hc (h.counts hm)⟩

theorem keeps_enqueue (h : Keeps z s) (c : ChannelNo) (hc : (s.chan c).replState = .unseeded ∨ (s.chan c).replState = .outOfStep)
    (hm : (s.chan c).settings.mode ≠ .off) : Keeps z (enqueue c s) :=
  ⟨serves_enqueue h.serves c, resync_enqueue h.resync c hc (h.counts hm)⟩

theorem keeps_serve (h : Keeps z s) : Keeps z (serve s) :=
  ⟨serves_serve h.serves, resync_serve h.resync⟩

theorem keeps_failSnapshot (h : Keeps z s) (b : Bool) : Keeps z (failSnapshot b s) :=
  ⟨serves_failSnapshot h.serves b, resync_failSnapshot h.resync b⟩

theorem keeps_setReplication (h : Keeps z s) (c : ChannelNo) {st : ReplicationState} (cause : Cause) (n : Nat)
    (hst : st ≠ .resyncing) (hc : (s.chan c).replState ≠ .resyncing)
    (hq : c ∈ s.resyncQueue → st = .unseeded ∨ st = .outOfStep) : Keeps z (setReplication c st cause n s) :=
  ⟨serves_setReplication h.serves c st cause n, resync_setReplication h.resync c cause n hst hc hq⟩

/-- The assembly in place is changed, its channel kept, its resume sequence kept once it has one. -/
theorem keeps_assembly (h : Keeps z s) {a a' : Assembly} (ha : s.assembly = some a) (hc : a'.channel = a.channel)
    (hl : AssemblyLaw a → AssemblyLaw a') (hp : a.phase = .receiving → a'.phase = .receiving ∧ a'.resume = a.resume) :
    Keeps z { s with assembly := some a' } := by
  refine ⟨serves_touch h.serves, ⟨h.resync.once, h.resync.queued, h.resync.walking, h.resync.walkOnce, fun d => ?_, fun b hb => ?_,
    fun _ => ⟨(h.resync.deferred rfl).1, fun u hu => ?_⟩, fun h => by cases h⟩⟩
  · refine (h.resync.resyncing d).trans ?_
    rw [ha]
    exact ⟨fun ⟨_, b, hb, he⟩ => ⟨rfl, a', rfl, by cases hb; rw [hc]; exact he⟩,
      fun ⟨_, b, hb, he⟩ => ⟨rfl, a, rfl, by cases hb; rw [← hc]; exact he⟩⟩
  · cases hb
    have := h.resync.assembling a ha
    exact ⟨by rw [hc]; exact this.1, fun _ => hl (this.2 rfl)⟩
  · obtain ⟨b, hb, hph, r, hr, hd⟩ := (h.resync.deferred rfl).2 u hu
    rw [ha] at hb
    cases hb
    exact ⟨a', rfl, (hp hph).1, r, by rw [(hp hph).2]; exact hr, hd⟩

/-! ### Sequence checking, deferral and the edit budget -/

theorem keeps_storm (h : Keeps z s) (c : ChannelNo) (hc : (s.chan c).replState = .inStep) : Keeps z (storm c s) := by
  have h1 : Keeps z (modChan c (fun ch => { ch with budget := { ch.budget with stormPending := true } }) s) :=
    h.quiet (quiet_modChan (Quiet.refl s) c _)
  refine keeps_setReplication h1 c _ _ (by decide) ?_ (fun _ => Or.inr rfl)
  rw [chan_modChan_self]
  show (s.chan c).replState ≠ _
  rw [hc]; decide

theorem keeps_checkUpdate (h : Keeps z s) (c : ChannelNo) (u : Update) (hc : (s.chan c).replState = .inStep)
    (hm : (s.chan c).settings.mode ≠ .off) : Keeps z (checkUpdate c u s) := by
  unfold checkUpdate; split
  · exact h
  · exact keeps_fallOut h c _ hc hm
  · split
    · exact keeps_storm h c hc
    · exact ⟨serves_applyUpdate h.serves c true u, resync_applyUpdate h.resync c true u hc (h.counts hm)⟩

theorem keeps_deferUpdate (h : Keeps z s) (c : ChannelNo) (u : Update) : Keeps z (deferUpdate c u s) := by
  unfold deferUpdate; split
  · exact h
  · rename_i a ha
    split
    · rename_i resume hp hr
      simp only
      split
      · exact h
      · rename_i hd
        simp only [not_or, not_le] at hd
        split
        · exact h
        · rename_i hn
          split
          · refine ⟨serves_touch h.serves, ⟨h.resync.once, h.resync.queued, h.resync.walking, h.resync.walkOnce, h.resync.resyncing,
              h.resync.assembling, fun _ => ⟨?_, fun v hv => ?_⟩, fun h => by cases h⟩⟩
            · show ((s.deferral ++ [u]).map Update.sequence).Nodup
              rw [List.map_append, List.nodup_append]
              refine ⟨(h.resync.deferred rfl).1, by simp, fun x hx y hy => ?_⟩
              simp only [List.map_cons, List.map_nil, List.mem_singleton] at hy
              obtain ⟨v, hv, rfl⟩ := List.mem_map.1 hx
              rintro rfl
              exact hn (List.any_eq_true.2 ⟨v, hv, by simpa using hy⟩)
            · rcases List.mem_append.1 hv with hv | hv
              · exact (h.resync.deferred rfl).2 v hv
              · simp only [List.mem_singleton] at hv
                subst hv
                exact ⟨a, ha, hp, resume, hr, by omega, by omega⟩
          · exact keeps_assembly h ha rfl (fun hl => hl) (fun hp => ⟨hp, rfl⟩)
    · exact h

theorem keeps_receiveUpdate (h : Keeps z s) (c : ChannelNo) (u : Update) : Keeps z (receiveUpdate c u s) := by
  unfold receiveUpdate; split
  · exact h
  · rename_i hm
    split
    · rename_i hc; exact keeps_checkUpdate h c u hc hm
    · exact keeps_deferUpdate h c u
    all_goals exact h

theorem keeps_examineStorm (h : Keeps z s) (c : ChannelNo) : Keeps z (examineStorm c s) := by
  unfold examineStorm; split
  · have h1 : Keeps z (modChan c (fun ch => { ch with budget := { ch.budget with stormPending := false } }) s) :=
      h.quiet (quiet_modChan (Quiet.refl s) c _)
    simp only
    split
    · rename_i hc
      exact keeps_enqueue h1 c (Or.inr hc.1) hc.2.2
    · exact h1
  · exact h

theorem keeps_rrxFrame (h : Keeps z s) (c : ChannelNo) : Keeps z (rrxFrame c s) := by
  unfold rrxFrame; simp only; split
  · exact h.quiet (quiet_modChan (Quiet.refl s) c _)
  · split
    · exact keeps_examineStorm (h.quiet (quiet_modChan (Quiet.refl s) c _)) c
    · exact h.quiet (quiet_modChan (Quiet.refl s) c _)

/-! ### Site heartbeat -/

theorem keeps_takeHealthRecord (h : Keeps z s) (r : HealthRecord) : Keeps z (takeHealthRecord r s) := by
  unfold takeHealthRecord
  dsimp only
  have h1 : Keeps z (if r.fails then failListing r.channel s else okListing r.channel s) := by
    split
    · exact h.quiet (quiet_failListing (Quiet.refl s) _)
    · exact h.quiet (quiet_okListing (Quiet.refl s) _)
  revert h1
  generalize (if r.fails then failListing r.channel s else okListing r.channel s) = t
  intro h1
  split
  · rename_i hc; exact keeps_fallOut h1 _ _ hc.1 hc.2.1
  · exact h1

theorem keeps_takeDigestRecord (h : Keeps z s) (hs : List HealthRecord) (r : DigestRecord) : Keeps z (takeDigestRecord hs r s) := by
  unfold takeDigestRecord; split
  · rename_i ha
    simp only [acceptsDigest, Bool.and_eq_true, decide_eq_true_eq, Bool.not_eq_true', List.any_eq_false, Option.any_eq_false] at ha
    obtain ⟨⟨⟨⟨⟨⟨⟨⟨hc, hm⟩, hmir⟩, _⟩, hp⟩, hw⟩, _⟩, _⟩, _⟩ := ha
    refine Keeps.quiet (s := { s with pendingWalks := s.pendingWalks ++ [_] }) ?_ (quiet_startWalk (Quiet.refl _))
    refine ⟨serves_touch h.serves, ⟨h.resync.once, h.resync.queued, fun x hx => ?_, ?_, h.resync.resyncing, h.resync.assembling,
      fun _ => deferralLaw_congr (h.resync.deferred rfl) rfl rfl, fun h => by cases h⟩⟩
    · change x ∈ _ ++ (s.pendingWalks ++ [_]) at hx
      rw [← List.append_assoc] at hx
      rcases List.mem_append.1 hx with hx | hx
      · exact h.resync.walking x hx
      · simp only [List.mem_singleton] at hx
        subst hx
        exact ⟨hc, hmir, h.counts hm⟩
    · show ((_ ++ (s.pendingWalks ++ [_])).map WalkRecord.channel).Nodup
      rw [← List.append_assoc, List.map_append, List.nodup_append]
      refine ⟨h.resync.walkOnce, by simp, fun x hx y hy => ?_⟩
      simp only [List.map_cons, List.map_nil, List.mem_singleton] at hy
      obtain ⟨w, hwm, rfl⟩ := List.mem_map.1 hx
      rintro rfl
      rcases List.mem_append.1 hwm with hwm | hwm
      · cases hsw : s.walk with
        | none => rw [hsw] at hwm; simp at hwm
        | some v =>
          rw [hsw] at hwm
          simp only [Option.map_some, Option.toList_some, List.mem_singleton] at hwm
          subst hwm
          have := hw v hsw
          simp only [decide_eq_false_iff_not] at this
          exact this (by simpa using hy)
      · exact hp w hwm (by simpa using hy)
  · exact h

theorem keeps_takeHeartbeat (h : Keeps z s) (hs : List HealthRecord) (ds : List DigestRecord) : Keeps z (takeHeartbeat hs ds s) :=
  keeps_foldl (fun _ r ht => keeps_takeDigestRecord ht hs r) ds (keeps_foldl (fun _ r ht => keeps_takeHealthRecord ht r) hs h)

/-! ### The link -/

theorem quiet_sendStatus (h : Quiet z s) : Quiet z (sendStatus s) :=
  quiet_sendReplication (quiet_touch h) _

theorem keeps_linkComesUp (h : Keeps z s) : Keeps z (linkComesUp s) := by
  have h1 : Keeps z (raiseEvent .linkDownChange { s with linkUp := true, statusCount := 0 }) :=
    h.quiet (quiet_raiseEvent (quiet_touch (Quiet.refl s)) _)
  unfold linkComesUp
  simp only
  split
  · refine Keeps.quiet ?_ (quiet_bumpDraws (Quiet.refl _))
    split
    · exact (keeps_serve h1).quiet (quiet_sendStatus (Quiet.refl _))
    · exact keeps_serve (h1.quiet (quiet_sendStatus (Quiet.refl _)))
  · exact h1.quiet (quiet_sendStatus (Quiet.refl _))

theorem keeps_arrive {content : State → State} (hc : ∀ t, Keeps z t → Keeps z (content t)) (h : Keeps z s) : Keeps z (arrive content s) := by
  have h1 := hc { s with silence := 0 } (h.quiet (quiet_touch (Quiet.refl s)))
  unfold arrive
  simp only
  split
  · exact h1
  · exact keeps_linkComesUp h1

theorem quiet_malformed (h : Quiet z s) : Quiet z (malformed s) :=
  quiet_raiseEvent h _

theorem quiet_linkTick (h : Quiet z s) : Quiet z (linkTick s) := by
  unfold linkTick; split
  · split
    · exact quiet_raiseEvent (quiet_touch h) _
    · exact quiet_touch h
  · exact h

theorem quiet_statusTick (h : Quiet z s) : Quiet z (statusTick s) := by
  unfold statusTick; split
  · split
    · exact quiet_sendStatus (quiet_touch h)
    · exact quiet_touch h
  · exact h

/-! ### Snapshots -/

theorem keeps_takeOpen (h : Keeps z s) (c : ChannelNo) (resume count : Nat) : Keeps z (takeOpen c resume count s) := by
  unfold takeOpen; split
  · exact h
  · rename_i a ha
    split
    · exact h
    · rename_i hc
      simp only [not_or, not_not] at hc
      split
      · exact keeps_failSnapshot h _
      · rename_i hn
        refine Keeps.quiet (keeps_assembly (a' := { a with
          phase := .receiving, resume := some resume, expected := some count, nextIndex := 1 }) h ha rfl (fun hl => ?_) (fun hp => ?_))
          (quiet_abandonWalks (Quiet.refl _) c)
        · obtain ⟨h1, _, h3, _⟩ := hl
          obtain ⟨_, _, hst⟩ := h3 hc.2
          exact ⟨h1, by simp [hst], fun hp => (by cases hp), fun _ => ⟨rfl, count, rfl, not_lt.1 hn, by simp [hst]⟩⟩
        · rw [hc.2] at hp; cases hp

theorem keeps_takeItem (h : Keeps z s) (c : ChannelNo) (index : Nat) (raw : RawBody) : Keeps z (takeItem c index raw s) := by
  unfold takeItem; split
  · exact h
  · rename_i a ha
    split
    · exact h
    · rename_i hc
      simp only [not_or, not_not] at hc
      split
      · exact keeps_failSnapshot h _
      · rename_i hi
        simp only [not_or, not_lt] at hi
        split
        · exact h
        · rename_i hx
          unfold stageItem
          simp only
          split
          · exact keeps_failSnapshot h _
          · split
            · exact keeps_failSnapshot h _
            · split
              · exact keeps_failSnapshot h _
              · rename_i u hr
                have hq := quiet_requestSlot (Quiet.refl s) hr
                refine Keeps.quiet (keeps_assembly (a' := { a with
                  staged := a.staged ++ [raw.convert (s.chan c).settings.rate], nextIndex := a.nextIndex + 1 }) (h.quiet hq)
                  (hq.assembly.trans ha) rfl (fun hl => ?_) (fun hp => ⟨hp, rfl⟩)) (quiet_raiseIf (Quiet.refl _) _ _ _)
                obtain ⟨h1, h2, _, h4⟩ := hl
                obtain ⟨hres, n, hn, hlim, _⟩ := h4 hc.2
                refine ⟨h1, by simp [h2], fun hp => ?_, fun _ => ⟨hres, n, hn, hlim, ?_⟩⟩
                · exact absurd (hc.2.symm.trans hp) (by decide)
                · have he : a.expected = some n := hn
                  rw [he] at hi
                  have hi2 : index ≤ n := hi.2.1
                  rw [List.length_append, List.length_singleton]
                  omega

theorem quiet_takeStaged (h : Quiet z s) (c : ChannelNo) (es : List Entry) (b : Body) : Quiet z (takeStaged c es b s) := by
  unfold takeStaged; split
  · exact quiet_freeSlots h 1
  · exact quiet_freeSlots (quiet_writeAmendment h c _ _) 1
  · exact quiet_joinEntry h c _ _

theorem quiet_holdDeletions (h : Quiet z s) (c : ChannelNo) (es : List Entry) (staged : List Body) :
    Quiet z (holdDeletions c es staged s) := by
  refine quiet_foldl (fun t e ht => ?_) _ h
  split
  · exact quiet_writeAmendment ht c _ _
  · exact ht

theorem quiet_settleRefused (h : Quiet z s) (c : ChannelNo) (b : Bool) : Quiet z (settleRefused c b s) := by
  unfold settleRefused; split
  · exact quiet_refuseInService h c
  · exact quiet_modChan h c _

theorem quiet_joinStaged (c : ChannelNo) (a : Assembly) (s : State) :
    Quiet { s with assembly := some { a with staged := [] } } (joinStaged c a s) := by
  unfold joinStaged
  exact quiet_settleRefused (quiet_holdDeletions (quiet_foldl (fun _ b ht => quiet_takeStaged ht c _ b) _
    (quiet_keepOnly (Quiet.refl _) c _)) c _ _) c _

theorem serves_applyDeferred (turns : Nat) (c : ChannelNo) (q : List Update) (s : State) : Serves s (applyDeferred turns c q s).1 := by
  induction turns generalizing q s with
  | zero => exact Serves.refl s
  | succ n ih =>
    unfold applyDeferred
    split
    · exact Serves.refl s
    · split
      · exact Serves.refl s
      · exact (serves_applyUpdate (Serves.refl s) c false _).trans (ih _ _)

theorem resync_applyDeferred (turns : Nat) (c : ChannelNo) (q : List Update) {s : State} (h : ResyncWith true on s) (hon : on c = true) :
    ResyncWith true on (applyDeferred turns c q s).1 := by
  induction turns generalizing q s with
  | zero => exact h
  | succ n ih =>
    unfold applyDeferred
    split
    · exact h
    · rename_i hc
      split
      · exact h
      · exact ih _ (resync_applyUpdate h c false _ (not_not.1 hc) hon)

theorem keeps_commitSnapshot (h : Keeps z s) {a : Assembly} (ha : s.assembly = some a) : Keeps z (commitSnapshot a.channel a s) := by
  unfold commitSnapshot; split
  · exact keeps_failSnapshot h _
  · have hq : Quiet { s with assembly := some { a with staged := [] } }
        (setLastApplied a.channel (a.resume.getD 0) (abandonWalks a.channel (joinStaged a.channel a s))) :=
      quiet_setLastApplied (quiet_abandonWalks (quiet_joinStaged a.channel a s) a.channel) _ _
    dsimp only
    revert hq
    generalize setLastApplied a.channel (a.resume.getD 0) (abandonWalks a.channel (joinStaged a.channel a s)) = t
    intro hq
    have hs1 : Serves z (setReplication a.channel .inStep .none 0 t) :=
      serves_setReplication (serves_quiet (serves_touch h.serves) hq) _ _ _ _
    have hrep : (t.chan a.channel).replState = .resyncing := by rw [hq.repl]; exact assembled_resyncing h.resync ha
    have hwr : walkRecords (setReplication a.channel .inStep .none 0 t) = walkRecords t := by
      rw [walkRecords_setReplication, if_neg (fun hh => by rw [hrep] at hh; cases hh.1)]
    have hr1 : ResyncWith true (isOn z) (setReplication a.channel .inStep .none 0 t) := by
      refine ⟨?_, fun d hd => ?_, fun r hr => ?_, ?_, fun d => ?_, fun b hb => ⟨?_, fun h => (by cases h)⟩, fun h => (by cases h), fun _ => ?_⟩
      · rw [setReplication_resyncQueue, hq.queue]; exact h.resync.once
      · rw [setReplication_resyncQueue, hq.queue] at hd
        rw [setReplication_replState, if_neg (queued_ne h.resync ha hd), hq.repl]
        exact h.resync.queued d hd
      · rw [hwr] at hr
        have hr' := hq.walks.subset hr
        have hw := h.resync.walking r hr'
        rw [setReplication_replState, if_neg (walking_ne h.resync ha hr'), setReplication_changeover]
        exact ⟨by rw [hq.repl]; exact hw.1, hq.mirror r hr hw.2.1, hw.2.2⟩
      · rw [hwr]; exact h.resync.walkOnce.sublist (hq.walks.map _)
      · rw [setReplication_replState]
        refine ⟨fun he => ?_, fun he => absurd he.1 (by decide)⟩
        split at he
        · cases he
        · rename_i hne
          rw [hq.repl] at he
          obtain ⟨_, b, hb, hbc⟩ := (h.resync.resyncing d).1 he
          rw [ha] at hb; cases hb
          exact absurd hbc.symm hne
      · rw [setReplication_assembly, hq.assembly] at hb
        cases hb
        exact (h.resync.assembling a ha).1
      · rw [setReplication_assembly, hq.assembly]; rfl
    have hon := (h.resync.assembling a ha).1
    have hs2 := hs1.trans (serves_applyDeferred (setReplication a.channel .inStep .none 0 t).deferral.length a.channel
      (setReplication a.channel .inStep .none 0 t).deferral _)
    have hr2 := resync_applyDeferred (setReplication a.channel .inStep .none 0 t).deferral.length a.channel
      (setReplication a.channel .inStep .none 0 t).deferral hr1 hon
    revert hs2 hr2
    generalize applyDeferred (setReplication a.channel .inStep .none 0 t).deferral.length a.channel
      (setReplication a.channel .inStep .none 0 t).deferral (setReplication a.channel .inStep .none 0 t) = p
    intro hs2 hr2
    refine keeps_serve ⟨serves_clearAssembly ?_, resync_close ?_⟩
    · unfold afterDeferred; split
      · exact serves_fallOut hs2 _ _
      · exact hs2
    · unfold afterDeferred; split
      · rename_i hc; exact resync_fallOut hr2 _ _ hc.1 hon
      · exact hr2

theorem keeps_takeClose (h : Keeps z s) (c : ChannelNo) (count digest : Nat) : Keeps z (takeClose c count digest s) := by
  unfold takeClose; split
  · exact h
  · rename_i a ha
    split
    · exact h
    · rename_i hc
      simp only [not_or, not_not] at hc
      split
      · have := keeps_commitSnapshot h ha
        rw [hc.1] at this; exact this
      · exact keeps_failSnapshot h _

theorem keeps_snapshotTick (h : Keeps z s) : Keeps z (snapshotTick s) := by
  unfold snapshotTick; split
  · rename_i a ha _
    split
    · exact keeps_failSnapshot h _
    · exact keeps_assembly h ha rfl (fun hl => hl) (fun hp => ⟨hp, rfl⟩)
  · exact h

end Sys2Proof.Machine
end

