-- ==== Sys2Proof/Laws/QuietCommands.lean ====
section
/-! SUPPORT. Pulses, ticks, messages and commands keep the laws that hold between acts. -/

namespace Sys2Proof.Machine

set_option Elab.async false

variable {k : Nat} {z s t : State}

/-! ### Frame events -/

theorem keeps_blockFrame (h : Keeps z s) (hk : InvWith k s) (b : Block) (c : ChannelNo) : Keeps z (blockFrame b c s) := by
  cases b
  · exact h.quiet (quiet_sstFrame (Quiet.refl s) c)
  · exact keeps_rrxFrame h c
  · exact h.quiet (quiet_csvFrame (Quiet.refl s) c)
  · exact h.quiet (quiet_couFrame (Quiet.refl s) hk c)

/-- Both what an operation keeps and the laws of `InvWith`, so that the one can lean on the other. -/
structure Whole (z s : State) : Prop extends Keeps z s where
  laws : InvWith 0 s

theorem Whole.quiet (h : Whole z s) (q : Quiet s t) (hk : InvWith 0 t) : Whole z t :=
  ⟨h.toKeeps.quiet q, hk⟩

theorem whole_foldl {α : Type} {f : State → α → State} (hf : ∀ t a, Whole z t → Whole z (f t a)) (l : List α)
    (h : Whole z s) : Whole z (l.foldl f s) := by
  induction l generalizing s with
  | nil => exact h
  | cons a l ih => exact ih (hf _ _ h)

theorem whole_takeBlock (h : Whole z s) (b : Block) (c : ChannelNo) : Whole z (takeBlock b c s) := by
  refine ⟨?_, inv_takeBlock h.laws b c⟩
  unfold takeBlock; split
  · exact keeps_blockFrame (h.toKeeps.quiet (quiet_modChan (Quiet.refl s) c (beginPart b))) (inv_modChan h.laws c (beginPart b)) b c
  · exact h.toKeeps

theorem whole_workFrames (h : Whole z s) (held : List (ChannelNo × Block)) : Whole z (workFrames held s) := by
  refine whole_foldl (fun t c ht => whole_foldl (fun u b hu => ?_) _ ht) _ h
  split
  · exact hu
  · exact whole_takeBlock hu b c

theorem whole_pulseWork (h : Whole z s) (fam : Family) (b : Bool) (held : List (ChannelNo × Block)) : Whole z (pulseWork fam b held s) := by
  have h1 : Whole z (raiseFrames fam s) := by
    refine h.quiet (quiet_mapChannels (Quiet.refl s) _ ?_ ?_ ?_ ?_) (inv_raiseFrames h.laws fam)
    all_goals
      intro ch
      unfold frameAt
      simp only
      split <;> rfl
  have hg : ∀ u : State, Whole z u → Whole z (if u.device.routerFamily = fam then grantPulse u else u) := by
    intro u hu
    split
    · exact hu.quiet (quiet_grantPulse (Quiet.refl u)) (inv_grantPulse hu.laws)
    · exact hu
  unfold pulseWork
  simp only
  split
  · exact whole_workFrames (hg _ h1) held
  · exact hg _ (whole_workFrames h1 held)

/-! ### Pulses -/

theorem whole_modFamily (h : Whole z s) (fam : Family) (f : FamilyRecord → FamilyRecord)
    (hl : FamilyLaw (s.family fam) → FamilyLaw (f (s.family fam))) : Whole z (modFamily fam f s) :=
  h.quiet (quiet_modFamily (Quiet.refl s) fam f) (inv_modFamily h.laws fam f hl)

theorem whole_raiseEvent (h : Whole z s) (e : DeviceFlag) : Whole z (raiseEvent e s) :=
  h.quiet (quiet_raiseEvent (Quiet.refl s) e) (inv_raiseEvent h.laws e)

theorem whole_countPulse (h : Whole z s) (fam : Family) {at_ : Option Instant} (hs : (s.family fam).state ≠ .unset)
    (ha : at_.isSome) (b : Bool) (held : List (ChannelNo × Block)) : Whole z (countPulse fam at_ b held s) :=
  whole_pulseWork (whole_modFamily h fam _
    (fun hf => ⟨hf.1, Nat.min_le_right _ _, hf.2.2.1, fun hu => absurd hu hs, fun _ => ha⟩)) fam b held

theorem whole_parityCheck (h : Whole z s) (fam : Family) (m : Bool) : Whole z (parityCheck fam m s) := by
  unfold parityCheck; simp only; split
  · exact whole_raiseEvent h _
  · exact h

theorem whole_acceptedPulse (h : Whole z s) (fam : Family) (instant : Instant) (m b : Bool) (held : List (ChannelNo × Block)) :
    Whole z (acceptedPulse fam instant m b held s) := by
  unfold acceptedPulse
  simp only
  split
  · exact h
  · rename_i hs
    exact whole_parityCheck (whole_countPulse h fam (by rw [hs]; decide) rfl b held) fam m
  · rename_i hs
    split
    · have h1 : Whole z (raiseEvent .refRelock (modFamily fam (fun x => { x with state := .locked }) s)) :=
        whole_raiseEvent (whole_modFamily h fam _ (fun hf => ⟨hf.1, hf.2.1, hf.2.2.1, fun hu => (by cases hu),
          fun _ => hf.2.2.2.2 (by rw [hs]; decide)⟩)) _
      refine whole_parityCheck ?_ fam m
      split
      · exact h1
      · refine whole_countPulse h1 fam ?_ rfl b held
        rw [family_raiseEvent, family_modFamily_self]
        exact FamilyState.noConfusion
    · exact h

theorem whole_loadPulse (h : Whole z s) (fam : Family) (instant : Instant) (p : PendingSet) (hp : p.target ≤ Config.countLimit)
    (b : Bool) (held : List (ChannelNo × Block)) : Whole z (loadPulse fam instant p b held s) := by
  have h1 : Whole z (modFamily fam (FamilyRecord.loaded p.target instant) s) :=
    whole_modFamily h fam _ (fun hf => ⟨hf.1, hp, fun q hq => (by cases hq), fun hu => absurd hu (stateAfterLoad_counts _ _), fun _ => rfl⟩)
  have h2 : Whole z (if (s.family fam).state = .freerun ∧ (s.family fam).goodRun = Config.fullRun then
      raiseEvent .refRelock (modFamily fam (FamilyRecord.loaded p.target instant) s)
      else modFamily fam (FamilyRecord.loaded p.target instant) s) := by
    split
    · exact whole_raiseEvent h1 _
    · exact h1
  unfold loadPulse
  refine whole_pulseWork ?_ fam b held
  revert h2
  generalize (if (s.family fam).state = .freerun ∧ (s.family fam).goodRun = Config.fullRun then
      raiseEvent .refRelock (modFamily fam (FamilyRecord.loaded p.target instant) s)
      else modFamily fam (FamilyRecord.loaded p.target instant) s) = u
  intro h2
  split
  · exact h2.quiet (quiet_shiftReleases (Quiet.refl u) _ _) (inv_shiftReleases h2.laws _ _)
  · exact h2

theorem whole_referencePulse (h : Whole z s) (fam : Family) (instant : Instant) (m b : Bool) (held : List (ChannelNo × Block)) :
    Whole z (referencePulse fam instant m b held s) := by
  unfold referencePulse
  split
  · exact whole_modFamily h fam _ (fun hf => ⟨Nat.zero_le _, hf.2⟩)
  · have h1 : Whole z (modFamily fam (FamilyRecord.accept fam instant) s) :=
      whole_modFamily h fam _ (fun hf => ⟨by
        show (if _ then min _ Config.fullRun else 0) ≤ Config.fullRun
        split
        · exact Nat.min_le_right _ _
        · exact Nat.zero_le _, hf.2⟩)
    simp only
    split
    · rename_i p hp
      split
      · exact whole_acceptedPulse (whole_modFamily h1 fam _ (fun hf => ⟨hf.1, hf.2.1, fun q hq => (by cases hq), hf.2.2.2⟩)) fam instant _ b held
      · exact whole_loadPulse h1 fam instant p ((h.laws.families fam).2.2.1 p hp) b held
    · exact whole_acceptedPulse h1 fam instant _ b held
    · exact whole_acceptedPulse h1 fam instant _ b held

theorem whole_referenceAbsent (h : Whole z s) (fam : Family) (b : Bool) (held : List (ChannelNo × Block)) :
    Whole z (referenceAbsent fam b held s) := by
  have h1 : Whole z (modFamily fam (fun x => { x with goodRun := 0, absenceFrom := none }) s) :=
    whole_modFamily h fam _ (fun hf => ⟨Nat.zero_le _, hf.2⟩)
  unfold referenceAbsent
  simp only
  split
  · exact h
  · split
    · rename_i hs
      refine whole_countPulse (whole_raiseEvent (whole_modFamily h1 fam _ (fun hf => ⟨hf.1, hf.2.1, hf.2.2.1, fun hu => (by cases hu),
        fun _ => ?_⟩)) _) fam ?_ (nextDue_isSome h.laws fam (by rw [hs]; decide)) b held
      · rw [family_modFamily_self] at hf ⊢
        exact hf.2.2.2.2 (by show (s.family fam).state ≠ _; rw [hs]; decide)
      · rw [family_raiseEvent, family_modFamily_self]; exact FamilyState.noConfusion
    · exact h1

theorem whole_synthesise (h : Whole z s) (fam : Family) (b : Bool) (held : List (ChannelNo × Block)) :
    Whole z (synthesise fam b held s) := by
  unfold synthesise
  simp only
  split
  · rename_i hs
    have hs' : (s.family fam).state ≠ .unset := by rw [hs]; decide
    exact whole_countPulse h fam hs' (nextDue_isSome h.laws fam hs') b held
  · exact h

/-! ### From what is kept to the invariant -/

theorem whole_refl (h : Inv s) : Whole s s :=
  ⟨⟨Serves.refl s, resyncWith_of_inv h⟩, h.toInvWith⟩

/-- What is kept from a state of the invariant has the invariant. -/
theorem inv_of_whole (h : Inv z) (hw : Whole z s) : Inv s :=
  inv_of_parts hw.laws (fun c => hw.serves.service c (h.service c))
    (fun hp c hc => (hw.serves.confirm c hc).elim (h.confirm (hw.serves.host ▸ hp) c) (fun ht => by rw [← hw.serves.host, hp] at ht; cases ht))
    (by rw [isOn_serves hw.serves]; exact hw.resync)

theorem inv_of_keeps (h : Inv s) (hk : InvWith 0 s → InvWith 0 t) (hq : Keeps s s → Keeps s t) : Inv t :=
  inv_of_whole h ⟨hq (whole_refl h).toKeeps, hk h.toInvWith⟩

theorem inv_of_quiet (h : Inv s) (hk : InvWith 0 s → InvWith 0 t) (hq : Quiet s t) : Inv t :=
  inv_of_keeps h hk (fun hs => hs.quiet hq)

/-! ### The tick -/

theorem sendJoining_rest (c : ChannelNo) (r : Nat) (hp : s.hostPresent = false) (hc : (s.chan c).changeover ≠ .awaitConfirm) :
    ((sendJoining c r s).chan c).changeover ≠ .awaitConfirm := by
  intro he
  rcases (quiet_sendJoining (Quiet.refl s) c r).confirm c he with h | h
  · exact hc h
  · rw [hp] at h; cases h

/-- A channel that enters PREPARING does not wait for confirmation. -/
theorem enterPreparing_rest (c : ChannelNo) (hp : s.hostPresent = false) : ((enterPreparing c s).chan c).changeover ≠ .awaitConfirm := by
  unfold enterPreparing
  simp only
  rw [settleFrameNow_chan]
  refine sendJoining_rest c _ ?_ ?_
  · show (setChangeover c .preparing s).hostPresent = false
    rw [(quiet_setChangeover (Quiet.refl s) c .preparing (Or.inl rfl) (fun he => by cases he)).host]; exact hp
  · unfold beginTakeover
    rw [chan_modChan_self]
    obtain ⟨fl, he⟩ := setChangeover_chan (s := s) c c .preparing
    rw [he, if_pos rfl]
    show Changeover.preparing ≠ _
    decide

theorem hostAbsentAtCou_confirm (hp : s.hostPresent = false) (c : ChannelNo) : ((hostAbsentAtCou s).chan c).changeover ≠ .awaitConfirm := by
  have hturn : ∀ (d : ChannelNo) (t : State), Quiet t (if (t.chan d).changeover = .awaitConfirm then enterPreparing d t else t) := by
    intro d t
    split
    · exact quiet_enterPreparing (Quiet.refl t) d
    · exact Quiet.refl t
  -- once a channel has had its turn it does not wait, and no later turn makes it wait
  have main : ∀ (l : List ChannelNo) (t : State), t.hostPresent = false → (c ∈ l ∨ (t.chan c).changeover ≠ .awaitConfirm) →
      ((forChannels (fun c t => if (t.chan c).changeover = .awaitConfirm then enterPreparing c t else t) l t).chan c).changeover
        ≠ .awaitConfirm := by
    intro l
    induction l with
    | nil => intro t _ h; exact h.resolve_left List.not_mem_nil
    | cons d l ih =>
      intro t ht h
      refine ih _ ((hturn d t).host.trans ht) ?_
      by_cases hd : c = d
      · right
        subst hd
        dsimp only
        split
        · exact enterPreparing_rest c ht
        · assumption
      · rcases h with h | h
        · exact Or.inl ((List.mem_cons.1 h).resolve_left hd)
        · right
          intro he
          rcases (hturn d t).confirm c he with h' | h'
          · exact h h'
          · rw [ht] at h'; cases h'
  exact main allChannels s hp (Or.inl (List.mem_finRange c))

/-- The laws do not see whether the host is PRESENT, but for the channels that wait for confirmation. -/
theorem inv_hostPresence (h : Inv s) (b : Bool) (n : Nat) (hb : b = false → ∀ c, (s.chan c).changeover ≠ .awaitConfirm) :
    Inv { s with hostPresent := b, hostTimer := n } :=
  { inv_touch (t := { s with hostPresent := b, hostTimer := n }) h.toInvWith with
    service := h.service, confirm := hb, queued := h.queued, walking := h.walking, walkOnce := h.walkOnce, resyncing := h.resyncing
    assembling := h.assembling, deferred := h.deferred }

/-- The host is ABSENT, and the channels that waited for it enter PREPARING. -/
theorem between_absent (h : Inv s) (hc : t.channels = s.channels) (hp : t.hostPresent = false)
    (hr : ResyncWith false (isOn s) t) (hk : InvWith 0 (hostAbsentAtCou t)) : Inv (hostAbsentAtCou t) := by
  have hchan : ∀ c, t.chan c = s.chan c := fun c => by simp [State.chan, hc]
  have hq : Quiet t (hostAbsentAtCou t) := quiet_hostAbsentAtCou (Quiet.refl t)
  have hon : isOn t = isOn s := by funext c; unfold isOn; rw [hchan]
  refine inv_of_parts hk (fun c => hq.service c (by rw [hchan]; exact h.service c)) (fun _ c => hostAbsentAtCou_confirm hp c) ?_
  rw [isOn_serves hq.toServes, hon]
  exact resync_quiet hr hq

theorem between_hostTick (h : Inv s) : Inv (hostTick s) := by
  have hr := resyncWith_of_inv h
  unfold hostTick; split
  · split
    · exact between_absent h rfl rfl ⟨hr.once, hr.queued, hr.walking, hr.walkOnce, hr.resyncing, hr.assembling,
        fun hc => deferralLaw_congr (hr.deferred hc) rfl rfl, hr.closes⟩
        (inv_hostAbsentAtCou (inv_raiseEvent (inv_touch h.toInvWith) _))
    · exact inv_hostPresence h s.hostPresent (s.hostTimer + 1) h.confirm
  · exact h

theorem between_takeTick (h : Inv s) (c : ChannelNo) : Inv (takeTick c s) :=
  inv_of_quiet h (fun hk => inv_takeTick hk c) (quiet_takeTick (Quiet.refl s) h.toInvWith c)

theorem between_partTick (h : Inv s) (p : TickPart) : Inv (partTick p s) := by
  cases p
  · exact inv_of_quiet h (fun hk => inv_changeLine hk _ _) (quiet_changeLine (Quiet.refl s) _ _)
  · exact inv_of_quiet h inv_linkTick (quiet_linkTick (Quiet.refl s))
  · exact inv_of_quiet h inv_statusTick (quiet_statusTick (Quiet.refl s))
  · exact inv_of_keeps h inv_snapshotTick keeps_snapshotTick
  · exact inv_of_keeps h inv_walkTick (fun hs => ⟨serves_walkTick hs.serves, resync_walkTick hs.resync⟩)
  · exact between_takeTick h _
  · exact between_hostTick h

/-- A state that agrees on what the laws read keeps them. -/
theorem between_touch (h : Inv s) (hk : InvWith 0 t) (hq : Quiet s t) : Inv t :=
  inv_of_quiet h (fun _ => hk) hq

theorem between_tickDue (h : Inv s) (ps : List TickPart) : Inv { s with tickDue := ps } :=
  between_touch h (inv_touch h.toInvWith) (quiet_touch (Quiet.refl s))

theorem between_takePart (h : Inv s) (p : TickPart) : Inv (takePart p s) := by
  unfold takePart; split
  · exact between_partTick (between_tickDue h _) p
  · exact h

theorem between_takePartInOrder (h : Inv s) (p : TickPart) : Inv (takePartInOrder p s) := by
  unfold takePartInOrder; split
  · exact between_takePart (between_takePart h _) _
  · exact between_takePart h p

theorem between_foldl {α : Type} {f : State → α → State} (hf : ∀ t a, Inv t → Inv (f t a)) (l : List α) (h : Inv s) :
    Inv (l.foldl f s) := by
  induction l generalizing s with
  | nil => exact h
  | cons a l ih => exact ih (hf _ _ h)

theorem between_takeParts (h : Inv s) (held ps : List TickPart) : Inv (takeParts held ps s) := by
  refine between_foldl (fun t p ht => ?_) ps h
  split
  · exact ht
  · exact between_takePartInOrder ht p

theorem between_changeLine (h : Inv s) (l : LineNo) (f : SenseLine → SenseLine) : Inv (changeLine l f s) :=
  inv_of_quiet h (fun hk => inv_changeLine hk l f) (quiet_changeLine (Quiet.refl s) l f)

theorem between_msTick (h : Inv s) (levels : BitVec 16) (held : List TickPart) : Inv (msTick levels held s) := by
  have h1 : Inv (sampleLines levels (takeParts [] s.tickDue s)) :=
    between_foldl (fun t l ht => between_touch ht (inv_modLine ht.toInvWith l _) (quiet_modLine (Quiet.refl t) l _)) _
      (between_takeParts h [] _)
  unfold msTick
  revert h1
  generalize sampleLines levels (takeParts [] s.tickDue s) = t
  intro h1
  refine between_takeParts (between_tickDue ?_ (tickParts t)) held (tickParts t)
  split
  · exact h1
  · exact between_foldl (fun _ l ht => between_changeLine ht l _) _
      (between_touch h1 (inv_touch (t := { t with sampled := true }) h1.toInvWith) (quiet_touch (Quiet.refl t)))

/-! ### Messages -/

theorem keeps_receive {α : Type} {content : α → State → State} (hc : ∀ x t, Keeps z t → Keeps z (content x t)) (h : Keeps z s)
    (p : Option α) : Keeps z (receive p content s) := by
  unfold receive; split
  · exact keeps_arrive (hc _) h
  · exact keeps_arrive (fun t ht => ht.quiet (quiet_malformed (Quiet.refl t))) h

/-! ### The command frame -/

theorem between_hostSpeaks (h : Inv s) : Inv (hostSpeaks s) := by
  have h1 : Inv { s with hostTimer := 0, hostPresent := true } := inv_hostPresence h true 0 (fun hb => by cases hb)
  unfold hostSpeaks; simp only; split
  · exact h1
  · exact inv_of_quiet h1 (fun hk => inv_raiseEvent hk _) (quiet_raiseEvent (Quiet.refl _) _)

theorem between_portCommand {run : State → Answer} (hr : ∀ t, Inv t → Inv (run t).state) (h : Inv s) (write : Write) :
    Inv (portCommand write run s) := by
  have h0 : Inv (shiftPortByte write.early s) := between_touch h (inv_shiftPortByte h.toInvWith _) (quiet_touch (Quiet.refl s))
  have h1 := between_hostSpeaks h0
  have hend : ∀ t : State, Inv t → Inv (endTransaction t) := fun t ht =>
    between_touch ht (inv_endTransaction ht.toInvWith) (quiet_touch (Quiet.refl t))
  unfold portCommand
  refine hend _ ?_
  split
  · exact h1
  · exact between_touch (hr _ h1) (inv_withSlot (hr _ h1).toInvWith _) (quiet_touch (Quiet.refl _))

theorem between_withLength {run : State → Answer} (hr : ∀ t, Inv t → Inv (run t).state) (n : Nat) (body : List Byte) :
    ∀ t, Inv t → Inv (withLength n body run t).state := by
  intro t ht
  unfold withLength; split
  · exact hr t ht
  · exact ht

theorem between_withChannel {run : ChannelNo → State → Answer} (hr : ∀ c t, Inv t → Inv (run c t).state) (body : List Byte) :
    ∀ t, Inv t → Inv (withChannel body run t).state := by
  intro t ht
  unfold withChannel; split
  · exact ht
  · exact hr _ t ht

theorem between_channelCommand {run : ChannelNo → State → Answer} (hr : ∀ c t, Inv t → Inv (run c t).state) (body : List Byte) :
    ∀ t, Inv t → Inv (channelCommand body run t).state :=
  between_withLength (between_withChannel hr body) 1 body

/-! ### Store commands -/

theorem between_writeLocal (raw : RawBody) (c : ChannelNo) (h : Inv s) : Inv (writeLocal raw c s).state := by
  refine inv_of_quiet h (fun hk => inv_writeLocal raw c hk) ?_
  unfold writeLocal; simp only; split
  · exact Quiet.refl s
  · split
    · split
      · exact Quiet.refl s
      · exact quiet_replaceEntry (Quiet.refl s) c _ _
    · split
      · exact Quiet.refl s
      · split
        · exact Quiet.refl s
        · rename_i hr
          exact quiet_joinEntry (quiet_requestSlot (Quiet.refl s) hr) c _ _

theorem between_readEntry (body : List Byte) (c : ChannelNo) (h : Inv s) : Inv (readEntry body c s).state := by
  unfold readEntry; simp only; split
  · exact h
  · exact h
  · split <;> exact h

theorem between_findAt (body : List Byte) (c : ChannelNo) (h : Inv s) : Inv (findAt body c s).state := by
  unfold findAt; simp only; split
  · exact h
  · split <;> exact h

theorem between_listEntries (body : List Byte) (c : ChannelNo) (h : Inv s) : Inv (listEntries body c s).state := by
  unfold listEntries; simp only; split
  · exact h
  · split <;> exact h

theorem between_entryCommand {run : ChannelNo → Entry → State → Answer} (hr : ∀ c e t, Inv t → Inv (run c e t).state)
    (o : Origin) (body : List Byte) : ∀ t, Inv t → Inv (entryCommand o body run t).state := by
  unfold entryCommand
  refine between_withLength (between_withChannel (fun c t ht => ?_) body) 5 body
  simp only
  split
  · exact ht
  · split
    · exact ht
    · exact hr _ _ t ht

theorem between_deleteLocal (c : ChannelNo) (e : Entry) (h : Inv s) : Inv (deleteLocal c e s).state := by
  unfold deleteLocal; split
  · exact h
  · exact inv_of_quiet h (fun hk => inv_removeEntry hk c _) (quiet_removeEntry (Quiet.refl s) c _)

theorem quiet_setPinned (h : Quiet z s) (c : ChannelNo) (key : EntryKey) (b : Bool) : Quiet z (setPinned c key b s) :=
  quiet_abandonWalks (quiet_mapEntry h c key _) c

theorem between_pinEntry (c : ChannelNo) (e : Entry) (h : Inv s) : Inv (pinEntry c e s).state := by
  refine inv_of_quiet h (fun hk => inv_pinEntry c e hk) ?_
  show Quiet s (if e.pinned then s else setPinned c e.key true s)
  split
  · exact Quiet.refl s
  · exact quiet_setPinned (Quiet.refl s) c _ _

theorem between_unpinEntry (c : ChannelNo) (e : Entry) (h : Inv s) : Inv (unpinEntry c e s).state := by
  refine inv_of_quiet h (fun hk => inv_unpinEntry c e hk) ?_
  show Quiet s (if !e.pinned then s else _)
  split
  · exact Quiet.refl s
  · split
    · exact quiet_setPinned (Quiet.refl s) c _ _
    · exact quiet_applyAmendment (quiet_setPinned (Quiet.refl s) c _ _) c _

theorem keeps_flushReported (h : Keeps z s) (c : ChannelNo) : Keeps z (flushReported c s) := by
  unfold flushReported; split
  · rename_i hc; exact keeps_setReplication h c _ _ (by decide) (by rw [hc]; decide) (fun _ => Or.inr rfl)
  · exact h

theorem between_flush (body : List Byte) (c : ChannelNo) (h : Inv s) : Inv (flush body c s).state := by
  refine inv_of_keeps h (fun hk => inv_flush body c hk) (fun hs => ?_)
  unfold flush; split
  · exact hs
  · rename_i x _
    show Keeps s (if x = .localEntry then _ else _)
    split
    · exact hs.quiet (quiet_keepOnly (Quiet.refl s) c _)
    · exact keeps_flushReported (hs.quiet (quiet_keepOnly (Quiet.refl s) c _)) c

/-! ### Channel commands -/

theorem quiet_changeRate (h : Quiet z s) (c : ChannelNo) : Quiet z (changeRate c s) := by
  unfold changeRate; exact quiet_modChan (quiet_keepOnly h c _) c _

theorem isOn_writeSettings (c : ChannelNo) (g : Settings) (d : ChannelNo) :
    isOn (writeSettings c g s) d = if d = c then decide (g.mode ≠ .off) else isOn s d := by
  unfold isOn writeSettings
  rw [chan_modChan]
  split <;> rfl

/-- The Resync Unit's laws do not read settings. -/
theorem resync_writeSettings {cl : Bool} {on : ChannelNo → Bool} (h : ResyncWith cl on s) (c : ChannelNo) (g : Settings) :
    ResyncWith cl on (writeSettings c g s) := by
  have hr : ∀ d, ((writeSettings c g s).chan d).replState = (s.chan d).replState := by
    intro d; unfold writeSettings; rw [chan_modChan]; split
    · rename_i he; subst he; rfl
    · rfl
  have hm : ∀ d, ((writeSettings c g s).chan d).changeover = (s.chan d).changeover := by
    intro d; unfold writeSettings; rw [chan_modChan]; split
    · rename_i he; subst he; rfl
    · rfl
  exact ⟨h.once, fun d hd => by rw [hr]; exact h.queued d hd, fun r hr' => by rw [hr, hm]; exact h.walking r hr', h.walkOnce,
    fun d => by rw [hr]; exact h.resyncing d, h.assembling, fun hc => deferralLaw_congr (h.deferred hc) rfl rfl, h.closes⟩

/-- A channel that is in no list of the unit may count as OFF. -/
theorem resync_off {on on' : ChannelNo → Bool} (h : ResyncWith false on s) (c : ChannelNo) (hon : ∀ d, d ≠ c → on d = true → on' d = true)
    (hq : c ∉ s.resyncQueue) (hw : ∀ r ∈ walkRecords s, r.channel ≠ c) (ha : ∀ a ∈ s.assembly, a.channel ≠ c) : ResyncWith false on' s :=
  ⟨h.once, fun d hd => ⟨(h.queued d hd).1, hon d (fun he => hq (he ▸ hd)) (h.queued d hd).2⟩,
    fun r hr => ⟨(h.walking r hr).1, (h.walking r hr).2.1, hon _ (hw r hr) (h.walking r hr).2.2⟩, h.walkOnce, h.resyncing,
    fun a hm => ⟨hon _ (ha a hm) (h.assembling a hm).1, (h.assembling a hm).2⟩, h.deferred, h.closes⟩

theorem serves_moveIntoOff (h : Serves z s) (c : ChannelNo) : Serves z (moveIntoOff c s) := by
  have h1 : Serves z (abandonAssemblyOf c (abandonWalks c (dequeue c s))) :=
    serves_abandonAssemblyOf (serves_quiet (serves_dequeue h c) (quiet_abandonWalks (Quiet.refl _) c)) c
  unfold moveIntoOff
  refine serves_serve ?_
  split
  · exact serves_setReplication h1 c _ _ _
  · exact h1

theorem resync_moveIntoOff {on on' : ChannelNo → Bool} (h : ResyncWith false on s) (c : ChannelNo)
    (hon : ∀ d, d ≠ c → on d = true → on' d = true) : ResyncWith false on' (moveIntoOff c s) := by
  have h1 : ResyncWith false on (abandonWalks c (dequeue c s)) := resync_quiet (resync_dequeue h c) (quiet_abandonWalks (Quiet.refl _) c)
  have hq : c ∉ (abandonWalks c (dequeue c s)).resyncQueue := by
    rw [abandonWalks_queue]
    show c ∉ s.resyncQueue.filter _
    simp
  have hw : ∀ r ∈ walkRecords (abandonWalks c (dequeue c s)), r.channel ≠ c := by
    intro r hr
    rw [walkRecords_abandonWalks] at hr
    simpa using (List.mem_filter.1 hr).2
  unfold moveIntoOff
  dsimp only
  generalize abandonWalks c (dequeue c s) = u at h1 hq hw
  refine resync_serve ?_
  -- whether the assembly names the channel
  by_cases hc : ∃ a, s = s ∧ u.assembly = some a ∧ a.channel = c
  · obtain ⟨a, _, ha, hac⟩ := hc
    have he : abandonAssemblyOf c u = clearAssembly u := by unfold abandonAssemblyOf; rw [ha]; simp only [hac, if_true]
    have hrep := assembled_resyncing h1 ha
    have hrep' : ((abandonAssemblyOf c u).chan c).replState = .resyncing := by rw [he, clearAssembly_chan, ← hac]; exact hrep
    rw [if_pos hrep', he, ← hac]
    have h2 := resync_settle (st := .outOfStep) h1 ha ((clearAssembly u).chan a.channel).cause ((clearAssembly u).chan a.channel).attempts (by decide)
    obtain ⟨_, hcq, hca, _, hcw, _⟩ := clearAssembly_parts u
    refine resync_off h2 c hon ?_ (fun r hr => ?_) (fun b hb => ?_)
    · rw [setReplication_resyncQueue, hcq]; exact hq
    · rw [walkRecords_setReplication, hcw] at hr
      split at hr
      · exact hw r (List.mem_filter.1 hr).1
      · exact hw r hr
    · rw [setReplication_assembly, hca] at hb; cases hb
  · have he : abandonAssemblyOf c u = u := by
      unfold abandonAssemblyOf
      split
      · rename_i a ha
        rw [if_neg (fun hac => hc ⟨a, rfl, ha, hac⟩)]
      · rfl
    rw [he, if_neg]
    · exact resync_off h1 c hon hq hw (fun a ha hac => hc ⟨a, rfl, ha, hac⟩)
    · intro hr
      obtain ⟨_, a, ha, hac⟩ := (h1.resyncing c).1 hr
      exact hc ⟨a, rfl, ha, hac⟩

theorem serves_moveOutOfOff (h : Serves z s) (c : ChannelNo) : Serves z (moveOutOfOff c s) := by
  unfold moveOutOfOff; split
  · exact serves_enqueue h c
  · exact serves_fallOut h c _
  · split
    · exact h
    · exact serves_enqueue h c
  all_goals exact h

theorem resync_moveOutOfOff {cl : Bool} {on : ChannelNo → Bool} (h : ResyncWith cl on s) (c : ChannelNo) (hon : on c = true) :
    ResyncWith cl on (moveOutOfOff c s) := by
  unfold moveOutOfOff; split
  · rename_i hc; exact resync_enqueue h c (Or.inl hc) hon
  · rename_i hc; exact resync_fallOut h c _ hc hon
  · rename_i hc
    split
    · exact h
    · exact resync_enqueue h c (Or.inr hc) hon
  all_goals exact h

/-- The laws of service do not read settings. -/
theorem service_writeSettings (c d : ChannelNo) (g : Settings) (h : ServiceLaw (s.chan d)) : ServiceLaw ((writeSettings c g s).chan d) := by
  unfold writeSettings; rw [chan_modChan]; split
  · rename_i he; subst he; exact h
  · exact h

theorem writeSettings_changeover (c d : ChannelNo) (g : Settings) : ((writeSettings c g s).chan d).changeover = (s.chan d).changeover := by
  unfold writeSettings; rw [chan_modChan]; split
  · rename_i he; subst he; rfl
  · rfl

theorem between_configure (h : Inv s) (c : ChannelNo) (g : Settings) (hk : InvWith 0 (configure c g s)) : Inv (configure c g s) := by
  have h1 := resync_writeSettings (resyncWith_of_inv h) c g
  unfold configure at hk ⊢
  dsimp only at hk ⊢
  have hq : Quiet (writeSettings c g s) (if g.rate = (s.chan c).settings.rate then writeSettings c g s else changeRate c (writeSettings c g s)) := by
    split
    · exact Quiet.refl _
    · exact quiet_changeRate (Quiet.refl _) c
  have hset : (writeSettings c g s).hostPresent = s.hostPresent := rfl
  generalize (if g.rate = (s.chan c).settings.rate then writeSettings c g s else changeRate c (writeSettings c g s)) = u at hk hq ⊢
  have h2 := resync_quiet h1 hq
  have hon : isOn u = isOn (writeSettings c g s) := isOn_serves hq.toServes
  have hmode : (u.chan c).settings.mode = g.mode := by
    rw [hq.mode]; unfold writeSettings; rw [chan_modChan_self]
  have hbefore : isOn s c = decide ((s.chan c).settings.mode ≠ .off) := rfl
  -- what follows the writing serves, and ends with the unit's laws for the modes as they now are
  have hfin : Serves u (changeMode c (s.chan c).settings.mode u) ∧ ResyncWith false (isOn u) (changeMode c (s.chan c).settings.mode u) := by
    unfold changeMode
    dsimp only
    rw [hmode]
    split
    · refine ⟨serves_moveIntoOff (Serves.refl u) c, resync_moveIntoOff h2 c (fun d hd hd' => ?_)⟩
      rw [hon, isOn_writeSettings, if_neg hd]; exact hd'
    · have hmono : ((s.chan c).settings.mode = .off ∨ g.mode ≠ .off) → ∀ d, isOn s d = true → isOn u d = true := by
        intro hm d hd
        rw [hon, isOn_writeSettings]
        split
        · rename_i he; subst he
          rcases hm with hm | hm
          · rw [hbefore, hm] at hd; simp at hd
          · simpa using hm
        · exact hd
      split
      · rename_i hout
        exact ⟨serves_moveOutOfOff (Serves.refl u) c, resync_moveOutOfOff (resync_mono h2 (hmono (Or.inl hout.1))) c
          (by rw [hon, isOn_writeSettings, if_pos rfl]; simpa using hout.2)⟩
      · rename_i hin _
        refine ⟨Serves.refl u, resync_mono h2 (hmono ?_)⟩
        by_cases ho : (s.chan c).settings.mode = .off
        · exact Or.inl ho
        · exact Or.inr (fun hg => hin ⟨ho, hg⟩)
  refine inv_of_parts hk (fun d => hfin.1.service d (hq.service d (service_writeSettings c d g (h.service d)))) (fun hp d hd => ?_)
    (by rw [isOn_serves hfin.1]; exact hfin.2)
  have hp' : s.hostPresent = false := by rw [hfin.1.host, hq.host, hset] at hp; exact hp
  rcases hfin.1.confirm d hd with hd | hd
  · rcases hq.confirm d hd with hd | hd
    · rw [writeSettings_changeover] at hd; exact h.confirm hp' d hd
    · rw [hset, hp'] at hd; cases hd
  · rw [hq.host, hset, hp'] at hd; cases hd

theorem between_configureAnswer (body : List Byte) (c : ChannelNo) (h : Inv s) : Inv (configureAnswer body c s).state := by
  have hk := inv_configureAnswer body c h.toInvWith
  unfold configureAnswer at hk ⊢
  cases hg : settingsOf body with
  | none => exact h
  | some g =>
    rw [hg] at hk
    dsimp only at hk ⊢
    by_cases hr : modeOrRateRefused s c g = true
    · rw [if_pos hr]; exact h
    · rw [if_neg hr] at hk ⊢; exact between_configure h c _ hk

theorem between_readChannelAnswer (c : ChannelNo) (h : Inv s) : Inv (readChannelAnswer c s).state :=
  inv_of_quiet h (fun hk => inv_readChannelAnswer c hk) (quiet_unattend (quiet_modChan (Quiet.refl s) c _) c)

theorem serviceLaw_cleared (ch : Channel) : ServiceLaw ch.cleared :=
  ⟨fun _ he => absurd he List.not_mem_nil, fun _ he => absurd he List.not_mem_nil⟩

theorem between_clearChannel (h : Inv s) (c : ChannelNo) (hc : (s.chan c).changeover = .mirror) : Inv (clearChannel c s) := by
  have hk := inv_clearChannel h.toInvWith c
  have hq : Quiet s (abandonWalks c (keepOnly c (fun _ => false) s)) := quiet_abandonWalks (quiet_keepOnly (Quiet.refl s) c _) c
  have h1 : ResyncWith false (isOn s) (abandonWalks c (keepOnly c (fun _ => false) s)) := resync_quiet (resyncWith_of_inv h) hq
  have hw : ∀ r ∈ walkRecords (abandonWalks c (keepOnly c (fun _ => false) s)), r.channel ≠ c := by
    intro r hr
    rw [walkRecords_abandonWalks] at hr
    simpa using (List.mem_filter.1 hr).2
  unfold clearChannel at hk ⊢
  dsimp only at hk ⊢
  generalize abandonWalks c (keepOnly c (fun _ => false) s) = u at hk hq h1 hw ⊢
  have hs2 : Serves u (unattend c (modChan c Channel.cleared (dropRequest c (abandonAssemblyOf c (dequeue c u))))) := by
    have hs1 : Serves u (abandonAssemblyOf c (dequeue c u)) := serves_abandonAssemblyOf (serves_dequeue (Serves.refl u) c) c
    have hch : ∀ d, (dropRequest c (abandonAssemblyOf c (dequeue c u))).chan d = u.chan d := by
      intro d
      show (abandonAssemblyOf c (dequeue c u)).chan d = _
      rw [abandonAssemblyOf_chan]; rfl
    refine ⟨fun d hd => ?_, fun d => ?_, hs1.host, fun d hd => ?_⟩
    · rw [unattend_chan, chan_modChan]; split
      · exact serviceLaw_cleared _
      · rw [hch]; exact hd
    · rw [unattend_chan, chan_modChan, hch, hch]; split
      · rename_i he; subst he; rfl
      · rfl
    · rw [unattend_chan, chan_modChan, hch] at hd; split at hd
      · cases hd
      · rw [hch] at hd; exact Or.inl hd
  have hr2 : ResyncWith false (isOn s) (unattend c (modChan c Channel.cleared (dropRequest c (abandonAssemblyOf c (dequeue c u))))) := by
    have hch : ∀ d, d ≠ c → (unattend c (modChan c Channel.cleared (dropRequest c (abandonAssemblyOf c (dequeue c u))))).chan d = u.chan d := by
      intro d hd
      rw [unattend_chan, chan_modChan_ne _ hd]
      show (abandonAssemblyOf c (dequeue c u)).chan d = _
      rw [abandonAssemblyOf_chan]; rfl
    have hself : ((unattend c (modChan c Channel.cleared (dropRequest c (abandonAssemblyOf c (dequeue c u))))).chan c).replState = .unseeded := by
      rw [unattend_chan, chan_modChan_self]; rfl
    have hparts : (abandonAssemblyOf c (dequeue c u)).resyncQueue = u.resyncQueue.filter (fun d => decide (d ≠ c)) ∧
        walkRecords (abandonAssemblyOf c (dequeue c u)) = walkRecords u ∧
        (((abandonAssemblyOf c (dequeue c u)).assembly = u.assembly ∧ (abandonAssemblyOf c (dequeue c u)).deferral = u.deferral ∧
            ∀ a ∈ u.assembly, a.channel ≠ c) ∨
         ((abandonAssemblyOf c (dequeue c u)).assembly = none ∧ (abandonAssemblyOf c (dequeue c u)).deferral = [] ∧
            ∀ a ∈ u.assembly, a.channel = c)) := by
      unfold abandonAssemblyOf
      have hd : (dequeue c u).assembly = u.assembly := rfl
      rw [hd]
      cases ha : u.assembly with
      | none => exact ⟨rfl, rfl, Or.inl ⟨ha, rfl, fun a hm => by cases hm⟩⟩
      | some a =>
        dsimp only
        split
        · rename_i hac
          obtain ⟨_, hcq, hca, hcd, hcw, _⟩ := clearAssembly_parts (dequeue c u)
          exact ⟨hcq, hcw, Or.inr ⟨hca, hcd, fun b hb => by cases hb; exact hac⟩⟩
        · rename_i hac
          exact ⟨rfl, rfl, Or.inl ⟨ha, rfl, fun b hb => by cases hb; exact hac⟩⟩
    refine resync_rewrite h1 c ?_ (fun d hd => ?_) ?_ (fun r hr => ?_) (fun d hd => by rw [hch d hd]) (fun d hd => by rw [hch d hd])
      (by rw [hself]; decide) hparts.2.2
    · show ((abandonAssemblyOf c (dequeue c u)).resyncQueue).Nodup
      rw [hparts.1]; exact h1.once.filter _
    · change d ∈ (abandonAssemblyOf c (dequeue c u)).resyncQueue at hd
      rw [hparts.1, List.mem_filter] at hd
      exact ⟨hd.1, by simpa using hd.2⟩
    · show (walkRecords (abandonAssemblyOf c (dequeue c u))).Sublist _
      rw [hparts.2.1]
    · change r ∈ walkRecords (abandonAssemblyOf c (dequeue c u)) at hr
      rw [hparts.2.1] at hr; exact hw r hr
  have hself : ((unattend c (modChan c Channel.cleared (dropRequest c (abandonAssemblyOf c (dequeue c u))))).chan c).replState = .unseeded := by
    rw [unattend_chan, chan_modChan_self]; rfl
  generalize unattend c (modChan c Channel.cleared (dropRequest c (abandonAssemblyOf c (dequeue c u)))) = v at hk hs2 hr2 hself ⊢
  have hkeep : Keeps s v := ⟨hq.toServes.trans hs2, hr2⟩
  refine inv_of_whole h ⟨?_, hk⟩
  split
  · exact keeps_serve hkeep
  · rename_i hm
    have hraise : Quiet v (raise c .replication v) := quiet_raise (Quiet.refl v) c _
    exact keeps_enqueue (hkeep.quiet hraise) c (Or.inl (by rw [hraise.repl]; exact hself)) (by rw [hraise.mode]; exact hm)

theorem between_clearAnswer (c : ChannelNo) (h : Inv s) : Inv (clearAnswer c s).state := by
  unfold clearAnswer; split
  · exact h
  · rename_i hc; exact between_clearChannel h c (not_not.1 hc)

theorem keeps_resyncAnswer (c : ChannelNo) (h : Keeps z s) : Keeps z (resyncAnswer c s).state := by
  unfold resyncAnswer; simp only; split
  · exact h
  · rename_i hm
    have hset : ∀ (st : ReplicationState) (cause : Cause), (st = .unseeded ∨ st = .outOfStep) → (s.chan c).replState ≠ .resyncing →
        Keeps z (setReplication c st cause 0 s) ∧ Keeps z (enqueue c (setReplication c st cause 0 s)) := by
      intro st cause hst hr
      have h1 : Keeps z (setReplication c st cause 0 s) :=
        keeps_setReplication h c cause 0 (by rcases hst with e | e <;> rw [e] <;> decide) hr (fun _ => hst)
      refine ⟨h1, keeps_enqueue h1 c ?_ ?_⟩
      · rw [setReplication_replState, if_pos rfl]; exact hst
      · rw [(serves_setReplication (Serves.refl s) c st cause 0).mode]; exact hm
    split
    · exact h
    · exact h
    · rename_i hc
      split
      · exact (hset _ _ (Or.inl hc) (by rw [hc]; decide)).1
      · exact (hset _ _ (Or.inl hc) (by rw [hc]; decide)).2
    · rename_i hc
      split
      · exact (hset _ _ (Or.inr hc) (by rw [hc]; decide)).1
      · exact (hset _ _ (Or.inr hc) (by rw [hc]; decide)).2
    · rename_i hc
      exact (hset _ _ (Or.inr rfl) (by rw [hc]; decide)).2

theorem between_resyncAnswer (c : ChannelNo) (h : Inv s) : Inv (resyncAnswer c s).state :=
  inv_of_keeps h (fun hk => inv_resyncAnswer c hk) (fun hs => keeps_resyncAnswer c hs)

/-! ### Changeover commands -/

theorem between_takeAnswer (c : ChannelNo) (h : Inv s) : Inv (takeAnswer c s).state := by
  refine inv_of_quiet h (fun hk => inv_takeAnswer c hk) ?_
  unfold takeAnswer; split
  · exact Quiet.refl s
  · split
    · exact quiet_enterPreparing (Quiet.refl s) c
    · exact quiet_enterPreparing (Quiet.refl s) c
    · exact quiet_enterPreparing (Quiet.refl s) c
    all_goals exact Quiet.refl s

theorem between_declineAnswer (c : ChannelNo) (h : Inv s) : Inv (declineAnswer c s).state := by
  refine inv_of_quiet h (fun hk => inv_declineAnswer c hk) ?_
  unfold declineAnswer; split
  · rename_i hc
    exact quiet_requestHoldOff (quiet_modChan (quiet_leaveRest (Quiet.refl s) c _ (by rw [hc]; rfl) (by decide)) c _) c
  · exact Quiet.refl s

theorem between_givebackAnswer (c : ChannelNo) (h : Inv s) : Inv (givebackAnswer c s).state := by
  refine inv_of_quiet h (fun hk => inv_givebackAnswer c hk) ?_
  unfold givebackAnswer; split
  · exact quiet_settleFrameNow (quiet_startGiveback (Quiet.refl s) c _ _) c
  · exact Quiet.refl s

theorem between_returnNowAnswer (c : ChannelNo) (h : Inv s) : Inv (returnNowAnswer c s).state := by
  refine inv_of_quiet h (fun hk => inv_returnNowAnswer c hk) ?_
  unfold returnNowAnswer; split
  · exact quiet_startGiveback (Quiet.refl s) c _ _
  · show Quiet s (if _ then _ else s)
    split
    · exact quiet_requestGiveback (quiet_modChan (Quiet.refl s) c _) c _
    · exact Quiet.refl s
  all_goals exact Quiet.refl s

theorem between_abandonAnswer (c : ChannelNo) (h : Inv s) : Inv (abandonAnswer c s).state := by
  refine inv_of_quiet h (fun hk => inv_abandonAnswer c hk) ?_
  unfold abandonAnswer; split
  · rename_i hc
    exact quiet_requestHoldOff (quiet_leaveRest (Quiet.refl s) c _ (by rw [hc]; rfl) (by decide)) c
  · exact Quiet.refl s

theorem between_releaseLatchAnswer (c : ChannelNo) (h : Inv s) : Inv (releaseLatchAnswer c s).state :=
  inv_of_quiet h (fun hk => inv_releaseLatchAnswer c hk) (quiet_raiseIf (quiet_modChan (Quiet.refl s) c _) _ _ _)

/-! ### Time and device commands -/

theorem between_setTimeAnswer (body : List Byte) (h : Inv s) : Inv (setTimeAnswer body s).state := by
  refine inv_of_quiet h (fun hk => inv_setTimeAnswer body hk) ?_
  unfold setTimeAnswer; simp only; split
  · split
    · exact Quiet.refl s
    · split
      · exact Quiet.refl s
      · rename_i fam r _ _ _ _
        exact quiet_modFamily (Quiet.refl s) fam (fun f => { f with
          pendingSet := some { target := targetCount r (absoluteFrame r (numAt body 1 2) (labelAt body 3)), rate := r,
                               day := numAt body 1 2, label := (labelAt body 3).clamp r } })
  · exact Quiet.refl s

theorem between_readTimeAnswer (body : List Byte) (h : Inv s) : Inv (readTimeAnswer body s).state := by
  unfold readTimeAnswer; split <;> exact h

theorem quiet_storeDevice (h : Quiet z s) (d : DeviceSettings) : Quiet z (storeDevice d s) :=
  quiet_mapChannels (s := { s with device := d }) (quiet_touch h)
    (fun ch => { ch with retention := secondsToFrames ch.settings.rate d.retentionS }) (fun _ => rfl) (fun _ => rfl) (fun _ => rfl)
    (fun _ => rfl)

theorem between_configureDeviceAnswer (body : List Byte) (h : Inv s) : Inv (configureDeviceAnswer body s).state := by
  refine inv_of_quiet h (fun hk => inv_configureDeviceAnswer body hk) ?_
  unfold configureDeviceAnswer; split
  · exact Quiet.refl s
  · split
    · exact Quiet.refl s
    · exact quiet_storeDevice (Quiet.refl s) _

theorem quiet_configureLine (h : Quiet z s) (l : LineNo) (f : SenseFunction) (m : Option ChannelNo) (e : Level) (d : Nat) :
    Quiet z (configureLine l f m e d s).state :=
  quiet_changeLine h l (fun x => { x with function := f, mapped := m, expected := e, debounce := min d 255 })

theorem between_configureLineAnswer (body : List Byte) (h : Inv s) : Inv (configureLineAnswer body s).state := by
  refine inv_of_quiet h (fun hk => inv_configureLineAnswer body hk) ?_
  unfold configureLineAnswer; split
  · exact quiet_configureLine (Quiet.refl s) _ _ _ _ _
  · split
    · exact Quiet.refl s
    · split
      · exact Quiet.refl s
      · exact quiet_configureLine (Quiet.refl s) _ _ _ _ _
  · exact Quiet.refl s

theorem between_readLinesAnswer (h : Inv s) : Inv (readLinesAnswer s).state :=
  between_touch h (inv_readLinesAnswer h.toInvWith) (quiet_touch (Quiet.refl s))

theorem between_restartLink (h : Inv s) : Inv (restartLink s) := by
  have hq : Quiet s { (if s.linkUp then raiseEvent .linkDownChange s else s) with linkUp := false, silence := 0, statusCount := 0 } := by
    split
    · exact quiet_touch (quiet_raiseEvent (Quiet.refl s) .linkDownChange)
    · exact quiet_touch (Quiet.refl s)
  refine inv_of_keeps h inv_restartLink (fun hs => ?_)
  unfold restartLink
  have h1 := hs.quiet hq
  exact ⟨serves_restartResync h1.serves, resync_restartResync h1.resync⟩

end Sys2Proof.Machine
end

