-- ==== Sys2Proof/Tests/Slice0.lean ====
section
/-! SUPPORT. The model's own tests: a smoke test of well-formedness, values worked by hand from the spec, and for each
statement a state and operands that meet its hypotheses. -/

open Sys2Proof Sys2Proof.Machine Sys2Proof.Says

namespace Sys2Proof.Tests

set_option Elab.async false

/-! ### Small states and bodies -/

/-- A MEDIA entry, PLANNED. -/
def media (o : Origin) (id start duration : Nat) : Entry :=
  { origin := o
    body := { entryId := id, revision := 1, start := start, duration := duration, content := .media [] 0, priority := 2, secondaries := [] }
    status := .planned, pinned := false, amendment := none }

/-- A REPLICATED entry of 50 frames at frame 100 under ID 7, with the status given. -/
def seven (st : EntryStatus) : Entry :=
  { media .replicated 7 100 50 with status := st }

/-- The reset state with this record for channel 0 and the free slots that leaves. -/
def site (ch : Channel) : State :=
  { modChan 0 (fun _ => ch) State.reset with freeCount := 8192 - ch.schedule.length }

/-- A channel that is PROTECTED, in step, at frame 100. -/
def guarded : Channel :=
  { Channel.reset with
    settings := { Settings.reset with mode := .protectedMode }, frame := some 100, replState := .inStep, lastApplied := some 0 }

/-- The body bytes of a MEDIA entry at a frame of second 4 of day 0. -/
def entryBytes (id revision ff duration : Nat) : List Byte :=
  bytesOf 4 id ++ bytesOf 2 revision ++ bytesOf 2 0 ++ bytesOf 4 (1024 + ff) ++ bytesOf 4 duration ++ [1, 2, 0] ++
    List.replicate 22 0

/-- The body of a CONFIGURE CHANNEL of channel 0 with the reset values but for mode, rate, and heartbeat limit. -/
def channelBytes (mode rate : Byte) (hbLimitMs : Nat) : List Byte :=
  [0, mode, rate, 1, 1, 0, 2, 1, 0] ++ bytesOf 4 hbLimitMs ++ bytesOf 4 500 ++ bytesOf 4 10000 ++ bytesOf 4 5000 ++
    bytesOf 2 10 ++ bytesOf 2 50 ++ [3] ++ bytesOf 2 600 ++ [0]

/-- A body of this length that names channel 0 meets an EMPTY slot. -/
abbrev meets (body : List Byte) (n : Nat) (s : State) : Prop :=
  s.slot = none ∧ body.length = n ∧ channelOf (numAt body 0 1) = some 0

/-! ### The laws of small states -/

/-- A channel's laws, decidable: amendments are looked at one by one. -/
def lawful (ch : Channel) : Bool :=
  decide (ch.settings.clamped = ch.settings ∧ ch.settings.convert = ch.settings ∧
    (ch.settings.mode ≠ .protectedMode → ch.changeover = .mirror) ∧ ch.flapCounter ≤ ch.settings.flapLimit ∧
    (ch.holdOff = true → ch.supervision = .tripped) ∧ ch.pinnedHeld = ch.schedule.any (fun e => e.amendment.isSome) ∧
    ch.schedule.Pairwise (fun a b => sortsAtOrBefore a.body.start a.key b.body.start b.key = true) ∧
    (ch.schedule.map Entry.key).Nodup ∧ ch.schedule.length ≤ 1024) &&
  ch.schedule.all (fun e => match e.amendment with
    | some (.body b) => decide (b.entryId = e.body.entryId)
    | _ => true)

theorem channelLaw_of_lawful {ch : Channel} (h : lawful ch = true) : ChannelLaw ch := by
  unfold lawful at h
  rw [Bool.and_eq_true, decide_eq_true_eq, List.all_eq_true] at h
  obtain ⟨⟨h1, h2, h3, h4, h5, h6, h7, h8, h9⟩, h10⟩ := h
  refine ⟨h1, h2, h3, h4, h5, h6, h7, h8, h9, fun e he b hb => ?_⟩
  have := h10 e he
  rw [hb] at this
  simpa using this

/-- What the laws ask of the state beside its channels, for families and a device as after reset. -/
abbrev restLawful (s : State) : Prop :=
  s.familyP = .reset ∧ s.familyN = .reset ∧ s.device = .reset ∧ (∀ a ∈ s.assembly, (a.staged.map Body.entryId).Nodup) ∧
  s.attention.Pairwise (fun a b => a < b) ∧ (s.takeQueue.map Request.channel).Nodup ∧
  s.takeQueue.Pairwise (fun a b => grantsBefore a b = true) ∧ s.resyncQueue.Nodup ∧ s.deferral.length ≤ 32 ∧
  s.pendingWalks.length ≤ 8 ∧ (s.pendingWalks.map WalkRecord.channel).Nodup

theorem familyLaw_reset : FamilyLaw FamilyRecord.reset :=
  ⟨by decide, by decide, by decide, by decide, by decide⟩

theorem inv_of_rest {s : State} (hc : ∀ c, ChannelLaw (s.chan c)) (hpool : listedSlots s + stagedSlots s + s.freeCount = 8192)
    (h : restLawful s) : InvWith 0 s := by
  obtain ⟨hp, hn, hdev, hst, ha, hq1, hq2, hr, hd, hw, hwc⟩ := h
  refine ⟨hc, fun fam => ?_, by rw [hdev]; decide, by rw [Nat.add_zero, hpool]; decide, hst, ha, ⟨hq1, hq2⟩, hr, hd, hw, hwc⟩
  cases fam
  · show FamilyLaw s.familyP; rw [hp]; exact familyLaw_reset
  · show FamilyLaw s.familyN; rw [hn]; exact familyLaw_reset

/-- A lawful channel 0, the others as after reset, and the rest within its bounds: the laws hold. -/
theorem inv_of_lawful {s : State} (ch : Channel) (hc : lawful ch = true) (h : restLawful s)
    (hpool : ch.schedule.length + stagedSlots s + s.freeCount = 8192)
    (hs : s.channels = (modChan 0 (fun _ => ch) State.reset).channels := by rfl) : InvWith 0 s := by
  have hchan : ∀ c, s.chan c = if c = 0 then ch else Channel.reset := by
    intro c
    have : s.chan c = (modChan 0 (fun _ => ch) State.reset).chan c := by simp [State.chan, hs]
    rw [this, chan_modChan]
    split
    · simp_all
    · simp [State.chan, State.reset, *]
  refine inv_of_rest (fun c => ?_) ?_ h
  · rw [hchan]
    split
    · exact channelLaw_of_lawful hc
    · exact channelLaw_of_lawful (by decide)
  · have : listedSlots s = ch.schedule.length := by
      unfold listedSlots
      rw [Finset.sum_eq_single (0 : ChannelNo)]
      · rw [hchan]; rfl
      · intro b _ hb; rw [hchan, if_neg hb]; rfl
      · intro h; exact absurd (Finset.mem_univ _) h
    rw [this]
    exact hpool

/-- The laws of `site` of a lawful channel. -/
theorem inv_site (ch : Channel) (hc : lawful ch = true) : InvWith 0 (site ch) := by
  have hl : ch.schedule.length ≤ 1024 := by
    unfold lawful at hc
    simp only [Bool.and_eq_true, decide_eq_true_eq] at hc
    exact hc.1.2.2.2.2.2.2.2.2
  refine inv_of_lawful ch hc (by refine ⟨rfl, rfl, rfl, ?_, ?_, ?_, ?_, ?_, ?_, ?_, ?_⟩ <;> simp [site, modChan, State.reset]) ?_
  show _ + 0 + (8192 - _) = 8192
  omega

/-- A schedule of so many PLANNED LOCAL entries, one after another. -/
def rowOf (n : Nat) : List Entry :=
  (List.range n).map (fun i => media .localEntry (i + 100) i 1)

theorem rowOf_length (n : Nat) : (rowOf n).length = n := by
  simp [rowOf]

theorem rowOf_planned {n : Nat} {e : Entry} (h : e ∈ rowOf n) : e.isOver = false ∧ 100 ≤ e.body.entryId ∧ e.amendment = none := by
  obtain ⟨i, _, rfl⟩ := List.mem_map.1 h
  exact ⟨rfl, Nat.le_add_left _ _, rfl⟩

theorem rowOf_law {n : Nat} (hn : n ≤ 1024) : ScheduleLaw (rowOf n) := by
  refine ⟨?_, ?_, by rw [rowOf_length]; exact hn, ?_⟩
  · rw [rowOf, List.pairwise_map]
    exact List.pairwise_lt_range.imp (fun h => by simp [sortsAtOrBefore, media, h])
  · rw [rowOf, List.map_map]
    refine List.Nodup.map (fun a b h => ?_) List.nodup_range
    simpa [Entry.key, media] using h
  · intro e he b hb
    rw [(rowOf_planned he).2.2] at hb
    cases hb

/-- A full schedule. -/
@[irreducible] def crowd : List Entry :=
  rowOf 1024

theorem crowd_eq : crowd = rowOf 1024 := by
  delta crowd
  exact Eq.refl _

theorem crowd_length : crowd.length = 1024 := by
  rw [crowd_eq, rowOf_length]

theorem crowd_law : ScheduleLaw crowd := by
  rw [crowd_eq]; exact rowOf_law (n := 1024) (by decide)

theorem crowd_planned {e : Entry} (h : e ∈ crowd) : e.isOver = false ∧ 100 ≤ e.body.entryId ∧ e.amendment = none := by
  rw [crowd_eq] at h; exact rowOf_planned h

/-- A channel whose schedule is full. -/
def packed (ch : Channel) : Channel :=
  { ch with schedule := crowd }

theorem packed_law {ch : Channel} (h : lawful { ch with schedule := [] } = true) : ChannelLaw (packed ch) := by
  obtain ⟨h1, h2, h3, h4, h5, h6, _⟩ := channelLaw_of_lawful h
  refine ⟨h1, h2, h3, h4, h5, ?_, crowd_law⟩
  have h0 : crowd.any (fun e => e.amendment.isSome) = false := by
    rw [Bool.eq_false_iff, ne_eq, List.any_eq_true]
    rintro ⟨e, he, ha⟩
    rw [(crowd_planned he).2.2] at ha
    cases ha
  exact h6.trans h0.symm

/-- A site with a full schedule on channel 0. -/
def fullSite (ch : Channel) : State :=
  { modChan 0 (fun _ => packed ch) State.reset with freeCount := 7168 }

/-- Channel 0 as given, and nobody has a free slot: channels 1 to 8 have full schedules. -/
def poolless (ch : Channel) : State :=
  { State.reset with
    channels := Vector.ofFn (fun c : ChannelNo => if c = 0 then ch else if c.val ≤ 8 then packed Channel.reset else Channel.reset)
    freeCount := 0 }

theorem fullSite_chan (ch : Channel) (c : ChannelNo) : (fullSite ch).chan c = if c = 0 then packed ch else Channel.reset := by
  show (modChan 0 (fun _ => packed ch) State.reset).chan c = _
  rw [chan_modChan]
  split
  · simp_all
  · simp [State.chan, State.reset, *]

theorem poolless_chan (ch : Channel) (c : ChannelNo) :
    (poolless ch).chan c = if c = 0 then ch else if c.val ≤ 8 then packed Channel.reset else Channel.reset := by
  simp [State.chan, poolless]

theorem inv_fullSite {ch : Channel} (h : lawful { ch with schedule := [] } = true) : InvWith 0 (fullSite ch) := by
  refine inv_of_rest (fun c => ?_) ?_ (by refine ⟨rfl, rfl, rfl, ?_, ?_, ?_, ?_, ?_, ?_, ?_, ?_⟩ <;> simp [fullSite, modChan, State.reset])
  · rw [fullSite_chan]
    split
    · exact packed_law h
    · exact channelLaw_of_lawful (by decide)
  · have : listedSlots (fullSite ch) = 1024 := by
      unfold listedSlots
      rw [Finset.sum_eq_single (0 : ChannelNo)]
      · rw [fullSite_chan]; exact crowd_length
      · intro b _ hb; rw [fullSite_chan, if_neg hb]; rfl
      · intro h; exact absurd (Finset.mem_univ _) h
    rw [this]
    rfl

theorem inv_poolless {ch : Channel} (h : lawful ch = true) (he : ch.schedule = []) : InvWith 0 (poolless ch) := by
  refine inv_of_rest (fun c => ?_) ?_ (by refine ⟨rfl, rfl, rfl, ?_, ?_, ?_, ?_, ?_, ?_, ?_, ?_⟩ <;> simp [poolless, State.reset])
  · rw [poolless_chan]
    split
    · exact channelLaw_of_lawful h
    · split
      · exact packed_law (by decide)
      · exact channelLaw_of_lawful (by decide)
  · have : listedSlots (poolless ch) = ∑ c : ChannelNo, (if c = 0 then 0 else if c.val ≤ 8 then 1024 else 0) := by
      unfold listedSlots
      refine Finset.sum_congr rfl (fun c _ => ?_)
      rw [poolless_chan]
      split
      · rw [he]; rfl
      · split
        · exact crowd_length
        · rfl
    rw [this]
    rfl

theorem requestSlot_poolless {ch : Channel} {s : State} (he : ch.schedule = []) (hs : s.channels = (poolless ch).channels)
    (hf : s.freeCount = 0) : requestSlot s = none := by
  have hover : ∀ c, ∀ e ∈ (s.chan c).schedule, e.isOver = false := by
    intro c e hm
    have : s.chan c = (poolless ch).chan c := by simp [State.chan, hs]
    rw [this, poolless_chan] at hm
    split at hm
    · rw [he] at hm; cases hm
    · split at hm
      · exact (crowd_planned hm).1
      · cases hm
  unfold requestSlot
  rw [if_neg (by omega)]
  cases h : oldestEntry s with
  | none => rfl
  | some p =>
    obtain ⟨c, key⟩ := p
    unfold oldestEntry at h
    rw [Option.map_eq_some_iff] at h
    obtain ⟨q, hq, _⟩ := h
    have hm := pickOldest_mem hq
    rw [List.mem_flatMap] at hm
    obtain ⟨d, _, hd⟩ := hm
    unfold agedOf at hd
    rw [List.mem_filterMap] at hd
    obtain ⟨x, hx, hxe⟩ := hd
    have hxm : x.1 ∈ (s.chan d).schedule := by
      rw [← spans_fst (s.chan d).schedule]
      exact List.mem_map_of_mem hx
    rw [hover d x.1 hxm] at hxe
    simp at hxe

/-! ### Well-formedness -/

/-- A WRITE under this tag, its chip select asserted as everything before had been taken. -/
def under (tag : Byte) : Write :=
  { tag := tag, early := false }

/-- One ill-formed term for each check, each refused. -/
theorem test_wellFormed_refuses :
    [Instr.referencePulse .p 0 false true [(0, .sst), (0, .sst)], .referenceAbsence .p true [(1, .csv), (1, .csv)],
     .synthesisedPulse .n true [(2, .cou), (2, .cou)], .msTick 0 [.link, .link], .entryPut [], .entryPut [64], .entryDrop [0],
     .siteHeartbeat [1], .siteHeartbeat [2, 0, 0, 0, 0, 0, 0, 0, 0, 0], .snapshotOpen [0, 0, 0, 0], .snapshotItem [0, 0, 0],
     .snapshotClose [64, 0, 0, 0, 0, 0, 0], .malformedMessage ([2, 0, 7] ++ List.replicate 7 0), .cueReady [0], .cueFail [64, 0],
     .routerDone [0, 0, 0], .routerFail [], .malformedCueReply [0x28, 0, 2, 0, 0], .malformedRouterReply [0x39, 0, 2, 63, 1],
     .invalidTransaction 1 ⟨0, false⟩, .invalidTransaction 2 ⟨0, true⟩, .unknownCommand 0x10 (under 0) [],
     .unknownCommand 0 (under 0) (List.replicate 256 0), .incompleteCommandFrame ⟨[0x55, 0, 1, 9], false⟩, .noOp (under 0) (List.replicate 256 0),
     .take (under 0) (List.replicate 256 0)].all
      (fun i => !i.wellFormed) = true := by decide +kernel

/-- Terms beside those, each accepted. -/
theorem test_wellFormed_accepts :
    [Instr.deviceReset, .referencePulse .p 0 false true [(0, .sst), (1, .sst)], .msTick 0 [.link, .host],
     .entryPut ([0, 0, 1] ++ entryBytes 7 1 0 50), .entryDrop [0, 0, 1, 0, 0, 0, 7], .siteHeartbeat [1, 0, 0, 0, 0, 1],
     .snapshotOpen [0, 0, 0, 0, 1], .snapshotItem ([0, 0, 1] ++ entryBytes 7 1 0 50), .snapshotClose [0, 0, 1, 0, 0, 0, 0],
     .malformedMessage [7, 0, 0], .cueReady [0, 1], .malformedCueReply [0x30, 0, 2, 0, 0], .malformedRouterReply [],
     .invalidTransaction 0 ⟨3, true⟩, .unknownCommand 0x18 (under 0) [], .incompleteCommandFrame ⟨[0x55, 0, 1], true⟩, .noOp (under 0) (List.replicate 255 0)].all
      Instr.wellFormed = true := by decide +kernel

/-! ### Values worked from the spec -/

/-- The block length of R14 at R30D: frame-of-day 1,800 is 00:01:00:02, and 17,982 is 00:10:00:00. -/
theorem test_drop_frame_labels :
    labelOf .r30d 1799 = ⟨0, 0, 59, 29⟩ ∧ labelOf .r30d 1800 = ⟨0, 1, 0, 2⟩ ∧ labelOf .r30d 17981 = ⟨0, 9, 59, 29⟩ ∧
    labelOf .r30d 17982 = ⟨0, 10, 0, 0⟩ ∧ labelOf .r30d 2589407 = ⟨23, 59, 59, 29⟩ ∧
    (⟨0, 1, 0, 0⟩ : Label).frameOfDay .r30d = 1800 ∧ (⟨0, 1, 0, 0⟩ : Label).namesSkipped .r30d = true := by decide

/-- Settings in frames are rounded up (R16). -/
theorem test_settings_in_frames :
    msToFrames .r25 500 = 13 ∧ msToFrames .r25 2000 = 50 ∧ msToFrames .r30n 1000 = 30 ∧ msToFrames .r60d 1 = 1 ∧
    secondsToFrames .r25 3600 = 90000 := by decide

/-- The worked conversions of Chapter 1: the start of entry 1001, its end's label, and the in-point of the join. -/
theorem test_worked_conversions :
    absoluteFrame .r30d 412 ⟨23, 58, 30, 0⟩ = 1069422806 ∧ dayOf .r30d 1069428206 = 413 ∧
    labelOfFrame .r30d 1069428206 = ⟨0, 1, 30, 4⟩ ∧ labelOf .r30d 4208 = ⟨0, 2, 20, 12⟩ ∧
    (⟨0, 10, 0, 0⟩ : Label).frameOfDay .r60d = 35964 ∧ (⟨10, 0, 0, 0⟩ : Label).frameOfDay .r25 = 900000 := by decide

/-- The worked digest of Chapter 5. -/
theorem test_worked_digest :
    (digestTerm 1001 3 1069422806 + digestTerm 1002 1 1069428206) % 2 ^ 32 = 81149533 ∧
    digestTerm 1002 2 1069428356 = 40597868 := by decide

/-- The worked join of Chapter 8: the ROLL of entry 1001 at frame 1,069,426,714, with its secondaries. -/
theorem test_worked_join :
    (let e : Entry := { media .replicated 1001 1069422806 5400 with
       body := { (media .replicated 1001 1069422806 5400).body with
         content := .media [] 300, secondaries := [⟨600, 5, 300⟩, ⟨3000, 12, 1200⟩, ⟨5000, 3, 900⟩] } }
     (computeDirective (site { Channel.reset with schedule := [e, media .replicated 1002 1069428206 1800] }) 0 1069426714).body =
       .roll [] 4208 1492 [⟨0, 12, 292⟩, ⟨1092, 3, 400⟩]) := by decide +kernel

/-- The state a command leaves. -/
def after (i : Instr) (s : State) : State :=
  match exec i s with
  | .next t => t
  | .fault _ => s
  | .refused _ => s

/-- What is shifted out at a READ of 8 bytes after a NO-OP of two: port byte, tag, status, clamped, length, body, a zero. -/
theorem test_no_op_and_its_response :
    (after (.responseRead ⟨8, false⟩) (after (.noOp (under 9) [5, 6]) State.reset)).portOut = [1, 9, 0, 0, 0, 2, 5, 6, 0] := by decide

/-- A body is read field by field from its bytes (section 11.3). -/
theorem test_entry_body :
    (parseEntryBody (entryBytes 7 3 10 50)).map (RawBody.convert .r25) =
      some { entryId := 7, revision := 3, start := 110, duration := 50, content := .media (List.replicate 16 0) 0, priority := 2,
             secondaries := [] } := by decide

/-! ### The hypotheses of the statements are met -/

theorem test_witness_StepTakesFrontCommand :
    ({ State.reset with pending := [.hostAbsent] } : State).pending = .hostAbsent :: [] := by decide

theorem test_witness_EveryStepAnswersNext : State.reset.pending = [] := by decide

/-- The laws between acts of a site whose channel 0 is lawful, in or out of service, with nothing queued. -/
theorem inv_atRest (ch : Channel) (hc : lawful ch = true) (hs : ServiceLaw ch) (hr : ch.replState ≠ .resyncing) :
    Inv (site ch) := by
  have hchan : ∀ c, (site ch).chan c = if c = 0 then ch else Channel.reset := by
    intro c
    show (modChan 0 (fun _ => ch) State.reset).chan c = _
    rw [chan_modChan]
    split
    · simp_all
    · simp [State.chan, State.reset, *]
  refine { inv_site ch hc with
    service := fun c => ?_, confirm := fun h => (by cases h), queued := fun c h => (by cases h), walking := fun r h => (by cases h)
    walkOnce := List.nodup_nil, resyncing := fun c => ?_, assembling := fun a h => (by cases h)
    deferred := ⟨List.nodup_nil, fun u h => (by cases h)⟩ }
  · rw [hchan]; split
    · exact hs
    · exact ⟨fun e h => (by cases h), fun e h => (by cases h)⟩
  · rw [hchan]
    refine ⟨fun h => ?_, fun h => (by obtain ⟨a, h, _⟩ := h; cases h)⟩
    split at h
    · exact absurd h hr
    · cases h

theorem test_witness_EveryStepKeepsLaws :
    ∃ s t : State, Inv s ∧ (∃ c, (s.chan c).schedule ≠ []) ∧ s.pending = [.deviceReset] ∧ step s = .next t := by
  let ch : Channel := { guarded with schedule := [seven .airing], changeover := .onDr }
  have h : Inv (site ch) := inv_atRest ch (by decide) (by unfold ServiceLaw; decide) (by decide)
  exact ⟨{ site ch with pending := [.deviceReset] }, _, { inv_touch h.toInvWith with
    service := h.service, confirm := h.confirm, queued := h.queued, walking := h.walking, walkOnce := h.walkOnce
    resyncing := h.resyncing, assembling := h.assembling, deferred := h.deferred }, ⟨0, by decide⟩, rfl, rfl⟩

theorem test_witness_FrameWhilePendingIsBusy :
    frameWrite (.unknownCommand 0 (under 3) []) = some (under 3) ∧ frameWrite (.take (under 4) [0]) = some (under 4) ∧
    (answered 1 .ok false [] State.reset).slot.isSome := by decide

theorem test_witness_FrameIsAnsweredUnderItsTag :
    frameWrite (.unknownCommand 0x56 (under 3) []) = some (under 3) ∧ frameWrite (.noOp (under 255) []) = some (under 255) ∧ State.reset.slot = none := by decide

theorem test_witness_BrokenTransactions :
    ([1, 2] : List Byte).length < 3 ∧ ([] : List Byte).length ≠ (1 : Byte).toNat ∧ State.reset.slot = none ∧
    (answered 1 .ok false [] State.reset).slot.isSome ∧ (0 : Byte) ≠ 1 ∧ (3 : Byte) ≠ 2 := by decide

/-- Whole frames of a code of the table and of none, a WRITE of each wrong length, and a first byte of each kind. -/
theorem test_witness_BrokenTransactions_read :
    ([5, 6] : List Byte).length = (2 : Byte).toNat ∧ (0x10, Instr.readEntry (under 7) [5, 6]) ∈ codeTable (under 7) [5, 6] ∧
    (0x55, Instr.noOp (under 7) [5, 6]) ∈ codeTable (under 7) [5, 6] ∧ (∀ p ∈ codeTable (under 7) [5, 6], (0x18 : Byte) ≠ p.1) ∧
    ofTransaction false [1, 0x55, 7, 2, 5, 6] = some (.noOp (under 7) [5, 6]) ∧ ofTransaction true [2, 0, 0] = some (.responseRead ⟨2, true⟩) := by
  decide

theorem test_witness_ReadTransactionClocksResponse :
    State.reset.slot = none ∧ ∃ r, (answered 1 .ok false [] State.reset).slot = some r ∧ 4 < r.encode.length ∧ r.encode.length ≤ 5 :=
  ⟨rfl, _, rfl, by decide⟩

theorem test_witness_NoOpEchoesItsBody : State.reset.slot = none ∧ (List.replicate 255 (0 : Byte)).length ≤ 255 := by decide +kernel

theorem test_witness_FramesRefusedBeforeTheirOwnChecks :
    State.reset.slot = none ∧ (0x18 : Byte).toNat ∉ commandCodes ∧ (0x0F : Byte).toNat ∉ commandCodes ∧ (0x56 : Byte).toNat ∉ commandCodes ∧
    (∀ n ∈ [0, 2], (List.replicate n (0 : Byte)).length ≠ 1) ∧ 64 ≤ numAt [64] 0 1 ∧ ([0] : List Byte).length ≠ 0 ∧
    (∀ n ∈ [5, 6, 7, 8, 12, 33], (64 :: List.replicate (n - 1) (0 : Byte)).length = n ∧ 64 ≤ numAt (64 :: List.replicate (n - 1) 0) 0 1) ∧
    ([64, 0] : List Byte).length = 2 ∧ (List.replicate 9 (0 : Byte)).length ∉ [1, 2, 5, 6, 7, 8, 12, 33, 17] ∧
    parseEntryBody (([0] : List Byte).drop 1) = none ∧ (parseEntryBody ((64 :: entryBytes 7 1 0 50).drop 1)).isSome ∧
    64 ≤ numAt (64 :: entryBytes 7 1 0 50) 0 1 := by decide

theorem test_witness_ReadEventsCollectsEvents : State.reset.slot = none := by decide

theorem test_witness_AlertFollowsTheFlags :
    (2 : Nat) ≤ 2 ∧ (0 : ChannelNo) ≠ 1 ∧ frameWrite (.noOp (under 7) []) = some (under 7) ∧ ∃ t, exec (.noOp (under 7) []) State.reset = .next t :=
  ⟨by decide, by decide, by decide, _, rfl⟩

/-- A chip select asserted early shows the level of ALERT that the transaction before left, though a flag has risen since (log 15). -/
theorem test_early_chip_select :
    (let s := raise 3 .replication (after (.noOp (under 1) []) State.reset)
     s.alert = true ∧ s.portByte true = 1 ∧ s.portByte false = 3) := by decide +kernel

/-! The schedule store. -/

theorem test_witness_LookupFindsTheSpanningEntry :
    ∃ es : List Entry, ∃ e n, es.Pairwise (fun a b => sortsAtOrBefore a.body.start a.key b.body.start b.key = true) ∧
      (e, n) ∈ spans es ∧ e.body.start ≤ 100 ∧ 100 < n ∧ 104 < n ∧ n = 105 :=
  ⟨[seven .planned, media .replicated 8 105 10], seven .planned, 105, by decide⟩

/-- A channel of one entry, in the state given. -/
def listing (e : Entry) : Channel :=
  { guarded with schedule := [e], pinnedHeld := e.amendment.isSome }

theorem test_witness_ReadEntryAnswers :
    (let s := site (listing (seven .planned))
     meets [0, 1, 0, 0, 0, 7] 6 s ∧ meets [0, 3, 0, 0, 0, 7] 6 s ∧ meets [0, 1, 0, 0, 0, 0] 6 s ∧ meets [0, 1, 0, 0, 0, 8] 6 s ∧
     originOfCode (numAt [0, 3, 0, 0, 0, 7] 1 1) = none ∧ numAt [0, 1, 0, 0, 0, 0] 2 4 = 0 ∧
     originOfCode (numAt [0, 1, 0, 0, 0, 8] 1 1) = some .replicated ∧ numAt [0, 1, 0, 0, 0, 8] 2 4 = 8 ∧
     numAt [0, 1, 0, 0, 0, 7] 2 4 = 7 ∧ (∀ e ∈ (s.chan 0).schedule, e.key ≠ ⟨.replicated, 8⟩) ∧
     (s.chan 0).schedule = [] ++ seven .planned :: [] ∧ (seven .planned).key = ⟨.replicated, 7⟩) := by decide

theorem test_witness_FindAtAnswers :
    (let s := site (listing (seven .planned))
     let es := (s.chan 0).schedule
     let first : List Byte := [0, 1, 0, 0, 0, 0, 149]
     let past : List Byte := [0, 1, 0, 0, 0, 0, 150]
     let label : List Byte := [0, 2, 0, 0, 0, 0, 4, 0]
     let late : List Byte := [0, 2, 0x27, 0x0F, 0, 0, 4, 0]
     let badDay : List Byte := [0, 2, 0x27, 0x10, 0, 0, 4, 0]
     let badLabel : List Byte := [0, 2, 0, 0, 0, 0, 4, 25]
     let shortForm : List Byte := [0, 2, 0, 0, 0, 0, 100]
     let longForm : List Byte := [0, 1, 0, 0, 0, 0, 4, 0]
     s.slot = none ∧ (∀ b ∈ [first, past, label, late, badDay, badLabel, shortForm, longForm], channelOf (numAt b 0 1) = some 0) ∧
     first.length = 7 ∧ numAt first 1 1 = 1 ∧ entryAt (numAt first 2 5) es = some (seven .planned, 150) ∧
     past.length = 7 ∧ numAt past 1 1 = 1 ∧ entryAt (numAt past 2 5) es = none ∧
     label.length = 8 ∧ numAt label 1 1 = 2 ∧ numAt label 2 2 = 0 ∧ (labelAt label 4).valid .r25 = true ∧
     entryAt (absoluteFrame .r25 0 (labelAt label 4)) es = some (seven .planned, 150) ∧
     late.length = 8 ∧ numAt late 2 2 = 9999 ∧ (labelAt late 4).valid .r25 = true ∧
     entryAt (absoluteFrame .r25 9999 (labelAt late 4)) es = none ∧
     badDay.length = 8 ∧ 9999 < numAt badDay 2 2 ∧ badLabel.length = 8 ∧ (labelAt badLabel 4).valid .r25 = false ∧
     shortForm.length = 7 ∧ numAt shortForm 1 1 ≠ 1 ∧ longForm.length = 8 ∧ numAt longForm 1 1 ≠ 2) := by decide

theorem test_witness_ListAnswers :
    (let s := site (listing (seven .planned))
     let body : Byte → Byte → List Byte := fun o n => [0, 0, 0, 0, 0, 0, o, 0, 0, 0, 1, n]
     (∀ o ∈ [0, 1, 2], ∀ n ∈ [0, 1, 16, 17], meets (body o n) 12 s) ∧ originOfCode (numAt (body 0 1) 6 1) = none ∧
     numAt (body 1 0) 11 1 = 0 ∧ 16 < numAt (body 1 17) 11 1 ∧ originOfCode (numAt (body 1 1) 6 1) = some .replicated ∧
     originOfCode (numAt (body 2 16) 6 1) = some .localEntry ∧ 1 ≤ numAt (body 1 1) 11 1 ∧ numAt (body 2 16) 11 1 ≤ 16) := by decide

theorem test_witness_WriteLocalInsertsOrReplaces :
    (let body : List Byte := 0 :: entryBytes 7 1 0 50
     let bad : List Byte := 0 :: entryBytes 7 1 25 50
     ∃ raw b : RawBody, body ≠ [] ∧ channelOf (numAt body 0 1) = some 0 ∧ parseEntryBody (body.drop 1) = some raw ∧
       parseEntryBody (bad.drop 1) = some b ∧ raw.valid .r25 = true ∧ b.valid .r25 = false ∧ raw.entryId = 7 ∧
       (InvWith 0 (site guarded) ∧ (site guarded).slot = none ∧ (∃ u, requestSlot (heard false (site guarded)) = some u) ∧
         ((site guarded).chan 0).schedule.length < 1024) ∧
       (InvWith 0 (fullSite guarded) ∧ (fullSite guarded).slot = none ∧
         (∀ e ∈ ((fullSite guarded).chan 0).schedule, e.key ≠ ⟨.localEntry, 7⟩) ∧ 1024 ≤ ((fullSite guarded).chan 0).schedule.length) ∧
       (InvWith 0 (poolless guarded) ∧ (poolless guarded).slot = none ∧ ((poolless guarded).chan 0).schedule = [] ∧
         requestSlot (heard false (poolless guarded)) = none) ∧
       (∀ st, st = .planned ∨ st = .airing →
         InvWith 0 (site (listing { media .localEntry 7 100 50 with status := st })) ∧
         ((site (listing { media .localEntry 7 100 50 with status := st })).chan 0).schedule =
           [] ++ { media .localEntry 7 100 50 with status := st } :: [])) := by
  refine ⟨_, _, by decide, by decide, rfl, rfl, by decide, by decide, by decide, ⟨inv_site _ (by decide), rfl, ⟨_, rfl⟩, by decide⟩,
    ⟨inv_fullSite (by decide), rfl, fun e he hk => ?_, ?_⟩, ⟨inv_poolless (by decide) rfl, rfl, ?_, ?_⟩, ?_⟩
  · rw [fullSite_chan] at he
    have := (crowd_planned he).2.1
    have hid : e.key.id = 7 := by rw [hk]
    exact absurd (show e.body.entryId = 7 from hid) (by omega)
  · rw [fullSite_chan]; exact Nat.le_of_eq crowd_length.symm
  · rw [poolless_chan]; rfl
  · exact requestSlot_poolless (ch := guarded) rfl rfl rfl
  · rintro st (rfl | rfl) <;> exact ⟨inv_site _ (by decide), by decide⟩

theorem test_witness_SlotRequestsAreGrantedOrAged :
    0 < State.reset.freeCount ∧
    (({ site (listing (seven .planned)) with freeCount := 0 } : State).freeCount = 0 ∧
      ∀ c, ∀ e ∈ (({ site (listing (seven .planned)) with freeCount := 0 } : State).chan c).schedule, e.isOver = false) ∧
    (({ site (listing (seven .done)) with freeCount := 0 } : State).freeCount = 0 ∧
      seven .done ∈ (({ site (listing (seven .done)) with freeCount := 0 } : State).chan 0).schedule ∧ (seven .done).isOver = true ∧
      (({ site (listing (seven .done)) with freeCount := 0 } : State).chan 0).frame = some 100) ∧
    (∀ n, n = 1 ∨ n = 256 ∨ n = 257 → ∀ a, a = AgingMode.normal ∨ a = AgingMode.fast →
      0 < ({ State.reset with freeCount := n, aging := a } : State).freeCount ∧
      ({ State.reset with freeCount := n, aging := a } : State).aging = a) := by
  refine ⟨by decide, by decide, by decide, ?_⟩
  rintro n (rfl | rfl | rfl) a (rfl | rfl) <;> decide

theorem test_witness_DeleteLocalRemovesEntry :
    (∀ e ∈ [media .localEntry 7 100 50, { media .localEntry 7 100 50 with status := .cued }],
      InvWith 0 (site (listing e)) ∧ meets [0, 0, 0, 0, 7] 5 (site (listing e)) ∧ ((site (listing e)).chan 0).schedule = [] ++ e :: [] ∧
      e.key = ⟨.localEntry, numAt [0, 0, 0, 0, 7] 1 4⟩) ∧
    64 ≤ numAt [64, 0, 0, 0, 7] 0 1 ∧ numAt [0, 0, 0, 0, 0] 1 4 = 0 ∧ numAt [0, 0, 0, 0, 7] 1 4 ≠ 0 ∧
    (∀ e ∈ ((site guarded).chan 0).schedule, e.key ≠ ⟨.localEntry, 7⟩) ∧ (media .localEntry 7 100 50).inService = false ∧
    ({ media .localEntry 7 100 50 with status := .cued } : Entry).inService = true := by
  refine ⟨fun e he => ?_, by decide⟩
  simp only [List.mem_cons, List.not_mem_nil, or_false] at he
  rcases he with rfl | rfl <;> exact ⟨inv_site _ (by decide), by decide⟩

/-- Entry 7 pinned, with what it holds. -/
def pinnedSeven (st : EntryStatus) (a : Option Amendment) : Entry :=
  { seven st with pinned := true, amendment := a }

theorem test_witness_PinAndUnpin :
    (∀ e ∈ [seven .planned, pinnedSeven .planned none, pinnedSeven .cued (some .deletion), pinnedSeven .done (some .deletion),
        pinnedSeven .planned (some (.body (seven .planned).body))],
      InvWith 0 (site (listing e)) ∧ meets [0, 0, 0, 0, 7] 5 (site (listing e)) ∧ ((site (listing e)).chan 0).schedule = [] ++ e :: [] ∧
      e.key = ⟨.replicated, numAt [0, 0, 0, 0, 7] 1 4⟩) ∧
    numAt [0, 0, 0, 0, 0] 1 4 = 0 ∧ numAt [0, 0, 0, 0, 7] 1 4 ≠ 0 ∧ (∀ e ∈ ((site guarded).chan 0).schedule, e.key ≠ ⟨.replicated, 7⟩) ∧
    (seven .planned).pinned = false ∧ (pinnedSeven .planned none).amendment = none ∧
    (pinnedSeven .cued (some .deletion)).inService = true ∧ (pinnedSeven .done (some .deletion)).inService = false ∧
    (pinnedSeven .planned (some (.body (seven .planned).body))).inService = false := by
  refine ⟨fun e he => ?_, by decide⟩
  simp only [List.mem_cons, List.not_mem_nil, or_false] at he
  rcases he with rfl | rfl | rfl | rfl | rfl <;> exact ⟨inv_site _ (by decide), by decide⟩

theorem test_witness_FlushFreesMatchingEntries :
    InvWith 0 (site (listing (seven .planned))) ∧ meets [0, 0] 2 (site (listing (seven .planned))) ∧ selectionOfCode (numAt [0, 0] 1 1) = none ∧
    selectionOfCode (numAt [0, 4] 1 1) = none ∧ selectionOfCode (numAt [0, 1] 1 1) = some .replicated ∧
    selectionOfCode (numAt [0, 3] 1 1) = some .all :=
  ⟨inv_site _ (by decide), by decide⟩

/-! The channel records. -/

/-- A site whose family P counts. -/
def timed (ch : Channel) : State :=
  modFamily .p (fun f => { f with state := .locked, count := 200, lastCounted := some 0 }) (site ch)

theorem test_witness_ConfigureChannelStores :
    (let same := channelBytes 2 1 2000
     let beyond := channelBytes 2 1 60001
     let rated := channelBytes 2 2 2000
     let off := channelBytes 0 1 2000
     let bad := channelBytes 3 1 2000
     meets same 33 (timed guarded) ∧ meets beyond 33 (timed guarded) ∧ meets rated 33 (timed guarded) ∧ meets off 33 (timed guarded) ∧
     meets bad 33 (timed guarded) ∧ settingsOf bad = none ∧
     (∃ g ∈ settingsOf rated, g.rate ≠ guarded.settings.rate ∧ guarded.settings.mode ≠ .off) ∧
     (∃ g ∈ settingsOf off, guarded.settings.mode = .protectedMode ∧ g.mode ≠ .protectedMode ∧
       ((timed { guarded with changeover := .onDr }).chan 0).changeover ≠ .mirror) ∧
     (∃ g ∈ settingsOf same, g.mode = .protectedMode ∧ ((site guarded).family g.rate.family).state = .unset) ∧
     (∀ b ∈ [same, beyond], ∃ g ∈ settingsOf b, g.rate = guarded.settings.rate ∧ (g.mode = .off ↔ guarded.settings.mode = .off) ∧
       g.mode = .protectedMode ∧ ((timed guarded).family g.rate.family).state ≠ .unset) ∧
     numAt beyond 9 4 = 60001) := by decide

theorem test_witness_ConfigureChannelMoves :
    (let off := channelBytes 0 1 2000
     let on := channelBytes 2 1 2000
     let rated := channelBytes 0 2 2000
     let sleeping := { guarded with settings := Settings.reset }
     (∀ b ∈ [off, on, rated], meets b 33 (timed guarded) ∧ meets b 33 (timed sleeping) ∧ (settingsOf b).isSome) ∧
     (∃ g ∈ settingsOf off, ((timed guarded).chan 0).settings.mode ≠ .off ∧ g.mode = .off ∧ g.rate = .r25 ∧
       ((timed guarded).chan 0).settings.rate = .r25 ∧ ((timed guarded).chan 0).changeover = .mirror) ∧
     (∃ g ∈ settingsOf on, ((timed sleeping).chan 0).settings.mode = .off ∧ g.mode = .protectedMode ∧
       g.rate = ((timed sleeping).chan 0).settings.rate ∧ ((timed sleeping).family g.rate.family).state ≠ .unset) ∧
     (∀ st ∈ [ReplicationState.unseeded, .inStep, .outOfStep, .stale, .resyncing], ∀ cause ∈ [Cause.flush, .gap],
       ((timed { sleeping with replState := st, cause := cause }).chan 0).replState = st ∧
       ((timed { sleeping with replState := st, cause := cause }).chan 0).cause = cause) ∧
     (∃ g ∈ settingsOf rated, ((timed sleeping).chan 0).settings.mode = .off ∧ g.mode = .off ∧
       g.rate ≠ ((timed sleeping).chan 0).settings.rate)) := by decide

/-- A rate change in a family that counts and in one that is UNSET. -/
theorem test_witness_ConfigureChannelMoves_rate :
    (let sleeping := { guarded with settings := Settings.reset, eventFrame := some 90 }
     ∃ g ∈ settingsOf (channelBytes 0 2 2000), g.rate ≠ sleeping.settings.rate ∧ g.mode = .off ∧ sleeping.settings.mode = .off ∧
       ((site sleeping).family g.rate.family).state = .unset ∧ ((timed sleeping).family g.rate.family).state ≠ .unset ∧
       ((timed sleeping).chan 0).eventFrame = some 90) := by decide

theorem test_witness_ReadChannelAnswers : meets [0] 1 (site guarded) := by decide

theorem test_witness_ClearChannelClears :
    (∀ st ∈ [Changeover.onDr, .mirror], meets [0] 1 (site { guarded with changeover := st }) ∧
      ((site { guarded with changeover := st }).chan 0).changeover = st) ∧
    ((site guarded).chan 0).settings.mode ≠ .off ∧ (State.reset.chan 0).settings.mode = .off ∧
    (State.reset.chan 0).changeover = .mirror := by decide

theorem test_witness_ResyncQueuesChannel :
    (∀ st ∈ [ReplicationState.inStep, .resyncing, .unseeded, .outOfStep, .stale],
      meets [0] 1 (site { guarded with replState := st }) ∧ ((site { guarded with replState := st }).chan 0).replState = st ∧
      ((site { guarded with replState := st }).chan 0).settings.mode ≠ .off ∧ 0 ∉ (site { guarded with replState := st }).resyncQueue ∧
      0 ∈ ({ site { guarded with replState := st } with resyncQueue := [0] } : State).resyncQueue) ∧
    meets [0] 1 State.reset ∧ (State.reset.chan 0).settings.mode = .off := by decide

theorem test_witness_ReplicationStateAndQueue :
    ((site guarded).chan 0).replState ≠ .outOfStep ∧ ((site guarded).chan 0).replState = .inStep ∧
    ((site guarded).chan 0).cause = .none ∧ ((site guarded).chan 0).attempts = 0 ∧ (1 : ChannelNo) ≠ 0 ∧
    (site guarded).linkUp = false ∧
    (let s : State := { site guarded with linkUp := true }
     (if 0 ∈ s.resyncQueue then s.resyncQueue else s.resyncQueue ++ [0]) = 0 :: [] ∧ s.linkUp = true ∧ s.assembly = none) := by decide

/-! The changeover commands. -/

/-- A live entry of 50 frames at frame 100. -/
def live : Entry :=
  { seven .planned with body := { (seven .planned).body with content := .live 12 } }

/-- The guarded channel with its cue lead of 10 in effect: a takeover at frame 100 rolls at frame 110. -/
theorem test_witness_TakeStartsTakeover :
    (∀ st ∈ [Changeover.mirror, .awaitConfirm, .stranded], ∀ e ∈ [seven .planned, live, seven .done],
      (let s := site { listing e with changeover := st }
       InvWith 0 s → s.slot = none) ∧
      (let s := site { listing e with changeover := st }
       meets [0] 1 s ∧ (s.chan 0).settings.mode = .protectedMode ∧ (s.chan 0).changeover = st ∧
       s.frameNow 0 + (s.chan 0).inEffect.cueLead = 110 ∧ (s.chan 0).replState = .inStep ∧ entryAt 110 (s.chan 0).schedule = some (e, 150))) ∧
    InvWith 0 (site (listing (seven .planned))) ∧ InvWith 0 (site { listing live with changeover := .stranded }) ∧
    (let s := site { guarded with replState := .unseeded }
     InvWith 0 s ∧ (s.chan 0).replState ≠ .inStep ∧ (s.chan 0).replState = .unseeded ∧ (s.chan 0).schedule = []) ∧
    entryAt 110 ((site guarded).chan 0).schedule = none ∧ (seven .planned).status = .planned ∧ (seven .done).status ≠ .planned ∧
    (seven .planned).body.content = .media [] 0 ∧ live.body.content = .live 12 ∧ live.status = .planned ∧
    150 - 110 < ((site guarded).chan 0).inEffect.minJoin ∧
    (let s := site (listing (media .replicated 7 100 60))
     InvWith 0 s ∧ entryAt 110 (s.chan 0).schedule = some (media .replicated 7 100 60, 160) ∧ (s.chan 0).inEffect.minJoin ≤ 160 - 110) := by
  refine ⟨fun st hst e he => ?_, inv_site _ (by decide), inv_site _ (by decide), ⟨inv_site _ (by decide), by decide⟩, by decide,
    by decide, by decide, by decide, by decide, by decide, by decide, inv_site _ (by decide), by decide⟩
  refine ⟨fun _ => rfl, ?_⟩
  simp only [List.mem_cons, List.not_mem_nil, or_false] at hst he
  rcases hst with rfl | rfl | rfl <;> rcases he with rfl | rfl | rfl <;> decide

/-- A secondary that starts before the entry's effective end, as the last clause asks, and at it. -/
theorem test_witness_TakeStartsTakeover_secondaries :
    ∀ offset ∈ [5, 50], (let e : Entry := { seven .planned with
        body := { (seven .planned).body with secondaries := [⟨offset, 9, 20⟩] } }
      ∀ q ∈ e.body.secondaries, e.body.start + q.offset ≤ 150) := by decide

theorem test_witness_TakeTurnedAwayDeclineAndAbandon :
    (∀ st ∈ [Changeover.mirror, .awaitConfirm, .preparing, .takePending, .onDr, .returning, .stranded],
      meets [0] 1 (site { guarded with changeover := st }) ∧ ((site { guarded with changeover := st }).chan 0).changeover = st ∧
      ((site { guarded with changeover := st }).chan 0).settings.mode = .protectedMode) ∧
    meets [0] 1 State.reset ∧ (State.reset.chan 0).settings.mode ≠ .protectedMode := by decide

theorem test_witness_GivebackAndReturnNow :
    (∀ st ∈ [Changeover.mirror, .onDr, .returning],
      meets [0] 1 (site { guarded with changeover := st }) ∧ ((site { guarded with changeover := st }).chan 0).changeover = st) ∧
    (let s := site { guarded with changeover := .returning }
     s.hasRequest 0 = false ∧
     ({ s with takeQueue := [{ channel := 0, direction := .main, release := 0, priority := 4 }] } : State).hasRequest 0 = true ∧
     (s.chan 0).next = none ∧ (s.chan 0).doubt = false ∧ transition (s.chan 0) (s.frameNow 0) = none ∧
     (s.family s.device.routerFamily).state = .unset) ∧
    (let s := timed { guarded with next := some (placed .standby none 120 none) }
     (∃ p, (s.chan 0).next = some p ∧ p.rollFrame = 120) ∧ (s.family s.device.routerFamily).state ≠ .unset ∧
     (s.chan 0).settings.rate.family = s.device.routerFamily) ∧
    (let s := site { listing (seven .airing) with
        changeover := .onDr, current := some { placed .roll (some ⟨.replicated, 7⟩) 90 (some 150) with rolled := true, reply := .ready } }
     transition (s.chan 0) (s.frameNow 0) = some 150 ∧ s.frameNow 0 < 150 ∧ (s.chan 0).next = none ∧ (s.chan 0).doubt = false) ∧
    (let s := site { listing (seven .airing) with
        changeover := .onDr, current := some { placed .roll (some ⟨.replicated, 7⟩) 90 (some 100) with rolled := true, reply := .ready } }
     transition (s.chan 0) (s.frameNow 0) = some 100 ∧ 100 ≤ s.frameNow 0) ∧
    (let s := site { guarded with changeover := .onDr, doubt := true }
     (s.chan 0).next = none ∧ (s.chan 0).doubt = true) := by decide

/-- A giveback of a channel with no current frame and no transition has the boundary NONE, recorded and answered (R155 to R157). -/
theorem test_giveback_without_a_current_frame :
    (let s := site { guarded with changeover := .onDr, frame := none }
     boundaryOf (s.chan 0) 0 = none ∧ (givebackAnswer 0 s).body = [.frame none] ∧
     ((givebackAnswer 0 s).state.chan 0).boundary = none ∧ ((returnNowAnswer 0 s).state.chan 0).boundary = none) := by
  decide

/-- A channel of the family that is not the router's: the whole router pulses of 20 frames ahead and of 10 frames behind. -/
theorem test_witness_GivebackAndReturnNow_otherFamily :
    (let s : State := modFamily .n (fun f => { f with state := .locked }) { timed guarded with device := { DeviceSettings.reset with routerFamily := .n } }
     (s.family s.device.routerFamily).state ≠ .unset ∧ (s.chan 0).settings.rate.family ≠ s.device.routerFamily ∧
     (s.chan 0).settings.rate = .r25) ∧
    (47 * ((pulsesPerFrame .r25).2 : Int) ≤ ((120 : Int) - 100) * (pulsesPerFrame .r25).1 ∧
      ((120 : Int) - 100) * (pulsesPerFrame .r25).1 < (47 + 1) * ((pulsesPerFrame .r25).2 : Int)) ∧
    ((-24 : Int) * (pulsesPerFrame .r25).2 ≤ ((90 : Int) - 100) * (pulsesPerFrame .r25).1 ∧
      ((90 : Int) - 100) * (pulsesPerFrame .r25).1 < (-24 + 1) * ((pulsesPerFrame .r25).2 : Int)) := by decide

theorem test_witness_ReleaseLatchClears :
    meets [0] 1 (site { guarded with latched := true, flapCounter := 3 }) ∧ meets [0] 1 (site guarded) ∧ 64 ≤ numAt [64] 0 1 := by decide

/-! Station time, the device, the sense lines. -/

theorem test_witness_StationTimeCommands :
    (let set : Byte → Byte → Byte → Byte → List Byte := fun fam day2 ff r => [fam, 0x27, day2, 23, 59, 59, ff, r]
     State.reset.slot = none ∧ (set 1 0x0F 24 1).length = 8 ∧ familyOfCode (numAt (set 0 0x0F 24 1) 0 1) = none ∧
     rateOfCode (numAt (set 1 0x0F 24 7) 7 1) = none ∧ familyOfCode (numAt (set 1 0x0F 24 1) 0 1) = some .p ∧
     rateOfCode (numAt (set 1 0x0F 24 1) 7 1) = some .r25 ∧ rateOfCode (numAt (set 1 0x0F 24 3) 7 1) = some .r30d ∧
     RateCode.r25.family = .p ∧ RateCode.r30d.family ≠ .p ∧ numAt (set 1 0x0F 24 1) 1 2 = 9999 ∧ 9999 < numAt (set 1 0x10 24 1) 1 2 ∧
     (labelAt (set 1 0x0F 24 1) 3).valid .r25 = true ∧ (labelAt (set 1 0x0F 25 1) 3).valid .r25 = false ∧
     (∀ c, (State.reset.chan c).settings.rate.family = .p → (State.reset.chan c).changeover = .mirror) ∧
     ((site { guarded with changeover := .onDr }).chan 0).settings.rate.family = .p ∧
     ((site { guarded with changeover := .onDr }).chan 0).changeover ≠ .mirror ∧
     ([2] : List Byte).length = 1 ∧ familyOfCode (numAt [2] 0 1) = some .n ∧ familyOfCode (numAt [3] 0 1) = none) := by decide

theorem test_witness_ConfigureDeviceStores :
    (let body : Byte → List Byte := fun fam => [0, 0, 0x0E, 0x10, fam, 4, 2, 0, 200, 3, 0xE8, 0, 60, 1, 0xF4, 0, 30]
     State.reset.slot = none ∧ (body 1).length = 17 ∧ familyOfCode (numAt (body 0) 4 1) = none ∧
     familyOfCode (numAt (body 3) 4 1) = none ∧ familyOfCode (numAt (body 1) 4 1) = some State.reset.device.routerFamily ∧
     familyOfCode (numAt (body 2) 4 1) = some .n ∧ Family.n ≠ State.reset.device.routerFamily ∧ State.reset.takeQueue = [] ∧
     (∀ c, (State.reset.chan c).outstanding = none) ∧
     ({ State.reset with takeQueue := [{ channel := 0, direction := .main, release := 0, priority := 4 }] } : State).takeQueue ≠ []) := by
  decide

theorem test_witness_ConfigureSenseLineWrites :
    (let body : Byte → Byte → Byte → Byte → List Byte := fun l f c e => [l, f, c, e, 0, 10]
     State.reset.slot = none ∧ (body 0 0 0 0).length = 6 ∧ 16 ≤ numAt (body 16 0 0 0) 0 1 ∧
     senseFunctionOfCode (numAt (body 0 3 0 0) 1 1) = none ∧ levelOfCode (numAt (body 0 1 0 2) 3 1) = none ∧
     numAt (body 15 0 0 0) 0 1 = (15 : LineNo).val ∧ senseFunctionOfCode (numAt (body 15 0 0 0) 1 1) = some .unused ∧
     senseFunctionOfCode (numAt (body 0 1 63 1) 1 1) = some .returnFeed ∧ senseFunctionOfCode (numAt (body 0 2 63 1) 1 1) = some .tally ∧
     levelOfCode (numAt (body 0 1 63 1) 3 1) = some .high ∧ 64 ≤ numAt (body 0 1 64 1) 2 1 ∧
     channelOf (numAt (body 0 1 63 1) 2 1) = some 63 ∧ (∀ m : LineNo, m ≠ 0 → (State.reset.line m).function = .unused) ∧
     (let s := modLine 1 (fun x => { x with function := .returnFeed, mapped := some 63 }) State.reset
      (1 : LineNo) ≠ 0 ∧ s.slot = none ∧ (s.line 1).function = .returnFeed ∧ (s.line 1).mapped = some 63)) := by decide

theorem test_witness_ReadSenseLinesAnswers : State.reset.slot = none := by decide

/-- A snapshot of channel 0 in assembly. -/
def assembling (p : Phase) (staged : List Body) : Assembly :=
  { channel := 0, phase := p, stateBefore := .outOfStep, causeBefore := .gap
    resume := if p = .receiving then some 5 else none, expected := if p = .receiving then some 2 else none
    nextIndex := staged.length + 1, timer := 0, gapNoted := false, staged := staged }

theorem test_witness_LinkRestartDropsLink :
    State.reset.slot = none ∧ State.reset.assembly = none ∧
    ({ site guarded with assembly := some (assembling .receiving []), linkUp := true } : State).slot = none ∧
    ({ site guarded with assembly := some (assembling .receiving []), linkUp := true } : State).assembly =
      some (assembling .receiving []) := by decide

/-! Pulses and frame events. -/

/-- Family P LOCKED at a count of 200, its last reference pulse and its last counted one at instant 0, with this run and state. -/
def pulsed (run : Nat) (st : FamilyState) (p : Option PendingSet) (ch : Channel) : State :=
  modFamily .p (fun f => { f with
    state := st, count := 200, goodRun := run, lastReference := some 0, lastCounted := some 0, pendingSet := p }) (site ch)

/-- A pending set of family P. -/
def pendingP : PendingSet :=
  { target := 1000, rate := .r25, day := 0, label := ⟨0, 0, 20, 0⟩ }

theorem test_witness_ReferencePulseIsClassified :
    (∀ c, ((pulsed 7 .locked none guarded).chan c).due = []) ∧ workFrames [] (pulsed 7 .locked none guarded) = pulsed 7 .locked none guarded ∧
    (2 * (4799 - 0) < familyPeriod .p ∧ ¬2 * (4800 - 0) < familyPeriod .p) ∧
    (7 * familyPeriod .p ≤ 8 * (8400 - 0) ∧ 8 * (8400 - 0) ≤ 9 * familyPeriod .p ∧ 8 * (10800 - 0) ≤ 9 * familyPeriod .p ∧
      ¬7 * familyPeriod .p ≤ 8 * (8399 - 0) ∧ ¬8 * (10801 - 0) ≤ 9 * familyPeriod .p) ∧ min (7 + 1) 8 = 8 ∧
    (∀ st ∈ [FamilyState.unset, .locked, .freerun], ∀ run ∈ [6, 7],
      ((pulsed run st none guarded).family .p).state = st ∧ ((pulsed run st none guarded).family .p).goodRun = run ∧
      ((pulsed run st none guarded).family .p).lastReference = some 0 ∧ ((pulsed run st none guarded).family .p).pendingSet = none) ∧
    ((pulsed 7 .locked (some pendingP) { guarded with changeover := .onDr }).family .p).pendingSet ≠ none ∧
    ((pulsed 7 .locked (some pendingP) { guarded with changeover := .onDr }).chan 0).settings.rate.family = .p ∧
    ((pulsed 7 .locked (some pendingP) { guarded with changeover := .onDr }).chan 0).changeover ≠ .mirror ∧
    (((pulsed 7 .locked none guarded).family .p).count % 2 = 0 ∧ ((pulsed 7 .locked none guarded).family .p).parity = .even) ∧
    (let v := modFamily .p (fun f => { f with parity := .odd }) (pulsed 7 .locked none guarded)
     (v.family .p).count % 2 = 0 ∧ (v.family .p).parity ≠ .even ∧ (v.family .p).state = .locked) ∧
    ((pulsed 7 .freerun none guarded).family .p).lastCounted = some 0 := by decide +kernel

/-- An unmarked pulse on an odd count with even parity, and a marked one in FREERUN: neither checks the parity. -/
theorem test_witness_ReferencePulseIsClassified_unmarked :
    (let odd : FamilyState → State := fun st => modFamily .p (fun f => { f with count := 201 }) (pulsed 7 st none guarded)
     ¬(((odd .locked).family .p).count % 2 = 0 ↔ ((odd .locked).family .p).parity = .even) ∧ ((odd .locked).family .p).state = .locked ∧
     ((odd .freerun).family .p).state ≠ .locked ∧ parityCheck .p false (odd .locked) = odd .locked ∧
     parityCheck .p true (odd .freerun) = odd .freerun ∧ parityCheck .p true (odd .locked) = raiseEvent .refPhase (odd .locked)) := by
  decide +kernel

theorem test_witness_LoadingPulseLoadsFamily :
    (let s := pulsed 7 .locked (some pendingP) guarded
     workFrames [] s = s ∧ (s.family .p).pendingSet = some pendingP ∧ (s.family .p).lastReference = some 0 ∧
     familyPeriod .p ≤ 2 * (4800 - 0) ∧ (∀ c, (s.chan c).settings.rate.family = .p → (s.chan c).changeover = .mirror) ∧
     8 * (9600 - 0) ≤ 9 * familyPeriod .p ∧ 7 * familyPeriod .p ≤ 8 * (9600 - 0)) := by decide +kernel

theorem test_witness_AbsenceAndSynthesis :
    (∀ st ∈ [FamilyState.unset, .locked, .freerun], workFrames [] (pulsed 7 st none guarded) = pulsed 7 st none guarded ∧
      ((pulsed 7 st none guarded).family .p).state = st ∧ ((pulsed 7 st none guarded).family .p).absenceFrom.isSome) ∧
    (workFrames [] (modFamily .p (fun f => { f with absenceFrom := none }) (site guarded))).familyP.absenceFrom = none := by
  decide +kernel

theorem test_witness_CountedPulseRaisesFrameEvents :
    (let s := pulsed 7 .locked none guarded
     ((s.chan 0).settings.rate.family = .p ∧ (s.chan 0).settings.rate.isDouble = false ∧ (s.family .p).count % 2 = 0 ∧
       (s.family .p).parity = .even) ∧ (s.chan 0).settings.rate.family ≠ .n ∧ s.device.routerFamily = .p) := by decide

theorem test_witness_RouterQueueAndGrants :
    (let r : Request := { channel := 0, direction := .dr, release := 0, priority := 0 }
     let q : Request := { channel := 1, direction := .dr, release := 1, priority := 0 }
     let s : State := { site guarded with takeQueue := [r, q] }
     InvWith 0 s ∧ r ∈ (s.takeQueue.filter (fun r => decide (r.release ≤ (s.family s.device.routerFamily).count))).take s.device.takesPerPulse ∧
       (∀ x ∈ (s.takeQueue.filter (fun r => decide (r.release ≤ (s.family s.device.routerFamily).count))).take s.device.takesPerPulse,
         x.channel ≠ 1) ∧ (1 : ChannelNo) ≠ r.channel) :=
  ⟨inv_of_lawful guarded (by decide) (by decide) (by decide), by decide⟩

/-- The priority of a takeover: an entry listed, and a name that is not. -/
theorem test_witness_RouterQueueAndGrants_priority :
    (let s := site (listing (seven .planned))
     InvWith 0 s ∧ seven .planned ∈ (s.chan 0).schedule ∧ (∀ e ∈ (s.chan 0).schedule, e.key ≠ ⟨.localEntry, 7⟩)) :=
  ⟨inv_site _ (by decide), by decide⟩

theorem test_witness_PartsAreTakenOnce :
    (∀ b ∈ [Block.sst, .rrx, .csv, .cou], b ∉ ((site guarded).chan 0).due ∧ b ∈ ((site { guarded with due := [b] }).chan 0).due) ∧
    (∀ p ∈ [TickPart.sense 15, .link, .snapshot, .status, .take 0, .host, .walk], p ∉ (site guarded).tickDue) := by decide

/-! The blocks at a frame event. -/

/-- A channel with one part of its frame event still due. -/
def dueAt (b : Block) (ch : Channel) : Channel :=
  { ch with due := [b] }

theorem test_witness_EntryRetirementAtFrameEvent :
    InvWith 0 (site (dueAt .sst (listing (seven .planned)))) ∧ .sst ∈ ((site (dueAt .sst (listing (seven .planned)))).chan 0).due ∧
    ((site (dueAt .sst (listing (seven .planned)))).chan 0).frame = some 100 :=
  ⟨inv_site _ (by decide), by decide⟩

theorem test_witness_FaultConditionsAndVote :
    (∃ k, k = (if sourceFaults (site { guarded with listing := .fail }) 0 .hb then 1 else 0) +
      (if sourceFaults (site { guarded with listing := .fail }) 0 .rf then 1 else 0) +
      (if sourceFaults (site { guarded with listing := .fail }) 0 .tl then 1 else 0) ∧ k = 1) := ⟨_, rfl, by decide⟩

/-- The guarded channel with this supervision state, listing and timers, its vote ALL of HB and RF if `split`. -/
def watched (st : Supervision) (l : Listing) (split : Bool) (trip recovery : Nat) : Channel :=
  { guarded with
    settings := { guarded.settings with sources := { hb := true, rf := split, tl := false }, vote := if split then .all else .any }
    due := [.csv], supervision := st, listing := l, tripTimer := trip, recoveryTimer := recovery }

theorem test_witness_SupervisionAtFrameEvent :
    (let at' : Channel → State := fun ch => csvBegun 0 (site ch)
     let faulty : Channel → Prop := fun ch => alertCondition (at' ch) 0 = true
     let voted : Channel → Prop := fun ch => voteMet (at' ch) 0 = true
     let h := watched .healthy
     let a := watched .alert
     let t := watched .tripped
     .csv ∈ ((site (h .none false 0 0)).chan 0).due ∧ ¬faulty (h .none false 0 0) ∧ (faulty (h .fail true 0 0) ∧ ¬voted (h .fail true 0 0)) ∧
     (faulty (h .fail false 0 0) ∧ voted (h .fail false 0 0) ∧ 1 < ((at' (h .fail false 0 0)).chan 0).inEffect.tripDelay) ∧
     (faulty (a .fail true 5 0) ∧ ¬voted (a .fail true 5 0)) ∧
     (faulty (a .fail false 11 0) ∧ voted (a .fail false 11 0) ∧
       ((at' (a .fail false 11 0)).chan 0).tripTimer + 1 < ((at' (a .fail false 11 0)).chan 0).inEffect.tripDelay) ∧
     ¬faulty (a .none false 5 0) ∧ faulty (t .fail false 0 5) ∧
     (¬faulty (t .none false 0 248) ∧
       ((at' (t .none false 0 248)).chan 0).recoveryTimer + 1 < ((at' (t .none false 0 248)).chan 0).inEffect.recovery)) := by decide

theorem test_witness_TripTripsChannel :
    (let ripe := watched .alert .fail false 12 0
     let quick := { watched .healthy .fail false 0 0 with
       settings := { guarded.settings with tripDelayMs := 0, tripDelay := 0, flapLimit := 0 }, inEffect := { guarded.inEffect with takeover := .auto } }
     let back := { ripe with changeover := .returning }
     let asked : State := { site back with takeQueue := [{ channel := 0, direction := .main, release := 0, priority := 4 }] }
     (∀ ch ∈ [ripe, quick, back], .csv ∈ ((site ch).chan 0).due ∧ alertCondition (csvBegun 0 (site ch)) 0 = true ∧
       voteMet (csvBegun 0 (site ch)) 0 = true) ∧
     InvWith 0 (site ripe) ∧ InvWith 0 (site quick) ∧ InvWith 0 (site back) ∧ InvWith 0 asked ∧
     ((csvBegun 0 (site ripe)).chan 0).inEffect.tripDelay ≤ ((csvBegun 0 (site ripe)).chan 0).tripTimer + 1 ∧
     ((csvBegun 0 (site quick)).chan 0).inEffect.tripDelay ≤ 1 ∧
     ((csvBegun 0 (site quick)).chan 0).inEffect.flapLimit = 0 ∧ ((csvBegun 0 (site ripe)).chan 0).inEffect.flapLimit ≠ 0 ∧
     ((csvBegun 0 (site ripe)).chan 0).changeover = .mirror ∧ ((csvBegun 0 (site ripe)).chan 0).inEffect.takeover = .confirm ∧
     (site ripe).hostPresent = true ∧ ((csvBegun 0 (site quick)).chan 0).inEffect.takeover = .auto ∧
     (site back).hasRequest 0 = false ∧ asked.hasRequest 0 = true) :=
  ⟨by decide, inv_site _ (by decide), inv_site _ (by decide), inv_site _ (by decide),
    inv_of_lawful { watched .alert .fail false 12 0 with changeover := .returning } (by decide) (by decide) (by decide), by decide⟩

/-- A trip with the host ABSENT under CONFIRM, and a trip that latches the channel at its flap limit, outside PROTECTED. -/
theorem test_witness_TripTripsChannel_absent :
    (let ripe := watched .alert .fail false 12 0
     let absent : State := { site ripe with hostPresent := false }
     let copied := { ripe with settings := { ripe.settings with mode := .copyOnly }, flapCounter := 2 }
     InvWith 0 absent ∧ InvWith 0 (site copied) ∧ absent.hostPresent = false ∧
     (∀ s ∈ [absent, site copied], .csv ∈ (s.chan 0).due ∧ alertCondition (csvBegun 0 s) 0 = true ∧ voteMet (csvBegun 0 s) 0 = true ∧
       ((csvBegun 0 s).chan 0).supervision = .alert ∧
       ((csvBegun 0 s).chan 0).inEffect.tripDelay ≤ ((csvBegun 0 s).chan 0).tripTimer + 1) ∧
     ((csvBegun 0 absent).chan 0).settings.mode = .protectedMode ∧ ((csvBegun 0 absent).chan 0).changeover = .mirror ∧
     ((csvBegun 0 absent).chan 0).inEffect.takeover = .confirm ∧ copied.settings.mode ≠ .protectedMode ∧
     ((csvBegun 0 (site copied)).chan 0).inEffect.flapLimit = 3 ∧ copied.flapCounter + 1 = 3 ∧ copied.latched = false) := by
  refine ⟨inv_touch (inv_site (watched .alert .fail false 12 0) (by decide)), inv_site _ (by decide), by decide⟩

theorem test_witness_RecoveryHealsChannel :
    ∀ st ∈ [Changeover.mirror, .awaitConfirm, .stranded],
      (let s := site { watched .tripped .none false 0 249 with changeover := st }
       .csv ∈ (s.chan 0).due ∧ alertCondition (csvBegun 0 s) 0 = false ∧ ((csvBegun 0 s).chan 0).supervision = .tripped ∧
       ((csvBegun 0 s).chan 0).inEffect.recovery ≤ ((csvBegun 0 s).chan 0).recoveryTimer + 1 ∧
       ((csvBegun 0 s).chan 0).changeover = st) := by decide

/-- The guarded channel at frame 100 with COU's part due. -/
def turning (st : Changeover) (timer : Nat) : Channel :=
  { guarded with due := [.cou], changeover := st, confirmTimer := timer }

theorem test_witness_ChangeoverAtFrameEvent :
    (∀ st ∈ [Changeover.mirror, .awaitConfirm, .stranded, .preparing], .cou ∈ ((site (turning st 0)).chan 0).due ∧
      ((site (turning st 0)).chan 0).frame = some 100 ∧ ((site (turning st 0)).chan 0).changeover = st ∧
      ((site (turning st 0)).chan 0).supervision ≠ .tripped) ∧
    (InvWith 0 (site (turning .mirror 0)) ∧ InvWith 0 (site { turning .mirror 0 with supervision := .tripped }) ∧
      InvWith 0 (site (turning .awaitConfirm 123)) ∧ InvWith 0 (site (turning .awaitConfirm 124)) ∧ InvWith 0 (site (turning .stranded 0))) ∧
    (123 + 1 < ((couBegun 0 (site (turning .awaitConfirm 123))).chan 0).inEffect.confirm ∧
      ((couBegun 0 (site (turning .awaitConfirm 124))).chan 0).inEffect.confirm ≤ 124 + 1) ∧
    (∀ used : Bool,
      (let ch := { turning .preparing 0 with current := some (placed .standby none 100 none), cueRetryUsed := used }
       InvWith 0 (site ch) ∧ ∃ p, ((couBegun 0 (site ch)).chan 0).current = some p ∧ p.reply = .awaiting ∧ p.rollFrame = 100 ∧
         ((couBegun 0 (site ch)).chan 0).cueRetryUsed = used)) := by
  refine ⟨by decide, ⟨inv_site _ (by decide), inv_site _ (by decide), inv_site _ (by decide), inv_site _ (by decide),
    inv_site _ (by decide)⟩, by decide, fun used => ?_⟩
  cases used <;> exact ⟨inv_site _ (by decide), _, rfl, by decide⟩

/-- PREPARING with its joining directive READY, or AWAITING at a later frame. -/
theorem test_witness_ChangeoverAtFrameEvent_preparing :
    ∀ p ∈ [{ placed .standby none 100 none with reply := .ready }, placed .standby none 101 none],
      (let s := site { turning .preparing 0 with current := some p }
       InvWith 0 s ∧ ((couBegun 0 s).chan 0).changeover = .preparing ∧ (s.chan 0).frame = some 100 ∧
       (∀ q, ((couBegun 0 s).chan 0).current = some q → q.reply ≠ .awaiting ∨ q.rollFrame ≠ 100) ∧
       (∀ q, ((couBegun 0 s).chan 0).current = some q → q.rolled = false) ∧ ((couBegun 0 s).chan 0).next = none) := by
  intro p hp
  simp only [List.mem_cons, List.not_mem_nil, or_false] at hp
  rcases hp with rfl | rfl
  · refine ⟨inv_site _ (by decide), by decide, by decide, fun q hq => ?_, fun q hq => ?_, by decide⟩ <;> (cases hq; decide)
  · refine ⟨inv_site _ (by decide), by decide, by decide, fun q hq => ?_, fun q hq => ?_, by decide⟩ <;> (cases hq; decide)

theorem test_witness_EditBudgetWindow :
    (let at' : Bool → Nat → Bool → Channel := fun restart n storm =>
       { guarded with due := [.rrx], windowRestart := restart, budget := { frames := n, updates := 3, stormPending := storm } }
     (∀ restart : Bool, ∀ n ∈ [23, 24], ∀ storm : Bool, .rrx ∈ ((site (at' restart n storm)).chan 0).due ∧
       ((rrxBegun 0 (site (at' restart n storm))).chan 0).windowRestart = restart ∧
       ((rrxBegun 0 (site (at' restart n storm))).chan 0).budget.frames = n ∧
       ((rrxBegun 0 (site (at' restart n storm))).chan 0).budget.stormPending = storm) ∧
     23 + 1 < RateCode.r25.nominal ∧ RateCode.r25.nominal ≤ 24 + 1 ∧ (guarded.replState ≠ .outOfStep) ∧
     (let s := rrxBegun 0 (site { at' false 24 true with replState := .outOfStep, cause := .storm })
      (s.chan 0).replState = .outOfStep ∧ (s.chan 0).cause = .storm ∧ (s.chan 0).settings.mode ≠ .off)) := by decide

/-! Ticks. -/

/-- The guarded site with line 0 as given and one part of a tick due. -/
def ticked (p : TickPart) (x : SenseLine) : State :=
  { modLine 0 (fun _ => x) (site guarded) with tickDue := [p], sampled := true, linkUp := true }

theorem test_witness_SenseLinesAtATick :
    (site guarded).tickDue = [] ∧ takeParts [] (site guarded).tickDue (site guarded) = site guarded ∧ (site guarded).sampled = false ∧
    (takeParts [] [] ({ site guarded with sampled := true } : State)).sampled = true ∧
    (let x : Level → Nat → SenseFunction → SenseLine := fun raw n f =>
       { SenseLine.reset with raw := raw, level := .low, stability := n, function := f, mapped := if f = .unused then none else some 0 }
     (∀ raw ∈ [Level.low, .high], ∀ n ∈ [9, 10], ∀ f ∈ [SenseFunction.unused, .returnFeed, .tally],
       .sense 0 ∈ (ticked (.sense 0) (x raw n f)).tickDue ∧ ((ticked (.sense 0) (x raw n f)).line 0).raw = raw ∧
       ((ticked (.sense 0) (x raw n f)).line 0).stability = n ∧ ((ticked (.sense 0) (x raw n f)).line 0).function = f) ∧
     9 < (x .high 9 .unused).tickDebounce ∧ (x .high 10 .unused).tickDebounce ≤ 10 ∧ Level.high ≠ (x .high 10 .unused).level ∧
     (x .high 10 .unused).mapped = none ∧ (x .high 10 .tally).mapped = some 0) ∧
    (∀ st ∈ [Supervision.healthy, .alert, .tripped], ((site { guarded with supervision := st }).chan 0).supervision = st) := by
  decide +kernel

/-- A debounce time changed between a tick and the comparison of its sample is used from the next tick (R110). -/
theorem test_debounce_time_of_the_tick :
    (let x : SenseLine := { SenseLine.reset with raw := .high, stability := 3, debounce := 0 }
     ((senseTick 0 (ticked (.sense 0) x)).line 0).stability = 4 ∧ ((senseTick 0 (ticked (.sense 0) x)).line 0).level = .low ∧
     ((msTick 1 [] { ticked (.sense 0) x with tickDue := [] }).line 0).level = .high) := by
  decide +kernel

theorem test_witness_TickTimersCountToTheirLimits :
    (let at' : TickPart → State := fun p => ticked p .reset
     (∀ p ∈ [TickPart.link, .status, .snapshot, .take 0, .host, .walk], p ∈ (at' p).tickDue ∧ (at' p).linkUp = true ∧
       p ∈ ({ at' p with linkUp := false } : State).tickDue) ∧
     ((998 + 1 < (at' .link).device.linkTimeout ∧ (at' .link).device.linkTimeout ≤ 999 + 1) ∧
      (498 + 1 < (at' .status).device.statusInterval ∧ (at' .status).device.statusInterval ≤ 499 + 1) ∧
      (59998 + 1 < 1000 * (at' .snapshot).device.snapshotTimeoutS ∧ 1000 * (at' .snapshot).device.snapshotTimeoutS ≤ 59999 + 1) ∧
      (198 + 1 < (at' (.take 0)).device.routerTimeout ∧ (at' (.take 0)).device.routerTimeout ≤ 199 + 1) ∧
      (29998 + 1 < 1000 * (at' .host).device.hostSilenceS ∧ 1000 * (at' .host).device.hostSilenceS ≤ 29999 + 1)) ∧
     (.link ∉ (at' .link).tickDue.erase .link ∧ .link ∉ (at' .snapshot).tickDue ∧ (at' .snapshot).assembly = none) ∧
     ((at' (.take 0)).chan 0).outstanding = none ∧ (at' .host).hostPresent = true ∧ (at' .host).device.hostSilenceS ≠ 0 ∧
     (at' .walk).walk = none) ∧
    (∀ n ∈ [998, 999], ({ ticked .link .reset with silence := n } : State).silence = n ∧
      ({ ticked .status .reset with statusCount := n } : State).statusCount = n ∧
      ({ ticked .host .reset with hostTimer := n } : State).hostTimer = n) ∧
    (∀ n ∈ [59998, 59999], ∃ a ∈ ({ ticked .snapshot .reset with assembly := some { assembling .receiving [] with timer := n } } : State).assembly,
      a.timer = n) ∧
    (∀ n ∈ [198, 199], ∃ o ∈ ((modChan 0 (fun ch => { ch with outstanding := some { tag := 1, direction := .dr, grantPulse := 0, executionPulse := 2, timer := n } })
      (ticked (.take 0) .reset)).chan 0).outstanding, o.timer = n) ∧
    (let r : WalkRecord := { channel := 0, horizon := 100, mainDigest := 0, mainCount := 0 }
     let s : Entry → Nat → State := fun e n => { site (listing e) with tickDue := [.walk], walk := some { record := r, digest := 0, count := 0, read := n } }
     (∀ e ∈ [seven .planned, pinnedSeven .planned (some .deletion), media .replicated 7 99 50],
       (((s e 0).chan 0).schedule.filter (fun e => decide (e.origin = .replicated)))[0]? = some e ∧ .walk ∈ (s e 0).tickDue) ∧
     (((s (seven .planned) 1).chan 0).schedule.filter (fun e => decide (e.origin = .replicated))).length ≤ 1 ∧
     r.horizon ≤ (seven .planned).body.start ∧ (media .replicated 7 99 50).body.start < r.horizon ∧
     ∃ w ∈ (s (seven .planned) 1).walk, w.digest = w.record.mainDigest ∧ w.count = w.record.mainCount ∧ w.digest ≠ 1) := by
  decide

/-! The replication link. -/

/-- The body of an ENTRY DROP of entry 7 of channel 0. -/
def dropBytes (seq : Nat) : List Byte :=
  0 :: bytesOf 2 seq ++ bytesOf 4 7

/-- A site whose link is UP. -/
def linked (s : State) : State :=
  { s with linkUp := true }

theorem test_witness_UpdatesAreClassed :
    (∀ n ∈ [0, 1, 2, 32768, 32769], updateOf (.entryDrop (dropBytes n)) = some (0, .drop n 7) ∧ (n + 65536 - 0) % 65536 = n) ∧
    (updateOf (.entryPut ([0, 0, 1] ++ entryBytes 7 1 0 50))).isSome = true ∧
    (linked (site guarded)).linkUp = true ∧ (State.reset.chan 0).settings.mode = .off ∧ ((site guarded).chan 0).settings.mode ≠ .off ∧
    ((site guarded).chan 0).lastApplied = some 0 ∧ ((site guarded).chan 0).replState = .inStep ∧
    (∀ st ∈ [ReplicationState.outOfStep, .unseeded, .stale, .resyncing],
      ((linked (site { guarded with replState := st })).chan 0).replState = st) ∧
    (∀ n ∈ [1, 2], (let ch := { guarded with
        inEffect := { guarded.inEffect with editBudget := 2 }, budget := { frames := 0, updates := n, stormPending := false } }
      ((site ch).chan 0).frame ≠ none ∧ ((site ch).chan 0).inEffect.editBudget = 2 ∧ ((site ch).chan 0).budget.updates = n)) ∧
    (linked (site { guarded with replState := .resyncing })).assembly = none ∧
    (let s : List Update → State := fun q => { linked (site { guarded with replState := .resyncing }) with
       assembly := some (assembling .receiving []), deferral := q }
     (∃ a ∈ (s []).assembly, a.channel = 0 ∧ a.phase = .receiving ∧ a.resume = some 5) ∧
     (∀ p ∈ [(5, 0), (6, 1), (32773, 32768), (32774, 32769)], updateOf (.entryDrop (dropBytes p.1)) = some (0, .drop p.1 7) ∧
       (p.1 + 65536 - 5) % 65536 = p.2) ∧
     (∃ v ∈ (s [.drop 6 7]).deferral, v.sequence = 6) ∧ (∀ v ∈ (s [.drop 7 7]).deferral, v.sequence ≠ 6) ∧
     (s (List.replicate 31 (.drop 9 7))).deferral.length < 32 ∧ 32 ≤ (s (List.replicate 32 (.drop 9 7))).deferral.length) := by decide

/-- The body of entry 7 as a message carries it, with this ID, revision and frame of second 4. -/
def carried (id revision ff : Nat) : RawBody :=
  { entryId := id, revision := revision, day := 0, label := ⟨0, 0, 4, ff⟩, duration := 50, kind := 1, priority := 2
    reference := List.replicate 16 0, somLabel := ⟨0, 0, 0, 0⟩, source := 0, secondaries := [] }

theorem test_witness_UpdatesAreApplied :
    (∀ e ∈ [seven .planned, seven .airing, pinnedSeven .planned none, pinnedSeven .cued (some .deletion),
        { seven .airing with amendment := some (.body (seven .planned).body) }],
      InvWith 0 (site (listing e)) ∧ ((site (listing e)).chan 0).lastApplied ≠ some 1 ∧
      ((site (listing e)).chan 0).schedule = [] ++ e :: [] ∧ e.key = ⟨.replicated, 7⟩) ∧
    (carried 0 2 0).valid .r25 = false ∧ (carried 7 1 0).valid .r25 = true ∧ (carried 7 2 0).valid .r25 = true ∧
    (carried 7 1 0).revision ≤ (seven .planned).body.revision ∧ (seven .planned).body.revision < (carried 7 2 0).revision ∧
    ((pinnedSeven .planned none).pinned = true ∧ ({ seven .airing with amendment := some (.body (seven .planned).body) } : Entry).amendment ≠ none) ∧
    ((seven .airing).pinned = false ∧ (seven .airing).amendment = none ∧ (seven .airing).inService = true) ∧
    (seven .planned).inService = false ∧
    (InvWith 0 (site guarded) ∧ (∀ e ∈ ((site guarded).chan 0).schedule, e.key ≠ ⟨.replicated, 7⟩) ∧
      ((site guarded).chan 0).schedule.length < 1024 ∧ ∃ u, requestSlot (site guarded) = some u) ∧
    (InvWith 0 (fullSite guarded) ∧ ((fullSite guarded).chan 0).lastApplied ≠ some 1 ∧
      (∀ e ∈ ((fullSite guarded).chan 0).schedule, e.key ≠ ⟨.replicated, 7⟩) ∧ 1024 ≤ ((fullSite guarded).chan 0).schedule.length) ∧
    (InvWith 0 (poolless guarded) ∧ ((poolless guarded).chan 0).lastApplied ≠ some 1 ∧ ((poolless guarded).chan 0).schedule = [] ∧
      requestSlot (poolless guarded) = none) := by
  refine ⟨fun e he => ?_, by decide, by decide, by decide, by decide, by decide, by decide, by decide, by decide,
    ⟨inv_site _ (by decide), by decide, by decide, _, rfl⟩, ⟨inv_fullSite (by decide), ?_, fun e he hk => ?_, ?_⟩,
    ⟨inv_poolless (by decide) rfl, ?_, ?_, requestSlot_poolless (ch := guarded) rfl rfl rfl⟩⟩
  · simp only [List.mem_cons, List.not_mem_nil, or_false] at he
    rcases he with rfl | rfl | rfl | rfl | rfl <;> exact ⟨inv_site _ (by decide), by decide⟩
  · rw [fullSite_chan]; show some 0 ≠ some 1; decide
  · rw [fullSite_chan] at he
    have := (crowd_planned he).2.1
    have hid : e.key.id = 7 := by rw [hk]
    exact absurd (show e.body.entryId = 7 from hid) (by omega)
  · rw [fullSite_chan]; exact Nat.le_of_eq crowd_length.symm
  · rw [poolless_chan]; show some 0 ≠ some 1; decide
  · rw [poolless_chan]; rfl

theorem test_witness_MessagesArriveAndKeepTheLinkUp :
    (∃ hs ds, parseHeartbeat ([1, 1, 0, 0, 0, 0] ++ [0, 0, 0, 0, 0, 4, 0, 0, 0, 0, 0, 0, 0]) = some (hs, ds) ∧
      hs = [{ channel := 0, mainLast := 0, fails := false }] ∧
      ds = [{ channel := 0, day := 0, label := ⟨0, 0, 4, 0⟩, digest := 0, count := 0 }]) ∧
    (malformedMessages []).length = 7 ∧ (malformedMessages [64, 0, 0, 0, 0, 0, 0]).length = 7 ∧
    replicationWellFormed [4, 0, 5, 0, 0, 0, 0, 1] = true ∧ updateOf (.entryDrop (dropBytes 1)) = some (0, .drop 1 7) ∧
    State.reset.linkUp = false ∧ (linked State.reset).linkUp = true ∧
    (let s := linked (site guarded)
     (s.chan 0).replState = .inStep ∧ (s.chan 0).settings.mode ≠ .off ∧ (s.chan 0).lastApplied ≠ some 1 ∧
     (s.chan 0).lastApplied = some 0 ∧ (s.chan 0).changeover = .mirror ∧ (∀ w ∈ s.pendingWalks, w.channel ≠ 0) ∧ s.walk = none ∧
     s.pendingWalks.length < 8 ∧ (⟨0, 0, 4, 0⟩ : Label).valid (s.chan 0).settings.rate = true ∧
     (⟨0, 0, 4, 25⟩ : Label).valid (s.chan 0).settings.rate = false) ∧
    State.reset.resyncQueue = [] ∧
    (({ State.reset with resyncQueue := [3] } : State).resyncQueue = 3 :: [] ∧ ({ State.reset with resyncQueue := [3] } : State).assembly = none) :=
  ⟨⟨_, _, rfl, by decide⟩, by decide⟩

/-- Messages of each replication kind with its layout, without it, with a wrong length, and of no kind. -/
theorem test_witness_MessagesArriveAndKeepTheLinkUp_kinds :
    (∃ k ∈ replicationKinds (dropBytes 1), k.1 = 2 ∧ k.2.1 = true ∧ 256 * (0 : Byte).toNat + (7 : Byte).toNat = (dropBytes 1).length) ∧
    (∃ k ∈ replicationKinds (dropBytes 1), k.1 = 4 ∧ k.2.1 = false) ∧
    256 * (0 : Byte).toNat + (8 : Byte).toNat ≠ (dropBytes 1).length ∧ (∀ k ∈ replicationKinds (dropBytes 1), (7 : Byte) ≠ k.1) ∧
    ([1, 0] : List Byte).length < 3 ∧ ofReplication (2 :: 0 :: 7 :: dropBytes 1) = .entryDrop (dropBytes 1) ∧
    ofReplication (2 :: 0 :: 8 :: dropBytes 1) = .malformedMessage (2 :: 0 :: 8 :: dropBytes 1) := by decide

theorem inv_assembling {t : State} {a : Assembly} (h : InvWith 0 t) (ha : t.assembly = none) (hn : (a.staged.map Body.entryId).Nodup)
    (hf : a.staged.length ≤ t.freeCount) :
    InvWith 0 { linked t with assembly := some a, freeCount := t.freeCount - a.staged.length } := by
  refine ⟨h.channels, h.families, h.device, ?_, fun b hb => ?_, h.attention, h.takes, h.resync, h.deferral, h.walks, h.walkChannels⟩
  · have hp := h.pool
    rw [stagedSlots, ha] at hp
    show listedSlots t + a.staged.length + (t.freeCount - a.staged.length) + 0 = _
    change listedSlots t + 0 + t.freeCount + 0 = _ at hp
    omega
  · cases Option.some.inj hb; exact hn

/-- The site with a snapshot in assembly on channel 0. -/
def staging (t : State) (a : Assembly) : State :=
  { linked t with assembly := some a, freeCount := t.freeCount - a.staged.length }

/-- A body of record of this ID at this frame. -/
def bodyAt (id start : Nat) : Body :=
  (media .replicated id start 50).body

theorem test_witness_SnapshotsAreAssembled :
    (let begun := staging (site guarded) (assembling .awaitingOpen [])
     let one := staging (site guarded) (assembling .receiving [bodyAt 7 100])
     InvWith 0 begun ∧ InvWith 0 one ∧ InvWith 0 (linked (site guarded)) ∧ begun.linkUp = true ∧ one.linkUp = true ∧
     (linked (site guarded)).assembly = none ∧
     (∃ a ∈ begun.assembly, a.channel = 0 ∧ a.phase = .awaitingOpen) ∧
     parseSnapshotOpen [0, 0, 5, 4, 0] = some (0, 5, 1024) ∧ parseSnapshotOpen [0, 0, 5, 4, 1] = some (0, 5, 1025) ∧
     (∃ a ∈ one.assembly, a.channel = 0 ∧ a.phase = .receiving ∧ a.expected = some 2 ∧ a.nextIndex = 2 ∧
       (∃ b ∈ a.staged, b.entryId = 7) ∧ (∀ b ∈ a.staged, b.entryId ≠ 8)) ∧
     (∀ n ∈ [0, 1, 2, 3], ∃ p ∈ parseEntryPut ([0, 0, BitVec.ofNat 8 n] ++ entryBytes 8 1 0 50), p.1 = 0 ∧ p.2.1 = n ∧
       p.2.2.valid .r25 = true ∧ p.2.2.entryId = 8) ∧
     (∃ p ∈ parseEntryPut ([0, 0, 2] ++ entryBytes 7 1 0 50), p.2.2.entryId = 7) ∧
     (∃ p ∈ parseEntryPut ([0, 0, 2] ++ entryBytes 8 1 25 50), p.2.2.valid .r25 = false) ∧ (∃ u, requestSlot (delivered one) = some u)) ∧
    (let none := staging (poolless guarded) (assembling .receiving [])
     InvWith 0 none ∧ requestSlot (delivered none) = Option.none) := by
  refine ⟨⟨inv_assembling (inv_site _ (by decide)) rfl (by decide) (by decide), inv_assembling (inv_site _ (by decide)) rfl (by decide) (by decide),
    inv_touch (inv_site guarded (by decide)), by decide, by decide, by decide, by decide, by decide, by decide, by decide, by decide,
    by decide, by decide, _, rfl⟩, inv_assembling (inv_poolless (by decide) rfl) rfl (by decide) (by decide),
    requestSlot_poolless (ch := guarded) rfl rfl rfl⟩

/-- The close of a snapshot: two staged entries with the right digest, beside what stays of the schedule. -/
theorem test_witness_SnapshotsAreAssembled_close :
    (∀ e ∈ [seven .planned, seven .airing, pinnedSeven .planned none],
      (let two := staging (site (listing e)) (assembling .receiving [bodyAt 7 100, bodyAt 8 200])
       InvWith 0 two ∧ two.deferral = [] ∧ two.resyncQueue = [] ∧ (two.chan 0).schedule = [e] ∧
       (∃ a ∈ two.assembly, a.channel = 0 ∧ a.phase = .receiving ∧ a.staged.length = 2 ∧ a.expected = some 2 ∧ a.resume = some 5 ∧
         a.gapNoted = false ∧
         (a.staged.map (fun b => (b.entryId * 40503 + b.revision * 977 + b.start % 65536) % 2 ^ 32)).sum % 2 ^ 32 = 609799))) ∧
    parseSnapshotClose [0, 0, 2, 0, 9, 0x4E, 7] = some (0, 2, 609799) ∧ parseSnapshotClose [0, 0, 1, 0, 9, 0x4E, 7] = some (0, 1, 609799) ∧
    (let more := staging (fullSite guarded) (assembling .receiving [bodyAt 7 100])
     InvWith 0 more ∧ 1024 < (more.chan 0).schedule.countP (fun e => decide (e.origin = .localEntry ∨ e.inService = true ∨ e.pinned = true)) +
       [bodyAt 7 100].countP (fun b => decide (∀ e ∈ (more.chan 0).schedule, ¬(e.origin = .replicated ∧ e.body.entryId = b.entryId)))) := by
  have horigin : ∀ e ∈ crowd, e.origin = .localEntry := by
    intro e he
    rw [crowd_eq] at he
    obtain ⟨i, _, rfl⟩ := List.mem_map.1 he
    rfl
  refine ⟨fun e he => ?_, by decide, by decide, ⟨inv_assembling (inv_fullSite (by decide)) rfl (by decide) (by decide), ?_⟩⟩
  · simp only [List.mem_cons, List.not_mem_nil, or_false] at he
    rcases he with rfl | rfl | rfl <;> exact ⟨inv_assembling (inv_site _ (by decide)) rfl (by decide) (by decide), by decide⟩
  · have hs : ((staging (fullSite guarded) (assembling .receiving [bodyAt 7 100])).chan 0).schedule = crowd := by
      show ((fullSite guarded).chan 0).schedule = crowd
      rw [fullSite_chan]; rfl
    show 1024 < List.countP _ ((staging (fullSite guarded) (assembling .receiving [bodyAt 7 100])).chan 0).schedule + _
    rw [hs, List.countP_eq_length.2 (fun e he => by simp [horigin e he]), crowd_length, List.countP_eq_length.2 (fun b _ => ?_)]
    · decide
    · simp only [decide_eq_true_eq]
      intro e he hn
      rw [horigin e he] at hn
      cases hn.1

/-- A commit with a deferred update that follows on, one that does not, a noted gap and a waiting channel; and a snapshot message that
finds the link DOWN. -/
theorem test_witness_SnapshotsAreAssembled_deferred :
    (let two := staging (site (listing (seven .planned))) { assembling .receiving [bodyAt 7 100, bodyAt 8 200] with gapNoted := true }
     let full : State := { two with deferral := [.drop 6 8, .drop 9 7], resyncQueue := [3] }
     InvWith 0 full ∧ InvWith 0 ({ full with linkUp := false } : State) ∧
     (∃ a ∈ full.assembly, a.channel = 0 ∧ a.phase = .receiving ∧ a.staged.length = 2 ∧ a.resume = some 5 ∧ a.expected = some 2 ∧ a.gapNoted = true) ∧
     full.deferral.map numberOfUpdate = [6, 9] ∧ full.linkUp = true ∧ full.resyncQueue = [3]) := by
  have h : InvWith 0 (staging (site (listing (seven .planned))) { assembling .receiving [bodyAt 7 100, bodyAt 8 200] with gapNoted := true }) :=
    inv_assembling (inv_site _ (by decide)) rfl (by decide) (by decide)
  refine ⟨?_, ?_, by decide⟩
  · exact ⟨h.channels, h.families, h.device, h.pool, h.staged, h.attention, h.takes, by decide, by decide, h.walks, h.walkChannels⟩
  · exact ⟨h.channels, h.families, h.device, h.pool, h.staged, h.attention, h.takes, by decide, by decide, h.walks, h.walkChannels⟩

/-! Replies. -/

/-- The guarded channel in a changeover state with these places, tags 5 and 6. -/
def playing (st : Changeover) (current next : Option Place) : Channel :=
  { guarded with changeover := st, current := current, next := next, currentTag := 5, nextTag := 6, lastTag := 6 }

theorem test_witness_CueRepliesAreMatched :
    parseReply [] = none ∧ parseReply [64, 5] = none ∧ parseReply [0, 5] = some (0, 5) ∧ parseReply [0, 6] = some (0, 6) ∧
    (∀ st ∈ [Changeover.preparing, .onDr], ((site (playing st (some (placed .standby none 110 none)) none)).chan 0).changeover = st ∧
      ∃ p ∈ ((site (playing st (some (placed .standby none 110 none)) none)).chan 0).current, p.reply = .awaiting ∧
        ((site (playing st (some (placed .standby none 110 none)) none)).chan 0).currentTag = 5) ∧
    (playing .preparing none none).cueRetryUsed = false ∧ ({ playing .preparing none none with cueRetryUsed := true } : Channel).cueRetryUsed = true ∧
    (site guarded |>.chan 0).current = none ∧ (site guarded |>.chan 0).next = none ∧
    (∀ k ∈ [PlaceKind.standby, .roll], ∀ x ∈ [100, 101],
      ∃ p ∈ ((site (playing .onDr none (some (placed k none x none)))).chan 0).next, p.reply = .awaiting ∧ p.kind = k ∧ p.rollFrame = x ∧
        ((site (playing .onDr none (some (placed k none x none)))).chan 0).nextTag = 6) := by decide

/-- A reply of each link whole, of a wrong length, of a wrong layout, and of no kind of the link. -/
theorem test_witness_CueRepliesAreMatched_kinds :
    (∃ k ∈ replyKinds [0, 5], k.2.1 = 0x29 ∧ k.1 [0x29, 0, 2, 0, 5] = .cueFail [0, 5]) ∧
    (∃ k ∈ replyKinds [0, 5], k.2.1 = 0x38 ∧ k.1 [0x38, 0, 2, 0, 5] = .routerDone [0, 5]) ∧
    256 * (0 : Byte).toNat + (2 : Byte).toNat = ([0, 5] : List Byte).length ∧ (parseReply [0, 5]).isSome ∧
    256 * (0 : Byte).toNat + (3 : Byte).toNat ≠ ([0, 5] : List Byte).length ∧ parseReply [64, 5] = none ∧
    ((0x38 : Byte) ≠ 0x28 ∧ (0x38 : Byte) ≠ 0x29 ∧ (0x28 : Byte) ≠ 0x38 ∧ (0x28 : Byte) ≠ 0x39) ∧ ([0x28] : List Byte).length < 3 := by decide

/-- The guarded channel with a take outstanding under tag 9. -/
def taking (d : Direction) (st : Changeover) : Channel :=
  { guarded with
    changeover := st, decisionFrame := some 100, takeTag := 9
    outstanding := some { tag := 9, direction := d, grantPulse := 0, executionPulse := 2, timer := 0 } }

theorem test_witness_RouterRepliesAreMatched :
    (∀ d ∈ [Direction.main, .dr], ∀ st ∈ [Changeover.takePending, .returning, .onDr],
      InvWith 0 (site (taking d st)) ∧ ((site (taking d st)).chan 0).changeover = st ∧ (site (taking d st)).chan 0 = taking d st) ∧
    InvWith 0 (site { taking .dr .takePending with routerRetryUsed := true }) ∧
    parseReply [0, 9] = some (0, 9) ∧ parseReply [0, 8] = some (0, 8) ∧
    (∃ o ∈ (taking .dr .takePending).outstanding, o.tag = 9 ∧ o.tag ≠ 8 ∧ o.direction = .dr) ∧
    (∃ o ∈ (taking .main .returning).outstanding, o.tag = 9 ∧ o.direction = .main) ∧ (taking .dr .takePending).frame = some 100 ∧
    (taking .dr .takePending).decisionFrame = some 100 ∧ (taking .dr .takePending).routerRetryUsed = false := by
  refine ⟨fun d hd st hst => ?_, inv_site _ (by decide), by decide⟩
  simp only [List.mem_cons, List.not_mem_nil, or_false] at hd hst
  rcases hd with rfl | rfl <;> rcases hst with rfl | rfl | rfl <;> exact ⟨inv_site _ (by decide), by decide⟩

/-- The ID-7 entry on air or cued, another cued after it, and the places of the case. -/
def onAir (e d : Entry) (current next : Option Place) : Channel :=
  { playing .onDr current next with schedule := [e, d] }

theorem test_witness_HeldChannelAtFrameEvent :
    (∀ st ∈ [Changeover.takePending, .onDr, .returning], .cou ∈ ((site (dueAt .cou (playing st none none))).chan 0).due ∧
      ((site (dueAt .cou (playing st none none))).chan 0).frame = some 100 ∧
      ((site (dueAt .cou (playing st none none))).chan 0).changeover = st) ∧
    (let eight : EntryStatus → Entry := fun st => { media .replicated 8 150 50 with status := st }
     let k7 : EntryKey := ⟨.replicated, 7⟩
     let k8 : EntryKey := ⟨.replicated, 8⟩
     let p7 : Nat → Reply → Bool → Place := fun x r rolled => { placed .roll (some k7) x (some 150) with reply := r, rolled := rolled }
     let p8 : Nat → Reply → Place := fun x r => { placed .roll (some k8) x (some 200) with reply := r }
     let st : Nat → Reply → Place := fun x r => { placed .standby none x none with reply := r }
     (∀ ch ∈ [onAir (seven .cued) (eight .planned) (some (p7 100 .ready false)) none,
          onAir (seven .cued) (eight .planned) (some (st 100 .ready)) none,
          onAir (seven .planned) (eight .planned) none (some (st 100 .awaiting)),
          onAir (seven .airing) (eight .cued) (some (p7 100 .ready true)) (some (p8 150 .ready)),
          onAir (seven .airing) (eight .planned) (some (p7 100 .ready true)) (some (st 150 .ready)),
          onAir (seven .planned) (eight .cued) (some { st 100 .ready with rolled := true }) (some (p8 150 .ready)),
          onAir (seven .airing) (eight .planned) (some (p7 100 .ready true)) none],
        InvWith 0 (site ch) ∧ ((site ch).chan 0).changeover ≠ .preparing ∧ (site ch).chan 0 = ch) ∧
     ((∃ e ∈ [seven .cued, eight .planned], e.key = k7 ∧ e.status = .cued) ∧ ∀ e ∈ [seven .cued, eight .planned], e.status = .airing → e.key = k7) ∧
     ((∃ e ∈ [seven .airing, eight .cued], e.key = k7 ∧ e.status = .airing ∧ (e.pinned = true ∨ e.amendment = none)) ∧
       (∃ e ∈ [seven .airing, eight .cued], e.key = k8 ∧ e.status = .cued) ∧
       (∀ e ∈ [seven .airing, eight .cued], e.status = .airing → e.key = k7) ∧ k8 ≠ k7) ∧
     endOf k7 [seven .airing, eight .planned] = some 150 ∧ 149 < min 150 150 ∧ min 150 150 ≤ 150 ∧
     transition (onAir (seven .airing) (eight .planned) (some (p7 100 .ready true)) none) 139 = some 150 ∧
     139 + (onAir (seven .airing) (eight .planned) (some (p7 100 .ready true)) none).inEffect.cueLead < 150 ∧
     transition (onAir (seven .airing) (eight .planned) (some (p7 100 .ready true)) none) 140 = some 150 ∧
     150 ≤ 140 + (onAir (seven .airing) (eight .planned) (some (p7 100 .ready true)) none).inEffect.cueLead ∧
     transition (playing .onDr none none) 100 = none ∧
     (let ch := { playing .onDr none (some (st 120 .awaiting)) with inEffect := { guarded.inEffect with giveback := .auto }, barrier := some 119 }
      ch.changeover = .onDr ∧ ch.supervision = .healthy ∧ ch.inEffect.giveback = .auto ∧ ch.latched = false ∧
      ∀ x ∈ ch.barrier, x < (boundaryOf ch 100).getD 100)) := by
  refine ⟨by decide, fun ch hch => ?_, by decide⟩
  simp only [List.mem_cons, List.not_mem_nil, or_false] at hch
  rcases hch with rfl | rfl | rfl | rfl | rfl | rfl | rfl <;> exact ⟨inv_site _ (by decide), by decide⟩

/-- A missed ROLL in the next place, with its entry CUED or with none; a failed STANDBY rolling after the item on air; an amendment or a
deletion that waits for the item on air to finish. -/
theorem test_witness_HeldChannelAtFrameEvent_followUps :
    (let eight : EntryStatus → Entry := fun st => { media .replicated 8 150 50 with status := st }
     let k7 : EntryKey := ⟨.replicated, 7⟩
     let k8 : EntryKey := ⟨.replicated, 8⟩
     let p7 : Place := { placed .roll (some k7) 90 (some 100) with reply := .ready, rolled := true }
     let failed : Place := { placed .standby none 100 none with reply := .failed }
     (∀ p ∈ [placed .roll (some k8) 100 (some 200), placed .live none 100 (some 200)],
       (let w := site (onAir (seven .airing) (eight .cued) (some p7) (some p))
        InvWith 0 w ∧ (w.chan 0).next = some p ∧ p.reply = .awaiting ∧ p.rollFrame = 100 ∧ p.kind ≠ .standby ∧ (w.chan 0).frame = some 100)) ∧
     (∃ e ∈ [seven .airing, eight .cued], e.key = k8 ∧ e.inService = true ∧ (e.pinned = true ∨ e.amendment = none)) ∧
     (let w := site (onAir (seven .airing) (eight .planned) (some p7) (some failed))
      InvWith 0 w ∧ (w.chan 0).next = some failed ∧ failed.rollFrame = 100 ∧ failed.kind = .standby ∧ p7.rolled = true ∧ (w.chan 0).changeover = .onDr ∧
      ∃ e ∈ (w.chan 0).schedule, e.key = k7 ∧ e.status = .airing ∧ e.amendment = none) ∧
     (∀ a ∈ [Amendment.deletion, .body { (seven .planned).body with revision := 2 }],
       (let d := { seven .airing with amendment := some a }
        let w := site { onAir d (eight .planned) (some p7) none with pinnedHeld := true }
        InvWith 0 w ∧ (w.chan 0).current = some p7 ∧ p7.playEnd = some 100 ∧ p7.entry = some d.key ∧
        (w.chan 0).schedule = [] ++ d :: [eight .planned] ∧ endOf d.key (w.chan 0).schedule = some 150 ∧ min 100 150 ≤ 100 ∧
        d.origin = .replicated ∧ d.status = .airing ∧ d.pinned = false ∧ d.amendment = some a)) ∧
     (let ch := onAir (seven .airing) (eight .planned) (some p7) none
      transition ch 99 = some 100 ∧ transition { ch with current := none } 100 = some 150)) := by
  refine ⟨fun p hp => ?_, by decide, ⟨inv_site _ (by decide), by decide⟩, fun a ha => ?_, by decide⟩
  · simp only [List.mem_cons, List.not_mem_nil, or_false] at hp
    rcases hp with rfl | rfl <;> exact ⟨inv_site _ (by decide), by decide⟩
  · simp only [List.mem_cons, List.not_mem_nil, or_false] at ha
    rcases ha with rfl | rfl <;> exact ⟨inv_site _ (by decide), by decide⟩

theorem test_witness_LabelsAndFramesAgree :
    2589407 < RateCode.r30d.framesPerDay ∧ (⟨23, 59, 59, 29⟩ : Label).valid .r30d = true ∧
    (⟨23, 59, 59, 29⟩ : Label).namesSkipped .r30d = false ∧ (⟨0, 1, 0, 1⟩ : Label).valid .r30d = true ∧
    (⟨0, 1, 0, 1⟩ : Label).namesSkipped .r30d = true ∧ 40 * RateCode.r25.num ≤ 1 * (1000 * RateCode.r25.den) := by decide

end Sys2Proof.Tests
end

/-! # The Schedule Store's commands on LOCAL entries (Chapter 2)

The rules of the port, of a command that names an entry, and of an entry that leaves its schedule; then the statements they
settle. -/

namespace Sys2Proof.Machine

section DeleteLocal

open Says

variable {write : Write} {body : List Byte} {c : ChannelNo} {s : State}

/-! ### A whole frame at the port -/

/-- A frame that finds the slot EMPTY leaves its answer in the slot, computed once the frame has been heard (R181). -/
theorem portCommand_eq_answered (h : s.slot = none) (write : Write) (run : State → Answer) :
    portCommand write run s =
      answered write.tag (run (heard write.early s)).status (run (heard write.early s)).clamped
        (run (heard write.early s)).body (run (heard write.early s)).state := by
  rw [portCommand_empty h, hostSpeaks_shiftPortByte]; rfl

theorem portCommand_refused (h : s.slot = none) {run : State → Answer} {st : Status}
    (hr : run (heard write.early s) = refuse st (heard write.early s)) :
    .next (portCommand write run s) = refused write st s := by
  rw [portCommand_eq_answered h, hr]; rfl

theorem portCommand_accepted (h : s.slot = none) {run : State → Answer} {fields : List Field} {t : State}
    (hr : run (heard write.early s) = accept fields t) :
    .next (portCommand write run s) = accepted write false fields t := by
  rw [portCommand_eq_answered h, hr]; rfl

/-! ### Commands that name an entry by a channel and an ID (R36, R38, R39) -/

section EntryCommand

variable {o : Origin} {run : ChannelNo → Entry → State → Answer}

theorem withChannel_outside (h : 64 ≤ numAt body 0 1) (act : ChannelNo → State → Answer) (s : State) :
    withChannel body act s = refuse .badChannel s := by
  simp [withChannel, channelOf_none h]

theorem entryCommand_badChannel (hl : body.length = 5) (h : 64 ≤ numAt body 0 1) :
    entryCommand o body run s = refuse .badChannel s := by
  rw [entryCommand, withLength_eq hl, withChannel_outside h]

/-- With its length and its channel right, the command goes by its ID and by what the schedule lists under it. -/
theorem entryCommand_eq (hl : body.length = 5) (hc : channelOf (numAt body 0 1) = some c) :
    entryCommand o body run s =
      if numAt body 1 4 = 0 then refuse .badField s
      else (lookupEntry ⟨o, numAt body 1 4⟩ (s.chan c).schedule).elim (refuse .notFound s) (fun e => run c e s) := by
  rw [entryCommand, withLength_eq hl, withChannel_eq hc]
  by_cases h0 : numAt body 1 4 = 0
  · simp [h0]
  · simp only [h0, if_false]
    cases lookupEntry ⟨o, numAt body 1 4⟩ (s.chan c).schedule <;> rfl

theorem entryCommand_badField (hl : body.length = 5) (hc : channelOf (numAt body 0 1) = some c) (h0 : numAt body 1 4 = 0) :
    entryCommand o body run s = refuse .badField s := by
  rw [entryCommand_eq hl hc, if_pos h0]

theorem entryCommand_notFound (hl : body.length = 5) (hc : channelOf (numAt body 0 1) = some c) (h0 : numAt body 1 4 ≠ 0)
    (hn : ∀ e ∈ (s.chan c).schedule, e.key ≠ ⟨o, numAt body 1 4⟩) :
    entryCommand o body run s = refuse .notFound s := by
  have hk : lookupEntry ⟨o, numAt body 1 4⟩ (s.chan c).schedule = none := by
    rw [lookupEntry_none, List.mem_map]
    rintro ⟨e, he, hek⟩
    exact hn e he hek
  rw [entryCommand_eq hl hc, if_neg h0, hk]; rfl

end EntryCommand

/-! ### One entry of a schedule that names each entry once -/

section OneEntry

variable {pre post : List Entry} {e : Entry}

/-- The names around an entry differ from its own. -/
theorem key_ne_of_nodup (hn : ((pre ++ e :: post).map Entry.key).Nodup) :
    (∀ d ∈ pre, d.key ≠ e.key) ∧ ∀ d ∈ post, d.key ≠ e.key := by
  rw [List.map_append, List.map_cons, List.nodup_middle, List.nodup_cons, ← List.map_append, List.mem_map] at hn
  obtain ⟨hnot, -⟩ := hn
  exact ⟨fun d hd hk => hnot ⟨d, List.mem_append_left _ hd, hk⟩, fun d hd hk => hnot ⟨d, List.mem_append_right _ hd, hk⟩⟩

theorem lookupEntry_middle (hn : ((pre ++ e :: post).map Entry.key).Nodup) :
    lookupEntry e.key (pre ++ e :: post) = some e := by
  obtain ⟨hpre, -⟩ := key_ne_of_nodup hn
  have hskip : pre.find? (fun d => decide (d.key = e.key)) = none := by
    simpa [List.find?_eq_none] using hpre
  simp [lookupEntry, List.find?_append, hskip]

theorem filter_other_keys (hn : ((pre ++ e :: post).map Entry.key).Nodup) :
    (pre ++ e :: post).filter (fun d => decide (d.key ≠ e.key)) = pre ++ post := by
  obtain ⟨hpre, hpost⟩ := key_ne_of_nodup hn
  rw [List.filter_append, List.filter_cons_of_neg (by simp), List.filter_eq_self.2 (by simpa using hpre),
    List.filter_eq_self.2 (by simpa using hpost)]

theorem filter_same_key (hn : ((pre ++ e :: post).map Entry.key).Nodup) :
    (pre ++ e :: post).filter (fun d => !decide (d.key ≠ e.key)) = [e] := by
  obtain ⟨hpre, hpost⟩ := key_ne_of_nodup hn
  rw [List.filter_append, List.filter_cons_of_pos (by simp), List.filter_eq_nil_iff.2 (by simpa using hpre),
    List.filter_eq_nil_iff.2 (by simpa using hpost), List.nil_append]

/-- An entry that leaves its schedule frees one slot, and a REPLICATED one abandons the channel's walks (R26, R46). -/
theorem removeEntry_eq (hs : (s.chan c).schedule = pre ++ e :: post) (hn : ((pre ++ e :: post).map Entry.key).Nodup) :
    removeEntry c e.key s =
      let t := freeSlots 1 (setSchedule c (pre ++ post) s)
      if e.isReplicated then abandonWalks c t else t := by
  have hkept := (kept_of_entry (fun d => decide (d.key ≠ e.key)) (pre ++ e :: post)).trans (filter_other_keys hn)
  have hgone := (kept_of_entry (fun d => !decide (d.key ≠ e.key)) (pre ++ e :: post)).trans (filter_same_key hn)
  obtain ⟨⟨_, n⟩, hone, rfl⟩ := List.map_eq_singleton_iff.1 hgone
  unfold removeEntry keepOnly
  simp only [hs, hkept, hone, List.length_singleton, List.any_cons, List.any_nil, Bool.or_false]

end OneEntry

/-! ### What a lawful channel lists -/

section LawfulChannel

variable {pre post : List Entry} {e : Entry}

theorem keys_nodup_of_channelLaw (hl : ChannelLaw (s.chan c)) (hs : (s.chan c).schedule = pre ++ e :: post) :
    ((pre ++ e :: post).map Entry.key).Nodup := by
  obtain ⟨-, -, -, -, -, -, -, hnodup, -⟩ := hl
  rwa [hs] at hnodup

/-- A command that names a listed entry runs on that entry. -/
theorem entryCommand_listed {o : Origin} {run : ChannelNo → Entry → State → Answer} (hb : body.length = 5)
    (hc : channelOf (numAt body 0 1) = some c) (h0 : numAt body 1 4 ≠ 0) (hs : (s.chan c).schedule = pre ++ e :: post)
    (hl : ChannelLaw (s.chan c)) (hk : e.key = ⟨o, numAt body 1 4⟩) :
    entryCommand o body run s = run c e s := by
  rw [entryCommand_eq hb hc, if_neg h0, hs, ← hk, lookupEntry_middle (keys_nodup_of_channelLaw hl hs)]; rfl

/-- A schedule that carries an amendment only where PINNED_HELD stands already raises no DIVERGENCE (R57). -/
theorem setSchedule_eq_rescheduled {es : List Entry} (h : anyAmendment es = true → (s.chan c).pinnedHeld = true) :
    setSchedule c es s = rescheduled c es s := by
  have hraise : (anyAmendment es && !(s.chan c).pinnedHeld) = false := by
    cases ha : anyAmendment es
    · rfl
    · simp [h ha]
  show raiseIf (anyAmendment es && !(s.chan c).pinnedHeld) c .divergence (rescheduled c es s) = _
  rw [hraise]; rfl

theorem anyAmendment_of_sublist {ds es : List Entry} (h : ds.Sublist es) (hd : anyAmendment ds = true) :
    anyAmendment es = true := by
  obtain ⟨e, he, ha⟩ := List.any_eq_true.1 hd
  exact List.any_eq_true.2 ⟨e, h.subset he, ha⟩

/-- Listing fewer entries of a lawful channel writes its schedule and PINNED_HELD only. -/
theorem setSchedule_of_sublist {es : List Entry} (hl : ChannelLaw (s.chan c)) (h : es.Sublist (s.chan c).schedule) :
    setSchedule c es s = rescheduled c es s := by
  obtain ⟨-, -, -, -, -, hheld, -⟩ := hl
  exact setSchedule_eq_rescheduled (fun ha => hheld.trans (anyAmendment_of_sublist h ha))

end LawfulChannel

/-! ### DELETE LOCAL (R36) -/

theorem deleteLocal_inService {e : Entry} (h : e.inService = true) : deleteLocal c e s = refuse .inService s := by
  rw [deleteLocal, if_pos h]

/-- A LOCAL entry out of service leaves a lawful channel, which frees its slot and touches no walk (R26, R36). -/
theorem deleteLocal_removes {pre post : List Entry} {e : Entry} (hl : ChannelLaw (s.chan c))
    (hs : (s.chan c).schedule = pre ++ e :: post) (ho : e.origin = .localEntry) (hserv : e.inService = false) :
    deleteLocal c e s = accept [] (freeSlots 1 (rescheduled c (pre ++ post) s)) := by
  have hlocal : e.isReplicated = false := by simp [Entry.isReplicated, ho]
  have hsub : (pre ++ post).Sublist (s.chan c).schedule := by
    rw [hs]; exact (List.sublist_cons_self e post).append_left pre
  rw [deleteLocal, hserv, removeEntry_eq hs (keys_nodup_of_channelLaw hl hs), hlocal, setSchedule_of_sublist hl hsub]
  rfl

/-- Settles O20: each answer of the command that names an entry, put through the port. -/
theorem deleteLocalRemovesEntry : Obligations.DeleteLocalRemovesEntry := by
  intro write body s hinv hslot hlen
  refine ⟨fun h64 => portCommand_refused hslot (entryCommand_badChannel hlen h64), fun c hc => ?_⟩
  refine ⟨fun h0 => ?_, fun h0 hnone => ?_, fun pre e post h0 hs hkey hserv => ?_, fun pre e post h0 hs hkey hserv => ?_⟩
  · exact portCommand_refused hslot (entryCommand_badField hlen hc h0)
  · exact portCommand_refused hslot (entryCommand_notFound hlen hc h0 hnone)
  · exact portCommand_refused hslot
      ((entryCommand_listed (s := heard write.early s) hlen hc h0 hs (hinv.channels c) hkey).trans (deleteLocal_inService hserv))
  · have ho : e.origin = .localEntry := congrArg EntryKey.origin hkey
    exact portCommand_accepted hslot
      ((entryCommand_listed (s := heard write.early s) hlen hc h0 hs (hinv.channels c) hkey).trans
        (deleteLocal_removes (hinv.channels c) hs ho hserv))

end DeleteLocal

end Sys2Proof.Machine

/-! # The port's READ transaction and NO-OP (Chapter 10)

What a READ clocks out and what it leaves in the slot; then the statements of the control port. -/

namespace Sys2Proof.Machine

section ControlPort

open Says

variable {s : State} {r : Response} {n : Nat}

/-! ### The bytes a READ clocks out (R182) -/

theorem clockedOut_of_length_ge (h : n ≤ r.encode.length) : clockedOut r n = r.encode.take n :=
  List.take_append_of_le_length h

theorem clockedOut_of_length_le (h : r.encode.length ≤ n) :
    clockedOut r n = r.encode ++ List.replicate (n - r.encode.length) 0 := by
  rw [clockedOut, List.take_append, List.take_of_length_le h, List.take_replicate, min_eq_left (Nat.sub_le _ _)]

/-! ### RESPONSE READ, by what the slot holds (R182) -/

theorem responseRead_empty (h : s.slot = none) (n : Nat) (early : Bool) :
    exec (.responseRead ⟨n, early⟩) s = .next (ended { s with portOut := s.portByte early :: List.replicate n 0 }) := by
  change execResponseRead _ s = _
  rw [execResponseRead, h]; rfl

theorem responseRead_pending (h : s.slot = some r) (n : Nat) (early : Bool) :
    exec (.responseRead ⟨n, early⟩) s = .next (ended { s with
      portOut := s.portByte early :: clockedOut r n
      slot := if r.encode.length ≤ n then none else s.slot }) := by
  change execResponseRead _ s = _
  rw [execResponseRead, h]; rfl

/-- Settles O9: the slot is EMPTY, or the READ ends within its response, or it clocks all of it. -/
theorem readTransactionClocksResponse : Obligations.ReadTransactionClocksResponse := by
  intro n early s
  refine ⟨fun hslot => responseRead_empty hslot n early, fun r hslot hshort => ?_, fun r hslot hall => ?_⟩
  · rw [responseRead_pending hslot, clockedOut_of_length_ge hshort.le, if_neg hshort.not_ge]
  · rw [responseRead_pending hslot, clockedOut_of_length_le hall, if_pos hall]

/-! ### NO-OP (R190) -/

/-- Settles O10: a body that fits a frame is accepted as it stands. -/
theorem noOpEchoesItsBody : Obligations.NoOpEchoesItsBody := by
  intro write body s hslot hlen
  exact portCommand_accepted hslot (if_pos hlen)

end ControlPort

end Sys2Proof.Machine

/-! # The queue, safety and the laws of every state

Every command answers a next state that keeps the laws of the state before, so every step does. -/

namespace Sys2Proof.Machine

section Steps

open Says

variable {s t : State}

/-! ### The queue -/

theorem step_idle (h : s.pending = []) : step s = .next s := by
  rw [step, h]

theorem step_front {i : Instr} {rest : List Instr} (h : s.pending = i :: rest) : step s = exec i { s with pending := rest } := by
  rw [step, h]

/-- Settles O1. -/
theorem stepTakesFrontCommand : Obligations.StepTakesFrontCommand :=
  fun _ _ _ h => step_front h

/-- No arm of the dispatch faults or refuses. -/
theorem exec_answers_next (i : Instr) (s : State) : ∃ t, exec i s = .next t := by
  cases i <;> exact ⟨_, rfl⟩

/-- Settles O2: the queue is empty, or its front command answers. -/
theorem everyStepAnswersNext : Obligations.EveryStepAnswersNext := by
  refine ⟨exec_answers_next, fun s h => step_idle h, fun s => ?_⟩
  cases h : s.pending with
  | nil => exact ⟨s, step_idle h⟩
  | cons i rest => rw [Safe, step_front h]; exact exec_answers_next i _

/-! ### Device reset (R1) -/

/-- Settles O3: the values stand in the reset state. -/
theorem deviceResetPlacesResetValues : Obligations.DeviceResetPlacesResetValues := by
  intro s
  have hchan (c : ChannelNo) : ({ State.reset with pending := s.pending } : State).chan c = Channel.reset := reset_chan c
  have hline (l : LineNo) : ({ State.reset with pending := s.pending } : State).line l = SenseLine.reset := reset_line l
  have hfamily (fam : Family) : ({ State.reset with pending := s.pending } : State).family fam = FamilyRecord.reset := by
    cases fam <;> rfl
  refine ⟨_, rfl, rfl, fun fam => ?_, rfl, rfl, fun c => ?_, rfl, rfl, rfl, rfl, rfl, rfl, rfl, rfl, rfl, hline, rfl, rfl,
    rfl, rfl, rfl, rfl, rfl⟩
  · rw [hfamily]; decide
  · rw [hchan]; decide

theorem familyLaw_of_reset : FamilyLaw FamilyRecord.reset := by
  refine ⟨Nat.zero_le _, Nat.zero_le _, fun p h => ?_, fun _ => rfl, fun h => absurd rfl h⟩
  cases h

theorem channelLaw_of_reset : ChannelLaw Channel.reset :=
  ⟨by decide, by decide, fun _ => rfl, by decide, by decide, rfl, List.Pairwise.nil, List.nodup_nil, by decide,
    fun _ h => absurd h List.not_mem_nil⟩

/-- Settles O4: every schedule, queue and list is empty, and all slots are free. -/
theorem lawsHoldAtReset : Obligations.LawsHoldAtReset where
  channels c := by rw [reset_chan]; exact channelLaw_of_reset
  families fam := by rw [reset_family]; exact familyLaw_of_reset
  device := by decide
  pool := by
    have hlisted : listedSlots State.reset = 0 := Finset.sum_eq_zero (fun c _ => by rw [reset_chan]; rfl)
    rw [hlisted]; rfl
  staged a h := by cases h
  attention := List.Pairwise.nil
  takes := ⟨List.nodup_nil, List.Pairwise.nil⟩
  resync := List.nodup_nil
  deferral := Nat.zero_le _
  walks := Nat.zero_le _
  walkChannels := List.nodup_nil
  service c := by rw [reset_chan]; exact ⟨fun e h => (by cases h), fun e h => (by cases h)⟩
  confirm h := by cases h
  queued c h := by cases h
  walking r h := by cases h
  walkOnce := List.nodup_nil
  resyncing c := by
    rw [reset_chan]
    exact ⟨fun h => (by cases h), fun ⟨a, h, _⟩ => (by cases h)⟩
  assembling a h := by cases h
  deferred := ⟨List.nodup_nil, fun u h => (by cases h)⟩

/-! ### The laws under every command -/

/-- The laws do not read the commands that wait, nor the marks of the port. -/
theorem inv_pending (h : Inv s) (q : List Instr) : Inv { s with pending := q } :=
  inv_of_quiet h (fun hk => inv_touch hk) (quiet_touch (Quiet.refl s))

theorem inv_portMarks (h : Inv s) (out : List Byte) (r : Option Response) :
    Inv (endTransaction { s with portOut := out, slot := r }) :=
  inv_of_quiet h (fun hk => inv_touch hk) (quiet_touch (Quiet.refl s))

/-- What a command answers keeps the laws. -/
def Lawful (out : Out) : Prop :=
  ∀ t, out = .next t → Inv t

theorem lawful_next (h : Inv t) : Lawful (.next t) := by
  rintro _ ⟨⟩; exact h

/-- A pulse row works off what earlier rows left and then does its own part. -/
theorem lawful_pulse (h : Inv s) {f : State → State} (hf : ∀ t, Whole s t → Whole s (f t)) : Lawful (.next (f (workFrames [] s))) :=
  lawful_next (inv_of_whole h (hf _ (whole_workFrames (whole_refl h) [])))

theorem lawful_takeBlock (h : Inv s) (b : Block) (c : ChannelNo) : Lawful (.next (takeBlock b c s)) :=
  lawful_next (inv_of_whole h (whole_takeBlock (whole_refl h) b c))

theorem lawful_takePart (h : Inv s) (p : TickPart) : Lawful (.next (takePartInOrder p s)) :=
  lawful_next (between_takePartInOrder h p)

/-- A replication message whose content keeps the laws keeps them. -/
theorem lawful_message (h : Inv s) {α : Type} (p : Option α) {content : α → State → State}
    (hi : ∀ x t, InvWith 0 t → InvWith 0 (content x t)) (hk : ∀ x t, Keeps s t → Keeps s (content x t)) :
    Lawful (.next (receive p content s)) :=
  lawful_next (inv_of_keeps h (fun hs => inv_receive hi hs p) (fun hs => keeps_receive hk hs p))

theorem lawful_malformedMessage (h : Inv s) (bytes : List Byte) : Lawful (exec (.malformedMessage bytes) s) := by
  refine lawful_next ?_
  split
  · exact h
  · exact inv_of_keeps h (inv_arrive (fun _ => inv_malformed)) (keeps_arrive (fun _ ht => ht.quiet (quiet_malformed (Quiet.refl _))))

/-- A reply that does not parse is discarded; one that does is judged by what it is matched with. -/
theorem lawful_reply (h : Inv s) (p : Option (ChannelNo × Nat)) {f : ChannelNo → Nat → State → State}
    (hi : ∀ c tag, InvWith 0 (f c tag s)) (hq : ∀ c tag, Quiet s (f c tag s)) :
    Lawful (.next (match p with | some (c, tag) => f c tag s | none => s)) := by
  refine lawful_next ?_
  cases p with
  | none => exact h
  | some x => exact inv_of_quiet h (fun _ => hi x.1 x.2) (hq x.1 x.2)

theorem lawful_cueReply (h : Inv s) (ready : Bool) (p : Option (ChannelNo × Nat)) :
    Lawful (.next (match p with | some (c, tag) => cueReply ready c tag s | none => s)) :=
  lawful_reply h p (fun c tag => inv_cueReply h.toInvWith ready c tag) (fun c tag => quiet_cueReply (Quiet.refl s) h.toInvWith ready c tag)

theorem lawful_routerReply (h : Inv s) (done : Bool) (p : Option (ChannelNo × Nat)) :
    Lawful (.next (match p with | some (c, tag) => routerReply done c tag s | none => s)) :=
  lawful_reply h p (fun c tag => inv_routerReply h.toInvWith done c tag)
    (fun c tag => quiet_routerReply (Quiet.refl s) h.toInvWith done c tag)

theorem lawful_responseRead (h : Inv s) (clocking : Clocking) : Lawful (exec (.responseRead clocking) s) := by
  refine lawful_next ?_
  split
  · exact inv_portMarks h _ s.slot
  · exact inv_portMarks h _ _

theorem lawful_invalidTransaction (h : Inv s) (first : Byte) (clocking : Clocking) :
    Lawful (exec (.invalidTransaction first clocking) s) := by
  refine lawful_next ?_
  split
  · exact h
  · exact inv_portMarks h _ s.slot

theorem lawful_incompleteCommandFrame (h : Inv s) (frame : PartFrame) : Lawful (exec (.incompleteCommandFrame frame) s) := by
  refine lawful_next ?_
  split
  · exact h
  · dsimp only
    split
    · exact inv_portMarks h _ _
    · exact inv_portMarks h _ s.slot

/-- A whole command frame keeps the laws when its command's answer does. -/
theorem lawful_command (h : Inv s) (write : Write) {run : State → Answer} (hr : ∀ t, Inv t → Inv (run t).state) :
    Lawful (.next (portCommand write run s)) :=
  lawful_next (between_portCommand hr h write)

theorem lawful_channelCommand (h : Inv s) (write : Write) (body : List Byte) {run : ChannelNo → State → Answer}
    (hr : ∀ c t, Inv t → Inv (run c t).state) : Lawful (.next (portCommand write (channelCommand body run) s)) :=
  lawful_command h write (between_channelCommand hr body)

theorem lawful_lengthCommand (h : Inv s) (write : Write) (n : Nat) (body : List Byte) {run : State → Answer}
    (hr : ∀ t, Inv t → Inv (run t).state) : Lawful (.next (portCommand write (withLength n body run) s)) :=
  lawful_command h write (between_withLength hr n body)

theorem lawful_entryCommand (h : Inv s) (write : Write) (o : Origin) (body : List Byte) {run : ChannelNo → Entry → State → Answer}
    (hr : ∀ c e t, Inv t → Inv (run c e t).state) : Lawful (.next (portCommand write (entryCommand o body run) s)) :=
  lawful_command h write (between_entryCommand hr o body)

theorem lawful_unknownCommand (h : Inv s) (code : Byte) (write : Write) (body : List Byte) :
    Lawful (exec (.unknownCommand code write body) s) := by
  refine lawful_next ?_
  split
  · exact h
  · exact between_portCommand (fun _ ht => ht) h write

theorem lawful_findAt (h : Inv s) (write : Write) (body : List Byte) : Lawful (exec (.findAt write body) s) := by
  refine lawful_command h write (fun t ht => ?_)
  split
  · exact between_withChannel (fun c _ => between_findAt body c) body t ht
  · exact ht

theorem lawful_writeLocal (h : Inv s) (write : Write) (body : List Byte) : Lawful (exec (.writeLocal write body) s) := by
  refine lawful_command h write (fun t ht => ?_)
  split
  · exact ht
  · exact ht
  · exact between_withChannel (fun c _ => between_writeLocal _ c) body t ht

theorem lawful_noOp (h : Inv s) (write : Write) (body : List Byte) : Lawful (exec (.noOp write body) s) := by
  refine lawful_command h write (fun t ht => ?_)
  split <;> exact ht

theorem lawful_readEvents (h : Inv s) (write : Write) (body : List Byte) : Lawful (exec (.readEvents write body) s) := by
  refine lawful_lengthCommand h write 0 body (fun t ht => ?_)
  exact inv_of_quiet ht
    (fun hk => ⟨hk.channels, hk.families, hk.device, hk.pool, hk.staged, List.Pairwise.nil, hk.takes, hk.resync, hk.deferral,
      hk.walks, hk.walkChannels⟩)
    (quiet_touch (Quiet.refl t))

/-- Every command keeps the laws. -/
theorem lawful_exec (h : Inv s) (i : Instr) : Lawful (exec i s) := by
  cases i with
  | deviceReset => exact lawful_next (inv_pending lawsHoldAtReset s.pending)
  | referencePulse fam instant mark first held => exact lawful_pulse h (fun _ ht => whole_referencePulse ht fam instant mark first held)
  | referenceAbsence fam first held => exact lawful_pulse h (fun _ ht => whole_referenceAbsent ht fam first held)
  | synthesisedPulse fam first held => exact lawful_pulse h (fun _ ht => whole_synthesise ht fam first held)
  | entryRetirement c => exact lawful_takeBlock h .sst c
  | hbSilenceLimit c => exact lawful_takeBlock h .csv c
  | trip c => exact lawful_takeBlock h .csv c
  | recovery c => exact lawful_takeBlock h .csv c
  | flapDecrement c => exact lawful_takeBlock h .csv c
  | confirmWindowExpiry c => exact lawful_takeBlock h .cou c
  | directiveDeadlineMissed c => exact lawful_takeBlock h .cou c
  | editBudgetWindowEnd c => exact lawful_takeBlock h .rrx c
  | msTick levels held => exact lawful_next (between_msTick h levels held)
  | senseLevelChange l => exact lawful_takePart h (.sense l)
  | linkTimeout => exact lawful_takePart h .link
  | statusInterval => exact lawful_takePart h .status
  | snapshotTimeout => exact lawful_takePart h .snapshot
  | routerTimeout c => exact lawful_takePart h (.take c)
  | hostAbsent => exact lawful_takePart h .host
  | digestWalkComplete => exact lawful_takePart h .walk
  | entryPut body => exact lawful_message h _ (fun _ _ ht => inv_receiveUpdate ht _ _) (fun _ _ ht => keeps_receiveUpdate ht _ _)
  | entryDrop body => exact lawful_message h _ (fun _ _ ht => inv_receiveUpdate ht _ _) (fun _ _ ht => keeps_receiveUpdate ht _ _)
  | siteHeartbeat body => exact lawful_message h _ (fun _ _ ht => inv_takeHeartbeat ht _ _) (fun _ _ ht => keeps_takeHeartbeat ht _ _)
  | snapshotOpen body => exact lawful_message h _ (fun _ _ ht => inv_takeOpen ht _ _ _) (fun _ _ ht => keeps_takeOpen ht _ _ _)
  | snapshotItem body => exact lawful_message h _ (fun _ _ ht => inv_takeItem ht _ _ _) (fun _ _ ht => keeps_takeItem ht _ _ _)
  | snapshotClose body => exact lawful_message h _ (fun _ _ ht => inv_takeClose ht _ _ _) (fun _ _ ht => keeps_takeClose ht _ _ _)
  | malformedMessage bytes => exact lawful_malformedMessage h bytes
  | cueReady body => exact lawful_cueReply h true _
  | cueFail body => exact lawful_cueReply h false _
  | malformedCueReply bytes => exact lawful_next h
  | routerDone body => exact lawful_routerReply h true _
  | routerFail body => exact lawful_routerReply h false _
  | malformedRouterReply bytes => exact lawful_next h
  | responseRead clocking => exact lawful_responseRead h clocking
  | invalidTransaction first clocking => exact lawful_invalidTransaction h first clocking
  | unknownCommand code write body => exact lawful_unknownCommand h code write body
  | readEntry write body => exact lawful_lengthCommand h write 6 body (between_withChannel (fun c _ => between_readEntry body c) body)
  | findAt write body => exact lawful_findAt h write body
  | list write body => exact lawful_lengthCommand h write 12 body (between_withChannel (fun c _ => between_listEntries body c) body)
  | writeLocal write body => exact lawful_writeLocal h write body
  | deleteLocal write body => exact lawful_entryCommand h write _ body (fun c e _ => between_deleteLocal c e)
  | pin write body => exact lawful_entryCommand h write _ body (fun c e _ => between_pinEntry c e)
  | unpin write body => exact lawful_entryCommand h write _ body (fun c e _ => between_unpinEntry c e)
  | flush write body => exact lawful_lengthCommand h write 2 body (between_withChannel (fun c _ => between_flush body c) body)
  | configureChannel write body =>
    exact lawful_lengthCommand h write 33 body (between_withChannel (fun c _ => between_configureAnswer body c) body)
  | readChannel write body => exact lawful_channelCommand h write body (fun c _ => between_readChannelAnswer c)
  | clearChannel write body => exact lawful_channelCommand h write body (fun c _ => between_clearAnswer c)
  | resync write body => exact lawful_channelCommand h write body (fun c _ => between_resyncAnswer c)
  | take write body => exact lawful_channelCommand h write body (fun c _ => between_takeAnswer c)
  | decline write body => exact lawful_channelCommand h write body (fun c _ => between_declineAnswer c)
  | giveback write body => exact lawful_channelCommand h write body (fun c _ => between_givebackAnswer c)
  | returnNow write body => exact lawful_channelCommand h write body (fun c _ => between_returnNowAnswer c)
  | abandon write body => exact lawful_channelCommand h write body (fun c _ => between_abandonAnswer c)
  | releaseLatch write body => exact lawful_channelCommand h write body (fun c _ => between_releaseLatchAnswer c)
  | setStationTime write body => exact lawful_lengthCommand h write 8 body (fun _ => between_setTimeAnswer body)
  | readTime write body => exact lawful_lengthCommand h write 1 body (fun _ => between_readTimeAnswer body)
  | configureDevice write body => exact lawful_lengthCommand h write 17 body (fun _ => between_configureDeviceAnswer body)
  | configureSenseLine write body => exact lawful_lengthCommand h write 6 body (fun _ => between_configureLineAnswer body)
  | readSenseLines write body => exact lawful_lengthCommand h write 0 body (fun _ => between_readLinesAnswer)
  | readEvents write body => exact lawful_readEvents h write body
  | linkRestart write body => exact lawful_lengthCommand h write 0 body (fun _ => between_restartLink)
  | noOp write body => exact lawful_noOp h write body
  | incompleteCommandFrame frame => exact lawful_incompleteCommandFrame h frame

/-- Settles O5: the block idles, or its front command keeps the laws. -/
theorem everyStepKeepsLaws : Obligations.EveryStepKeepsLaws := by
  intro s t h ht
  cases hp : s.pending with
  | nil => rw [step_idle hp] at ht; cases ht; exact h
  | cons i rest => rw [step_front hp] at ht; exact lawful_exec (inv_pending h rest) i t ht

end Steps

end Sys2Proof.Machine

/-! # The control port (Chapter 10)

What every whole command frame does, whichever command it is; which command a transaction is; and the flags behind ALERT. -/

namespace Sys2Proof.Machine

section PortFrames

open Says

variable {write : Write} {body : List Byte} {c : ChannelNo} {s u : State}

/-! ### Answers -/

/-- The answer is accepted, or it is a refusal that leaves the state as it was (R183). -/
def Clean (u : State) (a : Answer) : Prop :=
  a.status ≠ .ok → a = refuse a.status u

@[simp] theorem clean_refuse (st : Status) (u : State) : Clean u (refuse st u) :=
  fun _ => rfl

@[simp] theorem clean_acceptWith (b : Bool) (fields : List Field) (t : State) : Clean u (acceptWith b fields t) :=
  fun h => absurd rfl h

@[simp] theorem clean_accept (fields : List Field) (t : State) : Clean u (accept fields t) :=
  fun h => absurd rfl h

theorem clean_withLength {n : Nat} {run : State → Answer} (h : Clean u (run u)) : Clean u (withLength n body run u) := by
  unfold withLength
  split
  · exact h
  · exact clean_refuse _ _

theorem clean_withChannel {run : ChannelNo → State → Answer} (h : ∀ c, Clean u (run c u)) : Clean u (withChannel body run u) := by
  unfold withChannel
  split
  · exact clean_refuse _ _
  · exact h _

theorem clean_channelCommand {run : ChannelNo → State → Answer} (h : ∀ c, Clean u (run c u)) : Clean u (channelCommand body run u) :=
  clean_withLength (clean_withChannel h)

theorem clean_entryCommand {o : Origin} {run : ChannelNo → Entry → State → Answer} (h : ∀ c e, Clean u (run c e u)) :
    Clean u (entryCommand o body run u) := by
  refine clean_withLength (clean_withChannel (fun c => ?_))
  dsimp only
  split
  · exact clean_refuse _ _
  · split
    · exact clean_refuse _ _
    · exact h c _

theorem clean_readEntry : Clean u (readEntry body c u) := by
  unfold readEntry
  dsimp only
  split
  · exact clean_refuse _ _
  · exact clean_refuse _ _
  · split <;> simp

theorem clean_findAt : Clean u (findAt body c u) := by
  unfold findAt
  dsimp only
  split
  · exact clean_refuse _ _
  · split <;> simp

theorem clean_listEntries : Clean u (listEntries body c u) := by
  unfold listEntries
  dsimp only
  split
  · exact clean_refuse _ _
  · split <;> simp

theorem clean_writeLocal (raw : RawBody) : Clean u (writeLocal raw c u) := by
  unfold writeLocal
  dsimp only
  split
  · exact clean_refuse _ _
  split
  · split <;> simp
  split
  · exact clean_refuse _ _
  · split <;> simp

theorem clean_deleteLocal (e : Entry) : Clean u (deleteLocal c e u) := by
  unfold deleteLocal
  split <;> simp

theorem clean_pinEntry (e : Entry) : Clean u (pinEntry c e u) :=
  clean_accept _ _

theorem clean_unpinEntry (e : Entry) : Clean u (unpinEntry c e u) :=
  clean_accept _ _

theorem clean_flush : Clean u (flush body c u) := by
  unfold flush
  split <;> simp

theorem clean_configureAnswer : Clean u (configureAnswer body c u) := by
  unfold configureAnswer
  split
  · exact clean_refuse _ _
  · split <;> simp

theorem clean_clearAnswer : Clean u (clearAnswer c u) := by
  unfold clearAnswer
  split <;> simp

theorem clean_resyncAnswer : Clean u (resyncAnswer c u) := by
  unfold resyncAnswer
  dsimp only
  split
  · exact clean_refuse _ _
  split
  · exact clean_refuse _ _
  · exact clean_accept _ _
  · split <;> simp
  · split <;> simp
  · exact clean_accept _ _

theorem clean_takeAnswer : Clean u (takeAnswer c u) := by
  unfold takeAnswer
  split
  · exact clean_refuse _ _
  · split <;> simp

theorem clean_declineAnswer : Clean u (declineAnswer c u) := by
  unfold declineAnswer
  split <;> simp

theorem clean_givebackAnswer : Clean u (givebackAnswer c u) := by
  unfold givebackAnswer
  split <;> simp

theorem clean_returnNowAnswer : Clean u (returnNowAnswer c u) := by
  unfold returnNowAnswer
  split <;> simp

theorem clean_abandonAnswer : Clean u (abandonAnswer c u) := by
  unfold abandonAnswer
  split <;> simp

theorem clean_setTimeAnswer : Clean u (setTimeAnswer body u) := by
  unfold setTimeAnswer
  dsimp only
  split
  · split
    · exact clean_refuse _ _
    · split <;> simp
  · exact clean_refuse _ _

theorem clean_readTimeAnswer : Clean u (readTimeAnswer body u) := by
  unfold readTimeAnswer
  split <;> simp

theorem clean_configureDeviceAnswer : Clean u (configureDeviceAnswer body u) := by
  unfold configureDeviceAnswer
  split
  · exact clean_refuse _ _
  · split <;> simp

theorem clean_configureLineAnswer : Clean u (configureLineAnswer body u) := by
  unfold configureLineAnswer
  split
  · exact clean_acceptWith _ _ _
  · split
    · exact clean_refuse _ _
    · split
      · exact clean_refuse _ _
      · exact clean_acceptWith _ _ _
  · exact clean_refuse _ _

/-! ### Every whole command frame -/

/-- The command is a whole frame taken by the port, with a run that refuses cleanly. -/
def FrameOf (i : Instr) (write : Write) : Prop :=
  ∃ run : State → Answer, (∀ u, Clean u (run u)) ∧ ∀ s, exec i s = .next (portCommand write run s)

theorem frameOf_mk {i : Instr} {run : State → Answer} (he : ∀ s, exec i s = .next (portCommand write run s))
    (hc : ∀ u, Clean u (run u)) : FrameOf i write :=
  ⟨run, hc, he⟩

theorem frameOf_unknownCommand {code : Byte} (h : code.toNat ∉ commandCodes) : FrameOf (.unknownCommand code write body) write :=
  frameOf_mk (fun _ => congrArg Host.Outcome.next (if_neg h)) (fun u => clean_refuse .badField u)

/-- The 26 commands, and a frame of an unknown code, are whole frames; no other command is. -/
theorem frameOf_frameWrite {i : Instr} (h : frameWrite i = some write) : FrameOf i write := by
  cases i
  case unknownCommand code w b =>
    change (if code.toNat ∈ commandCodes then none else some w) = some write at h
    split at h
    · cases h
    · cases h; exact frameOf_unknownCommand ‹_›
  case readEntry => cases h; exact frameOf_mk (fun _ => rfl) (fun _ => clean_withLength (clean_withChannel fun _ => clean_readEntry))
  case findAt =>
    cases h
    refine frameOf_mk (fun _ => rfl) (fun u => ?_)
    split
    · exact clean_withChannel fun _ => clean_findAt
    · exact clean_refuse _ _
  case list => cases h; exact frameOf_mk (fun _ => rfl) (fun _ => clean_withLength (clean_withChannel fun _ => clean_listEntries))
  case writeLocal =>
    cases h
    refine frameOf_mk (fun _ => rfl) (fun u => ?_)
    split
    · exact clean_refuse _ _
    · exact clean_refuse _ _
    · exact clean_withChannel fun _ => clean_writeLocal _
  case deleteLocal => cases h; exact frameOf_mk (fun _ => rfl) (fun _ => clean_entryCommand fun _ _ => clean_deleteLocal _)
  case pin => cases h; exact frameOf_mk (fun _ => rfl) (fun _ => clean_entryCommand fun _ _ => clean_pinEntry _)
  case unpin => cases h; exact frameOf_mk (fun _ => rfl) (fun _ => clean_entryCommand fun _ _ => clean_unpinEntry _)
  case flush => cases h; exact frameOf_mk (fun _ => rfl) (fun _ => clean_withLength (clean_withChannel fun _ => clean_flush))
  case configureChannel => cases h; exact frameOf_mk (fun _ => rfl) (fun _ => clean_withLength (clean_withChannel fun _ => clean_configureAnswer))
  case readChannel => cases h; exact frameOf_mk (fun _ => rfl) (fun _ => clean_channelCommand fun _ => clean_accept _ _)
  case clearChannel => cases h; exact frameOf_mk (fun _ => rfl) (fun _ => clean_channelCommand fun _ => clean_clearAnswer)
  case resync => cases h; exact frameOf_mk (fun _ => rfl) (fun _ => clean_channelCommand fun _ => clean_resyncAnswer)
  case take => cases h; exact frameOf_mk (fun _ => rfl) (fun _ => clean_channelCommand fun _ => clean_takeAnswer)
  case decline => cases h; exact frameOf_mk (fun _ => rfl) (fun _ => clean_channelCommand fun _ => clean_declineAnswer)
  case giveback => cases h; exact frameOf_mk (fun _ => rfl) (fun _ => clean_channelCommand fun _ => clean_givebackAnswer)
  case returnNow => cases h; exact frameOf_mk (fun _ => rfl) (fun _ => clean_channelCommand fun _ => clean_returnNowAnswer)
  case abandon => cases h; exact frameOf_mk (fun _ => rfl) (fun _ => clean_channelCommand fun _ => clean_abandonAnswer)
  case releaseLatch => cases h; exact frameOf_mk (fun _ => rfl) (fun _ => clean_channelCommand fun _ => clean_accept _ _)
  case setStationTime => cases h; exact frameOf_mk (fun _ => rfl) (fun _ => clean_withLength clean_setTimeAnswer)
  case readTime => cases h; exact frameOf_mk (fun _ => rfl) (fun _ => clean_withLength clean_readTimeAnswer)
  case configureDevice => cases h; exact frameOf_mk (fun _ => rfl) (fun _ => clean_withLength clean_configureDeviceAnswer)
  case configureSenseLine => cases h; exact frameOf_mk (fun _ => rfl) (fun _ => clean_withLength clean_configureLineAnswer)
  case readSenseLines => cases h; exact frameOf_mk (fun _ => rfl) (fun _ => clean_withLength (clean_accept _ _))
  case readEvents => cases h; exact frameOf_mk (fun _ => rfl) (fun _ => clean_withLength (clean_accept _ _))
  case linkRestart => cases h; exact frameOf_mk (fun _ => rfl) (fun _ => clean_withLength (clean_accept _ _))
  case noOp =>
    cases h
    refine frameOf_mk (fun _ => rfl) (fun u => ?_)
    split
    · exact clean_accept _ _
    · exact clean_refuse _ _
  all_goals cases h

/-- Settles O6: a frame that finds a response waiting takes no command. -/
theorem frameWhilePendingIsBusy : Obligations.FrameWhilePendingIsBusy := by
  intro i write s hi hslot
  obtain ⟨run, -, hexec⟩ := frameOf_frameWrite hi
  rw [hexec, portCommand_busy hslot, hostSpeaks_shiftPortByte]; rfl

/-- Settles O7: the answer of the frame's run stands in the slot, and its run refuses cleanly. -/
theorem frameIsAnsweredUnderItsTag : Obligations.FrameIsAnsweredUnderItsTag := by
  intro i write s hi hslot
  obtain ⟨run, hclean, hexec⟩ := frameOf_frameWrite hi
  refine ⟨_, _, hexec s, by rw [portCommand_eq_answered hslot]; rfl, rfl, fun hst => ?_⟩
  rw [portCommand_eq_answered hslot, hclean _ hst]; rfl

/-! ### Frames refused before their command's own checks (R183) -/

theorem withLength_ne {n : Nat} (h : body.length ≠ n) (run : State → Answer) (s : State) :
    withLength n body run s = refuse .badField s := by
  rw [withLength, if_neg h]

/-- A frame of another length than its command's is BAD_FIELD. -/
theorem refused_length {n : Nat} (hs : s.slot = none) (h : body.length ≠ n) (run : State → Answer) :
    .next (portCommand write (withLength n body run) s) = refused write .badField s :=
  portCommand_refused hs (withLength_ne h run _)

/-- A frame of the right length whose channel lies outside 0 to 63 is BAD_CHANNEL. -/
theorem refused_channel {n : Nat} (hs : s.slot = none) (hl : body.length = n) (h : 64 ≤ numAt body 0 1) (run : ChannelNo → State → Answer) :
    .next (portCommand write (withLength n body (withChannel body run)) s) = refused write .badChannel s :=
  portCommand_refused hs ((withLength_eq hl _ _).trans (withChannel_outside h run _))

/-- The commands whose body is one channel number are read in one way. -/
theorem exec_oneChannelCommand {i : Instr} (h : i ∈ oneChannelCommands write body) :
    ∃ run, ∀ s, exec i s = .next (portCommand write (channelCommand body run) s) := by
  simp only [oneChannelCommands, List.mem_cons, List.not_mem_nil, or_false] at h
  rcases h with rfl | rfl | rfl | rfl | rfl | rfl | rfl | rfl | rfl <;> exact ⟨_, fun _ => rfl⟩

/-- DELETE LOCAL, PIN and UNPIN are read in one way. -/
theorem exec_entryCommand {i : Instr} (h : i ∈ [Instr.deleteLocal write body, .pin write body, .unpin write body]) :
    ∃ o run, ∀ s, exec i s = .next (portCommand write (entryCommand o body run) s) := by
  simp only [List.mem_cons, List.not_mem_nil, or_false] at h
  rcases h with rfl | rfl | rfl <;> exact ⟨_, _, fun _ => rfl⟩

theorem refused_oneChannelCommand_length (hs : s.slot = none) (hl : body.length ≠ 1) {i : Instr} (h : i ∈ oneChannelCommands write body) :
    exec i s = refused write .badField s := by
  obtain ⟨run, hrun⟩ := exec_oneChannelCommand h
  rw [hrun]; exact refused_length hs hl _

theorem refused_oneChannelCommand_channel (hs : s.slot = none) (hl : body.length = 1) (hc : 64 ≤ numAt body 0 1) {i : Instr}
    (h : i ∈ oneChannelCommands write body) : exec i s = refused write .badChannel s := by
  obtain ⟨run, hrun⟩ := exec_oneChannelCommand h
  rw [hrun]; exact refused_channel hs hl hc run

theorem refused_entryCommand_length (hs : s.slot = none) (hl : body.length ≠ 5) {i : Instr}
    (h : i ∈ [Instr.deleteLocal write body, .pin write body, .unpin write body]) : exec i s = refused write .badField s := by
  obtain ⟨o, run, hrun⟩ := exec_entryCommand h
  rw [hrun]; exact refused_length hs hl _

theorem refused_entryCommand_channel (hs : s.slot = none) (hl : body.length = 5) (hc : 64 ≤ numAt body 0 1) {i : Instr}
    (h : i ∈ [Instr.deleteLocal write body, .pin write body, .unpin write body]) : exec i s = refused write .badChannel s := by
  obtain ⟨o, run, hrun⟩ := exec_entryCommand h
  rw [hrun]; exact portCommand_refused hs (entryCommand_badChannel hl hc)

theorem refused_findAt_length (hs : s.slot = none) (h7 : body.length ≠ 7) (h8 : body.length ≠ 8) :
    exec (.findAt write body) s = refused write .badField s :=
  portCommand_refused hs (if_neg (not_or.2 ⟨h7, h8⟩))

theorem refused_findAt_channel (hs : s.slot = none) (hl : body.length = 7 ∨ body.length = 8) (hc : 64 ≤ numAt body 0 1) :
    exec (.findAt write body) s = refused write .badChannel s :=
  portCommand_refused hs ((if_pos hl).trans (withChannel_outside hc _ _))

theorem refused_unknownCommand (hs : s.slot = none) {code : Byte} (h : code.toNat ∉ commandCodes) :
    exec (.unknownCommand code write body) s = refused write .badField s :=
  (congrArg Host.Outcome.next (if_neg h)).trans (portCommand_refused hs rfl)

/-- WRITE LOCAL runs on the body that follows the channel number, where it is one. -/
theorem writeLocal_run (hb : body ≠ []) {raw : RawBody} (hp : parseEntryBody (body.drop 1) = some raw) (s : State) :
    exec (.writeLocal write body) s = .next (portCommand write (withChannel body (writeLocal raw)) s) := by
  obtain ⟨n, hn⟩ := Nat.exists_eq_succ_of_ne_zero (mt List.length_eq_zero_iff.1 hb)
  change Host.Outcome.next (portCommand write _ s) = _
  rw [hp, hn]; rfl

theorem refused_writeLocal_layout (hs : s.slot = none) (h : parseEntryBody (body.drop 1) = none ∨ body = []) :
    exec (.writeLocal write body) s = refused write .badField s := by
  refine portCommand_refused hs ?_
  rcases h with h | rfl
  · rw [h]; cases body.length <;> rfl
  · rfl

theorem refused_writeLocal_channel (hs : s.slot = none) (hp : (parseEntryBody (body.drop 1)).isSome) (hc : 64 ≤ numAt body 0 1) :
    exec (.writeLocal write body) s = refused write .badChannel s := by
  obtain ⟨raw, hraw⟩ := Option.isSome_iff_exists.1 hp
  have hb : body ≠ [] := by rintro rfl; exact absurd hc (by decide)
  rw [writeLocal_run hb hraw]
  exact portCommand_refused hs (withChannel_outside hc _ _)

/-- Settles O11: by code, then by length, then by channel number. -/
theorem framesRefusedBeforeTheirOwnChecks : Obligations.FramesRefusedBeforeTheirOwnChecks := by
  intro write body s hs
  refine ⟨fun code h => refused_unknownCommand hs h, fun hl i hi => ?_, fun hl hc i hi => refused_oneChannelCommand_channel hs hl hc hi,
    fun hl i hi => ?_, fun hl i hi => refused_entryCommand_length hs hl hi, fun hl hc i hi => refused_entryCommand_channel hs hl hc hi,
    fun hl => refused_length hs hl _, fun hl hc => refused_channel hs hl hc _, fun hl i hi => ?_, fun hl hc => refused_channel hs hl hc _,
    fun h7 h8 => refused_findAt_length hs h7 h8, fun hl hc => refused_findAt_channel hs hl hc,
    fun hl => refused_length hs hl _, fun hl hc => refused_channel hs hl hc _, fun hl => refused_length hs hl _,
    fun hl hc => refused_channel hs hl hc _, fun hl => refused_length hs hl _, fun hl => refused_length hs hl _,
    fun h => refused_writeLocal_layout hs h, fun hp hc => refused_writeLocal_channel hs hp hc⟩
  · rcases List.mem_cons.1 hi with rfl | hi
    · exact refused_length hs hl _
    · exact refused_oneChannelCommand_length hs hl hi
  · simp only [List.mem_cons, List.not_mem_nil, or_false] at hi
    rcases hi with rfl | rfl | rfl <;> exact refused_length hs hl _
  · simp only [List.mem_cons, List.not_mem_nil, or_false] at hi
    rcases hi with rfl | rfl <;> exact refused_length hs hl _

/-! ### Which command a transaction is (R179, R181, R182) -/

theorem commandCodes_eq (write : Write) (body : List Byte) : commandCodes = (codeTable write body).map (fun p => p.1.toNat) := rfl

theorem not_mem_commandCodes {code : Byte} (h : ∀ p ∈ codeTable write body, code ≠ p.1) : code.toNat ∉ commandCodes := by
  rw [commandCodes_eq write body, List.mem_map]
  rintro ⟨p, hp, he⟩
  exact h p hp (BitVec.eq_of_toNat_eq he.symm)

theorem ofCode_of_mem {p : Byte × Instr} (h : p ∈ codeTable write body) : ofCode p.1 write body = p.2 := by
  simp only [codeTable, List.mem_cons, List.not_mem_nil, or_false] at h
  rcases h with rfl | rfl | rfl | rfl | rfl | rfl | rfl | rfl | rfl | rfl | rfl | rfl | rfl | rfl | rfl | rfl | rfl | rfl | rfl |
    rfl | rfl | rfl | rfl | rfl | rfl | rfl <;> rfl

theorem ofCode_unknown {code : Byte} (h : code.toNat ∉ commandCodes) : ofCode code write body = .unknownCommand code write body := by
  unfold ofCode
  split
  case h_27 => rfl
  all_goals exact absurd (‹code.toNat = _› ▸ by decide) h

theorem ofTransaction_whole {early : Bool} {code tag len : Byte} (h : body.length = len.toNat) :
    ofTransaction early (0x01 :: code :: tag :: len :: body) = some (ofCode code { tag := tag, early := early } body) := by
  simp [ofTransaction, ofWrite, wholeFrame, h]

theorem ofTransaction_mismatch {early : Bool} {code tag len : Byte} (h : body.length ≠ len.toNat) :
    ofTransaction early (0x01 :: code :: tag :: len :: body) =
      some (.incompleteCommandFrame { bytes := code :: tag :: len :: body, early := early }) := by
  simp [ofTransaction, ofWrite, wholeFrame, h]

theorem ofTransaction_short {early : Bool} {bytes : List Byte} (h : bytes.length < 3) :
    ofTransaction early (0x01 :: bytes) = some (.incompleteCommandFrame { bytes := bytes, early := early }) := by
  match bytes, h with
  | [], _ => rfl
  | [_], _ => rfl
  | [_, _], _ => rfl

theorem ofTransaction_other {early : Bool} {first : Byte} {bytes : List Byte} (h1 : first ≠ 1) (h2 : first ≠ 2) :
    ofTransaction early (first :: bytes) = some (.invalidTransaction first { count := bytes.length, early := early }) := by
  rw [ofTransaction, if_neg h1, if_neg h2]

theorem wholeFrame_short {bytes : List Byte} (h : bytes.length < 3) : ¬ wholeFrame bytes = true := by
  match bytes, h with
  | [], _ => exact Bool.false_ne_true
  | [_], _ => exact Bool.false_ne_true
  | [_, _], _ => exact Bool.false_ne_true

theorem incomplete_short {early : Bool} {bytes : List Byte} (h : bytes.length < 3) :
    exec (.incompleteCommandFrame { bytes := bytes, early := early }) s = .next (ended { s with portOut := [s.portByte early] }) := by
  change execIncompleteCommandFrame _ s = _
  unfold execIncompleteCommandFrame
  rw [if_neg (wholeFrame_short h)]
  dsimp only
  split
  · simp only [List.length_cons] at h; omega
  · rfl

theorem incomplete_mismatch {early : Bool} {code tag len : Byte} (h : body.length ≠ len.toNat) :
    exec (.incompleteCommandFrame { bytes := code :: tag :: len :: body, early := early }) s =
      .next (if s.slot.isSome then ended { s with portOut := [s.portByte early] }
        else answered tag .badField false [] { s with portOut := [s.portByte early] }) := by
  change execIncompleteCommandFrame _ s = _
  unfold execIncompleteCommandFrame
  rw [if_neg (by simp [wholeFrame, h])]
  by_cases hs : s.slot = none
  · rw [hs]; rfl
  · rw [if_pos (Option.isSome_iff_ne_none.2 hs)]
    dsimp only
    split
    · exact absurd ‹s.slot = none› hs
    · rfl

theorem invalid_shifts_zeros {early : Bool} {first : Byte} {n : Nat} (h1 : first ≠ 1) (h2 : first ≠ 2) :
    exec (.invalidTransaction first { count := n, early := early }) s =
      .next (ended { s with portOut := s.portByte early :: List.replicate n 0 }) :=
  congrArg Host.Outcome.next (if_neg (not_or.2 ⟨h1, h2⟩))

/-- Settles O8: a transaction is told by its first byte, a WRITE by its header and its length. -/
theorem brokenTransactions : Obligations.BrokenTransactions := by
  refine ⟨fun early code tag len body hl => ⟨fun p hp he => ?_, fun hno => ?_⟩, fun early bytes h => ofTransaction_short h,
    fun early code tag len body h => ofTransaction_mismatch h,
    fun early bytes => ⟨rfl, rfl, fun first h1 h2 => ofTransaction_other h1 h2⟩,
    fun early s => ⟨fun bytes h => incomplete_short h, fun code tag len body h => ⟨fun hs => ?_, fun hs => ?_⟩,
      fun first n h1 h2 => invalid_shifts_zeros h1 h2⟩⟩
  · rw [ofTransaction_whole hl, he, ofCode_of_mem hp]
  · have hcode := not_mem_commandCodes hno
    rw [ofTransaction_whole hl, ofCode_unknown hcode]
    exact ⟨rfl, hcode⟩
  · rw [incomplete_mismatch h, hs]; rfl
  · rw [incomplete_mismatch h, if_pos hs]

/-! ### ALERT and the port byte (R180, R191, R193) -/

theorem portByte_bits (early : Bool) (s : State) (n : Nat) :
    (s.portByte early).getLsbD n = ((decide (n = 0) && s.slot.isSome) || (decide (n = 1) && s.alertAtSelect early)) := by
  unfold State.portByte State.ready
  rcases n with _ | _ | n
  · cases s.slot.isSome <;> cases s.alertAtSelect early <;> rfl
  · cases s.slot.isSome <;> cases s.alertAtSelect early <;> rfl
  · have hlow : ∀ k < 4, (BitVec.ofNat 8 k).getLsbD (n + 2) = false := by
      intro k hk
      rw [BitVec.getLsbD_ofNat, Nat.testBit_lt_two_pow, Bool.and_false]
      calc k < 2 ^ 2 := hk
        _ ≤ 2 ^ (n + 2) := Nat.pow_le_pow_right (by decide) (by omega)
    rw [hlow]
    · simp
    · split <;> split <;> omega

theorem alert_iff (s : State) : s.alert = true ↔
    s.events.linkMalformed = true ∨ s.events.linkDownChange = true ∨ s.events.refLoss = true ∨ s.events.refRelock = true ∨
    s.events.refPhase = true ∨ s.events.poolLow = true ∨ s.events.hostAbsentChange = true ∨ s.attention ≠ [] := by
  simp [State.alert, DeviceFlags.anySet, or_assoc]

theorem alertBefore_portCommand (write : Write) (run : State → Answer) (s : State) :
    (portCommand write run s).alertBefore = (portCommand write run s).alert := rfl

theorem has_raise (f g : ChangeFlag) (fs : ChangeFlags) : (fs.raise f).has g = (decide (g = f) || fs.has g) := by
  cases f <;> cases g <;> rfl

theorem mem_raise_attention {d : ChannelNo} {f : ChangeFlag} : d ∈ (raise c f s).attention ↔ d = c ∨ d ∈ s.attention := by
  rw [raise_attention]
  refine ⟨mem_insertChannel, ?_⟩
  rintro (rfl | h)
  · exact insertChannel_mem d _
  · exact subset_insertChannel h

theorem raise_chan_self (c : ChannelNo) (f : ChangeFlag) (s : State) :
    (raise c f s).chan c = { s.chan c with flags := (s.chan c).flags.raise f } := by
  rw [raise_chan, if_pos rfl]

theorem raise_chan_ne {d : ChannelNo} (h : d ≠ c) (f : ChangeFlag) (s : State) : (raise c f s).chan d = s.chan d := by
  rw [raise_chan, if_neg h]

/-- Settles O13. -/
theorem alertFollowsTheFlags : Obligations.AlertFollowsTheFlags := by
  refine ⟨fun early s => ⟨?_, ?_, fun n hn => ?_, alert_iff s⟩, fun i write s t hi ht => ?_, fun c f s => ⟨?_, fun g => ?_, fun d hd =>
    raise_chan_ne hd f s, fun d => mem_raise_attention, rfl⟩⟩
  · exact (portByte_bits early s 0).trans (by simp)
  · exact (portByte_bits early s 1).trans (by simp [State.alertAtSelect])
  · have h0 : n ≠ 0 := by omega
    have h1 : n ≠ 1 := by omega
    exact (portByte_bits early s n).trans (by simp [h0, h1])
  · obtain ⟨run, -, hexec⟩ := frameOf_frameWrite hi
    rw [hexec] at ht
    cases ht; exact alertBefore_portCommand write run s
  · rw [raise_chan_self]
  · rw [raise_chan_self]; exact has_raise f g _

/-! ### Answers that read the state and clear marks -/

/-- Settles O12. -/
theorem readEventsCollectsEvents : Obligations.ReadEventsCollectsEvents :=
  fun _ _ hs => ⟨portCommand_accepted hs rfl, rfl⟩

/-- A command whose body is one channel number is accepted with what its run answers. -/
theorem accepted_channelCommand {run : ChannelNo → State → Answer} {fields : List Field} {t : State} (hs : s.slot = none)
    (hl : body.length = 1) (hc : channelOf (numAt body 0 1) = some c) (hr : run c (heard write.early s) = accept fields t) :
    .next (portCommand write (channelCommand body run) s) = accepted write false fields t :=
  portCommand_accepted hs (by rw [channelCommand, withLength_eq hl, withChannel_eq hc, hr])

theorem refused_channelCommand {run : ChannelNo → State → Answer} {st : Status} (hs : s.slot = none) (hl : body.length = 1)
    (hc : channelOf (numAt body 0 1) = some c) (hr : run c (heard write.early s) = refuse st (heard write.early s)) :
    .next (portCommand write (channelCommand body run) s) = refused write st s :=
  portCommand_refused hs (by rw [channelCommand, withLength_eq hl, withChannel_eq hc, hr])

/-- Settles O25. -/
theorem readChannelAnswers : Obligations.ReadChannelAnswers :=
  fun _ _ _ _ hs hl hc => accepted_channelCommand (run := readChannelAnswer) hs hl hc rfl

/-- Settles O32. -/
theorem releaseLatchClears : Obligations.ReleaseLatchClears :=
  fun _ _ _ hs hl => ⟨fun h => refused_channel hs hl h _, fun _ hc => accepted_channelCommand (run := releaseLatchAnswer) hs hl hc rfl⟩

theorem lineFields_eq (x : SenseLine) : lineFields x =
    [.u8 x.function.code, .u8 (match x.mapped with
      | some c => c.val
      | none => 255), .u8 x.expected.code, .u16 x.debounce, .u8 x.raw.code, .u8 x.level.code, .u8 x.stability,
     .flag x.changePending, .flag (x.mapped.isSome && decide (x.level ≠ x.expected))] := by
  unfold lineFields
  cases x.mapped <;> rfl

/-- Settles O36. -/
theorem readSenseLinesAnswers : Obligations.ReadSenseLinesAnswers := by
  intro write s hs
  refine ⟨{ heard write.early s with lines := s.lines.map (fun x => { x with changePending := false }) },
    portCommand_accepted hs ?_, rfl, fun l => ?_⟩
  · show readLinesAnswer _ = _
    unfold readLinesAnswer
    simp only [lineFields_eq]
    rfl
  · simp [State.line]

end PortFrames

end Sys2Proof.Machine

/-! # Changeover, time, device and link commands (Chapters 1, 3, 4, 6 and 8) -/

namespace Sys2Proof.Machine

section CommandAnswers

open Says

variable {write : Write} {body : List Byte} {c : ChannelNo} {s u : State}

theorem accepted_withLength {n : Nat} {run : State → Answer} {b : Bool} {fields : List Field} {t : State} (hs : s.slot = none)
    (hl : body.length = n) (hr : run (heard write.early s) = acceptWith b fields t) :
    .next (portCommand write (withLength n body run) s) = accepted write b fields t := by
  rw [portCommand_eq_answered hs, withLength_eq hl, hr]; rfl

theorem refused_withLength {n : Nat} {run : State → Answer} {st : Status} (hs : s.slot = none)
    (hl : body.length = n) (hr : run (heard write.early s) = refuse st (heard write.early s)) :
    .next (portCommand write (withLength n body run) s) = refused write st s :=
  portCommand_refused hs ((withLength_eq hl _ _).trans hr)

theorem accepted_withChannel {n : Nat} {run : ChannelNo → State → Answer} {b : Bool} {fields : List Field} {t : State}
    (hs : s.slot = none) (hl : body.length = n) (hc : channelOf (numAt body 0 1) = some c)
    (hr : run c (heard write.early s) = acceptWith b fields t) :
    .next (portCommand write (withLength n body (withChannel body run)) s) = accepted write b fields t :=
  accepted_withLength hs hl ((withChannel_eq hc _ _).trans hr)

theorem refused_withChannel {n : Nat} {run : ChannelNo → State → Answer} {st : Status} (hs : s.slot = none)
    (hl : body.length = n) (hc : channelOf (numAt body 0 1) = some c)
    (hr : run c (heard write.early s) = refuse st (heard write.early s)) :
    .next (portCommand write (withLength n body (withChannel body run)) s) = refused write st s :=
  refused_withLength hs hl ((withChannel_eq hc _ _).trans hr)

/-! ### Writes beside a raised flag -/

/-- A write that leaves the flags alone may come before the flag is raised. -/
theorem modChan_raise {f : ChangeFlag} {g : Channel → Channel}
    (hg : ∀ ch : Channel, g { ch with flags := ch.flags.raise f } = { g ch with flags := (g ch).flags.raise f }) :
    modChan c g (raise c f s) = raise c f (modChan c g s) := by
  show attend c (modChan c g (modChan c _ s)) = attend c (modChan c _ (modChan c g s))
  rw [modChan_modChan, modChan_modChan]
  exact congrArg (attend c) (modChan_congr (hg _))

/-- Between two states outside MIRROR, or back to it, a change of changeover state is raised and touches no walk (R105, R135). -/
theorem setChangeover_engaged {st : Changeover} (h : (s.chan c).changeover ≠ .mirror) (hne : (s.chan c).changeover ≠ st) :
    setChangeover c st s = raise c .changeover (modChan c (fun ch => { ch with changeover := st }) s) := by
  unfold setChangeover raiseIf
  simp [h, hne]

theorem requestHoldOff_eq (c : ChannelNo) (s : State) :
    requestHoldOff c s =
      modChan c (fun ch => { ch with holdOff := if ch.supervision = .tripped then true else ch.holdOff }) s := by
  unfold requestHoldOff
  split
  · exact modChan_congr (by simp [*])
  · exact (modChan_same (by simp [*])).symm

theorem requestHoldOff_raise (f : ChangeFlag) :
    requestHoldOff c (raise c f s) =
      raise c f (modChan c (fun ch => { ch with holdOff := if ch.supervision = .tripped then true else ch.holdOff }) s) := by
  rw [requestHoldOff_eq, modChan_raise (fun _ => rfl)]

/-! ### TAKE turned away, DECLINE and ABANDON (R139, R140, R162) -/

theorem takeAnswer_turnedAway (h : (s.chan c).settings.mode ≠ .protectedMode ∨ (s.chan c).changeover = .onDr ∨
    (s.chan c).changeover = .returning) : takeAnswer c s = refuse .state s := by
  unfold takeAnswer
  by_cases hm : (s.chan c).settings.mode = .protectedMode
  · rw [if_neg (not_not.2 hm)]
    rcases h with h | h | h
    · exact absurd hm h
    · rw [h]
    · rw [h]
  · rw [if_pos hm]

theorem takeAnswer_already (hm : (s.chan c).settings.mode = .protectedMode)
    (h : (s.chan c).changeover = .preparing ∨ (s.chan c).changeover = .takePending) :
    takeAnswer c s = accept [.u8 7] s := by
  unfold takeAnswer
  rw [if_neg (not_not.2 hm)]
  rcases h with h | h <;> rw [h] <;> rfl

theorem declineAnswer_eq (h : (s.chan c).changeover = .awaitConfirm) :
    declineAnswer c s = accept [] (raise c .changeover (modChan c (fun ch => { ch with
      changeover := .mirror, confirmTimer := 0
      holdOff := if ch.supervision = .tripped then true else ch.holdOff }) s)) := by
  rw [declineAnswer, if_pos h, setChangeover_engaged (by rw [h]; decide) (by rw [h]; decide), modChan_raise (fun _ => rfl),
    requestHoldOff_raise, modChan_modChan, modChan_modChan]

theorem abandonAnswer_eq (h : (s.chan c).changeover = .stranded) :
    abandonAnswer c s = accept [] (raise c .changeover (modChan c (fun ch => { ch with
      changeover := .mirror, holdOff := if ch.supervision = .tripped then true else ch.holdOff }) s)) := by
  rw [abandonAnswer, if_pos h, setChangeover_engaged (by rw [h]; decide) (by rw [h]; decide), requestHoldOff_raise, modChan_modChan]

/-- Settles O30. -/
theorem takeTurnedAwayDeclineAndAbandon : Obligations.TakeTurnedAwayDeclineAndAbandon := by
  intro write body c s hs hl hc
  refine ⟨fun h => ?_, fun h => ?_, fun hm h => ?_, fun h => ?_, fun h => ?_, fun h => ?_, fun h => ?_⟩
  · exact refused_channelCommand hs hl hc (takeAnswer_turnedAway (Or.inl h))
  · exact refused_channelCommand hs hl hc (takeAnswer_turnedAway (Or.inr h))
  · exact accepted_channelCommand hs hl hc (takeAnswer_already hm h)
  · exact accepted_channelCommand hs hl hc (declineAnswer_eq h)
  · exact refused_channelCommand hs hl hc (if_neg h)
  · exact accepted_channelCommand hs hl hc (abandonAnswer_eq h)
  · exact refused_channelCommand hs hl hc (if_neg h)

/-! ### GIVEBACK and RETURN NOW (R155, R156, R157) -/

theorem positionOrNone_eq (r : RateCode) (b : Option Nat) : positionOrNone r b =
    match b with
    | some x => positionFields r x
    | none => [.frame none] := by
  cases b <;> rfl

theorem returnNowAnswer_elsewhere (h : (s.chan c).changeover ≠ .onDr) (h' : (s.chan c).changeover ≠ .returning) :
    returnNowAnswer c s = refuse .state s := by
  unfold returnNowAnswer
  split
  · exact absurd ‹_› h
  · exact absurd ‹_› h'
  all_goals rfl

theorem returnNowAnswer_onDr (h : (s.chan c).changeover = .onDr) :
    returnNowAnswer c s = accept [] (startGiveback c (s.chan c).frame (releaseNow s) s) := by
  rw [returnNowAnswer, h]

theorem returnNowAnswer_returning (h : (s.chan c).changeover = .returning) :
    returnNowAnswer c s = accept [] (if s.hasRequest c then
      requestGiveback c (releaseNow s) (modChan c (fun ch => { ch with boundary := ch.frame }) s) else s) := by
  rw [returnNowAnswer, h]

theorem returnNowAnswer_waiting (h : (s.chan c).changeover = .returning) (hr : s.hasRequest c = false) :
    returnNowAnswer c s = accept [] s := by
  rw [returnNowAnswer_returning h, hr]; rfl

/-- A request released anew tells the current frame as its boundary. -/
theorem returnNowAnswer_moved (h : (s.chan c).changeover = .returning) (hr : s.hasRequest c = true) :
    returnNowAnswer c s = accept [] (requestGiveback c (releaseNow s) (modChan c (fun ch => { ch with boundary := (s.chan c).frame }) s)) := by
  rw [returnNowAnswer_returning h, if_pos hr, modChan_congr (g := fun ch => { ch with boundary := (s.chan c).frame }) rfl]

theorem routerRatio_eq (r : RateCode) : routerRatio r = pulsesPerFrame r := by
  cases r <;> rfl

theorem pulsesPerFrame_pos (r : RateCode) : (0 : Int) < (pulsesPerFrame r).2 := by
  cases r <;> decide

theorem releasePulse_unset (h : (s.family s.device.routerFamily).state = .unset) (f x : Nat) : releasePulse s c f x = 0 := by
  rw [releasePulse, if_pos h]

/-- A frame of the router family has its pulse from the frame number alone (R8, R146). -/
theorem releasePulse_same (h : (s.family s.device.routerFamily).state ≠ .unset)
    (hf : (s.chan c).settings.rate.family = s.device.routerFamily) (f x : Nat) :
    releasePulse s c f x = max s.routerCount
      ((if (s.chan c).settings.rate.isDouble then x else 2 * x + (s.family s.device.routerFamily).parity.e) - s.routerLead) := by
  rw [releasePulse, if_neg h]
  congr 1
  unfold pulseOfFrame
  simp only [hf, if_true]
  split <;> omega

/-- A frame of the other family has the floor of its distance in router pulses (R146). -/
theorem releasePulse_other (h : (s.family s.device.routerFamily).state ≠ .unset)
    (hf : (s.chan c).settings.rate.family ≠ s.device.routerFamily) (f x : Nat) {k : Int}
    (hk : k * (pulsesPerFrame (s.chan c).settings.rate).2 ≤ ((x : Int) - f) * (pulsesPerFrame (s.chan c).settings.rate).1)
    (hk' : ((x : Int) - f) * (pulsesPerFrame (s.chan c).settings.rate).1 < (k + 1) * (pulsesPerFrame (s.chan c).settings.rate).2) :
    releasePulse s c f x = max s.routerCount ((s.routerCount : Int) + k - s.routerLead).toNat := by
  have hpos := pulsesPerFrame_pos (s.chan c).settings.rate
  have hfloor : ((x : Int) - f) * (pulsesPerFrame (s.chan c).settings.rate).1 / (pulsesPerFrame (s.chan c).settings.rate).2 = k :=
    le_antisymm (Int.lt_add_one_iff.1 (Int.ediv_lt_of_lt_mul hpos hk')) (Int.le_ediv_of_mul_le hpos hk)
  rw [releasePulse, if_neg h]
  unfold pulseOfFrame
  simp only [if_neg hf, routerRatio_eq, hfloor]

theorem boundaryOf_next {ch : Channel} {p : Place} (h : ch.next = some p) (f : Nat) : boundaryOf ch f = some p.rollFrame := by
  rw [boundaryOf, h]

theorem boundaryOf_planned {ch : Channel} {f x : Nat} (hn : ch.next = none) (hd : ch.doubt = false) (hx : transition ch f = some x) :
    boundaryOf ch f = some (plannedRoll ch f x) := by
  simp [boundaryOf, hn, hd, hx]

theorem boundaryOf_frame {ch : Channel} {f : Nat} (hn : ch.next = none) (h : ch.doubt = true ∨ transition ch f = none) :
    boundaryOf ch f = ch.frame := by
  rcases h with h | h
  · simp [boundaryOf, hn, h]
  · simp [boundaryOf, hn, h]

/-- Settles O31. -/
theorem givebackAndReturnNow : Obligations.GivebackAndReturnNow := by
  intro write body c s hs hl hc
  refine ⟨fun h => ?_, fun h => refused_channelCommand hs hl hc (if_neg h), fun h => ?_, fun h hr => ?_, fun h hr => ?_,
    fun h h' => refused_channelCommand hs hl hc (returnNowAnswer_elsewhere h h'), fun p h => boundaryOf_next h _,
    fun x hn hd hx hlt => ?_, fun x hn hd hx hle => ?_, fun hn h => boundaryOf_frame hn h, fun h x => releasePulse_unset h _ x,
    fun h hf x => releasePulse_same h hf _ x, fun h hf x k hk hk' => releasePulse_other h hf _ x hk hk', rfl⟩
  · refine (accepted_channelCommand hs hl hc (if_pos h)).trans ?_
    rw [positionOrNone_eq]; rfl
  · exact accepted_channelCommand hs hl hc (returnNowAnswer_onDr h)
  · exact accepted_channelCommand hs hl hc (returnNowAnswer_moved h hr)
  · exact accepted_channelCommand hs hl hc (returnNowAnswer_waiting h hr)
  · rw [boundaryOf_planned hn hd hx, plannedRoll, if_pos hlt]
  · rw [boundaryOf_planned hn hd hx, plannedRoll, if_neg hle.not_gt]

/-! ### Station time (R18, R20) -/

theorem familyEngaged_iff (s : State) (fam : Family) : familyEngaged s fam = true ↔
    ∃ c, (s.chan c).settings.rate.family = fam ∧ (s.chan c).changeover ≠ .mirror := by
  simp [familyEngaged, allChannels]

theorem setTimeAnswer_uncoded (h : familyOfCode (numAt body 0 1) = none ∨ rateOfCode (numAt body 7 1) = none) (s : State) :
    setTimeAnswer body s = refuse .badField s := by
  unfold setTimeAnswer
  rcases h with h | h
  · rw [h]
  · rw [h]; cases familyOfCode (numAt body 0 1) <;> rfl

section SetTime

variable {fam : Family} {r : RateCode} (hf : familyOfCode (numAt body 0 1) = some fam) (hr : rateOfCode (numAt body 7 1) = some r)
include hf hr

theorem setTimeAnswer_coded (s : State) : setTimeAnswer body s =
    if r.family ≠ fam ∨ !validDay (numAt body 1 2) ∨ !(labelAt body 3).valid r then refuse .badField s
    else if familyEngaged s fam then refuse .state s
    else
      let target := targetCount r (absoluteFrame r (numAt body 1 2) (labelAt body 3))
      acceptWith ((labelAt body 3).namesSkipped r) [.frame (some target)]
        (modFamily fam (fun f => { f with
          pendingSet := some { target := target, rate := r, day := numAt body 1 2, label := (labelAt body 3).clamp r } }) s) := by
  unfold setTimeAnswer
  rw [hf, hr]

theorem setTimeAnswer_invalid (h : r.family ≠ fam ∨ 9999 < numAt body 1 2 ∨ (labelAt body 3).valid r = false) (s : State) :
    setTimeAnswer body s = refuse .badField s := by
  rw [setTimeAnswer_coded hf hr, if_pos]
  simpa [validDay] using h

theorem setTimeAnswer_valid (h1 : r.family = fam) (h2 : numAt body 1 2 ≤ 9999) (h3 : (labelAt body 3).valid r = true) (s : State) :
    setTimeAnswer body s =
      if familyEngaged s fam then refuse .state s
      else
        let target := targetCount r (absoluteFrame r (numAt body 1 2) (labelAt body 3))
        acceptWith ((labelAt body 3).namesSkipped r) [.frame (some target)]
          (modFamily fam (fun f => { f with
            pendingSet := some { target := target, rate := r, day := numAt body 1 2, label := (labelAt body 3).clamp r } }) s) := by
  rw [setTimeAnswer_coded hf hr, if_neg]
  simp [validDay, h1, h2, h3]

end SetTime

theorem frameFields_eq (fam : Family) (x : FamilyRecord) : frameFields fam x =
    (rateCodesOf fam).flatMap (fun r : RateCode =>
      if x.state = .unset then [.frame none] else
        let f := if r.isDouble then x.count else (x.count - x.parity.e) / 2
        [.frame (some f), .u16 (f / r.framesPerDay), .label (labelOf r (f % r.framesPerDay))]) := by
  unfold frameFields
  congr 1
  funext r
  split <;> rfl

/-- Settles O33. -/
theorem stationTimeCommands : Obligations.StationTimeCommands := by
  intro write body s hs
  refine ⟨fun hl => ⟨fun h => ?_, fun fam r hf hr => ⟨fun h => ?_, fun h1 h2 h3 h => ?_, fun h1 h2 h3 h => ?_⟩⟩,
    fun hl => ⟨fun h => ?_, fun fam hf => ?_⟩⟩
  · exact refused_withLength hs hl (setTimeAnswer_uncoded h _)
  · exact refused_withLength hs hl (setTimeAnswer_invalid hf hr h _)
  · refine refused_withLength hs hl ((setTimeAnswer_valid hf hr h1 h2 h3 _).trans (if_pos ?_))
    exact (familyEngaged_iff s fam).2 h
  · refine accepted_withLength hs hl ((setTimeAnswer_valid hf hr h1 h2 h3 _).trans (if_neg ?_))
    rw [familyEngaged_iff]
    rintro ⟨c, hc, hne⟩
    exact hne (h c hc)
  · exact refused_withLength hs hl (by rw [readTimeAnswer, h])
  · refine accepted_withLength hs hl ?_
    rw [readTimeAnswer, hf]
    simp only [frameFields_eq]
    rfl

/-! ### Device-wide settings (R62, R63) -/

theorem routerBusy_iff (s : State) : routerBusy s = true ↔ s.takeQueue ≠ [] ∨ ∃ c, (s.chan c).outstanding.isSome := by
  simp [routerBusy, allChannels]

theorem deviceClamped_eq (d : DeviceSettings) : d.clamped =
    { retentionS := min 86400 d.retentionS, routerFamily := d.routerFamily, takesPerPulse := min 8 (max 1 d.takesPerPulse)
      routerLead := min 15 d.routerLead, routerTimeout := min 2000 (max 10 d.routerTimeout)
      linkTimeout := min 10000 (max 100 d.linkTimeout), snapshotTimeoutS := min 600 (max 1 d.snapshotTimeoutS)
      statusInterval := min 5000 (max 100 d.statusInterval), hostSilenceS := min 600 d.hostSilenceS } := by
  simp [DeviceSettings.clamped, clampTo]

theorem configureDeviceAnswer_eq {fam : Family} (hf : familyOfCode (numAt body 4 1) = some fam) (s : State) :
    configureDeviceAnswer body s =
      if fam ≠ s.device.routerFamily ∧ routerBusy s then refuse .state s
      else acceptWith (decide ((deviceOf fam body).clamped ≠ deviceOf fam body)) (deviceFields (deviceOf fam body).clamped)
        (storeDevice (deviceOf fam body).clamped s) := by
  rw [configureDeviceAnswer, hf]

/-- Settles O34. -/
theorem configureDeviceStores : Obligations.ConfigureDeviceStores := by
  intro write body s hs hl
  refine ⟨fun h => refused_withLength hs hl (by rw [configureDeviceAnswer, h]), fun fam hf => ⟨fun hne hb => ?_, fun h => ?_⟩⟩
  · refine refused_withLength hs hl ((configureDeviceAnswer_eq hf _).trans (if_pos ⟨hne, ?_⟩))
    exact (routerBusy_iff s).2 hb
  · have hgiven : deviceOf fam body =
        { retentionS := numAt body 0 4, routerFamily := fam, takesPerPulse := numAt body 5 1, routerLead := numAt body 6 1
          routerTimeout := numAt body 7 2, linkTimeout := numAt body 9 2, snapshotTimeoutS := numAt body 11 2
          statusInterval := numAt body 13 2, hostSilenceS := numAt body 15 2 } := rfl
    have hfree : ¬ (fam ≠ s.device.routerFamily ∧ routerBusy s = true) := by
      rw [routerBusy_iff]
      rintro ⟨hne, hb⟩
      exact h.elim hne (fun hn => hn hb)
    have hanswer := accepted_withLength (write := write) hs hl ((configureDeviceAnswer_eq hf _).trans (if_neg hfree))
    rw [deviceClamped_eq, hgiven] at hanswer
    refine ⟨_, hanswer, rfl, fun c => ?_⟩
    exact chan_mapChannels _ { heard write.early s with device := _ } c

/-! ### Sense lines (R112, R113) -/

theorem lineOf_none {n : Nat} (h : 16 ≤ n) : lineOf n = none := by
  rw [lineOf, dif_neg (by omega)]

theorem lineOf_val (l : LineNo) : lineOf l.val = some l := by
  rw [lineOf, dif_pos l.isLt]

theorem configureLineAnswer_uncoded (h : 16 ≤ numAt body 0 1 ∨ senseFunctionOfCode (numAt body 1 1) = none ∨
    levelOfCode (numAt body 3 1) = none) (s : State) : configureLineAnswer body s = refuse .badField s := by
  have hnone : lineOf (numAt body 0 1) = none ∨ senseFunctionOfCode (numAt body 1 1) = none ∨ levelOfCode (numAt body 3 1) = none :=
    h.imp_left lineOf_none
  unfold configureLineAnswer
  split
  · simp_all
  · simp_all
  · rfl

section ConfigureLine

variable {l : LineNo} {f : SenseFunction} {e : Level} (hl : numAt body 0 1 = l.val)
  (hf : senseFunctionOfCode (numAt body 1 1) = some f) (he : levelOfCode (numAt body 3 1) = some e)
include hl hf he

theorem configureLineAnswer_unused (hu : f = .unused) (s : State) :
    configureLineAnswer body s = configureLine l .unused none e (numAt body 4 2) s := by
  rw [configureLineAnswer, hl, lineOf_val, hf, he, hu]

theorem configureLineAnswer_used (hu : f ≠ .unused) (s : State) : configureLineAnswer body s =
    match channelOf (numAt body 2 1) with
    | none => refuse .badChannel s
    | some c => if sourceTaken s l f c then refuse .state s else configureLine l f (some c) e (numAt body 4 2) s := by
  rw [configureLineAnswer, hl, lineOf_val, hf, he]
  cases f
  · exact absurd rfl hu
  · rfl
  · rfl

end ConfigureLine

theorem sourceTaken_iff (s : State) (l : LineNo) (f : SenseFunction) (c : ChannelNo) : sourceTaken s l f c = true ↔
    ∃ m, m ≠ l ∧ (s.line m).function = f ∧ (s.line m).mapped = some c := by
  simp [sourceTaken, allLines, and_assoc]

/-- The source a line that is in use serves. -/
theorem source_of_used {f : SenseFunction} (h : f ≠ .unused) : f.source = some (if f = .returnFeed then .rf else .tl) := by
  cases f
  · exact absurd rfl h
  · rfl
  · rfl

theorem reporting_eq (c : ChannelNo) (src : Source) (change : State → State) (s : State) : reporting c src change s =
    if sourceFaults (change s) c src = true ∧ sourceFaults s c src = false then faultReported c (change s) else change s := by
  unfold reporting
  cases sourceFaults (change s) c src <;> cases sourceFaults s c src <;> rfl

theorem changeLine_used {l : LineNo} {f : SenseLine → SenseLine} {c : ChannelNo} {src : Source} (hm : (f (s.line l)).mapped = some c)
    (hsrc : (f (s.line l)).function.source = some src) :
    changeLine l f s = reporting c src (modLine l (fun _ => f (s.line l))) s := by
  unfold changeLine
  dsimp only
  rw [hm, hsrc]

theorem changeLine_unused {l : LineNo} {f : SenseLine → SenseLine} (h : (f (s.line l)).mapped = none ∨ (f (s.line l)).function.source = none) :
    changeLine l f s = modLine l (fun _ => f (s.line l)) s := by
  unfold changeLine
  dsimp only
  split
  · rename_i h1 h2
    rw [h1, h2] at h; simp at h
  · rfl

theorem faultReported_line (c : ChannelNo) (s : State) (l : LineNo) : (faultReported c s).line l = s.line l := by
  unfold faultReported enterAlert setSupervision raiseIf
  split
  · split <;> rfl
  · rfl
  · rfl

/-- A report leaves the lines as the change left them. -/
theorem reporting_line (c : ChannelNo) (src : Source) (change : State → State) (s : State) (l : LineNo) :
    (reporting c src change s).line l = (change s).line l := by
  unfold reporting
  split
  · exact faultReported_line c _ l
  · rfl

theorem changeLine_line (l : LineNo) (f : SenseLine → SenseLine) (s : State) : (changeLine l f s).line l = f (s.line l) := by
  unfold changeLine
  dsimp only
  split
  · rw [reporting_line, line_modLine_self]
  · rw [line_modLine_self]

theorem configureLine_eq (l : LineNo) (f : SenseFunction) (m : Option ChannelNo) (e : Level) (n : Nat) (s : State) :
    configureLine l f m e n s =
      let x : SenseLine := { s.line l with function := f, mapped := m, expected := e, debounce := min n 255 }
      acceptWith (decide (255 < n)) (lineFields x)
        (changeLine l (fun y => { y with function := f, mapped := m, expected := e, debounce := min n 255 }) s) := by
  rw [configureLine, changeLine_line]

/-- Settles O35. -/
theorem configureSenseLineWrites : Obligations.ConfigureSenseLineWrites := by
  intro write body s hs hb
  refine ⟨fun h => refused_withLength hs hb (configureLineAnswer_uncoded h _), fun l f e hl hf he => ⟨fun hu => ?_, fun hu h64 => ?_,
    fun c hu hc htaken => ?_, fun c hu hc hfree => ?_⟩⟩
  · refine accepted_withLength hs hb ?_
    rw [configureLineAnswer_unused hl hf he hu, configureLine_eq, changeLine_unused (Or.inl rfl)]; rfl
  · refine refused_withLength hs hb ?_
    rw [configureLineAnswer_used hl hf he hu, channelOf_none h64]
  · refine refused_withLength hs hb ?_
    rw [configureLineAnswer_used hl hf he hu, hc]
    exact if_pos ((sourceTaken_iff s l f c).2 htaken)
  · refine accepted_withLength hs hb ?_
    rw [configureLineAnswer_used hl hf he hu, hc]
    refine (if_neg ?_).trans ?_
    · intro h
      obtain ⟨m, hm, hmf, hmc⟩ := (sourceTaken_iff s l f c).1 h
      exact hfree m hm hmf hmc
    · rw [configureLine_eq, changeLine_used rfl (source_of_used hu), reporting_eq]; rfl

/-! ### LINK RESTART (R67, R99, R108) -/

theorem clearAssembly_eq {a : Assembly} (h : s.assembly = some a) :
    clearAssembly s = freeSlots a.staged.length { s with assembly := none, deferral := [] } := by
  rw [clearAssembly, h]

theorem clearAssembly_none (h : s.assembly = none) : clearAssembly s = { s with deferral := [] } := by
  rw [clearAssembly, h]

/-- Raising writes the channels and the attention set only. -/
theorem raiseIf_outside (b : Bool) (c : ChannelNo) (f : ChangeFlag) (s : State) :
    raiseIf b c f s = { s with channels := (raiseIf b c f s).channels, attention := (raiseIf b c f s).attention } := by
  cases b <;> rfl

/-- A replication state is written in the channels, the attention set and the walks only. -/
theorem setReplication_outside (c : ChannelNo) (st : ReplicationState) (cause : Cause) (n : Nat) (s : State) :
    setReplication c st cause n s = { s with
      channels := (setReplication c st cause n s).channels, attention := (setReplication c st cause n s).attention
      pendingWalks := (setReplication c st cause n s).pendingWalks, walk := (setReplication c st cause n s).walk } := by
  rw [setReplication_eq]
  dsimp only
  split
  · rw [abandonWalks_eq, raiseIf_outside]; rfl
  · rw [raiseIf_outside]; rfl

/-- Where no walk is held there is none to abandon. -/
theorem abandonWalks_idle (hp : s.pendingWalks = []) (hw : s.walk = none) (c : ChannelNo) : abandonWalks c s = s := by
  unfold abandonWalks startWalk
  simp only [hp, hw, List.filter_nil, Option.filter_none]
  rw [← hp, ← hw]

theorem setReplication_idle (hp : s.pendingWalks = []) (hw : s.walk = none) (c : ChannelNo) (st : ReplicationState) (cause : Cause)
    (n : Nat) : (setReplication c st cause n s).pendingWalks = [] ∧ (setReplication c st cause n s).walk = none := by
  have hraise (b : Bool) : (raiseIf b c .replication
      (modChan c (fun x => { x with replState := st, cause := cause, attempts := n }) s)).pendingWalks = [] ∧
      (raiseIf b c .replication (modChan c (fun x => { x with replState := st, cause := cause, attempts := n }) s)).walk = none := by
    cases b
    · exact ⟨hp, hw⟩
    · exact ⟨hp, hw⟩
  rw [setReplication_eq]
  dsimp only
  split
  · rw [abandonWalks_idle (hraise _).1 (hraise _).2]; exact hraise _
  · exact hraise _

theorem restartResync_none (h : s.assembly = none) :
    restartResync s = { s with pendingWalks := [], walk := none, deferral := [] } := by
  unfold restartResync
  dsimp only
  split
  · exact clearAssembly_none h
  · rename_i h'
    rw [h] at h'; cases h'

/-- The Resync Unit has given up a snapshot and its walks, and the snapshot's channel stands at the head of the queue (R99). -/
def givenUp (a : Assembly) (s : State) : State :=
  { dropped a { s with pendingWalks := [], walk := none } with
    resyncQueue := a.channel :: s.resyncQueue.filter (fun d => decide (d ≠ a.channel)) }

theorem restartResync_some {a : Assembly} (h : s.assembly = some a) :
    restartResync s = setReplication a.channel a.stateBefore a.causeBefore (s.chan a.channel).attempts
      (givenUp a s) := by
  have hclear : clearAssembly { s with pendingWalks := [], walk := none } = dropped a { s with pendingWalks := [], walk := none } :=
    clearAssembly_eq h
  unfold restartResync
  dsimp only
  split
  · rename_i h'
    rw [h] at h'; cases h'
  · rename_i b h'
    obtain rfl : a = b := Option.some.inj (h.symm.trans h')
    rw [hclear]; rfl

/-- The link as LINK RESTART leaves it, before the Resync Unit gives up what it holds. -/
def linkCut (s : State) : State :=
  { (if s.linkUp then raiseEvent .linkDownChange s else s) with linkUp := false, silence := 0, statusCount := 0 }

theorem linkCut_eq (s : State) : linkCut s = { s with
    linkUp := false, silence := 0, statusCount := 0
    events := if s.linkUp then { s.events with linkDownChange := true } else s.events } := by
  unfold linkCut
  cases h : s.linkUp <;> simp [raiseEvent, DeviceFlags.raise]

theorem restartLink_eq (s : State) : restartLink s = restartResync (linkCut s) := rfl

theorem restartLink_none (h : s.assembly = none) : restartLink s = { linkCut s with pendingWalks := [], walk := none, deferral := [] } := by
  rw [restartLink_eq, restartResync_none]
  rw [linkCut_eq]; exact h

theorem restartLink_some {a : Assembly} (h : s.assembly = some a) :
    restartLink s = setReplication a.channel a.stateBefore a.causeBefore (s.chan a.channel).attempts (givenUp a (linkCut s)) := by
  rw [restartLink_eq, restartResync_some (a := a) (by rw [linkCut_eq]; exact h)]
  simp only [linkCut_eq]; rfl

/-- Settles O37: with and without a snapshot in assembly. -/
theorem linkRestartDropsLink : Obligations.LinkRestartDropsLink := by
  intro write s hs
  refine ⟨restartLink (heard write.early s), portCommand_accepted hs rfl, ?_⟩
  cases ha : s.assembly with
  | none =>
    rw [restartLink_none (s := heard write.early s) ha, linkCut_eq]
    refine ⟨rfl, rfl, rfl, rfl, rfl, rfl, ha, ?_, rfl, rfl, fun _ => ⟨rfl, fun c => rfl⟩, fun a h => (by cases h)⟩
    rw [stagedSlots, ha]; rfl
  | some a =>
    rw [restartLink_some (s := heard write.early s) ha]
    have hchan (d : ChannelNo) : (givenUp a (linkCut (heard write.early s))).chan d = s.chan d := by
      rw [linkCut_eq]; rfl
    obtain ⟨hp, hw⟩ := setReplication_idle (s := givenUp a (linkCut (heard write.early s))) rfl rfl a.channel a.stateBefore
      a.causeBefore (s.chan a.channel).attempts
    refine ⟨?_, ?_, ?_, hp, hw, ?_, ?_, ?_, ?_, ?_, fun h => (by cases h), ?_⟩
    · rw [setReplication_outside]; rfl
    · rw [setReplication_outside]; rfl
    · rw [setReplication_outside]; rfl
    · rw [setReplication_outside]; rfl
    · rw [setReplication_outside]; rfl
    · rw [setReplication_outside, stagedSlots, ha, linkCut_eq]; rfl
    · rw [setReplication_outside, linkCut_eq]; rfl
    · rw [setReplication_outside, linkCut_eq]; rfl
    · rintro b ⟨⟩
      refine ⟨?_, ?_, ?_, ?_, ?_, fun d hd => ?_⟩
      · rw [setReplication_outside, linkCut_eq]; rfl
      · rw [setReplication_chan, if_pos rfl]
      · rw [setReplication_chan, if_pos rfl]
      · rw [setReplication_chan, if_pos rfl]; rfl
      · rw [setReplication_chan, if_pos rfl]; exact (congrArg Channel.schedule (hchan a.channel) :)
      · rw [setReplication_chan, if_neg hd]; exact hchan d

end CommandAnswers

end Sys2Proof.Machine

/-! # Pulses, frame events and the router's take queue (Chapters 1 and 9) -/

namespace Sys2Proof.Machine

section Pulses

open Says

variable {c : ChannelNo} {s u v : State} {fam : Family}

/-! ### Writing a family's record -/

/-- Only what a write gives for the record as it stands matters. -/
theorem modFamily_congr {f g : FamilyRecord → FamilyRecord} (h : f (s.family fam) = g (s.family fam)) :
    modFamily fam f s = modFamily fam g s := by
  cases fam
  · exact congrArg (fun x => ({ s with familyP := x } : State)) h
  · exact congrArg (fun x => ({ s with familyN := x } : State)) h

/-- Two writes of one family are one. -/
theorem modFamily_modFamily (f g : FamilyRecord → FamilyRecord) (s : State) :
    modFamily fam g (modFamily fam f s) = modFamily fam (fun x => g (f x)) s := by
  cases fam <;> rfl

/-- A write of a family as the record it then is. -/
theorem modFamily_const (f : FamilyRecord → FamilyRecord) (s : State) :
    modFamily fam f s = modFamily fam (fun _ => f (s.family fam)) s :=
  modFamily_congr rfl

theorem modFamily_over (x y : FamilyRecord) (s : State) :
    modFamily fam (fun _ => y) (modFamily fam (fun _ => x) s) = modFamily fam (fun _ => y) s :=
  modFamily_modFamily _ _ s

theorem raiseEvent_modFamily (e : DeviceFlag) (f : FamilyRecord → FamilyRecord) (s : State) :
    raiseEvent e (modFamily fam f s) = modFamily fam f (raiseEvent e s) := by
  cases fam <;> rfl

/-! ### Parts already taken -/

theorem takeBlock_done {b : Block} (h : b ∉ (s.chan c).due) : takeBlock b c s = s := by
  rw [takeBlock, if_neg h]

theorem takeBlock_due {b : Block} (h : b ∈ (s.chan c).due) : takeBlock b c s = blockFrame b c (modChan c (beginPart b) s) := by
  rw [takeBlock, if_pos h]

theorem foldl_const {α β : Type} {f : α → β → α} {a : α} {l : List β} (h : ∀ b ∈ l, f a b = a) : l.foldl f a = a := by
  induction l with
  | nil => rfl
  | cons b l ih =>
    rw [List.foldl_cons, h b List.mem_cons_self]
    exact ih (fun d hd => h d (List.mem_cons_of_mem _ hd))

/-- With no part due there is nothing left over. -/
theorem workFrames_quiet (h : quiet s) (held : List (ChannelNo × Block)) : workFrames held s = s := by
  refine foldl_const (fun c _ => foldl_const (fun b _ => ?_))
  rw [takeBlock_done (by rw [h c]; exact List.not_mem_nil), ite_self]

/-- With every part held nothing is taken. -/
theorem workFrames_everyBlock (s : State) : workFrames everyBlock s = s := by
  refine foldl_const (fun c hc => foldl_const (fun b hb => if_pos ?_))
  exact List.mem_flatMap.2 ⟨c, hc, List.mem_map.2 ⟨b, hb, rfl⟩⟩

theorem workChannel_all : workChannel [] = channelParts := by
  funext c s
  simp [workChannel, allBlocks, channelParts]

theorem workFrames_all (s : State) : workFrames [] s = forChannels channelParts allChannels s := by
  rw [workFrames, workChannel_all]

/-! ### Classifying a pulse (R2, R6, R7) -/

theorem short_iff (instant : Instant) (f : FamilyRecord) : f.short fam instant = true ↔
    ∃ l, f.lastReference = some l ∧ 2 * (instant - l) < familyPeriod fam := by
  simp [FamilyRecord.short, Option.any_eq_true]

theorem good_iff (instant : Instant) (f : FamilyRecord) : f.good fam instant = true ↔
    ∃ l, f.lastReference = some l ∧ 7 * familyPeriod fam ≤ 8 * (instant - l) ∧ 8 * (instant - l) ≤ 9 * familyPeriod fam := by
  simp [FamilyRecord.good, Option.any_eq_true]

theorem absorbs_iff (instant : Instant) (f : FamilyRecord) : f.absorbs fam instant = true ↔
    ∃ l, f.lastCounted = some l ∧ 2 * (instant - l) < familyPeriod fam := by
  simp [FamilyRecord.absorbs, Option.any_eq_true]

/-- The record an accepted pulse leaves, by the run it brings. -/
def FamilyRecord.acceptedAt (instant : Instant) (run : Nat) (f : FamilyRecord) : FamilyRecord :=
  { f with goodRun := run, lastReference := some instant, absenceFrom := some instant }

theorem accept_eq {instant : Instant} {f : FamilyRecord} {run : Nat}
    (hg : (∃ l, f.lastReference = some l ∧ 7 * familyPeriod fam ≤ 8 * (instant - l) ∧ 8 * (instant - l) ≤ 9 * familyPeriod fam) →
      run = min (f.goodRun + 1) 8)
    (hb : ¬(∃ l, f.lastReference = some l ∧ 7 * familyPeriod fam ≤ 8 * (instant - l) ∧ 8 * (instant - l) ≤ 9 * familyPeriod fam) →
      run = 0) : f.accept fam instant = f.acceptedAt instant run := by
  have hrun : (if f.good fam instant then min (f.goodRun + 1) Config.fullRun else 0) = run := by
    split
    · exact (hg ((good_iff instant f).1 ‹_›)).symm
    · exact (hb (fun h => ‹¬_› ((good_iff instant f).2 h))).symm
  rw [FamilyRecord.accept, hrun]; rfl

theorem parityOf_eq_iff (n : Nat) (e : Parity) : parityOf n = e ↔ (n % 2 = 0 ↔ e = .even) := by
  unfold parityOf
  cases e <;> by_cases h : n % 2 = 0 <;> simp [h]

theorem parityCheck_agrees {mark : Bool} (h : mark = false ∨ (v.family fam).state ≠ .locked ∨
    ((v.family fam).count % 2 = 0 ↔ (v.family fam).parity = .even)) : parityCheck fam mark v = v := by
  refine if_neg ?_
  rintro ⟨hm, hl, hp⟩
  rcases h with h | h | h
  · rw [hm] at h; cases h
  · exact h hl
  · exact hp ((parityOf_eq_iff _ _).2 h)

theorem parityCheck_differs {mark : Bool} (h : ¬((v.family fam).count % 2 = 0 ↔ (v.family fam).parity = .even)) (hm : mark = true)
    (hl : (v.family fam).state = .locked) : parityCheck fam mark v = raiseEvent .refPhase v :=
  if_pos ⟨hm, hl, fun hp => h ((parityOf_eq_iff _ _).1 hp)⟩

/-! ### A pulse that loads nothing (R3, R6, R7) -/

section AcceptedPulse

variable {instant : Instant} {mark first : Bool} {held : List (ChannelNo × Block)} {x : FamilyRecord}

/-- The record with one more pulse counted at an instant. -/
theorem counted_eq (at_ : Option Instant) (f : FamilyRecord) :
    f.counted at_ = { f with count := min (f.count + 1) (2 ^ 40 - 2), lastCounted := at_ } := rfl

theorem acceptedPulse_unset (h : x.state = .unset) :
    acceptedPulse fam instant mark first held (modFamily fam (fun _ => x) u) = modFamily fam (fun _ => x) u := by
  rw [acceptedPulse, family_modFamily_self, h]

theorem acceptedPulse_locked (h : x.state = .locked) :
    acceptedPulse fam instant mark first held (modFamily fam (fun _ => x) u) =
      parityCheck fam mark (pulseWork fam first held (modFamily fam (fun _ => x.counted (some instant)) u)) := by
  rw [acceptedPulse, family_modFamily_self, h]
  dsimp only
  rw [countPulse, modFamily_modFamily]

theorem acceptedPulse_running (h : x.state = .freerun) (hr : x.goodRun ≠ 8) :
    acceptedPulse fam instant mark first held (modFamily fam (fun _ => x) u) = modFamily fam (fun _ => x) u := by
  rw [acceptedPulse, family_modFamily_self, h]
  exact if_neg hr

/-- At the full run the family locks again, and the pulse is counted unless it is the last counted one. -/
theorem acceptedPulse_relocks (h : x.state = .freerun) (hr : x.goodRun = 8) :
    acceptedPulse fam instant mark first held (modFamily fam (fun _ => x) u) =
      parityCheck fam mark (
        if x.absorbs fam instant then modFamily fam (fun _ => { x with state := .locked }) (raiseEvent .refRelock u)
        else pulseWork fam first held
          (modFamily fam (fun _ => { x.counted (some instant) with state := .locked }) (raiseEvent .refRelock u))) := by
  rw [acceptedPulse, family_modFamily_self, h]
  refine (if_pos hr).trans ?_
  dsimp only
  rw [raiseEvent_modFamily, raiseEvent_modFamily, countPulse, modFamily_modFamily, modFamily_modFamily]; rfl

end AcceptedPulse

/-- A pulse that is not short and loads nothing is an accepted one, and a marked one takes the pending set with it. -/
theorem referencePulse_accepted {instant : Instant} {mark first : Bool} {held : List (ChannelNo × Block)} {x : FamilyRecord}
    (hs : (u.family fam).short fam instant = false) (hx : (u.family fam).accept fam instant = x)
    (he : mark = true → (u.family fam).pendingSet ≠ none → familyEngaged u fam = true) :
    referencePulse fam instant mark first held u =
      acceptedPulse fam instant mark first held
        (modFamily fam (fun _ => { x with pendingSet := if mark = true then none else (u.family fam).pendingSet }) u) := by
  have hpend : x.pendingSet = (u.family fam).pendingSet := by rw [← hx]; rfl
  unfold referencePulse
  rw [hs, if_neg Bool.false_ne_true]
  dsimp only
  rw [modFamily_congr (g := fun _ => x) hx]
  split
  · rename_i p hp
    rw [if_pos (he rfl (by rw [hp]; exact Option.some_ne_none p)), modFamily_modFamily]; rfl
  · rename_i hp
    rw [if_pos rfl, ← hp, ← hpend]
  · rw [if_neg Bool.false_ne_true, ← hpend]

theorem not_short_of {instant : Instant} {f : FamilyRecord}
    (h : ¬∃ l, f.lastReference = some l ∧ 2 * (instant - l) < familyPeriod fam) : f.short fam instant = false :=
  Bool.eq_false_iff.2 (fun hs => h ((short_iff instant f).1 hs))

/-- Settles O38: short, or accepted in each state of the family. -/
theorem referencePulseIsClassified : Obligations.ReferencePulseIsClassified := by
  intro fam instant mark first held s
  refine ⟨fun hq => workFrames_quiet hq [], fun hshort => ?_, fun run hshort hgood hbad hload => ?_, fun v h => parityCheck_agrees h,
    fun v h hm hl => parityCheck_differs h hm hl⟩
  · refine congrArg Host.Outcome.next ?_
    rw [referencePulse, if_pos ((short_iff instant _).2 hshort)]
    exact modFamily_congr rfl
  · have haccepted := referencePulse_accepted (first := first) (held := held) (not_short_of hshort) (accept_eq hgood hbad)
      (fun hm hp => (familyEngaged_iff _ fam).2 (hload hm hp))
    refine ⟨fun h => ?_, fun h => ?_, fun h hr => ?_, fun h hr ha => ?_, fun h hr ha => ?_⟩
    all_goals refine congrArg Host.Outcome.next (haccepted.trans ?_)
    · exact acceptedPulse_unset h
    · exact acceptedPulse_locked h
    · exact acceptedPulse_running h hr
    · refine (acceptedPulse_relocks ?_ ?_).trans (congrArg _ (if_pos ((absorbs_iff instant _).2 ha)))
      exacts [h, hr]
    · refine (acceptedPulse_relocks ?_ ?_).trans (congrArg _ (if_neg (fun hx => ha ((absorbs_iff instant _).1 hx))))
      exacts [h, hr]

/-! ### A pulse that loads a pending set (R19, R173) -/

theorem stateAfterLoad_eq (f : FamilyRecord) : stateAfterLoad f.state f.goodRun =
    if f.state = .locked ∨ f.goodRun = 8 then .locked else .freerun := by
  unfold stateAfterLoad
  cases f.state
  · exact if_congr (by simp [Config.fullRun]) rfl rfl
  · exact (if_pos (.inl rfl)).symm
  · exact if_congr (by simp [Config.fullRun]) rfl rfl

/-- The record a load leaves. -/
theorem loaded_eq (target : Nat) (instant : Instant) (f : FamilyRecord) : f.loaded target instant =
    { f with
      state := if f.state = .locked ∨ f.goodRun = 8 then .locked else .freerun
      count := target, parity := if target % 2 = 0 then .even else .odd, lastCounted := some instant, pendingSet := none } := by
  rw [FamilyRecord.loaded, stateAfterLoad_eq]; rfl

theorem loadPulse_eq {instant : Instant} {p : PendingSet} {first : Bool} {held : List (ChannelNo × Block)} {x : FamilyRecord} :
    loadPulse fam instant p first held (modFamily fam (fun _ => x) u) =
      let v := modFamily fam (fun _ => x.loaded p.target instant)
        (if x.state = .freerun ∧ x.goodRun = 8 then raiseEvent .refRelock u else u)
      pulseWork fam first held (if u.device.routerFamily = fam then shiftReleases x.count p.target v else v) := by
  rw [loadPulse, family_modFamily_self, modFamily_device, modFamily_modFamily]
  dsimp only
  have hraise : (if x.state = .freerun ∧ x.goodRun = Config.fullRun then
        raiseEvent .refRelock (modFamily fam (fun _ => x.loaded p.target instant) u)
      else modFamily fam (fun _ => x.loaded p.target instant) u) =
      modFamily fam (fun _ => x.loaded p.target instant)
        (if x.state = .freerun ∧ x.goodRun = 8 then raiseEvent .refRelock u else u) := by
    split
    · exact (raiseEvent_modFamily _ _ _).trans (congrArg _ (if_pos ‹_›).symm)
    · exact congrArg _ (if_neg ‹_›).symm
  rw [hraise]

theorem referencePulse_loads {instant : Instant} {first : Bool} {held : List (ChannelNo × Block)} {p : PendingSet} {x : FamilyRecord}
    (hs : (u.family fam).short fam instant = false) (hx : (u.family fam).accept fam instant = x)
    (hp : (u.family fam).pendingSet = some p) (he : familyEngaged u fam = false) :
    referencePulse fam instant true first held u = loadPulse fam instant p first held (modFamily fam (fun _ => x) u) := by
  unfold referencePulse
  rw [hs, if_neg Bool.false_ne_true, hp]
  dsimp only
  rw [he, if_neg Bool.false_ne_true, modFamily_congr (g := fun _ => x) hx]

/-- Settles O39. -/
theorem loadingPulseLoadsFamily : Obligations.LoadingPulseLoadsFamily := by
  intro fam instant first held p s
  refine ⟨fun run hp hlong hfree hgood hbad => congrArg Host.Outcome.next ?_, fun a b v => ⟨grantOrder_perm _, grantOrder_ordered _, rfl⟩⟩
  have hshort : ¬∃ l, ((workFrames [] s).family fam).lastReference = some l ∧ 2 * (instant - l) < familyPeriod fam := by
    rintro ⟨l, hl, hlt⟩
    exact absurd (hlong l hl) hlt.not_ge
  have hengaged : familyEngaged (workFrames [] s) fam = false := by
    rw [Bool.eq_false_iff, Ne, familyEngaged_iff]
    rintro ⟨c, hc, hne⟩
    exact hne (hfree c hc)
  rw [referencePulse_loads (not_short_of hshort) (accept_eq hgood hbad) hp hengaged, loadPulse_eq, loaded_eq]; rfl

/-! ### Absence and synthesised pulses (R4, R5) -/

section Absence

variable {first : Bool} {held : List (ChannelNo × Block)}

theorem referenceAbsent_expired (h : (s.family fam).absenceFrom = none) : referenceAbsent fam first held s = s := by
  rw [referenceAbsent, h]

theorem referenceAbsent_unlocked (h : (s.family fam).absenceFrom.isSome) (hl : (s.family fam).state ≠ .locked) :
    referenceAbsent fam first held s = modFamily fam (fun x => { x with goodRun := 0, absenceFrom := none }) s := by
  obtain ⟨a, ha⟩ := Option.isSome_iff_exists.1 h
  rw [referenceAbsent, ha]
  exact if_neg hl

theorem referenceAbsent_locked (h : (s.family fam).absenceFrom.isSome) (hl : (s.family fam).state = .locked) :
    referenceAbsent fam first held s = pulseWork fam first held (modFamily fam (fun x =>
      { x.counted ((s.family fam).nextDue fam) with goodRun := 0, absenceFrom := none, state := .freerun }) (raiseEvent .refLoss s)) := by
  obtain ⟨a, ha⟩ := Option.isSome_iff_exists.1 h
  rw [referenceAbsent, ha]
  refine (if_pos hl).trans ?_
  rw [countPulse, raiseEvent_modFamily, raiseEvent_modFamily, modFamily_modFamily, modFamily_modFamily]; rfl

/-- Settles O40. -/
theorem absenceAndSynthesis : Obligations.AbsenceAndSynthesis := by
  intro fam first held s
  refine ⟨fun h => ?_, fun h hl => ?_, fun h hl => ?_, fun h => ?_, fun h => ?_⟩
  all_goals refine congrArg Host.Outcome.next ?_
  · exact referenceAbsent_expired h
  · exact (referenceAbsent_unlocked h hl).trans (modFamily_congr rfl)
  · exact (referenceAbsent_locked h hl).trans (congrArg _ (modFamily_congr (by rw [family_raiseEvent, counted_eq]; rfl)))
  · exact (if_pos h).trans (congrArg (pulseWork fam first held) (modFamily_congr rfl))
  · exact if_neg h

end Absence

/-! ### Frame events (R8, R9) -/

theorem begins_iff (fam : Family) (f : FamilyRecord) (ch : Channel) :
    begins fam f ch ↔ ch.settings.rate.family = fam ∧ beginsFrame ch.settings.rate f.count f.parity = true := by
  simp [begins, beginsFrame, parityOf_eq_iff]

theorem raiseFrames_chan (fam : Family) (s : State) (c : ChannelNo) :
    (raiseFrames fam s).chan c = frameAt fam (s.family fam).count (s.family fam).parity (s.chan c) :=
  chan_mapChannels _ s c

theorem pulseWork_eq (fam : Family) (b : Bool) (held : List (ChannelNo × Block)) (s : State) :
    pulseWork fam b held s =
      if b then workFrames held (if (raiseFrames fam s).device.routerFamily = fam then grantPulse (raiseFrames fam s) else raiseFrames fam s)
      else if (workFrames held (raiseFrames fam s)).device.routerFamily = fam then grantPulse (workFrames held (raiseFrames fam s))
        else workFrames held (raiseFrames fam s) := rfl

/-- Settles O41. -/
theorem countedPulseRaisesFrameEvents : Obligations.CountedPulseRaisesFrameEvents := by
  intro fam s
  have hheld (b : Bool) : pulseWork fam b everyBlock s =
      if s.device.routerFamily = fam then grantPulse (raiseFrames fam s) else raiseFrames fam s := by
    rw [pulseWork_eq, workFrames_everyBlock, workFrames_everyBlock]
    exact ite_self _
  refine ⟨raiseFrames fam s, rfl, fun c h => ?_, fun c h => ?_, hheld, ?_, ?_⟩
  · rw [raiseFrames_chan]
    exact if_pos ((begins_iff _ _ _).1 h)
  · rw [raiseFrames_chan]
    exact if_neg (fun h' => h ((begins_iff _ _ _).2 h'))
  · rw [hheld, pulseWork_eq, if_pos rfl, workFrames_all]; rfl
  · rw [pulseWork_eq, if_neg Bool.false_ne_true, workFrames_all]

/-! ### The take queue (R169 to R174) -/

theorem placeRequest_chan (r : Request) (s : State) (c : ChannelNo) : (placeRequest r s).chan c =
    if c = r.channel then { s.chan r.channel with outstanding := none } else s.chan c :=
  chan_modChan _ r.channel c _

theorem placeRequest_takes (h : TakesLaw s.takeQueue) (r : Request) : TakesLaw (placeRequest r s).takeQueue := by
  obtain ⟨hn, ho⟩ := h
  refine ⟨?_, insertRequest_ordered r (ho.filter _)⟩
  show ((insertRequest r (withoutRequest r.channel s.takeQueue)).map Request.channel).Nodup
  rw [((insertRequest_perm r _).map Request.channel).nodup_iff, List.map_cons, List.nodup_cons]
  refine ⟨fun hm => ?_, hn.sublist (List.filter_sublist.map _)⟩
  obtain ⟨q, hq, he⟩ := List.mem_map.1 hm
  exact of_decide_eq_true (List.mem_filter.1 hq).2 he

/-- The TAKE that a grant of the request sends at a pulse. -/
def takeOf (s : State) (pulse : Nat) (r : Request) : TakeOut :=
  { tag := ((s.chan r.channel).takeTag + 1) % 256, channel := r.channel, direction := r.direction
    family := s.device.routerFamily, executionPulse := pulse + s.routerLead }

/-- A channel once its request has been granted at a pulse. -/
def grantedTake (s : State) (pulse : Nat) (r : Request) : Channel :=
  { s.chan r.channel with
    takeTag := ((s.chan r.channel).takeTag + 1) % 256
    outstanding := some { tag := ((s.chan r.channel).takeTag + 1) % 256, direction := r.direction, grantPulse := pulse
                          executionPulse := pulse + s.routerLead, timer := 0 } }

theorem grantRequest_eq (pulse : Nat) (r : Request) (s : State) : grantRequest pulse r s = { s with
    channels := (grantRequest pulse r s).channels, takeQueue := withoutRequest r.channel s.takeQueue
    routerOut := s.routerOut ++ [takeOf s pulse r] } := rfl

theorem grantRequest_chan (pulse : Nat) (r : Request) (s : State) (c : ChannelNo) : (grantRequest pulse r s).chan c =
    if c = r.channel then grantedTake s pulse r else s.chan c := by
  show (modChan r.channel (fun ch => { ch with
    takeTag := ((s.chan r.channel).takeTag + 1) % 256
    outstanding := some { tag := ((s.chan r.channel).takeTag + 1) % 256, direction := r.direction, grantPulse := pulse
                          executionPulse := pulse + s.routerLead, timer := 0 } }) (dropRequest r.channel s)).chan c = _
  rw [chan_modChan]
  rfl

/-- Grants of requests of different channels do not touch one another. -/
theorem grants_eq (pulse : Nat) (g : List Request) (s : State) (hn : (g.map Request.channel).Nodup) :
    let t := g.foldl (fun u r => grantRequest pulse r u) s
    t = { s with
      channels := t.channels, takeQueue := s.takeQueue.filter (fun q => decide (q.channel ∉ g.map Request.channel))
      routerOut := s.routerOut ++ g.map (takeOf s pulse) } ∧
    (∀ r ∈ g, t.chan r.channel = grantedTake s pulse r) ∧ ∀ c, c ∉ g.map Request.channel → t.chan c = s.chan c := by
  induction g generalizing s with
  | nil => 
    refine ⟨?_, fun r h => absurd h List.not_mem_nil, fun c _ => rfl⟩
    simp
  | cons r g ih =>
    rw [List.map_cons, List.nodup_cons] at hn
    obtain ⟨hr, hn⟩ := hn
    have hother {c : ChannelNo} (hc : c ≠ r.channel) : (grantRequest pulse r s).chan c = s.chan c := by
      rw [grantRequest_chan, if_neg hc]
    have hne {q : Request} (hq : q ∈ g) : q.channel ≠ r.channel := fun he => hr (he ▸ List.mem_map_of_mem hq)
    obtain ⟨hall, hgranted, hrest⟩ := ih (grantRequest pulse r s) hn
    refine ⟨?_, fun q hq => ?_, fun c hc => ?_⟩
    · have htakes : g.map (takeOf (grantRequest pulse r s) pulse) = g.map (takeOf s pulse) := by
        refine List.map_congr_left (fun q hq => ?_)
        unfold takeOf
        rw [hother (hne hq), grantRequest_eq]
      have hqueue : (withoutRequest r.channel s.takeQueue).filter (fun q => decide (q.channel ∉ g.map Request.channel)) =
          s.takeQueue.filter (fun q => decide (q.channel ∉ (r :: g).map Request.channel)) := by
        rw [withoutRequest, List.filter_filter]
        refine List.filter_congr (fun q _ => ?_)
        simp [Bool.and_comm]
      rw [List.map_cons (f := takeOf s pulse), ← List.singleton_append (l := List.map _ _), ← List.append_assoc, ← htakes, ← hqueue]
      exact hall
    · rcases List.mem_cons.1 hq with rfl | hq
      · rw [List.foldl_cons, hrest _ hr, grantRequest_chan, if_pos rfl]
      · rw [List.foldl_cons, hgranted q hq, grantedTake, hother (hne hq)]; rfl
    · rw [List.map_cons, List.mem_cons, not_or] at hc
      rw [List.foldl_cons, hrest c hc.2, hother hc.1]

/-- In a queue that holds each channel once, a request is told by its channel. -/
theorem request_mem_iff {q g : List Request} (hn : (q.map Request.channel).Nodup) (hg : g ⊆ q) {r : Request} (hr : r ∈ q) :
    r.channel ∈ g.map Request.channel ↔ r ∈ g := by
  refine ⟨fun h => ?_, fun h => List.mem_map_of_mem h⟩
  obtain ⟨p, hp, he⟩ := List.mem_map.1 h
  rwa [← List.inj_on_of_nodup_map hn (hg hp) hr he]

theorem takeoverPriority_unlisted {k : EntryKey} (h : ∀ e ∈ (s.chan c).schedule, e.key ≠ k) :
    takeoverPriority s c (some k) = (s.chan c).inEffect.defaultPriority := by
  have hk : lookupEntry k (s.chan c).schedule = none := by
    rw [lookupEntry_none, List.mem_map]
    rintro ⟨e, he, hek⟩
    exact h e he hek
  rw [takeoverPriority, Option.bind_some, hk]

theorem takeoverPriority_listed (hl : ChannelLaw (s.chan c)) {e : Entry} (h : e ∈ (s.chan c).schedule) :
    takeoverPriority s c (some e.key) = min (s.chan c).inEffect.defaultPriority e.body.priority := by
  obtain ⟨pre, post, hs⟩ := List.append_of_mem h
  rw [takeoverPriority, Option.bind_some, hs, lookupEntry_middle (keys_nodup_of_channelLaw hl hs)]

/-- Settles O42. -/
theorem routerQueueAndGrants : Obligations.RouterQueueAndGrants := by
  intro s hinv
  obtain ⟨hn, -⟩ := hinv.takes
  refine ⟨fun r => ⟨insertRequest_perm r _, placeRequest_takes hinv.takes r, ?_, fun c hc => ?_⟩, ?_, fun c => ⟨rfl, fun k hk => 
    takeoverPriority_unlisted hk, fun e he => takeoverPriority_listed (hinv.channels c) he⟩⟩
  · rw [placeRequest_chan, if_pos rfl]
  · rw [placeRequest_chan, if_neg hc]
  · have hsub : ((s.takeQueue.filter (fun r => decide (r.release ≤ s.routerCount))).take s.device.takesPerPulse).Sublist s.takeQueue :=
      (List.take_sublist _ _).trans List.filter_sublist
    obtain ⟨hall, hgranted, hrest⟩ := grants_eq s.routerCount
      ((s.takeQueue.filter (fun r => decide (r.release ≤ s.routerCount))).take s.device.takesPerPulse)
      { s with routerLead := s.device.routerLead } (hn.sublist (hsub.map _))
    refine ⟨?_, fun r hr => hgranted r hr, fun c hc => hrest c (fun hm => ?_)⟩
    · refine hall.trans ?_
      rw [List.filter_congr (q := fun r => decide (r ∉ _))
        (fun r hr => decide_eq_decide.2 (not_congr (request_mem_iff hn hsub.subset hr)))]
      rfl
    · obtain ⟨r, hr, he⟩ := List.mem_map.1 hm
      exact hc r hr he

/-! ### Parts taken once (log 3) -/

theorem csvBlock_due (h : .csv ∈ (s.chan c).due) : takeBlock .csv c s = flapStep c (superviseStep c (csvBegun c s)) := by
  rw [takeBlock_due h]
  show flapStep c (superviseStep c (modChan c _ (modChan c _ s))) = _
  rw [modChan_modChan]; rfl

theorem exec_csvRow {i : Instr} (h : i ∈ csvRows c) (s : State) : exec i s = .next (takeBlock .csv c s) := by
  simp only [csvRows, List.mem_cons, List.not_mem_nil, or_false] at h
  rcases h with rfl | rfl | rfl | rfl <;> rfl

theorem exec_couRow {i : Instr} (h : i ∈ couRows c) (s : State) : exec i s = .next (takeBlock .cou c s) := by
  simp only [couRows, List.mem_cons, List.not_mem_nil, or_false] at h
  rcases h with rfl | rfl <;> rfl

theorem takePart_done {p : TickPart} (h : p ∉ s.tickDue) : takePart p s = s := by
  rw [takePart, if_neg h]

theorem takePart_due {p : TickPart} (h : p ∈ s.tickDue) : takePart p s = partTick p (partTaken p s) := by
  rw [takePart, if_pos h]; rfl

theorem takePartInOrder_ne {p : TickPart} (h : p ≠ .snapshot) (s : State) : takePartInOrder p s = takePart p s := by
  rw [takePartInOrder, if_neg h]

theorem takePartInOrder_done {p : TickPart} (h : p ∉ s.tickDue) (hp : p ≠ .snapshot) : takePartInOrder p s = s := by
  rw [takePartInOrder_ne hp, takePart_done h]

/-- Settles O43. -/
theorem partsAreTakenOnce : Obligations.PartsAreTakenOnce := by
  intro c s
  refine ⟨fun h => ?_, fun h => ?_, fun h i hi => ?_, fun h i hi => ?_, fun h => ?_, fun h => ?_, fun h i hi => ?_, fun h i hi => ?_,
    fun l h => ?_, fun h => ⟨?_, fun h' => ?_⟩, fun h => ?_, fun h => ?_, fun h => ?_, fun h => ?_⟩
  · exact congrArg Host.Outcome.next (takeBlock_done h)
  · exact congrArg Host.Outcome.next (takeBlock_done h)
  · rw [exec_csvRow hi, takeBlock_done h]
  · rw [exec_couRow hi, takeBlock_done h]
  · exact congrArg Host.Outcome.next (takeBlock_due h)
  · exact congrArg Host.Outcome.next (takeBlock_due h)
  · rw [exec_csvRow hi, csvBlock_due h]
  · rw [exec_couRow hi, takeBlock_due h]; rfl
  · exact congrArg Host.Outcome.next (takePartInOrder_done h (by simp))
  · exact congrArg Host.Outcome.next (takePartInOrder_done h (by simp))
  · refine congrArg Host.Outcome.next ?_
    rw [takePartInOrder, if_pos rfl, takePart_done h, takePart_done h']
  · exact congrArg Host.Outcome.next (takePartInOrder_done h (by simp))
  · exact congrArg Host.Outcome.next (takePartInOrder_done h (by simp))
  · exact congrArg Host.Outcome.next (takePartInOrder_done h (by simp))
  · exact congrArg Host.Outcome.next (takePartInOrder_done h (by simp))

end Pulses

end Sys2Proof.Machine

/-! # The Schedule Store (Chapter 2) -/

namespace Sys2Proof.Machine

section StoreFacts

open Says

variable {c : ChannelNo} {s u v : State} {es old : List Entry} {e d : Entry} {k : EntryKey}

/-! ### Spans of a schedule (R27) -/

theorem effectiveEnd_le_next {b : Entry} (h : sortsAtOrBefore e.body.start e.key b.body.start b.key = true) :
    effectiveEnd e (some b) ≤ b.body.start := by
  have hle : e.body.start ≤ b.body.start := by
    simp only [sortsAtOrBefore, Bool.or_eq_true, Bool.and_eq_true, decide_eq_true_eq] at h
    omega
  unfold effectiveEnd
  dsimp only
  split
  · exact hle
  · exact min_le_right _ _

theorem mem_of_mem_spans {p : Entry × Nat} (h : p ∈ spans es) : p.1 ∈ es := by
  rw [← spans_fst es]
  exact List.mem_map_of_mem h

theorem spans_of_mem (h : e ∈ es) : ∃ n, (e, n) ∈ spans es := by
  rw [← spans_fst es] at h
  obtain ⟨⟨_, n⟩, hp, rfl⟩ := List.mem_map.1 h
  exact ⟨n, hp⟩

/-- Settles O14, by induction on the schedule: a span that ends by the next start cannot hold a frame of a later one. -/
theorem lookupFindsTheSpanningEntry : Obligations.LookupFindsTheSpanningEntry := by
  intro es e n x hsorted hmem hstart hend
  induction es with
  | nil => cases hmem
  | cons a rest ih =>
    rw [List.pairwise_cons] at hsorted
    obtain ⟨hhead, hrest⟩ := hsorted
    rcases List.mem_cons.1 hmem with heq | hmem
    · obtain ⟨rfl, rfl⟩ := Prod.mk.inj heq
      exact List.find?_cons_of_pos (by simp [hstart, hend])
    · have hover : effectiveEnd a rest.head? ≤ x := by
        obtain ⟨b, tail, rfl⟩ : ∃ b tail, rest = b :: tail := List.exists_cons_of_ne_nil (by rintro rfl; cases hmem)
        have hb : b.body.start ≤ e.body.start := by
          rcases List.mem_cons.1 (mem_of_mem_spans hmem) with rfl | he
          · exact le_rfl
          · have := (List.pairwise_cons.1 hrest).1 e he
            simp only [sortsAtOrBefore, Bool.or_eq_true, Bool.and_eq_true, decide_eq_true_eq] at this
            omega
        exact (effectiveEnd_le_next (hhead b List.mem_cons_self)).trans (hb.trans hstart)
      exact (List.find?_cons_of_neg (by simp; omega)).trans (ih hrest hmem)

/-- A change that keeps each body keeps each effective end. -/
theorem spans_map {f : Entry → Entry} (hf : ∀ a, (f a).body = a.body) (es : List Entry) :
    spans (es.map f) = (spans es).map (fun p => (f p.1, p.2)) := by
  induction es with
  | nil => rfl
  | cons a rest ih =>
    have hend : effectiveEnd (f a) (rest.map f).head? = effectiveEnd a rest.head? := by
      cases rest with
      | nil => simp [effectiveEnd, hf]
      | cons b tail => simp [effectiveEnd, hf]
    rw [List.map_cons, spans, spans, hend, ih]; rfl

theorem find_key_of_nodup {p : Entry × Nat} (hn : (es.map Entry.key).Nodup) (h : p ∈ spans es) :
    (spans es).find? (fun q => decide (q.1.key = p.1.key)) = some p := by
  rw [← spans_fst es, List.map_map] at hn
  obtain ⟨pre, post, hsp⟩ := List.append_of_mem h
  rw [hsp] at hn ⊢
  have hpre : ∀ q ∈ pre, ¬q.1.key = p.1.key := by
    intro q hq he
    rw [List.map_append, List.nodup_append] at hn
    exact hn.2.2 _ (List.mem_map_of_mem hq) _ (List.mem_map_of_mem List.mem_cons_self) he
  rw [List.find?_append, List.find?_eq_none.2 (by simpa using hpre)]
  simp

theorem endOf_of_mem {n : Nat} (hn : (es.map Entry.key).Nodup) (h : (e, n) ∈ spans es) : endOf e.key es = some n := by
  rw [endOf, find_key_of_nodup hn h]; rfl

theorem lookupEntry_of_mem (hn : (es.map Entry.key).Nodup) (h : e ∈ es) : lookupEntry e.key es = some e := by
  obtain ⟨pre, post, rfl⟩ := List.append_of_mem h
  exact lookupEntry_middle hn

/-! ### Putting an entry at its place (R26, R28) -/

theorem mapEntry_none {f : Entry → Entry} (h : k ∉ es.map Entry.key) : mapEntry k f es = es := by
  refine (List.map_congr_left (g := id) (fun a ha => if_neg ?_)).trans (List.map_id es)
  rintro rfl
  exact h (List.mem_map_of_mem ha)

theorem placeEntry_perm (frame : Option Nat) (hk : e.key ∉ old.map Entry.key) :
    (placeEntry frame e old).Perm
      ({ e with status := statusFor frame ((endOf e.key (insertEntry e old)).getD 0) } :: old) := by
  refine ((insertEntry_perm e old).map _).trans ?_
  rw [List.map_cons, if_pos rfl]
  exact List.Perm.of_eq (congrArg _ (mapEntry_none hk))

theorem statusFor_eq (frame : Option Nat) (n : Nat) : statusFor frame n = joinStatus frame n := by
  cases frame <;> rfl

/-- An entry that is not listed yet joins a lawful schedule that has room. -/
theorem placeEntry_joined (hl : ScheduleLaw old) (frame : Option Nat) (hk : e.key ∉ old.map Entry.key)
    (hlen : old.length < Config.scheduleLimit) (ha : AmendmentLaw e) :
    ∃ d, d = { e with status := d.status } ∧ joined frame d old (placeEntry frame e old) := by
  have hplaced := scheduleLaw_place hl frame e hk hlen ha
  have hinserted : ((insertEntry e old).map Entry.key).Nodup := by
    rw [((insertEntry_perm e old).map Entry.key).nodup_iff, List.map_cons, List.nodup_cons]
    exact ⟨hk, hl.2.1⟩
  obtain ⟨n, hn⟩ := spans_of_mem ((insertEntry_perm e old).mem_iff.2 List.mem_cons_self)
  have hend := endOf_of_mem hinserted hn
  have hstatus : statusFor frame ((endOf e.key (insertEntry e old)).getD 0) = joinStatus frame n := by
    rw [hend, statusFor_eq]; rfl
  refine ⟨{ e with status := joinStatus frame n }, rfl, ?_, hplaced, n, ?_, rfl⟩
  · rw [← hstatus]
    exact placeEntry_perm frame hk
  · rw [placeEntry, mapEntry, spans_map (fun a => by split <;> rfl), hend, Option.getD_some, statusFor_eq]
    exact List.mem_map.2 ⟨(e, n), hn, by rw [if_pos rfl]⟩

theorem anyAmendment_perm (h : es.Perm old) : anyAmendment es = anyAmendment old := h.any_eq

/-- The schedule that an entry without an amendment joins carries amendments where it did before. -/
theorem anyAmendment_joined {frame : Option Nat} (h : joined frame d old es) (hd : d.amendment = none) :
    anyAmendment es = anyAmendment old := by
  obtain ⟨hp, -⟩ := h
  rw [anyAmendment_perm hp]
  simp [anyAmendment, hd]

/-- Joining one more entry, or putting one back, in a lawful channel raises no DIVERGENCE. -/
theorem setSchedule_joined {frame : Option Nat} (hl : ChannelLaw (s.chan c)) (hold : old.Sublist (s.chan c).schedule)
    (h : joined frame d old es) (hd : d.amendment = none) : setSchedule c es s = rescheduled c es s := by
  obtain ⟨-, -, -, -, -, hheld, -⟩ := hl
  refine setSchedule_eq_rescheduled (fun ha => hheld.trans (anyAmendment_of_sublist hold ?_))
  rw [← anyAmendment_joined h hd, ha]

/-! ### Entries that join a channel, or are replaced (R26, R35, R76) -/

theorem scheduleLaw_of (hl : ChannelLaw (s.chan c)) : ScheduleLaw (s.chan c).schedule := hl.2.2.2.2.2.2

theorem joinEntry_joins {o : Origin} {b : Body} (hl : ChannelLaw (s.chan c))
    (hk : ({ origin := o, id := b.entryId } : EntryKey) ∉ (s.chan c).schedule.map Entry.key)
    (hlen : (s.chan c).schedule.length < 1024) :
    ∃ d es, d = { origin := o, body := b, status := d.status, pinned := false, amendment := none } ∧
      joined (s.chan c).frame d (s.chan c).schedule es ∧ joinEntry c o b s = rescheduled c es s := by
  obtain ⟨d, hd, hj⟩ := placeEntry_joined (e := { origin := o, body := b, status := .planned, pinned := false, amendment := none })
    (scheduleLaw_of hl) (s.chan c).frame hk hlen (fun b h => by cases h)
  exact ⟨d, _, hd, hj, setSchedule_joined hl (List.Sublist.refl _) hj (by rw [hd])⟩

theorem key_of_body {b : Body} (hb : b.entryId = e.key.id) {st : EntryStatus} {p : Bool} {a : Option Amendment} :
    ({ e with body := b, status := st, pinned := p, amendment := a } : Entry).key = e.key := by
  unfold Entry.key at hb ⊢
  rw [hb]

/-- The listed entry is put back, with another body, at the place its new start gives it. -/
theorem replaceEntry_replaces {b : Body} {pre post : List Entry} (hl : ChannelLaw (s.chan c))
    (hs : (s.chan c).schedule = pre ++ e :: post) (hb : b.entryId = e.key.id) :
    ∃ d es, d = { e with body := b, status := d.status, amendment := none } ∧
      joined (s.chan c).frame d (pre ++ post) es ∧ replaceEntry c e.key b s = rescheduled c es s := by
  have hn := keys_nodup_of_channelLaw hl hs
  have hsub : (pre ++ post).Sublist (s.chan c).schedule := by
    rw [hs]; exact (List.sublist_cons_self e post).append_left pre
  have hroom : (pre ++ post).length < Config.scheduleLimit := by
    have hlen := (scheduleLaw_of hl).2.2.1
    rw [hs] at hlen
    simp only [List.length_append, List.length_cons] at hlen ⊢
    omega
  have hkey : ({ e with body := b, amendment := none } : Entry).key = e.key := key_of_body hb
  have hnew : ({ e with body := b, amendment := none } : Entry).key ∉ (pre ++ post).map Entry.key := by
    rw [hkey, List.map_append]
    rw [List.map_append, List.map_cons, List.nodup_middle, List.nodup_cons] at hn
    exact hn.1
  obtain ⟨d, hd, hj⟩ := placeEntry_joined (scheduleLaw_sublist (scheduleLaw_of hl) hsub) (s.chan c).frame hnew hroom
    (fun b h => by cases h)
  refine ⟨d, _, hd, hj, ?_⟩
  have herase : eraseEntry e.key (pre ++ e :: post) = pre ++ post := filter_other_keys hn
  unfold replaceEntry
  rw [hs, lookupEntry_middle hn]
  dsimp only
  rw [herase]
  exact setSchedule_joined hl hsub hj (by rw [hd])

/-- The entry of a name changed where it stands. -/
theorem mapEntry_middle {f : Entry → Entry} {pre post : List Entry} (hn : ((pre ++ e :: post).map Entry.key).Nodup) :
    mapEntry e.key f (pre ++ e :: post) = pre ++ f e :: post := by
  obtain ⟨hpre, hpost⟩ := key_ne_of_nodup hn
  have hkeep {l : List Entry} (h : ∀ a ∈ l, a.key ≠ e.key) : mapEntry e.key f l = l :=
    mapEntry_none (fun hm => by obtain ⟨a, ha, hk⟩ := List.mem_map.1 hm; exact h a ha hk)
  have hpre' := hkeep hpre
  have hpost' := hkeep hpost
  unfold mapEntry at hpre' hpost' ⊢
  rw [List.map_append, List.map_cons, hpre', hpost', if_pos rfl]

/-! ### Slots (R22, R34) -/

theorem pickOldest_none {l : List (ChannelNo × EntryKey × Option Int)} (h : pickOldest l = none) : l = [] := by
  cases l with
  | nil => rfl
  | cons a rest =>
    unfold pickOldest at h
    split at h
    · cases h
    · split at h <;> cases h

/-- What is picked is at least as old as any entry with an age. -/
theorem pickOldest_oldest {l : List (ChannelNo × EntryKey × Option Int)} {a b : ChannelNo × EntryKey × Option Int} {x : Int}
    (h : pickOldest l = some a) (hb : b ∈ l) (hx : b.2.2 = some x) : ∃ y, a.2.2 = some y ∧ x ≤ y := by
  induction l generalizing a with
  | nil => cases hb
  | cons first rest ih =>
    unfold pickOldest at h
    split at h
    · rename_i hnone
      rw [pickOldest_none hnone, List.mem_singleton] at hb
      cases h
      exact ⟨x, hb ▸ hx, le_rfl⟩
    · rename_i best hbest
      have hrest (hm : b ∈ rest) := ih hbest hm
      split at h
      · rename_i hold
        cases h
        rcases List.mem_cons.1 hb with rfl | hm
        · rw [hx] at hold
          obtain ⟨y, hy⟩ : ∃ y, a.2.2 = some y := by
            cases hy : a.2.2 with
            | none => rw [hy] at hold; cases hold
            | some y => exact ⟨y, rfl⟩
          rw [hy] at hold
          exact ⟨y, hy, (of_decide_eq_true hold).le⟩
        · exact hrest hm
      · rename_i hold
        cases h
        rcases List.mem_cons.1 hb with rfl | hm
        · exact ⟨x, hx, le_rfl⟩
        · obtain ⟨y, hy, hxy⟩ := hrest hm
          cases hf : first.2.2 with
          | none => rw [hy, hf] at hold; exact absurd rfl hold
          | some z =>
            rw [hy, hf] at hold
            have hyz : ¬z < y := fun hlt => hold (decide_eq_true hlt)
            exact ⟨z, rfl, by omega⟩

theorem agedOf_eq (s : State) (c : ChannelNo) (a : ChannelNo × EntryKey × Option Int) : a ∈ agedOf s c ↔
    ∃ e n, (e, n) ∈ spans (s.chan c).schedule ∧ e.isOver = true ∧
      a = (c, e.key, (s.chan c).frame.map (fun f => (f : Int) - (n : Int))) := by
  unfold agedOf
  rw [List.mem_filterMap]
  constructor
  · rintro ⟨⟨e, n⟩, hm, ha⟩
    split at ha
    · rename_i hover
      exact ⟨e, n, hm, hover, (Option.some.inj ha).symm⟩
    · cases ha
  · rintro ⟨e, n, hm, hover, rfl⟩
    exact ⟨(e, n), hm, if_pos hover⟩

/-- With DONE or PASSED entries in the pool, one that none is older than is the one that on-demand aging retires. -/
theorem oldestEntry_spec (hm : e ∈ (s.chan c).schedule) (hover : e.isOver = true) :
    ∃ d f n, (f, n) ∈ spans (s.chan d).schedule ∧ f.isOver = true ∧ oldestEntry s = some (d, f.key) ∧
      ∀ c' e' n', (e', n') ∈ spans (s.chan c').schedule → e'.isOver = true → ∀ x, (s.chan c').frame = some x →
        ∃ y, (s.chan d).frame = some y ∧ (x : Int) - n' ≤ (y : Int) - n := by
  have hlist (c' : ChannelNo) {a : ChannelNo × EntryKey × Option Int} (ha : a ∈ agedOf s c') : a ∈ allChannels.flatMap (agedOf s) :=
    List.mem_flatMap.2 ⟨c', List.mem_finRange c', ha⟩
  obtain ⟨n, hn⟩ := spans_of_mem hm
  obtain ⟨a, ha⟩ : ∃ a, pickOldest (allChannels.flatMap (agedOf s)) = some a := by
    cases hp : pickOldest (allChannels.flatMap (agedOf s)) with
    | some a => exact ⟨a, rfl⟩
    | none =>
      have := hlist c ((agedOf_eq s c _).2 ⟨e, n, hn, hover, rfl⟩)
      rw [pickOldest_none hp] at this
      cases this
  obtain ⟨d, -, had⟩ := List.mem_flatMap.1 (pickOldest_mem ha)
  obtain ⟨f, m, hf, hfo, rfl⟩ := (agedOf_eq s d a).1 had
  refine ⟨d, f, m, hf, hfo, by rw [oldestEntry, ha]; rfl, fun c' e' n' he' ho' x hx => ?_⟩
  obtain ⟨y, hy, hxy⟩ := pickOldest_oldest ha (hlist c' ((agedOf_eq s c' _).2 ⟨e', n', he', ho', rfl⟩)) (x := (x : Int) - n') (by rw [hx]; rfl)
  cases hd : (s.chan d).frame with
  | none => rw [hd] at hy; cases hy
  | some z =>
    rw [hd] at hy
    cases hy
    exact ⟨z, rfl, hxy⟩

theorem oldestEntry_none (h : ∀ c, ∀ e ∈ (s.chan c).schedule, e.isOver = false) : oldestEntry s = none := by
  have hnil : allChannels.flatMap (agedOf s) = [] := by
    refine List.flatMap_eq_nil_iff.2 (fun c _ => List.eq_nil_iff_forall_not_mem.2 (fun a ha => ?_))
    obtain ⟨e, n, hm, ho, -⟩ := (agedOf_eq s c a).1 ha
    rw [h c e (mem_of_mem_spans hm)] at ho
    cases ho
  rw [oldestEntry, hnil]; rfl

/-- Settles O19. -/
theorem slotRequestsAreGrantedOrAged : Obligations.SlotRequestsAreGrantedOrAged := by
  intro s
  refine ⟨fun h => if_pos h, fun h0 hnone => ?_, fun c e h0 hm ho => ?_, fun t ht hpos => ?_⟩
  · rw [requestSlot, if_neg (by omega), oldestEntry_none hnone]
  · obtain ⟨d, f, n, hf, hfo, hold, hmax⟩ := oldestEntry_spec hm ho
    exact ⟨d, f, n, hf, hfo, by rw [requestSlot, if_neg (by omega), hold], hmax⟩
  · subst ht
    have hkeeps : (grantSlot s).freeCount = s.freeCount - 1 ∧ (grantSlot s).channels = s.channels := by
      unfold grantSlot
      dsimp only
      split <;> exact ⟨rfl, rfl⟩
    refine ⟨by rw [hkeeps.1]; omega, hkeeps.2, fun hn hle => ?_, fun hn hlt => ?_, fun hf => ?_⟩
    · rw [grantSlot, if_pos ⟨hn, by simp only [Config.fastBelow]; omega⟩]
      exact ⟨rfl, rfl⟩
    · rw [grantSlot, if_neg (fun h => by have := h.2; simp only [Config.fastBelow] at this; omega)]
    · rw [grantSlot, if_neg (fun h => by rw [hf] at h; cases h.1)]

end StoreFacts

end Sys2Proof.Machine

/-! # The commands on schedules (Chapter 2) -/

namespace Sys2Proof.Machine

section StoreCommands

open Says

variable {c : ChannelNo} {s u v : State} {es old pre post : List Entry} {e d : Entry} {k : EntryKey} {write : Write} {body : List Byte}

/-! ### Answers of whole frames -/

theorem portCommand_acceptedWith {run : State → Answer} {b : Bool} {fields : List Field} {t : State} (h : s.slot = none)
    (hr : run (heard write.early s) = acceptWith b fields t) :
    .next (portCommand write run s) = accepted write b fields t := by
  rw [portCommand_eq_answered h, hr]; rfl

/-! ### READ ENTRY (R41) -/

theorem readEntry_badField (h : originOfCode (numAt body 1 1) = none ∨ numAt body 2 4 = 0) : readEntry body c s = refuse .badField s := by
  unfold readEntry
  dsimp only
  rcases h with h | h
  · rw [h]
  · rw [h]
    split
    · rfl
    · rfl
    · contradiction

theorem readEntry_eq {o : Origin} (ho : originOfCode (numAt body 1 1) = some o) (h0 : numAt body 2 4 ≠ 0) :
    readEntry body c s =
      ((spans (s.chan c).schedule).find? (fun p => decide (p.1.key = { origin := o, id := numAt body 2 4 }))).elim (refuse .notFound s)
        (fun p => accept (entryFields c (s.chan c).settings.rate p.1 p.2
          ((s.chan c).schedule.findIdx (fun e => decide (e.key = { origin := o, id := numAt body 2 4 })) + 1)) s) := by
  unfold readEntry
  dsimp only
  rw [ho]
  split
  · contradiction
  · contradiction
  · rename_i o' _ ho' _
    cases ho'
    split <;> rename_i hfind <;> rw [hfind] <;> rfl

theorem spans_append (pre : List Entry) (e : Entry) (post : List Entry) :
    ∃ front, front.map Prod.fst = pre ∧ spans (pre ++ e :: post) = front ++ (e, effectiveEnd e post.head?) :: spans post := by
  induction pre with
  | nil => exact ⟨[], rfl, rfl⟩
  | cons a rest ih =>
    obtain ⟨front, hfst, hsp⟩ := ih
    exact ⟨(a, effectiveEnd a (rest ++ e :: post).head?) :: front, by rw [List.map_cons, hfst], by
      rw [List.cons_append, spans, hsp, List.cons_append]⟩

theorem find_span_none (h : ∀ a ∈ es, a.key ≠ k) : (spans es).find? (fun p => decide (p.1.key = k)) = none := by
  rw [List.find?_eq_none]
  intro p hp
  simpa using h _ (mem_of_mem_spans hp)

/-- The first entry of a name, with its effective end and its place. -/
theorem find_span_middle (h : ∀ a ∈ pre, a.key ≠ e.key) :
    (spans (pre ++ e :: post)).find? (fun p => decide (p.1.key = e.key)) = some (e, effectiveEnd e post.head?) ∧
    (pre ++ e :: post).findIdx (fun a => decide (a.key = e.key)) = pre.length := by
  constructor
  · obtain ⟨front, hfst, hsp⟩ := spans_append pre e post
    have hskip : front.find? (fun p => decide (p.1.key = e.key)) = none := by
      rw [List.find?_eq_none]
      intro p hp
      simpa using h p.1 (hfst ▸ List.mem_map_of_mem hp)
    rw [hsp, List.find?_append, hskip]
    simp
  · rw [List.findIdx_append, List.findIdx_eq_length.2 (by simpa using h), if_neg (lt_irrefl _), List.findIdx_cons]
    simp

/-- Settles O15. -/
theorem readEntryAnswers : Obligations.ReadEntryAnswers := by
  intro write body c s hslot hlen hc
  refine ⟨fun h => refused_withChannel hslot hlen hc (readEntry_badField h), fun o ho h0 hnone => ?_, fun o pre e post ho h0 hs hk hpre => ?_⟩
  · refine refused_withChannel hslot hlen hc ?_
    rw [readEntry_eq ho h0, find_span_none (es := ((heard write.early s).chan c).schedule) hnone]; rfl
  · refine accepted_withChannel hslot hlen hc ?_
    have hs' : ((heard write.early s).chan c).schedule = pre ++ e :: post := hs
    obtain ⟨hfind, hidx⟩ := find_span_middle (post := post) hpre
    rw [readEntry_eq ho h0, hs', ← hk, hfind, hidx]; rfl

/-! ### FIND AT (R42) -/

theorem findAt_frame (hl : body.length = 7 ∨ body.length = 8) (hc : channelOf (numAt body 0 1) = some c) {t : State} :
    (if body.length = 7 ∨ body.length = 8 then withChannel body (findAt body) t else refuse .badField t) = findAt body c t := by
  rw [if_pos hl, withChannel_eq hc]

theorem findAt_eq {x : Nat} {clamped : Bool} (h : positionOf (s.chan c).settings.rate body = some (x, clamped)) :
    findAt body c s = (entryAt x (s.chan c).schedule).elim (refuse .notFound s)
      (fun p => acceptWith clamped (summaryFields (s.chan c).settings.rate p ++ [.u32 (x - p.1.body.start)]) s) := by
  unfold findAt
  dsimp only
  rw [h]
  dsimp only
  split <;> rename_i hat <;> rw [hat] <;> rfl

theorem findAt_badField (h : positionOf (s.chan c).settings.rate body = none) : findAt body c s = refuse .badField s := by
  unfold findAt
  dsimp only
  rw [h]

theorem positionOf_frame (r : RateCode) (hl : body.length = 7) (h1 : numAt body 1 1 = 1) :
    positionOf r body = some (numAt body 2 5, false) := by
  unfold positionOf
  rw [h1, hl]; rfl

theorem positionOf_label (r : RateCode) (hl : body.length = 8) (h2 : numAt body 1 1 = 2) : positionOf r body =
    if numAt body 2 2 ≤ 9999 ∧ (labelAt body 4).valid r = true then
      some (absoluteFrame r (numAt body 2 2) (labelAt body 4), (labelAt body 4).namesSkipped r) else none := by
  unfold positionOf
  rw [h2, hl]
  simp [validDay]

theorem positionOf_other (r : RateCode) (h : (body.length = 7 ∧ numAt body 1 1 ≠ 1) ∨ (body.length = 8 ∧ numAt body 1 1 ≠ 2)) :
    positionOf r body = none := by
  unfold positionOf
  split
  · rename_i h1 hl
    rcases h with ⟨-, hne⟩ | ⟨h8, -⟩
    · exact absurd h1 hne
    · omega
  · rename_i h2 hl
    rcases h with ⟨h7, -⟩ | ⟨-, hne⟩
    · omega
    · exact absurd h2 hne
  · rfl

/-- Settles O16. -/
theorem findAtAnswers : Obligations.FindAtAnswers := by
  intro write body c s hslot hc
  refine ⟨fun hl h1 e n hat => ?_, fun hl h1 hat => ?_, fun hl h2 hday hv e n hat => ?_, fun hl h2 hday hv hat => ?_,
    fun hl h2 hbad => ?_, fun hbad => ?_⟩
  · refine portCommand_acceptedWith hslot ((findAt_frame (.inl hl) hc).trans ?_)
    exact (findAt_eq (positionOf_frame _ hl h1)).trans (congrArg (fun o => Option.elim o _ _) hat)
  · refine portCommand_refused hslot ((findAt_frame (.inl hl) hc).trans ?_)
    exact (findAt_eq (positionOf_frame _ hl h1)).trans (congrArg (fun o => Option.elim o _ _) hat)
  · refine portCommand_acceptedWith hslot ((findAt_frame (.inr hl) hc).trans ?_)
    exact (findAt_eq ((positionOf_label _ hl h2).trans (if_pos ⟨hday, hv⟩))).trans (congrArg (fun o => Option.elim o _ _) hat)
  · refine portCommand_refused hslot ((findAt_frame (.inr hl) hc).trans ?_)
    exact (findAt_eq ((positionOf_label _ hl h2).trans (if_pos ⟨hday, hv⟩))).trans (congrArg (fun o => Option.elim o _ _) hat)
  · refine portCommand_refused hslot ((findAt_frame (.inr hl) hc).trans (findAt_badField ((positionOf_label _ hl h2).trans (if_neg ?_))))
    rintro ⟨hd, hv⟩
    rcases hbad with h | h
    · omega
    · exact Bool.false_ne_true (h.symm.trans hv)
  · exact portCommand_refused hslot ((findAt_frame (hbad.imp And.left And.left) hc).trans (findAt_badField (positionOf_other _ hbad)))

/-! ### LIST (R43) -/

/-- Settles O17. -/
theorem listAnswers : Obligations.ListAnswers := by
  intro write body c s hslot hlen hc
  refine ⟨fun h => refused_withChannel hslot hlen hc ?_, fun o ho h1 h16 => accepted_withChannel hslot hlen hc ?_⟩
  · unfold listEntries
    dsimp only
    split
    · rfl
    · rename_i o ho
      rcases h with h | h
      · rw [ho] at h; cases h
      · exact if_pos (by omega)
  · unfold listEntries
    dsimp only
    rw [ho]
    exact if_neg (by omega)

/-! ### Bodies (R23, R24) -/

theorem valid_iff (r : RateCode) (b : RawBody) : b.valid r = true ↔
    b.entryId ≠ 0 ∧ b.day ≤ 9999 ∧ b.label.valid r = true ∧ b.duration ≠ 0 ∧ (b.kind = 1 ∨ b.kind = 2) ∧
    (b.kind = 1 → b.somLabel.valid r = true) ∧ (b.kind = 2 → 1 ≤ b.source ∧ b.source ≤ 1023) ∧ b.priority ≤ 3 ∧
    b.secondaries.length ≤ 4 ∧
      ∀ x ∈ b.secondaries, 1 ≤ x.key ∧ x.key ≤ 255 ∧ x.duration ≠ 0 ∧ x.offset < min b.duration r.framesPerDay := by
  simp only [RawBody.valid, RawBody.isMedia, RawBody.isLive, validDay, Secondary.valid, RawBody.clampedDuration, Bool.and_eq_true,
    Bool.or_eq_true, Bool.not_eq_true', decide_eq_true_eq, decide_eq_false_iff_not, List.all_eq_true, and_assoc, ← imp_iff_not_or]

theorem clamps_iff (r : RateCode) (b : RawBody) : b.clamps r = true ↔
    (b.label.valid r = true ∧ b.label.namesSkipped r = true) ∨
    (b.kind = 1 ∧ b.somLabel.valid r = true ∧ b.somLabel.namesSkipped r = true) ∨ r.framesPerDay < b.duration := by
  simp only [RawBody.clamps, RawBody.isMedia, Bool.and_eq_true, Bool.or_eq_true, decide_eq_true_eq, and_assoc, or_assoc]

/-! ### WRITE LOCAL (R35) -/

theorem not_mem_keys (h : ∀ a ∈ es, a.key ≠ k) : k ∉ es.map Entry.key := by
  rw [List.mem_map]
  rintro ⟨a, ha, hk⟩
  exact h a ha hk

/-- An entry just joined is the one of its name. -/
theorem lookupEntry_joined {frame : Option Nat} (h : joined frame d old es) : lookupEntry d.key es = some d := by
  obtain ⟨hp, ⟨-, hn, -⟩, -⟩ := h
  exact lookupEntry_of_mem hn (hp.mem_iff.2 List.mem_cons_self)

theorem requestSlot_chan_law {t : State} (h : InvWith 0 s) (hr : requestSlot s = some t) (c : ChannelNo) : ChannelLaw (t.chan c) :=
  (inv_requestSlot h hr).channels c

theorem inv_heard (h : InvWith 0 s) (early : Bool) : InvWith 0 (heard early s) := inv_touch h

section WriteLocal

variable {raw : RawBody}

theorem writeLocal_invalid (h : raw.valid (s.chan c).settings.rate = false) : writeLocal raw c s = refuse .badField s := by
  unfold writeLocal
  dsimp only
  rw [h]; rfl

theorem writeLocal_new (h : raw.valid (s.chan c).settings.rate = true)
    (hk : ∀ a ∈ (s.chan c).schedule, a.key ≠ { origin := .localEntry, id := raw.entryId }) :
    writeLocal raw c s =
      if 1024 ≤ (s.chan c).schedule.length then refuse .full s
      else (requestSlot s).elim (refuse .full s) (fun t =>
        acceptWith (raw.clamps (s.chan c).settings.rate)
          [.u8 1, .u8 (((lookupEntry { origin := .localEntry, id := raw.entryId }
            ((joinEntry c .localEntry (raw.convert (s.chan c).settings.rate) t).chan c).schedule).map Entry.status).getD .planned).code]
          (joinEntry c .localEntry (raw.convert (s.chan c).settings.rate) t)) := by
  have hnone : lookupEntry { origin := .localEntry, id := (raw.convert (s.chan c).settings.rate).entryId } (s.chan c).schedule = none :=
    lookupEntry_none.2 (not_mem_keys hk)
  unfold writeLocal
  dsimp only
  rw [h, hnone, Bool.not_true, if_neg Bool.false_ne_true]
  dsimp only
  refine if_congr Iff.rfl rfl ?_
  split <;> rename_i hslot <;> rw [hslot] <;> rfl

theorem writeLocal_listed (h : raw.valid (s.chan c).settings.rate = true)
    (hk : lookupEntry { origin := .localEntry, id := raw.entryId } (s.chan c).schedule = some e) (hke : e.key = { origin := .localEntry, id := raw.entryId }) :
    writeLocal raw c s =
      if e.inService = true then refuse .inService s
      else acceptWith (raw.clamps (s.chan c).settings.rate)
        [.u8 2, .u8 (((lookupEntry e.key
          ((replaceEntry c e.key (raw.convert (s.chan c).settings.rate) s).chan c).schedule).map Entry.status).getD .planned).code]
        (replaceEntry c e.key (raw.convert (s.chan c).settings.rate) s) := by
  have hsome : lookupEntry { origin := .localEntry, id := (raw.convert (s.chan c).settings.rate).entryId } (s.chan c).schedule = some e := hk
  unfold writeLocal
  dsimp only
  rw [h, hsome, Bool.not_true, if_neg Bool.false_ne_true, hke]; rfl

end WriteLocal

/-- Settles O18. -/
theorem writeLocalInsertsOrReplaces : Obligations.WriteLocalInsertsOrReplaces := by
  refine ⟨fun r b => ⟨valid_iff r b, clamps_iff r b, ?_⟩, fun write body c raw s hinv hslot hb hc hp => ?_⟩
  · unfold RawBody.convert
    exact congrArg (fun x => ({ entryId := b.entryId, revision := b.revision, start := _, duration := _, content := x, priority := b.priority
                                secondaries := b.secondaries } : Body)) (if_congr decide_eq_true_iff rfl rfl)
  · have hrefused {st : Status} (h : writeLocal raw c (heard write.early s) = refuse st (heard write.early s)) :
        exec (.writeLocal write body) s = refused write st s := by
      rw [writeLocal_run hb hp]
      exact portCommand_refused hslot ((withChannel_eq hc _ _).trans h)
    have haccepted {b : Bool} {fields : List Field} {t : State} (h : writeLocal raw c (heard write.early s) = acceptWith b fields t) :
        exec (.writeLocal write body) s = accepted write b fields t := by
      rw [writeLocal_run hb hp]
      exact portCommand_acceptedWith hslot ((withChannel_eq hc _ _).trans h)
    have hlaw := hinv.channels c
    have hunlisted := writeLocal_new (c := c) (s := heard write.early s) (raw := raw)
    have hlisted := fun {d : Entry} => writeLocal_listed (c := c) (s := heard write.early s) (raw := raw) (e := d)
    refine ⟨fun h => hrefused (writeLocal_invalid h), fun h hk hlen => hrefused ((hunlisted h hk).trans (if_pos hlen)),
      fun h hk hlen hr => hrefused ((hunlisted h hk).trans ((if_neg (Nat.not_le.2 hlen)).trans (by rw [hr]; rfl))),
      fun u h hk hlen hr => ?_, fun pre d post h hs hk hserv => ?_, fun pre d post h hs hk hserv => ?_⟩
    · have hsub := requestSlot_schedule hr c
      have hnew : ({ origin := .localEntry, id := (raw.convert (s.chan c).settings.rate).entryId } : EntryKey) ∉
          (u.chan c).schedule.map Entry.key := fun hm => not_mem_keys hk ((hsub.map _).subset hm)
      obtain ⟨e, es, he, hj, hjoin⟩ := joinEntry_joins (o := .localEntry) (b := raw.convert (s.chan c).settings.rate)
        (requestSlot_chan_law (inv_heard hinv _) hr c) hnew (hsub.length_le.trans_lt hlen)
      refine ⟨e, es, he, hj, haccepted ((hunlisted h hk).trans ((if_neg (Nat.not_le.2 hlen)).trans ?_))⟩
      have hkey : ({ origin := .localEntry, id := raw.entryId } : EntryKey) = e.key := by rw [he]; rfl
      rw [hr, Option.elim_some]
      erw [hjoin]
      rw [hkey, rescheduled, chan_modChan_self, lookupEntry_joined hj]; rfl
    · have hlook := lookupEntry_middle (keys_nodup_of_channelLaw hlaw hs)
      exact hrefused ((hlisted h (by rw [← hk]; exact (congrArg _ hs).trans hlook) hk).trans (if_pos hserv))
    · have hlook := lookupEntry_middle (keys_nodup_of_channelLaw hlaw hs)
      obtain ⟨e, es, he, hj, hrep⟩ := replaceEntry_replaces (s := heard write.early s) (b := raw.convert (s.chan c).settings.rate) hlaw hs
        (by rw [hk]; rfl)
      refine ⟨e, es, he, hj, haccepted ((hlisted h (by rw [← hk]; exact (congrArg _ hs).trans hlook) hk).trans
        ((if_neg (by rw [hserv]; exact Bool.false_ne_true)).trans ?_))⟩
      have hkey : d.key = e.key := by
        rw [he]; exact (key_of_body (by rw [hk]; rfl)).symm
      erw [hrep]
      rw [rescheduled, chan_modChan_self, hkey, lookupEntry_joined hj]; rfl

/-! ### What abandoning walks leaves alone -/

theorem abandonWalks_freeSlots (c : ChannelNo) (n : Nat) (s : State) :
    abandonWalks c (freeSlots n s) = freeSlots n (abandonWalks c s) := by
  rw [abandonWalks_eq c s]
  unfold abandonWalks startWalk
  simp only [freeSlots]
  split <;> rfl

theorem rescheduled_rescheduled (c : ChannelNo) (es ds : List Entry) (s : State) :
    rescheduled c ds (rescheduled c es s) = rescheduled c ds s :=
  modChan_modChan _ _ _ _

/-- Two writes of a schedule with the walks abandoned between them and after them. -/
theorem abandonWalks_rescheduled (c : ChannelNo) (es ds : List Entry) (s : State) :
    abandonWalks c (rescheduled c ds (abandonWalks c (rescheduled c es s))) = abandonWalks c (rescheduled c ds s) := by
  unfold rescheduled
  rw [← abandonWalks_modChan, abandonWalks_twice, modChan_modChan]

theorem rescheduled_chan (c : ChannelNo) (es : List Entry) (s : State) :
    (rescheduled c es s).chan c = { s.chan c with schedule := es, pinnedHeld := anyAmendment es } := by
  rw [rescheduled, chan_modChan_self]

theorem rescheduled_schedule (c : ChannelNo) (es : List Entry) (s : State) : ((rescheduled c es s).chan c).schedule = es := by
  rw [rescheduled_chan]

theorem rescheduled_frame (c : ChannelNo) (es : List Entry) (s : State) : ((rescheduled c es s).chan c).frame = (s.chan c).frame := by
  rw [rescheduled_chan]

theorem chan_ite_abandonWalks (p : Prop) [Decidable p] (c d : ChannelNo) (t : State) :
    (if p then abandonWalks c t else t).chan d = t.chan d := by
  split
  · exact abandonWalks_chan c d t
  · rfl

/-! ### PIN and UNPIN (R38, R39) -/

theorem setPinned_eq (hl : ChannelLaw (s.chan c)) (hs : (s.chan c).schedule = pre ++ e :: post) (b : Bool) :
    setPinned c e.key b s = abandonWalks c (rescheduled c (pre ++ ({ e with pinned := b } : Entry) :: post) s) := by
  have hn := keys_nodup_of_channelLaw hl hs
  obtain ⟨-, -, -, -, -, hheld, -⟩ := hl
  rw [setPinned, hs, mapEntry_middle hn, setSchedule_eq_rescheduled]
  intro ha
  rw [hheld, hs, ← ha]
  simp [anyAmendment]

theorem pinEntry_pinned (h : e.pinned = true) : pinEntry c e s = accept [] s := by
  rw [pinEntry, if_pos h]

theorem pinEntry_free (h : e.pinned = false) : pinEntry c e s = accept [] (setPinned c e.key true s) := by
  rw [pinEntry, h]; rfl

theorem unpinEntry_free (h : e.pinned = false) : unpinEntry c e s = accept [.u8 0] s := by
  rw [unpinEntry, unpinOutcome, h]; rfl

theorem unpinEntry_inService (h : e.pinned = true) (ha : e.amendment.isSome) (hserv : e.inService = true) :
    unpinEntry c e s = accept [.u8 5] (setPinned c e.key false s) := by
  obtain ⟨a, ha⟩ := Option.isSome_iff_exists.1 ha
  rw [unpinEntry, unpinOutcome, h, ha, hserv]; rfl

/-- UNPIN's outcome code for an amendment that it applies. -/
def Amendment.appliedCode : Amendment → Nat
  | .body _ => 3
  | .deletion => 4

theorem unpinEntry_applies (h : e.pinned = true) {a : Amendment} (ha : e.amendment = some a) (hserv : e.inService = false) :
    unpinEntry c e s = accept [.u8 a.appliedCode] (applyAmendment c e.key (setPinned c e.key false s)) := by
  rw [unpinEntry, unpinOutcome, h, ha, hserv]
  cases a <;> rfl

/-- Applying the amendment of an entry that has none changes nothing. -/
theorem applyAmendment_none (hl : ChannelLaw (s.chan c)) (hs : (s.chan c).schedule = pre ++ e :: post) (ha : e.amendment = none) :
    applyAmendment c e.key s = s := by
  rw [applyAmendment, hs, lookupEntry_middle (keys_nodup_of_channelLaw hl hs), Option.bind_some, ha]

theorem unpinEntry_plain (h : e.pinned = true) (ha : e.amendment = none) (hl : ChannelLaw ((setPinned c e.key false s).chan c))
    (hs : ((setPinned c e.key false s).chan c).schedule = pre ++ ({ e with pinned := false } : Entry) :: post) :
    unpinEntry c e s = accept [.u8 0] (setPinned c e.key false s) := by
  have hnone : applyAmendment c e.key (setPinned c e.key false s) = setPinned c e.key false s :=
    applyAmendment_none (e := { e with pinned := false }) hl hs ha
  rw [unpinEntry, unpinOutcome, h, ha]
  dsimp only
  rw [hnone]
  cases e.inService <;> rfl

theorem applyAmendment_body {b : Body} (hl : ChannelLaw (s.chan c)) (hs : (s.chan c).schedule = pre ++ e :: post)
    (ha : e.amendment = some (.body b)) :
    ∃ d es, d = { e with body := b, status := d.status, amendment := none } ∧ joined (s.chan c).frame d (pre ++ post) es ∧
      applyAmendment c e.key s = abandonWalks c (rescheduled c es s) := by
  have hb : b.entryId = e.key.id := (scheduleLaw_of hl).2.2.2 e (by rw [hs]; simp) b ha
  obtain ⟨d, es, hd, hj, hrep⟩ := replaceEntry_replaces hl hs hb
  refine ⟨d, es, hd, hj, ?_⟩
  rw [applyAmendment, hs, lookupEntry_middle (keys_nodup_of_channelLaw hl hs), Option.bind_some, ha]
  exact congrArg (abandonWalks c) hrep

theorem sublist_middle (pre post : List Entry) (e : Entry) : (pre ++ post).Sublist (pre ++ e :: post) :=
  (List.sublist_cons_self e post).append_left pre

theorem applyAmendment_deletion (hl : ChannelLaw (s.chan c)) (hs : (s.chan c).schedule = pre ++ e :: post)
    (ha : e.amendment = some .deletion) (ho : e.origin = .replicated) :
    applyAmendment c e.key s = abandonWalks c (freeSlots 1 (rescheduled c (pre ++ post) s)) := by
  have hrepl : e.isReplicated = true := decide_eq_true ho
  rw [applyAmendment, hs, lookupEntry_middle (keys_nodup_of_channelLaw hl hs), Option.bind_some, ha]
  dsimp only
  rw [removeEntry_eq hs (keys_nodup_of_channelLaw hl hs), hrepl, setSchedule_of_sublist hl (by rw [hs]; exact sublist_middle _ _ _)]
  rfl

/-- Settles O21. -/
theorem pinAndUnpin : Obligations.PinAndUnpin := by
  intro write body c s hinv hslot hlen hc
  refine ⟨fun h0 => ⟨portCommand_refused hslot (entryCommand_badField hlen hc h0), portCommand_refused hslot (entryCommand_badField hlen hc h0)⟩,
    fun h0 hnone => ⟨portCommand_refused hslot (entryCommand_notFound hlen hc h0 hnone),
      portCommand_refused hslot (entryCommand_notFound hlen hc h0 hnone)⟩, fun pre e post h0 hs hk => ?_⟩
  have hlaw := hinv.channels c
  have ho : e.origin = .replicated := congrArg EntryKey.origin hk
  have hrun {run : ChannelNo → Entry → State → Answer} {fields : List Field} {t : State}
      (h : run c e (heard write.early s) = accept fields t) :
      .next (portCommand write (entryCommand .replicated body run) s) = accepted write false fields t :=
    portCommand_accepted hslot ((entryCommand_listed (s := heard write.early s) hlen hc h0 hs hlaw hk).trans h)
  have hset (b : Bool) := setPinned_eq (s := heard write.early s) hlaw hs b
  have hlaw' : ChannelLaw ((setPinned c e.key false (heard write.early s)).chan c) := (inv_setPinned (inv_heard hinv _) c e.key false).channels c
  have hs' : ((setPinned c e.key false (heard write.early s)).chan c).schedule = pre ++ ({ e with pinned := false } : Entry) :: post := by
    rw [hset, abandonWalks_chan, rescheduled_schedule]
  refine ⟨fun hp => hrun (pinEntry_pinned hp), fun hp => hrun ((pinEntry_free hp).trans (congrArg _ (hset true))),
    fun hp => hrun (unpinEntry_free hp), fun hp ha => hrun ((unpinEntry_plain hp ha hlaw' hs').trans (congrArg _ (hset false))),
    fun hp ha hserv => hrun ((unpinEntry_inService hp ha hserv).trans (congrArg _ (hset false))), fun b hp ha hserv => ?_,
    fun hp ha hserv => ?_⟩
  · obtain ⟨d, es, hd, hj, happ⟩ := applyAmendment_body (e := { e with pinned := false }) hlaw' hs' ha
    refine ⟨d, es, hd, ?_, hrun ((unpinEntry_applies hp ha hserv).trans (congrArg _ (happ.trans ?_)))⟩
    · rw [hset, abandonWalks_chan, rescheduled_frame] at hj
      exact hj
    · rw [hset, abandonWalks_rescheduled]
  · refine hrun ((unpinEntry_applies hp ha hserv).trans (congrArg _ ((applyAmendment_deletion (e := { e with pinned := false }) hlaw' hs' ha ho).trans ?_)))
    rw [hset, abandonWalks_freeSlots, abandonWalks_rescheduled, abandonWalks_freeSlots]

/-! ### FLUSH (R40) -/

/-- In a lawful channel the entries kept stay, and the others free their slots; a REPLICATED one among them abandons the walks. -/
theorem keepOnly_eq (hl : ChannelLaw (s.chan c)) (keep : Entry × Nat → Bool) :
    keepOnly c keep s =
      let kept := ((spans (s.chan c).schedule).filter keep).map Prod.fst
      let gone := ((spans (s.chan c).schedule).filter (fun p => !keep p)).map Prod.fst
      let t := freeSlots gone.length (rescheduled c kept s)
      if gone.any Entry.isReplicated then abandonWalks c t else t := by
  unfold keepOnly
  dsimp only
  rw [setSchedule_of_sublist hl (kept_sublist keep _), List.length_map, List.any_map]; rfl

theorem keepOnly_entries (hl : ChannelLaw (s.chan c)) (keep : Entry → Bool) :
    keepOnly c (fun p => keep p.1) s =
      let t := freeSlots ((s.chan c).schedule.filter (fun e => !keep e)).length (rescheduled c ((s.chan c).schedule.filter keep) s)
      if ((s.chan c).schedule.filter (fun e => !keep e)).any Entry.isReplicated then abandonWalks c t else t := by
  have hgone := kept_of_entry (fun e => !keep e) (s.chan c).schedule
  rw [keepOnly_eq hl, kept_of_entry keep]
  dsimp only
  rw [hgone]

theorem filter_not_or (p q : Entry → Bool) (es : List Entry) :
    es.filter (fun e => !(!p e || q e)) = es.filter (fun e => p e && !q e) := by
  refine List.filter_congr (fun e _ => ?_)
  cases p e <;> rfl

theorem countP_filter_length (p q : Entry → Bool) (es : List Entry) : (es.filter p).countP q = (es.filter (fun e => p e && q e)).length := by
  rw [List.countP_eq_length_filter, List.filter_filter]
  refine congrArg List.length (List.filter_congr (fun e _ => Bool.and_comm _ _))

theorem flushReported_unless {p : Prop} [Decidable p] {r : ReplicationState} {n : Nat} (hr : (u.chan c).replState = r)
    (hn : (u.chan c).attempts = n) :
    (if p then u else flushReported c u) = if ¬p ∧ r = .inStep then setReplication c .outOfStep .flush n u else u := by
  rw [flushReported, hr, hn]
  by_cases hp : p
  · rw [if_pos hp, if_neg (fun h => h.1 hp)]
  · rw [if_neg hp]
    exact if_congr (by simp [hp]) rfl rfl

/-- Settles O22. -/
theorem flushFreesMatchingEntries : Obligations.FlushFreesMatchingEntries := by
  intro write body c s hinv hslot hlen hc
  refine ⟨fun h => refused_withChannel hslot hlen hc ?_, fun x hx => accepted_withChannel hslot hlen hc ?_⟩
  · rw [flush, h]
  · have hkeep := keepOnly_entries (s := heard write.early s) (hinv.channels c) (fun e => !x.takes e || e.inService)
    dsimp only at hkeep
    rw [filter_not_or] at hkeep
    unfold flush
    rw [hx]
    dsimp only
    rw [hkeep, countP_filter_length, countP_filter_length]
    exact congrArg _ (flushReported_unless (by rw [chan_ite_abandonWalks, freeSlots_chan, rescheduled_chan]; rfl) (by rw [chan_ite_abandonWalks, freeSlots_chan, rescheduled_chan]; rfl))

end StoreCommands

end Sys2Proof.Machine

/-! # The channel records and their commands (Chapters 3 and 5) -/

namespace Sys2Proof.Machine

section ChannelCommands

open Says

variable {c d : ChannelNo} {s u v : State} {write : Write} {body : List Byte}

/-! ### Replication state and the resync queue (R86 to R88, R105) -/

theorem abandonWalks_attention (c : ChannelNo) (s : State) : (abandonWalks c s).attention = s.attention := by
  rw [abandonWalks_eq]

theorem setReplication_changed {st : ReplicationState} {cause : Cause} {n : Nat}
    (h : (s.chan c).replState ≠ st ∨ (s.chan c).cause ≠ cause ∨ (s.chan c).attempts ≠ n) :
    c ∈ (setReplication c st cause n s).attention := by
  have hraised (t : State) : c ∈ (raise c .replication t).attention := mem_raise_attention.2 (.inl rfl)
  rw [setReplication_eq, show (decide ((s.chan c).replState ≠ st) || decide ((s.chan c).cause ≠ cause) ||
    decide ((s.chan c).attempts ≠ n)) = true by simpa [or_assoc] using h]
  dsimp only
  split
  · rw [abandonWalks_attention]
    exact hraised _
  · exact hraised _

theorem setReplication_unchanged {st : ReplicationState} {cause : Cause} {n : Nat} (hst : (s.chan c).replState = st)
    (hc : (s.chan c).cause = cause) (hn : (s.chan c).attempts = n) : setReplication c st cause n s = s := by
  subst hst hc hn
  exact setReplication_same c s

theorem setReplication_leaves {st : ReplicationState} {cause : Cause} {n : Nat} (h : (s.chan c).replState = .inStep) (hst : st ≠ .inStep) :
    (∀ r ∈ (setReplication c st cause n s).pendingWalks, r.channel ≠ c) ∧
    ∀ w ∈ (setReplication c st cause n s).walk, w.record.channel ≠ c := by
  rw [setReplication_eq]
  dsimp only
  rw [if_pos ⟨h, hst⟩]
  exact abandonWalks_none c _

theorem serve_idle (h : s.resyncQueue = [] ∨ s.linkUp = false ∨ s.assembly ≠ none) : serve s = s := by
  rcases serve_cases s with ⟨hs, -⟩ | ⟨d, rest, hq, ha, hl, -⟩
  · exact hs
  · rcases h with h | h | h
    · rw [h] at hq; cases hq
    · rw [h] at hl; cases hl
    · exact absurd ha h

theorem serve_head {rest : List ChannelNo} (hq : s.resyncQueue = d :: rest) (hl : s.linkUp = true) (ha : s.assembly = none) :
    serve s = setReplication d .resyncing (s.chan d).cause (s.chan d).attempts
      { s with
        resyncQueue := rest, assembly := some (.opened d (s.chan d).replState (s.chan d).cause)
        replicationOut := s.replicationOut ++ [.resyncAsk d (s.chan d).cause (s.chan d).lastApplied] } := by
  unfold serve
  rw [hq, ha, hl]; rfl

theorem enqueue_eq (c : ChannelNo) (s : State) :
    enqueue c s = serve { s with resyncQueue := if c ∈ s.resyncQueue then s.resyncQueue else s.resyncQueue ++ [c] } := by
  refine congrArg serve ?_
  split <;> rfl

/-- Settles O28. -/
theorem replicationStateAndQueue : Obligations.ReplicationStateAndQueue := by
  intro c s
  refine ⟨fun st cause n => ⟨?_, fun h => ⟨?_, setReplication_changed h⟩, setReplication_unchanged, fun d hd => ?_, setReplication_leaves⟩,
    enqueue_eq c s, serve_idle, fun d rest hq hl ha => serve_head hq hl ha⟩
  · rw [setReplication_chan, if_pos rfl]
  · rw [setReplication_chan, if_pos rfl]
    exact if_pos h
  · rw [setReplication_chan, if_neg hd]

/-! ### RESYNC (R100) -/

theorem resyncAnswer_refused (h : (s.chan c).settings.mode = .off ∨ (s.chan c).replState = .inStep) :
    resyncAnswer c s = refuse .state s := by
  unfold resyncAnswer
  dsimp only
  rcases h with h | h
  · exact if_pos h
  · rw [h]
    exact ite_self _

section On

variable (hm : (s.chan c).settings.mode ≠ .off)
include hm

theorem resyncAnswer_inProgress (h : (s.chan c).replState = .resyncing) : resyncAnswer c s = accept [.u8 8] s := by
  unfold resyncAnswer
  dsimp only
  rw [h]
  exact if_neg hm

theorem resyncAnswer_alreadyQueued (h : (s.chan c).replState = .unseeded ∨ (s.chan c).replState = .outOfStep) (hq : c ∈ s.resyncQueue) :
    resyncAnswer c s = accept [.u8 9] (setReplication c (s.chan c).replState (s.chan c).cause 0 s) := by
  unfold resyncAnswer
  dsimp only
  refine (if_neg hm).trans ?_
  rcases h with h | h
  all_goals
    rw [h]
    exact if_pos hq

theorem resyncAnswer_queued (h : (s.chan c).replState = .unseeded ∨ (s.chan c).replState = .outOfStep) (hq : c ∉ s.resyncQueue) :
    resyncAnswer c s = accept [.u8 10] (enqueue c (setReplication c (s.chan c).replState (s.chan c).cause 0 s)) := by
  unfold resyncAnswer
  dsimp only
  refine (if_neg hm).trans ?_
  rcases h with h | h
  all_goals
    rw [h]
    exact if_neg hq

theorem resyncAnswer_stale (h : (s.chan c).replState = .stale) :
    resyncAnswer c s = accept [.u8 10] (enqueue c (setReplication c .outOfStep (s.chan c).cause 0 s)) := by
  unfold resyncAnswer
  dsimp only
  rw [h]
  exact if_neg hm

end On

/-- Settles O27. -/
theorem resyncQueuesChannel : Obligations.ResyncQueuesChannel := by
  intro write body c s hslot hlen hc
  exact ⟨fun h => refused_channelCommand hslot hlen hc (resyncAnswer_refused h),
    fun hm h => accepted_channelCommand hslot hlen hc (resyncAnswer_inProgress (s := heard write.early s) hm h),
    fun hm h hq => accepted_channelCommand hslot hlen hc (resyncAnswer_alreadyQueued (s := heard write.early s) hm h hq),
    fun hm h hq => accepted_channelCommand hslot hlen hc (resyncAnswer_queued (s := heard write.early s) hm h hq),
    fun hm h => accepted_channelCommand hslot hlen hc (resyncAnswer_stale (s := heard write.early s) hm h)⟩

/-! ### CONFIGURE CHANNEL (R51 to R53) -/

theorem modeOrRateRefused_iff (s : State) (c : ChannelNo) (g : Settings) : modeOrRateRefused s c g = true ↔
    (g.rate ≠ (s.chan c).settings.rate ∧ ¬((s.chan c).settings.mode = .off ∧ g.mode = .off)) ∨
    ((s.chan c).settings.mode = .protectedMode ∧ g.mode ≠ .protectedMode ∧ (s.chan c).changeover ≠ .mirror) ∨
    (g.mode = .protectedMode ∧ (s.family g.rate.family).state = .unset) := by
  simp only [modeOrRateRefused, Bool.or_eq_true, Bool.and_eq_true, Bool.not_eq_true', decide_eq_true_eq, Bool.and_eq_false_iff,
    decide_eq_false_iff_not, not_and_or, and_assoc, or_assoc]

theorem configureAnswer_refused {g : Settings} (hg : settingsOf body = some g) (h : modeOrRateRefused s c g = true) :
    configureAnswer body c s = refuse .state s := by
  unfold configureAnswer
  rw [hg]
  exact if_pos h

theorem configureAnswer_accepted {g : Settings} (hg : settingsOf body = some g) (h : modeOrRateRefused s c g = false) :
    configureAnswer body c s =
      acceptWith (decide (g.clamped ≠ g)) (settingsFields g.clamped.convert) (configure c g.clamped.convert s) := by
  unfold configureAnswer
  rw [hg]
  dsimp only
  rw [h]; rfl

/-- A channel with these settings written (R53). -/
def Channel.configured (g : Settings) (ch : Channel) : Channel :=
  { ch with settings := g, flapCounter := min ch.flapCounter g.flapLimit }

theorem writeSettings_chan (c : ChannelNo) (g : Settings) (s : State) : (writeSettings c g s).chan c = (s.chan c).configured g := by
  rw [writeSettings, chan_modChan_self]; rfl

theorem configure_sameRate {g : Settings} (h : g.rate = (s.chan c).settings.rate) :
    configure c g s = changeMode c (s.chan c).settings.mode (writeSettings c g s) := by
  unfold configure
  dsimp only
  rw [if_pos h]

theorem changeMode_same {before : ServiceMode} (h : (s.chan c).settings.mode = .off ↔ before = .off) : changeMode c before s = s := by
  unfold changeMode
  dsimp only
  rw [if_neg (by tauto), if_neg (by tauto)]

theorem changeMode_off {before : ServiceMode} (hb : before ≠ .off) (h : (s.chan c).settings.mode = .off) :
    changeMode c before s = moveIntoOff c s :=
  if_pos ⟨hb, h⟩

theorem changeMode_on {before : ServiceMode} (hb : before = .off) (h : (s.chan c).settings.mode ≠ .off) :
    changeMode c before s = moveOutOfOff c s := by
  unfold changeMode
  dsimp only
  rw [if_neg (fun h' => h'.1 hb), if_pos ⟨hb, h⟩]

/-- The numeric fields of a CONFIGURE CHANNEL body as given. -/
theorem settingsOf_numbers {g : Settings} (h : settingsOf body = some g) :
    g.hbLimitMs = numAt body 9 4 ∧ g.tripDelayMs = numAt body 13 4 ∧ g.recoveryMs = numAt body 17 4 ∧ g.confirmMs = numAt body 21 4 ∧
    g.cueLead = numAt body 25 2 ∧ g.minJoin = numAt body 27 2 ∧ g.flapLimit = numAt body 29 1 ∧ g.flapDecrementS = numAt body 30 2 ∧
    g.defaultPriority = numAt body 6 1 := by
  unfold settingsOf at h
  split at h
  · cases h
    exact ⟨rfl, rfl, rfl, rfl, rfl, rfl, rfl, rfl, rfl⟩
  · cases h

theorem clampTo_zero (hi n : Nat) : clampTo 0 hi n = min hi n :=
  congrArg (min hi) (Nat.zero_max n)

/-- What is stored of the numeric fields given (R52). -/
theorem stored_numbers {g : Settings} (h : settingsOf body = some g) :
    (let stored := g.clamped.convert
     stored.hbLimitMs = min 60000 (max 40 (numAt body 9 4)) ∧ stored.tripDelayMs = min 60000 (numAt body 13 4) ∧
     stored.recoveryMs = min 600000 (numAt body 17 4) ∧ stored.confirmMs = min 60000 (numAt body 21 4) ∧
     stored.cueLead = min 250 (max 1 (numAt body 25 2)) ∧ stored.minJoin = min 1000 (numAt body 27 2) ∧
     stored.flapLimit = min 15 (numAt body 29 1) ∧ stored.flapDecrementS = min 3600 (max 1 (numAt body 30 2)) ∧
     stored.defaultPriority = min 3 (numAt body 6 1)) := by
  obtain ⟨h1, h2, h3, h4, h5, h6, h7, h8, h9⟩ := settingsOf_numbers h
  dsimp only [Settings.convert, Settings.clamped]
  rw [h1, h2, h3, h4, h5, h6, h7, h8, h9, clampTo_zero, clampTo_zero, clampTo_zero, clampTo_zero, clampTo_zero, clampTo_zero]
  exact ⟨rfl, rfl, rfl, rfl, rfl, rfl, rfl, rfl, rfl⟩

/-- Settles O23. -/
theorem configureChannelStores : Obligations.ConfigureChannelStores := by
  intro write body c s hslot hlen hc
  have hrefused {g : Settings} (hg : settingsOf body = some g) (h : modeOrRateRefused (heard write.early s) c g = true) :
      exec (.configureChannel write body) s = refused write .state s :=
    refused_withChannel hslot hlen hc (configureAnswer_refused hg h)
  refine ⟨fun h => refused_withChannel hslot hlen hc (by rw [configureAnswer, h]),
    fun g hg hr hm => hrefused hg ((modeOrRateRefused_iff _ _ _).2 (.inl ⟨hr, fun h => ?_⟩)),
    fun g hg ho hm hm' => hrefused hg ((modeOrRateRefused_iff _ _ _).2 (.inr (.inl ⟨ho, hm, hm'⟩))),
    fun g hg hp hu => hrefused hg ((modeOrRateRefused_iff _ _ _).2 (.inr (.inr ⟨hp, hu⟩))),
    fun g hg hr hoff hmirror hset => ⟨accepted_withChannel hslot hlen hc ?_, ?_⟩⟩
  · rcases hm with hm | hm
    · exact hm h.1
    · exact hm h.2
  · have hallowed : modeOrRateRefused (heard write.early s) c g = false := by
      rw [Bool.eq_false_iff, Ne, modeOrRateRefused_iff]
      rintro (⟨h, -⟩ | ⟨ho, hp, hm⟩ | ⟨hp, hu⟩)
      · exact h hr
      · exact hm (hmirror ho hp)
      · exact hset hp hu
    have hsame : changeMode c (s.chan c).settings.mode (writeSettings c g.clamped.convert (heard write.early s)) =
        writeSettings c g.clamped.convert (heard write.early s) :=
      changeMode_same (by rw [writeSettings_chan]; exact hoff)
    refine (configureAnswer_accepted hg hallowed).trans (congrArg _ ?_)
    exact (configure_sameRate (s := heard write.early s) (g := g.clamped.convert) hr).trans hsame
  · obtain ⟨h1, h2, h3, h4, h5, h6, h7, h8, h9⟩ := stored_numbers hg
    exact ⟨h1, h2, h3, h4, h5, h6, h7, h8, h9, rfl, rfl, rfl, rfl, rfl⟩

/-! ### Moves into and out of OFF, and changes of rate (R47, R54 to R56, R99) -/

/-- The channel has left the resync queue, the walks and the assembly. -/
def withdrawn (c : ChannelNo) (s : State) : State :=
  abandonAssemblyOf c (abandonWalks c (dequeue c s))

/-- Abandoning a channel's assembly writes the assembly, the deferral queue and the pool only. -/
theorem abandonAssemblyOf_outside (c : ChannelNo) (s : State) : abandonAssemblyOf c s = { s with
    assembly := (abandonAssemblyOf c s).assembly, deferral := (abandonAssemblyOf c s).deferral
    freeCount := (abandonAssemblyOf c s).freeCount, aging := (abandonAssemblyOf c s).aging } := by
  unfold abandonAssemblyOf
  split
  · rename_i a ha
    split
    · rw [clearAssembly_eq ha]; rfl
    · rfl
  · rfl

theorem abandonAssemblyOf_none (c : ChannelNo) (s : State) : ∀ a ∈ (abandonAssemblyOf c s).assembly, a.channel ≠ c := by
  unfold abandonAssemblyOf
  split
  · rename_i a ha
    split
    · rw [clearAssembly_eq ha]
      intro b hb
      cases hb
    · rename_i hne
      intro b hb
      rw [ha] at hb
      cases hb
      exact hne
  · rename_i ha
    intro b hb
    rw [ha] at hb
    cases hb

theorem not_mem_dequeue (c : ChannelNo) (s : State) : c ∉ (dequeue c s).resyncQueue := by
  intro h
  exact of_decide_eq_true (List.mem_filter.1 h).2 rfl

theorem withdrawn_chan (c d : ChannelNo) (s : State) : (withdrawn c s).chan d = s.chan d := by
  rw [withdrawn, abandonAssemblyOf_chan, abandonWalks_chan]; rfl

theorem withdrawn_queue (c : ChannelNo) (s : State) : c ∉ (withdrawn c s).resyncQueue := by
  rw [withdrawn, abandonAssemblyOf_outside]
  show c ∉ (abandonWalks c (dequeue c s)).resyncQueue
  rw [abandonWalks_resyncQueue]
  exact not_mem_dequeue c s

theorem withdrawn_walks (c : ChannelNo) (s : State) :
    (∀ r ∈ (withdrawn c s).pendingWalks, r.channel ≠ c) ∧ ∀ w ∈ (withdrawn c s).walk, w.record.channel ≠ c := by
  rw [withdrawn, abandonAssemblyOf_outside]
  exact abandonWalks_none c (dequeue c s)

/-- The replication state settled as the channel moves into OFF. -/
def stopped (c : ChannelNo) (s : State) : State :=
  if (s.chan c).replState = .resyncing then setReplication c .outOfStep (s.chan c).cause (s.chan c).attempts s else s

theorem moveIntoOff_eq (c : ChannelNo) (s : State) : moveIntoOff c s = serve (stopped c (withdrawn c s)) := rfl

/-- What stopping leaves alone: every channel but for the replication state, and the queue. -/
theorem stopped_keeps (c : ChannelNo) (s : State) :
    (∀ d, ((stopped c s).chan d).schedule = (s.chan d).schedule) ∧ (stopped c s).resyncQueue = s.resyncQueue ∧
    (stopped c s).assembly = s.assembly ∧
    ((stopped c s).chan c).settings = (s.chan c).settings ∧
    ((stopped c s).chan c).replState = (if (s.chan c).replState = .resyncing then .outOfStep else (s.chan c).replState) ∧
    ((stopped c s).chan c).cause = (s.chan c).cause ∧ ((stopped c s).chan c).attempts = (s.chan c).attempts ∧
    ((stopped c s).chan c).lastApplied = (s.chan c).lastApplied := by
  unfold stopped
  split
  · refine ⟨fun d => ?_, setReplication_resyncQueue .., setReplication_assembly .., ?_⟩
    · rw [setReplication_chan]
      split
      · rename_i hd
        rw [hd]
      · rfl
    · rw [setReplication_chan, if_pos rfl]
      exact ⟨rfl, rfl, rfl, rfl, rfl⟩
  · exact ⟨fun d => rfl, rfl, rfl, rfl, rfl, rfl, rfl, rfl⟩

theorem stopped_walks (hp : ∀ r ∈ s.pendingWalks, r.channel ≠ c) (hw : ∀ w ∈ s.walk, w.record.channel ≠ c) :
    (∀ r ∈ (stopped c s).pendingWalks, r.channel ≠ c) ∧ ∀ w ∈ (stopped c s).walk, w.record.channel ≠ c := by
  unfold stopped
  split
  · exact setReplication_keeps_none c _ _ _ hp hw
  · exact ⟨hp, hw⟩

/-- A channel moved into OFF is in no queue, assembly or walk, and every schedule stays. -/
theorem moveIntoOff_spec (c : ChannelNo) (s : State) :
    ((moveIntoOff c s).chan c).settings = (s.chan c).settings ∧ c ∉ (moveIntoOff c s).resyncQueue ∧
    (∀ a ∈ (moveIntoOff c s).assembly, a.channel ≠ c) ∧ (∀ r ∈ (moveIntoOff c s).pendingWalks, r.channel ≠ c) ∧
    (∀ w ∈ (moveIntoOff c s).walk, w.record.channel ≠ c) ∧
    ((moveIntoOff c s).chan c).replState = (if (s.chan c).replState = .resyncing then .outOfStep else (s.chan c).replState) ∧
    ((moveIntoOff c s).chan c).cause = (s.chan c).cause ∧ ((moveIntoOff c s).chan c).attempts = (s.chan c).attempts ∧
    ((moveIntoOff c s).chan c).lastApplied = (s.chan c).lastApplied ∧
    ∀ d, ((moveIntoOff c s).chan d).schedule = (s.chan d).schedule := by
  obtain ⟨hsched, hqueue, hasm, hset, hrepl, hcause, hatt, hlast⟩ := stopped_keeps c (withdrawn c s)
  have hout : c ∉ (stopped c (withdrawn c s)).resyncQueue := hqueue ▸ withdrawn_queue c s
  obtain ⟨hwp, hww⟩ := withdrawn_walks c s
  obtain ⟨hsp, hsw⟩ := stopped_walks hwp hww
  obtain ⟨hp, hw⟩ := serve_keeps_none hsp hsw
  rw [moveIntoOff_eq, serve_chan_outside hout, hset, hrepl, hcause, hatt, hlast, withdrawn_chan]
  refine ⟨rfl, fun h => hout (serve_resyncQueue_sub _ h), fun a ha => ?_, hp, hw, rfl, rfl, rfl, rfl, fun d => ?_⟩
  · rcases serve_assembly ha with h | h
    · rw [hasm] at h
      exact abandonAssemblyOf_none c _ a h
    · rintro rfl
      exact hout h
  · rw [serve_chan]
    exact (hsched d).trans (congrArg Channel.schedule (withdrawn_chan c d s))

theorem keepOnly_none (c : ChannelNo) (s : State) :
    keepOnly c (fun _ => false) s =
      let t := freeSlots (s.chan c).schedule.length (rescheduled c [] s)
      if (s.chan c).schedule.any Entry.isReplicated then abandonWalks c t else t := by
  have hnil : ((spans (s.chan c).schedule).filter (fun _ => false)).map Prod.fst = [] := by simp
  have hall : (spans (s.chan c).schedule).filter (fun _ => true) = spans (s.chan c).schedule := List.filter_true _
  have hany : (spans (s.chan c).schedule).any (fun p => p.1.isReplicated) = (s.chan c).schedule.any Entry.isReplicated := by
    rw [← spans_fst (s.chan c).schedule, List.any_map, spans_fst]; rfl
  unfold keepOnly
  simp only [Bool.not_false, hnil, hall, hany, spans_length]
  rw [setSchedule_eq_rescheduled (fun h => by cases h)]

/-- Retiring every entry of a channel frees their slots. -/
theorem keepOnly_all (c : ChannelNo) (s : State) :
    (keepOnly c (fun _ => false) s).freeCount = s.freeCount + (s.chan c).schedule.length ∧
    (keepOnly c (fun _ => false) s).chan c = { s.chan c with schedule := [], pinnedHeld := false } ∧
    ∀ d, d ≠ c → (keepOnly c (fun _ => false) s).chan d = s.chan d := by
  have hchan (d : ChannelNo) : (keepOnly c (fun _ => false) s).chan d = (rescheduled c [] s).chan d := by
    rw [keepOnly_none]
    dsimp only
    rw [chan_ite_abandonWalks, freeSlots_chan]
  refine ⟨?_, ?_, fun d hd => ?_⟩
  · rw [keepOnly_freeCount]
    simp
  · rw [hchan, rescheduled_chan]; rfl
  · rw [hchan, rescheduled, chan_modChan_ne _ hd]

/-- A channel whose rate code has changed: its schedule is empty and the fields counted in frames start again (R47, R56). -/
theorem changeRate_chan (c d : ChannelNo) (s : State) : (changeRate c s).chan d =
    if d = c then { s.chan c with
      schedule := [], pinnedHeld := false, retention := secondsToFrames (s.chan c).settings.rate s.device.retentionS
      frame := if (s.family (s.chan c).settings.rate.family).state = .unset then none else (s.chan c).eventFrame
      tripTimer := 0, recoveryTimer := 0, flapTimer := 0, hbSilence := 0
      decisionFrame := none, rollFrame := none, takeLatency := none, windowRestart := true, lastAgreed := none }
    else s.chan d := by
  obtain ⟨-, hchan, hother⟩ := keepOnly_all c s
  unfold changeRate
  dsimp only
  rw [chan_modChan, hchan]
  split
  · refine congrArg (fun f => ({ s.chan c with
      schedule := [], pinnedHeld := false, retention := secondsToFrames (s.chan c).settings.rate s.device.retentionS
      frame := f
      tripTimer := 0, recoveryTimer := 0, flapTimer := 0, hbSilence := 0
      decisionFrame := none, rollFrame := none, takeLatency := none, windowRestart := true, lastAgreed := none } : Channel)) ?_
    exact if_congr decide_eq_true_iff rfl rfl
  · exact hother d ‹_›

theorem changeRate_freeCount (c : ChannelNo) (s : State) : (changeRate c s).freeCount = s.freeCount + (s.chan c).schedule.length :=
  (keepOnly_all c s).1

theorem configure_newRate {g : Settings} (h : g.rate ≠ (s.chan c).settings.rate) :
    configure c g s = changeMode c (s.chan c).settings.mode (changeRate c (writeSettings c g s)) := by
  unfold configure
  dsimp only
  rw [if_neg h]

theorem moveOutOfOff_eq (c : ChannelNo) (s : State) : moveOutOfOff c s =
    match (s.chan c).replState with
    | .unseeded => enqueue c s
    | .inStep => enqueue c (setReplication c .outOfStep .gap (s.chan c).attempts s)
    | .outOfStep => if (s.chan c).cause = .flush then s else enqueue c s
    | .stale => s
    | .resyncing => s := by
  unfold moveOutOfOff
  cases (s.chan c).replState <;> rfl

/-- Settles O24. -/
theorem configureChannelMoves : Obligations.ConfigureChannelMoves := by
  intro write body c g s hslot hlen hc hg
  have hanswer (h : modeOrRateRefused (heard write.early s) c g = false) :=
    accepted_withChannel (write := write) hslot hlen hc (configureAnswer_accepted (s := heard write.early s) hg h)
  have hchan : (writeSettings c g.clamped.convert (heard write.early s)).chan c = (s.chan c).configured g.clamped.convert :=
    writeSettings_chan c _ _
  have hother {d : ChannelNo} (hd : d ≠ c) : (writeSettings c g.clamped.convert (heard write.early s)).chan d = s.chan d :=
    chan_modChan_ne _ hd _
  refine ⟨fun ho hm hr hmirror => ?_, fun ho hm hr hset => ?_, fun ho hm hr => ?_⟩
  · have hallowed : modeOrRateRefused (heard write.early s) c g = false := by
      rw [Bool.eq_false_iff, Ne, modeOrRateRefused_iff]
      rintro (⟨h, -⟩ | ⟨hp, -, hne⟩ | ⟨hp, -⟩)
      · exact h hr
      · exact hne (hmirror hp)
      · rw [hm] at hp; cases hp
    have hconf : configure c g.clamped.convert (heard write.early s) =
        moveIntoOff c (writeSettings c g.clamped.convert (heard write.early s)) :=
      (configure_sameRate (s := heard write.early s) (g := g.clamped.convert) hr).trans (changeMode_off ho (by rw [hchan]; exact hm))
    obtain ⟨h1, h2, h3, h4, h5, h6, h7, h8, h9, h10⟩ := moveIntoOff_spec c (writeSettings c g.clamped.convert (heard write.early s))
    rw [hchan] at h1 h6 h7 h8 h9
    refine ⟨_, (hanswer hallowed).trans (congrArg _ hconf), h1, h2, h3, h4, h5, h6, h7, h8, h9, fun d => (h10 d).trans ?_⟩
    by_cases hd : d = c
    · rw [hd, hchan]; rfl
    · rw [hother hd]
  · have hallowed : modeOrRateRefused (heard write.early s) c g = false := by
      rw [Bool.eq_false_iff, Ne, modeOrRateRefused_iff]
      rintro (⟨h, -⟩ | ⟨hp, -⟩ | ⟨hp, hu⟩)
      · exact h hr
      · exact absurd (ho.symm.trans hp) (by decide)
      · exact hset hp hu
    have hconf : configure c g.clamped.convert (heard write.early s) =
        moveOutOfOff c (writeSettings c g.clamped.convert (heard write.early s)) :=
      (configure_sameRate (s := heard write.early s) (g := g.clamped.convert) hr).trans (changeMode_on ho (by rw [hchan]; exact hm))
    rw [moveOutOfOff_eq, hchan] at hconf
    have hreply {t : State} (h : configure c g.clamped.convert (heard write.early s) = t) :
        exec (.configureChannel write body) s =
          accepted write (decide (g.clamped ≠ g)) (settingsFields g.clamped.convert) t :=
      (hanswer hallowed).trans (congrArg _ h)
    refine ⟨fun h => hreply (hconf.trans ?_), fun h => hreply (hconf.trans ?_), fun h hcause => hreply (hconf.trans ?_),
      fun h hcause => hreply (hconf.trans ?_), fun h => hreply (hconf.trans ?_)⟩
    · rw [show ((s.chan c).configured g.clamped.convert).replState = .unseeded from h]; rfl
    · rw [show ((s.chan c).configured g.clamped.convert).replState = .inStep from h]; rfl
    · rw [show ((s.chan c).configured g.clamped.convert).replState = .outOfStep from h]
      exact if_pos hcause
    · rw [show ((s.chan c).configured g.clamped.convert).replState = .outOfStep from h]
      exact if_neg hcause
    · rcases h with h | h
      · rw [show ((s.chan c).configured g.clamped.convert).replState = .stale from h]; rfl
      · rw [show ((s.chan c).configured g.clamped.convert).replState = .resyncing from h]; rfl
  · have hallowed : modeOrRateRefused (heard write.early s) c g = false := by
      rw [Bool.eq_false_iff, Ne, modeOrRateRefused_iff]
      rintro (⟨-, h⟩ | ⟨hp, -⟩ | ⟨hp, -⟩)
      · exact h ⟨ho, hm⟩
      · exact absurd (ho.symm.trans hp) (by decide)
      · exact absurd (hm.symm.trans hp) (by decide)
    have hrate := changeRate_chan c c (writeSettings c g.clamped.convert (heard write.early s))
    rw [if_pos rfl, hchan] at hrate
    have hconf : configure c g.clamped.convert (heard write.early s) =
        changeRate c (writeSettings c g.clamped.convert (heard write.early s)) :=
      (configure_newRate (s := heard write.early s) (g := g.clamped.convert) hr).trans
        (changeMode_same (by rw [hrate]; exact ⟨fun _ => ho, fun _ => hm⟩))
    refine ⟨_, (hanswer hallowed).trans (congrArg _ hconf), ?_, hrate.trans ?_, fun d hd => ?_⟩
    · rw [changeRate_freeCount, hchan]; rfl
    · rw [show ∀ fam, (writeSettings c g.clamped.convert (heard write.early s)).family fam = s.family fam from
        fun fam => modChan_family _ c _ fam]
      rfl
    · rw [changeRate_chan, if_neg hd, hother hd]

/-! ### CLEAR CHANNEL (R61, R99, R108, R171) -/

/-- The channel has lost its entries and its place in every queue. -/
def emptied (c : ChannelNo) (s : State) : State :=
  dropRequest c (abandonAssemblyOf c (dequeue c (abandonWalks c (keepOnly c (fun _ => false) s))))

/-- The channel's record is cleared and it has left the attention set. -/
def wiped (c : ChannelNo) (s : State) : State :=
  unattend c (modChan c Channel.cleared (emptied c s))

theorem clearChannel_eq (c : ChannelNo) (s : State) : clearChannel c s =
    if ((wiped c s).chan c).settings.mode = .off then serve (wiped c s) else enqueue c (raise c .replication (wiped c s)) := rfl

theorem emptied_queue (c : ChannelNo) (s : State) : c ∉ (emptied c s).resyncQueue := by
  unfold emptied
  rw [abandonAssemblyOf_outside]
  exact not_mem_dequeue c _

theorem emptied_chan (c d : ChannelNo) (s : State) : (emptied c s).chan d =
    if d = c then { s.chan c with schedule := [], pinnedHeld := false } else s.chan d := by
  obtain ⟨-, hchan, hother⟩ := keepOnly_all c s
  have hkeep : (emptied c s).chan d = (keepOnly c (fun _ => false) s).chan d := by
    show (abandonAssemblyOf c _).chan d = _
    rw [abandonAssemblyOf_chan]
    exact abandonWalks_chan c d _
  rw [hkeep]
  split
  · rename_i hd
    rw [hd, hchan]
  · exact hother d ‹_›

theorem abandonAssemblyOf_freeCount (c : ChannelNo) (s : State) : (abandonAssemblyOf c s).freeCount =
    s.freeCount + ((s.assembly.filter (fun a => decide (a.channel = c))).map (fun a => a.staged.length)).getD 0 := by
  unfold abandonAssemblyOf
  split
  · rename_i a ha
    rw [ha]
    split
    · rename_i hc
      rw [clearAssembly_eq ha]
      simp [freeSlots, Option.filter, hc]
    · rename_i hc
      simp [Option.filter, hc]
  · rename_i ha
    rw [ha]; rfl

/-- The pool takes back what the channel listed and what it had staged. -/
theorem emptied_freeCount (c : ChannelNo) (s : State) : (emptied c s).freeCount = s.freeCount + (s.chan c).schedule.length +
    ((s.assembly.filter (fun a => decide (a.channel = c))).map (fun a => a.staged.length)).getD 0 := by
  obtain ⟨hfree, -⟩ := keepOnly_all c s
  show (abandonAssemblyOf c _).freeCount = _
  rw [abandonAssemblyOf_freeCount]
  show (abandonWalks c _).freeCount + (((abandonWalks c _).assembly.filter _).map _).getD 0 = _
  rw [abandonWalks_freeCount, abandonWalks_assembly, hfree, keepOnly_assembly]

theorem emptied_takeQueue (c : ChannelNo) (s : State) : (emptied c s).takeQueue = withoutRequest c s.takeQueue := by
  have hkeep : (keepOnly c (fun _ => false) s).takeQueue = s.takeQueue := by
    rw [keepOnly_none]
    dsimp only
    split
    · rw [abandonWalks_takeQueue]; rfl
    · rfl
  show withoutRequest c (abandonAssemblyOf c _).takeQueue = _
  rw [abandonAssemblyOf_outside]
  show withoutRequest c (abandonWalks c _).takeQueue = _
  rw [abandonWalks_takeQueue, hkeep]

theorem emptied_walks (c : ChannelNo) (s : State) :
    (∀ r ∈ (emptied c s).pendingWalks, r.channel ≠ c) ∧ ∀ w ∈ (emptied c s).walk, w.record.channel ≠ c := by
  unfold emptied
  rw [abandonAssemblyOf_outside]
  exact abandonWalks_none c _

theorem wiped_chan (c d : ChannelNo) (s : State) : (wiped c s).chan d = if d = c then (s.chan c).cleared else s.chan d := by
  show (modChan c Channel.cleared (emptied c s)).chan d = _
  rw [chan_modChan, emptied_chan, emptied_chan, if_pos rfl]
  split
  · rfl
  · rfl

theorem not_mem_unattend (c : ChannelNo) (s : State) : c ∉ (unattend c s).attention := by
  intro h
  exact of_decide_eq_true (List.mem_filter.1 h).2 rfl

theorem mem_setReplication_attention {st : ReplicationState} {cause : Cause} {n : Nat}
    (h : d ∈ (setReplication c st cause n s).attention) : d = c ∨ d ∈ s.attention := by
  have hraise {b : Bool} {t : State} (h : d ∈ (raiseIf b c .replication t).attention) : d = c ∨ d ∈ t.attention := by
    unfold raiseIf at h
    split at h
    · exact mem_raise_attention.1 h
    · exact .inr h
  rw [setReplication_eq] at h
  dsimp only at h
  split at h
  · rw [abandonWalks_attention] at h
    have hm := hraise h
    exact hm
  · have hm := hraise h
    exact hm

theorem setReplication_attention {st : ReplicationState} {cause : Cause} {n : Nat} (h : d ∈ s.attention) :
    d ∈ (setReplication c st cause n s).attention := by
  have hraise {b : Bool} {t : State} (h : d ∈ t.attention) : d ∈ (raiseIf b c .replication t).attention := by
    unfold raiseIf
    split
    · exact mem_raise_attention.2 (.inr h)
    · exact h
  rw [setReplication_eq]
  dsimp only
  split
  · rw [abandonWalks_attention]
    exact hraise h
  · exact hraise h

/-- Serving adds to the attention set a channel of the queue at most. -/
theorem mem_serve_attention (h : d ∈ (serve s).attention) : d ∈ s.attention ∨ d ∈ s.resyncQueue := by
  rcases serve_cases s with ⟨hs, -⟩ | ⟨e, rest, hq, -, -, hs⟩
  · rw [hs] at h
    exact .inl h
  · rw [hs] at h
    rcases mem_setReplication_attention h with rfl | h
    · exact .inr (hq ▸ List.mem_cons_self)
    · exact .inl h

theorem serve_attention (h : d ∈ s.attention) : d ∈ (serve s).attention := by
  rcases serve_cases s with ⟨hs, -⟩ | ⟨e, rest, -, -, -, hs⟩
  · rwa [hs]
  · rw [hs]
    exact setReplication_attention h

/-- A channel whose REPLICATION flag stands already keeps its flags when it is served. -/
theorem serve_flagged (h : (s.chan d).flags.replication = true) :
    (serve s).chan d = { s.chan d with replState := ((serve s).chan d).replState } := by
  have hraise : (s.chan d).flags.raise .replication = (s.chan d).flags :=
    congrArg (fun b => ({ (s.chan d).flags with replication := b } : ChangeFlags)) h.symm
  rcases serve_cases s with ⟨hs, -⟩ | ⟨e, rest, -, -, -, hs⟩
  · rw [hs]
  · rw [hs, setReplication_chan]
    split
    · rename_i he
      subst he
      refine congrArg (fun fs => ({ s.chan d with replState := .resyncing, flags := fs } : Channel)) ?_
      split
      · exact hraise
      · rfl
    · rfl

theorem enqueue_flagged (e : ChannelNo) (h : (s.chan d).flags.replication = true) :
    (enqueue e s).chan d = { s.chan d with replState := ((enqueue e s).chan d).replState } := by
  rw [enqueue_eq]
  exact serve_flagged (s := { s with resyncQueue := if e ∈ s.resyncQueue then s.resyncQueue else s.resyncQueue ++ [e] }) h

theorem enqueue_attention (e : ChannelNo) (h : d ∈ s.attention) : d ∈ (enqueue e s).attention := by
  rw [enqueue_eq]
  exact serve_attention (s := { s with resyncQueue := if e ∈ s.resyncQueue then s.resyncQueue else s.resyncQueue ++ [e] }) h

/-- An UNSEEDED channel out of the queue that joins it waits there, or is asked for at once (R87, R88). -/
theorem enqueue_joins (h : c ∉ s.resyncQueue) (hu : (s.chan c).replState = .unseeded) :
    (((enqueue c s).chan c).replState = .unseeded ∧ c ∈ (enqueue c s).resyncQueue) ∨
    (((enqueue c s).chan c).replState = .resyncing ∧
      ∃ a, (enqueue c s).assembly = some a ∧ a.channel = c ∧ a.phase = .awaitingOpen) := by
  rw [enqueue_eq, if_neg h]
  rcases serve_cases { s with resyncQueue := s.resyncQueue ++ [c] } with ⟨hs, -⟩ | ⟨e, rest, hq, -, -, hs⟩
  · rw [hs]
    exact .inl ⟨hu, List.mem_append_right _ List.mem_cons_self⟩
  · rw [hs, setReplication_resyncQueue, setReplication_assembly, setReplication_chan]
    by_cases he : c = e
    · subst he
      rw [if_pos rfl]
      exact .inr ⟨rfl, _, rfl, rfl, rfl⟩
    · rw [if_neg he]
      have hmem : c ∈ e :: rest := hq ▸ List.mem_append_right _ List.mem_cons_self
      exact .inl ⟨hu, (List.mem_cons.1 hmem).resolve_left he⟩

theorem clearAnswer_refused (h : (s.chan c).changeover ≠ .mirror) : clearAnswer c s = refuse .state s := if_pos h

theorem clearAnswer_clears (h : (s.chan c).changeover = .mirror) :
    clearAnswer c s = accept [.u16 (s.chan c).schedule.length] (clearChannel c s) := if_neg (not_not.2 h)

/-- The state before a cleared channel's place in the queue is settled. -/
def toServe (c : ChannelNo) (s : State) : State :=
  if ((wiped c s).chan c).settings.mode = .off then wiped c s
  else { raise c .replication (wiped c s) with resyncQueue := (wiped c s).resyncQueue ++ [c] }

theorem clearChannel_serves (c : ChannelNo) (s : State) : clearChannel c s = serve (toServe c s) := by
  rw [clearChannel_eq, toServe]
  split
  · rfl
  · rw [enqueue_eq]
    exact congrArg (fun q => serve { raise c .replication (wiped c s) with resyncQueue := q }) (if_neg (emptied_queue c s))

/-- Wiping writes the channel's record and the attention set only. -/
theorem wiped_outside (c : ChannelNo) (s : State) : wiped c s = { emptied c s with
    channels := (wiped c s).channels, attention := (wiped c s).attention } := by
  unfold wiped
  generalize emptied c s = e
  rfl

theorem wiped_queue (c : ChannelNo) (s : State) : c ∉ (wiped c s).resyncQueue := by
  rw [wiped_outside]
  exact emptied_queue c s

theorem wiped_assembly (c : ChannelNo) (s : State) : ∀ a ∈ (wiped c s).assembly, a.channel ≠ c := by
  rw [wiped_outside]
  exact abandonAssemblyOf_none c _

theorem raise_outside (c : ChannelNo) (f : ChangeFlag) (s : State) :
    raise c f s = { s with channels := (raise c f s).channels, attention := (raise c f s).attention } := rfl

theorem toServe_outside (c : ChannelNo) (s : State) : toServe c s = { emptied c s with
    channels := (toServe c s).channels, attention := (toServe c s).attention, resyncQueue := (toServe c s).resyncQueue } := by
  unfold toServe
  split
  · exact wiped_outside c s
  · rw [raise_outside, wiped_outside]

theorem toServe_chan {d : ChannelNo} (hd : d ≠ c) (s : State) : (toServe c s).chan d = s.chan d := by
  unfold toServe
  split
  · rw [wiped_chan, if_neg hd]
  · refine Eq.trans (b := (raise c .replication (wiped c s)).chan d) rfl ?_
    rw [raise_chan_ne hd, wiped_chan, if_neg hd]

/-- Settles O26. -/
theorem clearChannelClears : Obligations.ClearChannelClears := by
  intro write body c s hslot hlen hc
  refine ⟨fun h => refused_channelCommand hslot hlen hc (clearAnswer_refused h), fun h => ⟨clearChannel c (heard write.early s),
    accepted_channelCommand hslot hlen hc (clearAnswer_clears (s := heard write.early s) h), rfl, ?_⟩⟩
  have hwalks : (∀ r ∈ (toServe c (heard write.early s)).pendingWalks, r.channel ≠ c) ∧
      ∀ w ∈ (toServe c (heard write.early s)).walk, w.record.channel ≠ c := by
    rw [toServe_outside]
    exact emptied_walks c _
  obtain ⟨hp, hw⟩ := serve_keeps_none hwalks.1 hwalks.2
  have htakes : (toServe c (heard write.early s)).takeQueue = withoutRequest c s.takeQueue := by
    rw [toServe_outside]
    exact emptied_takeQueue c _
  have hmode : ((wiped c (heard write.early s)).chan c).settings.mode = (s.chan c).settings.mode := by
    rw [wiped_chan, if_pos rfl]; rfl
  have hqueue := wiped_queue c (heard write.early s)
  rw [clearChannel_serves]
  refine ⟨?_, fun r hr => ?_, fun r hr hne => ?_, hp, hw, fun d hd => ?_, fun hoff => ?_, fun hon => ?_⟩
  · rw [serve_freeCount, toServe_outside]
    exact emptied_freeCount c _
  · rw [serve_takeQueue, htakes] at hr
    exact of_decide_eq_true (List.mem_filter.1 hr).2
  · rw [serve_takeQueue, htakes]
    exact List.mem_filter.2 ⟨hr, decide_eq_true hne⟩
  · rw [serve_chan, toServe_chan hd]
    exact ⟨rfl, rfl⟩
  · have hserve : toServe c (heard write.early s) = wiped c (heard write.early s) := if_pos (hmode.trans hoff)
    rw [hserve]
    refine ⟨(serve_chan_outside hqueue).trans (by rw [wiped_chan, if_pos rfl]; rfl), fun hm => hqueue (serve_resyncQueue_sub _ hm),
      fun hm => (mem_serve_attention hm).elim (not_mem_unattend c _) hqueue, fun a ha => ?_⟩
    rcases serve_assembly ha with h | h
    · exact wiped_assembly c _ a h
    · rintro rfl
      exact hqueue h
  · have hserve : serve (toServe c (heard write.early s)) = enqueue c (raise c .replication (wiped c (heard write.early s))) := by
      rw [← clearChannel_serves, clearChannel_eq, if_neg (hmode ▸ hon)]
    have hchan : (raise c .replication (wiped c (heard write.early s))).chan c =
        { (s.chan c).cleared with flags := { ChangeFlags.clear with replication := true } } := by
      rw [raise_chan_self, wiped_chan, if_pos rfl]; rfl
    rw [hserve]
    refine ⟨?_, ?_, enqueue_joins hqueue (by rw [hchan]; rfl)⟩
    · refine (enqueue_flagged c ?_).trans ?_
      · rw [hchan]
      · generalize ((enqueue c (raise c .replication (wiped c (heard write.early s)))).chan c).replState = st
        rw [hchan]
    · exact enqueue_attention c (mem_raise_attention.2 (.inl rfl))

end ChannelCommands

end Sys2Proof.Machine

/-! # Takeovers and directives (Chapters 8 and 9) -/

namespace Sys2Proof.Machine

section Takeovers

open Says

variable {c d : ChannelNo} {s t u v y : State} {write : Write} {body : List Byte} {es : List Entry} {e : Entry} {k : EntryKey}

/-! ### Statuses of entries (R30) -/

theorem marked_eq (k : EntryKey) (st : EntryStatus) (es : List Entry) :
    marked k st es = mapEntry k (fun a => { a with status := st }) es := rfl

theorem anyAmendment_marked (k : EntryKey) (st : EntryStatus) (es : List Entry) : anyAmendment (marked k st es) = anyAmendment es := by
  unfold anyAmendment marked
  rw [List.any_map]
  refine congrArg (List.any es) (funext fun a => ?_)
  dsimp only [Function.comp_apply]
  split <;> rfl

theorem marked_keys (k : EntryKey) (st : EntryStatus) (es : List Entry) : (marked k st es).map Entry.key = es.map Entry.key :=
  map_map_eq_map (fun a => by split <;> rfl)

/-- Where PINNED_HELD says whether an entry carries an amendment, a status is set without a report. -/
theorem setStatus_eq (h : (s.chan c).pinnedHeld = anyAmendment (s.chan c).schedule) (k : EntryKey) (st : EntryStatus) :
    setStatus c k st s = rescheduled c (marked k st (s.chan c).schedule) s :=
  setSchedule_eq_rescheduled (fun ha => h.trans ((anyAmendment_marked k st _).symm.trans ha))

theorem held_of_law (h : ChannelLaw (s.chan c)) : (s.chan c).pinnedHeld = anyAmendment (s.chan c).schedule := h.2.2.2.2.2.1

theorem keys_of_law (h : ChannelLaw (s.chan c)) : ((s.chan c).schedule.map Entry.key).Nodup := (scheduleLaw_of h).2.1

/-- The channel names each entry once, and PINNED_HELD says whether one carries an amendment. -/
def Channel.Tidy (ch : Channel) : Prop :=
  ch.pinnedHeld = anyAmendment ch.schedule ∧ (ch.schedule.map Entry.key).Nodup

theorem tidy_of_law (h : ChannelLaw (s.chan c)) : (s.chan c).Tidy := ⟨held_of_law h, keys_of_law h⟩

theorem hasStatus_of_mem (hn : ((s.chan c).schedule.map Entry.key).Nodup) (h : e ∈ (s.chan c).schedule) (st : EntryStatus) :
    hasStatus s c e.key st = decide (e.status = st) := by
  rw [hasStatus, lookupEntry_of_mem hn h]

/-! ### The directive computed for a frame (R142, R143) -/

theorem qualifying_none {x : Nat} (h : ∀ e n, entryAt x (s.chan c).schedule = some (e, n) → e.status ≠ .planned) :
    qualifying s c x = none := by
  unfold qualifying
  cases hat : entryAt x (s.chan c).schedule with
  | none => rfl
  | some p => simp [Option.filter, h p.1 p.2 hat]

theorem qualifying_some {x n : Nat} (h : entryAt x (s.chan c).schedule = some (e, n)) (hp : e.status = .planned) :
    qualifying s c x = some (e, n) := by
  rw [qualifying, h]
  simp [Option.filter, hp]

theorem mem_of_entryAt {x n : Nat} (h : entryAt x es = some (e, n)) : e ∈ es :=
  mem_of_mem_spans (p := (e, n)) (List.mem_of_find?_eq_some h)

/-- The directive that plays an entry at a frame. -/
def playing (e : Entry) (n x : Nat) : Computed :=
  match e.body.content with
  | .media reference som => { entry := some e.key, body := .roll reference (som + (x - e.body.start)) (n - x) (secondariesFor e n x) }
  | .live source => { entry := some e.key, body := .live source (n - x) (secondariesFor e n x) }

/-- The entry is MEDIA and too little of its span is left at a frame. -/
def tooShort (minJoin : Nat) (e : Entry) (n x : Nat) : Prop :=
  (∃ reference som, e.body.content = .media reference som) ∧ n - x < minJoin

theorem computeDirective_none {x : Nat} (h : qualifying s c x = none) : computeDirective s c x = standbyDirective := by
  rw [computeDirective, h]; rfl

theorem computeDirective_short {x n : Nat} (h : qualifying s c x = some (e, n)) (hs : tooShort (s.chan c).inEffect.minJoin e n x) :
    computeDirective s c x = standbyDirective := by
  obtain ⟨⟨reference, som, hm⟩, hlt⟩ := hs
  rw [computeDirective, h]
  dsimp only
  rw [hm]
  exact if_pos hlt

theorem computeDirective_plays {x n : Nat} (h : qualifying s c x = some (e, n)) (hs : ¬tooShort (s.chan c).inEffect.minJoin e n x) :
    computeDirective s c x = playing e n x := by
  rw [computeDirective, h, playing]
  dsimp only
  cases hb : e.body.content with
  | media reference som => exact if_neg (fun hlt => hs ⟨⟨reference, som, hb⟩, hlt⟩)
  | live source => rfl

theorem skipShort_none {x : Nat} (h : qualifying s c x = none) : skipShort c x s = s := by
  rw [skipShort, h]

theorem skipShort_plays {x n : Nat} (h : qualifying s c x = some (e, n)) (hs : ¬tooShort (s.chan c).inEffect.minJoin e n x) :
    skipShort c x s = s := by
  rw [skipShort, h]
  dsimp only
  cases hb : e.body.content with
  | media reference som => exact if_neg (fun hlt => hs ⟨⟨reference, som, hb⟩, hlt⟩)
  | live source => rfl

theorem skipShort_short {x n : Nat} (h : qualifying s c x = some (e, n)) (hs : tooShort (s.chan c).inEffect.minJoin e n x) :
    skipShort c x s = skipEntry c e.key s := by
  obtain ⟨⟨reference, som, hm⟩, hlt⟩ := hs
  rw [skipShort, h]
  dsimp only
  rw [hm]
  exact if_pos hlt

theorem skipEntry_planned (hh : (s.chan c).pinnedHeld = anyAmendment (s.chan c).schedule) (hn : ((s.chan c).schedule.map Entry.key).Nodup)
    (he : e ∈ (s.chan c).schedule) (hp : e.status = .planned) :
    skipEntry c e.key s = rescheduled c (marked e.key .passed (s.chan c).schedule) s := by
  rw [skipEntry, hasStatus_of_mem hn he, if_pos (decide_eq_true hp), setStatus_eq hh]

theorem cueEntry_planned (hh : (s.chan c).pinnedHeld = anyAmendment (s.chan c).schedule) (hn : ((s.chan c).schedule.map Entry.key).Nodup)
    (he : e ∈ (s.chan c).schedule) (hp : e.status = .planned) (hheld : (s.chan c).changeover.held = true) :
    cueEntry c e.key s = rescheduled c (marked e.key .cued (s.chan c).schedule) s := by
  rw [cueEntry, hasStatus_of_mem hn he, hheld, if_pos (by simp [hp]), setStatus_eq hh]

/-! ### Sending directives (R164, R165) -/

theorem sendDirective_eq (c : ChannelNo) (x : Option Nat) (b : DirectiveBody) (s : State) : sendDirective c x b s =
    { modChan c (fun ch => { ch with lastTag := (ch.lastTag + 1) % 256 }) s with
      cueOut := s.cueOut ++ [{ channel := c, tag := ((s.chan c).lastTag + 1) % 256, rate := (s.chan c).settings.rate, frame := x, body := b }] } := by
  have htag : modChan c (fun ch => { ch with lastTag := s.nextDirectiveTag c }) s =
      modChan c (fun ch => { ch with lastTag := (ch.lastTag + 1) % 256 }) s := modChan_congr rfl
  rw [sendDirective, htag]; rfl

/-- A channel whose next directive goes out into the current place. -/
def Channel.sendsCurrent (p : Option Place) (ch : Channel) : Channel :=
  { ch with current := p, currentTag := (ch.lastTag + 1) % 256, lastTag := (ch.lastTag + 1) % 256 }

/-- A channel whose next directive goes out into the next place. -/
def Channel.sendsNext (p : Option Place) (ch : Channel) : Channel :=
  { ch with next := p, nextTag := (ch.lastTag + 1) % 256, lastTag := (ch.lastTag + 1) % 256 }

/-- The state once a directive to start at a frame has gone out into the current place. -/
def currentSent (c : ChannelNo) (x : Nat) (d : Computed) (s : State) : State :=
  { modChan c (Channel.sendsCurrent (placeFor d x)) s with
    cueOut := s.cueOut ++ [{ channel := c, tag := ((s.chan c).lastTag + 1) % 256, rate := (s.chan c).settings.rate, frame := some x, body := d.body }] }

theorem sendCurrent_eq (c : ChannelNo) (x : Nat) (d : Computed) (s : State) : sendCurrent c x d s = cueFor c d (currentSent c x d s) := by
  refine congrArg (cueFor c d) ?_
  rw [sendDirective_eq, modChan_modChan, chan_modChan_self]
  exact congrArg (fun z : State => ({ z with cueOut := _ } : State)) (modChan_congr rfl)

/-- The state once a directive to start at a frame has gone out into the next place. -/
def nextSent (c : ChannelNo) (x : Nat) (d : Computed) (s : State) : State :=
  { modChan c (Channel.sendsNext (placeFor d x)) s with
    cueOut := s.cueOut ++ [{ channel := c, tag := ((s.chan c).lastTag + 1) % 256, rate := (s.chan c).settings.rate, frame := some x, body := d.body }] }

theorem sendNext_eq (c : ChannelNo) (x : Nat) (d : Computed) (s : State) : sendNext c x d s = cueFor c d (nextSent c x d s) := by
  refine congrArg (cueFor c d) ?_
  rw [sendDirective_eq, modChan_modChan, chan_modChan_self]
  exact congrArg (fun z : State => ({ z with cueOut := _ } : State)) (modChan_congr rfl)

/-! ### The secondaries of a directive (R143) -/

theorem secondariesFor_within (e : Entry) (n x : Nat) (h : ∀ q ∈ e.body.secondaries, e.body.start + q.offset ≤ n) :
    secondariesFor e n x =
      (e.body.secondaries.filter (fun q => decide (x < min (e.body.start + q.offset + q.duration) n))).map (fun q =>
        { offset := e.body.start + q.offset - x, key := q.key
          duration := min (e.body.start + q.offset + q.duration) n - max (e.body.start + q.offset) x }) := by
  unfold secondariesFor
  rw [← List.filterMap_eq_map, List.filterMap_filter]
  refine List.filterMap_congr (fun q hq => ?_)
  have hmin : e.body.start + q.offset ≤ min (e.body.start + q.offset + q.duration) n := le_min (Nat.le_add_right _ _) (h q hq)
  by_cases hx : min (e.body.start + q.offset + q.duration) n ≤ x
  · rw [if_pos hx]
    exact (if_neg (fun h' => (of_decide_eq_true h').not_ge hx)).symm
  · have hmax : max (e.body.start + q.offset) x ≤ min (e.body.start + q.offset + q.duration) n := max_le hmin (Nat.le_of_not_le hx)
    rw [if_neg hx, if_pos hmax]
    exact (if_pos (decide_eq_true (Nat.lt_of_not_le hx))).symm

/-! ### Entering PREPARING (R141, R142, R144) -/

/-- A channel that has entered PREPARING to join at a frame, before its directive goes out. -/
def Channel.preparing (r : Nat) (doubt : Bool) (joined : Option EntryKey) (es : List Entry) (ch : Channel) : Channel :=
  { ch with
    changeover := .preparing, decisionFrame := ch.frame, rollFrame := some r, cueRetryUsed := false, routerRetryUsed := false
    outputLost := false, barrier := none, current := none, next := none, joined := joined, doubt := doubt, schedule := es
    flags := { ch.flags with changeover := true } }

/-- From state `s` the channel has entered PREPARING in state `y`, and no directive has gone out yet. -/
def Prepares (c : ChannelNo) (r : Nat) (doubt : Bool) (joined : Option EntryKey) (es : List Entry) (s y : State) : Prop :=
  y.chan c = (s.chan c).preparing r doubt joined es ∧ y.cueOut = s.cueOut ∧ c ∈ y.attention ∧ (∀ d, d ≠ c → y.chan d = s.chan d) ∧
  y.takeQueue = s.takeQueue ∧ y.replicationOut = s.replicationOut

theorem setChangeover_outside (c : ChannelNo) (st : Changeover) (s : State) : setChangeover c st s = { s with
    channels := (setChangeover c st s).channels, attention := (setChangeover c st s).attention
    pendingWalks := (setChangeover c st s).pendingWalks, walk := (setChangeover c st s).walk } := by
  unfold setChangeover
  dsimp only
  split
  · rw [abandonWalks_eq, raiseIf_outside]; rfl
  · rw [raiseIf_outside]; rfl

theorem setChangeover_chans (c d : ChannelNo) (st : Changeover) (s : State) :
    (setChangeover c st s).chan d = (raiseIf (decide ((s.chan c).changeover ≠ st)) c .changeover
      (modChan c (fun ch => { ch with changeover := st }) s)).chan d := by
  unfold setChangeover
  dsimp only
  rw [chan_ite_abandonWalks]

theorem setChangeover_self (c : ChannelNo) (st : Changeover) (s : State) : (setChangeover c st s).chan c =
    { s.chan c with
      changeover := st, flags := if (s.chan c).changeover ≠ st then (s.chan c).flags.raise .changeover else (s.chan c).flags } := by
  rw [setChangeover_chans, raiseIf_chan, if_pos rfl, chan_modChan_self]
  by_cases h : (s.chan c).changeover = st
  · simp [h]
  · simp [h]

theorem setChangeover_ne {st : Changeover} (h : d ≠ c) (s : State) : (setChangeover c st s).chan d = s.chan d := by
  rw [setChangeover_chans, raiseIf_chan, if_neg h, chan_modChan_ne _ h]

theorem setChangeover_attention {st : Changeover} (h : (s.chan c).changeover ≠ st) : c ∈ (setChangeover c st s).attention := by
  unfold setChangeover
  dsimp only
  rw [decide_eq_true h]
  split
  · rw [abandonWalks_attention]
    exact mem_raise_attention.2 (.inl rfl)
  · exact mem_raise_attention.2 (.inl rfl)

theorem prepares_begin (h : (s.chan c).changeover ≠ .preparing) (r : Nat) :
    Prepares c r (doubtAtDecision (s.chan c)) none (s.chan c).schedule s (beginTakeover c r (setChangeover c .preparing s)) := by
  have hchan : (setChangeover c .preparing s).chan c =
      { s.chan c with changeover := .preparing, flags := { (s.chan c).flags with changeover := true } } := by
    rw [setChangeover_self, if_pos h]; rfl
  have hout : beginTakeover c r (setChangeover c .preparing s) = { s with
      channels := (beginTakeover c r (setChangeover c .preparing s)).channels
      attention := (setChangeover c .preparing s).attention
      pendingWalks := (setChangeover c .preparing s).pendingWalks, walk := (setChangeover c .preparing s).walk } := by
    rw [beginTakeover, modChan_outside, setChangeover_outside]
  refine ⟨?_, by rw [hout], ?_, fun d hd => ?_, by rw [hout], by rw [hout]⟩
  · rw [beginTakeover, chan_modChan_self, hchan]; rfl
  · exact setChangeover_attention h
  · rw [beginTakeover, chan_modChan_ne _ hd, setChangeover_ne hd]

theorem prepares_modChan {r : Nat} {b : Bool} {j j' : Option EntryKey} {es es' : List Entry} {f : Channel → Channel}
    (h : Prepares c r b j es s y) (hf : f ((s.chan c).preparing r b j es) = (s.chan c).preparing r b j' es') :
    Prepares c r b j' es' s (modChan c f y) := by
  obtain ⟨hchan, hcue, hatt, hother, htake, hrepl⟩ := h
  refine ⟨?_, hcue, hatt, fun d hd => ?_, htake, hrepl⟩
  · rw [chan_modChan_self, hchan, hf]
  · rw [chan_modChan_ne _ hd, hother d hd]

theorem prepares_joined {r : Nat} {b : Bool} {j : Option EntryKey} {es : List Entry} (j' : Option EntryKey)
    (h : Prepares c r b j es s y) : Prepares c r b j' es s (modChan c (fun ch => { ch with joined := j' }) y) :=
  prepares_modChan h rfl

theorem prepares_rescheduled {r : Nat} {b : Bool} {j : Option EntryKey} {es es' : List Entry} (h : Prepares c r b j es s y)
    (hheld : (s.chan c).pinnedHeld = anyAmendment es') : Prepares c r b j es' s (rescheduled c es' y) :=
  prepares_modChan h (by unfold Channel.preparing; rw [← hheld])

theorem takeoverBegun_rescheduled {r : Nat} {b : Bool} {dir : DirectiveBody} {p : Place} {es es' : List Entry}
    (h : takeoverBegun c r b dir p es s y) (hheld : (s.chan c).pinnedHeld = anyAmendment es') :
    takeoverBegun c r b dir p es' s (rescheduled c es' y) := by
  obtain ⟨hchan, hcue, hatt, hother, htake, hrepl⟩ := h
  refine ⟨?_, hcue, hatt, fun d hd => ?_, htake, hrepl⟩
  · rw [rescheduled_chan, hchan, ← hheld]
  · rw [rescheduled, chan_modChan_ne _ hd, hother d hd]

theorem prepares_sends {r : Nat} {b : Bool} {dir : Computed} {p : Place} {es : List Entry}
    (h : Prepares c r b p.entry es s y) (hp : placeFor dir r = some p) : takeoverBegun c r b dir.body p es s (currentSent c r dir y) := by
  obtain ⟨hchan, hcue, hatt, hother, htake, hrepl⟩ := h
  refine ⟨?_, ?_, hatt, fun d hd => ?_, htake, hrepl⟩
  · show (modChan c (Channel.sendsCurrent (placeFor dir r)) y).chan c = _
    rw [chan_modChan_self, hchan, hp]; rfl
  · show y.cueOut ++ _ = _
    rw [hchan, hcue]; rfl
  · show (modChan c (Channel.sendsCurrent (placeFor dir r)) y).chan d = _
    rw [chan_modChan_ne _ hd, hother d hd]

theorem takeoverBegun_settle {r : Nat} {b : Bool} {dir : DirectiveBody} {p : Place} {es : List Entry}
    (h : takeoverBegun c r b dir p es s y) : takeoverBegun c r b dir p es s (settleFrameNow c y) := by
  unfold settleFrameNow
  split
  · exact h
  · exact h

theorem doubtAtDecision_iff (ch : Channel) : doubtAtDecision ch = true ↔
    ch.replState ≠ .inStep ∧ (ch.inEffect.doubt = .standby ∨ ((ch.replState = .unseeded ∨ ch.replState = .stale) ∧ ch.schedule = [])) := by
  simp [doubtAtDecision, List.isEmpty_iff]

/-- A STANDBY goes out into the current place. -/
theorem sendCurrent_standby (c : ChannelNo) (r : Nat) (s : State) : sendCurrent c r standbyDirective s = currentSent c r standbyDirective s :=
  sendCurrent_eq c r standbyDirective s

theorem placeFor_standby (r : Nat) : placeFor standbyDirective r = some (placed .standby none r none) := rfl

section Enter

variable {r : Nat} (hl : (s.chan c).Tidy) (hne : (s.chan c).changeover ≠ .preparing)

include hne

theorem sendJoining_doubt (hd : doubtAtDecision (s.chan c) = true) :
    takeoverBegun c r true .standby (placed .standby none r none) (s.chan c).schedule s
      (sendJoining c r (beginTakeover c r (setChangeover c .preparing s))) := by
  have hprep := prepares_begin hne r
  have hdoubt := congrArg Channel.doubt hprep.1
  rw [sendJoining, hdoubt, show ((s.chan c).preparing r (doubtAtDecision (s.chan c)) none (s.chan c).schedule).doubt = true from hd,
    if_pos rfl, sendCurrent_standby]
  rw [hd] at hprep
  exact prepares_sends hprep (placeFor_standby r)

theorem prepares_sure (hd : doubtAtDecision (s.chan c) = false) :
    Prepares c r false none (s.chan c).schedule s (beginTakeover c r (setChangeover c .preparing s)) := by
  rw [← hd]
  exact prepares_begin hne r

end Enter

theorem sendJoining_sure {r : Nat} (h : Prepares c r false none (s.chan c).schedule s y) :
    sendJoining c r y = sendCurrent c r (computeDirective y c r)
      (modChan c (fun ch => { ch with joined := (computeDirective y c r).entry }) (skipShort c r y)) := by
  have hdoubt : (y.chan c).doubt = false := congrArg Channel.doubt h.1
  unfold sendJoining
  rw [hdoubt]; rfl

/-- Nothing qualifies to roll: a STANDBY goes out. -/
theorem joins_standby {r : Nat} (h : Prepares c r false none (s.chan c).schedule s y) (hq : qualifying y c r = none) :
    takeoverBegun c r false .standby (placed .standby none r none) (s.chan c).schedule s (sendJoining c r y) := by
  rw [sendJoining_sure h, computeDirective_none hq, skipShort_none hq, sendCurrent_standby]
  exact prepares_sends (prepares_joined none h) (placeFor_standby r)

/-- The kind of the place of a directive that plays an entry. -/
def Entry.placeKind (e : Entry) : PlaceKind :=
  match e.body.content with
  | .media _ _ => .roll
  | .live _ => .live

theorem playing_entry (e : Entry) (n x : Nat) : (playing e n x).entry = some e.key := by
  unfold playing
  split <;> rfl

theorem placeFor_playing {n x : Nat} (h : x ≤ n) (e : Entry) :
    placeFor (playing e n x) x = some (placed e.placeKind (some e.key) x (some n)) := by
  have hend : x + (n - x) = n := Nat.add_sub_cancel' h
  unfold playing Entry.placeKind
  cases e.body.content with
  | media reference som => simp only [placeFor, hend]; rfl
  | live source => simp only [placeFor, hend]; rfl

theorem cueFor_some {dir : Computed} (h : dir.entry = some k) (s : State) : cueFor c dir s = cueEntry c k s := by
  rw [cueFor, h]

theorem lt_of_entryAt {x n : Nat} (h : entryAt x es = some (e, n)) : e.body.start ≤ x ∧ x < n := by
  have := List.find?_some h
  simpa using this

section Qualifies

variable {r n : Nat} (hl : (s.chan c).Tidy) (h : Prepares c r false none (s.chan c).schedule s y)
  (hat : entryAt r (s.chan c).schedule = some (e, n)) (hp : e.status = .planned)

include hl h hat hp

theorem qualifying_prepared : qualifying y c r = some (e, n) ∧ (y.chan c).pinnedHeld = anyAmendment (y.chan c).schedule ∧
    ((y.chan c).schedule.map Entry.key).Nodup ∧ e ∈ (y.chan c).schedule ∧ (y.chan c).schedule = (s.chan c).schedule ∧
    (y.chan c).inEffect = (s.chan c).inEffect ∧ (y.chan c).changeover = .preparing := by
  obtain ⟨hchan, -⟩ := h
  have hsched : (y.chan c).schedule = (s.chan c).schedule := by rw [hchan]; rfl
  refine ⟨qualifying_some (by rw [hsched]; exact hat) hp, ?_, ?_, ?_, hsched, by rw [hchan]; rfl, by rw [hchan]; rfl⟩
  · rw [hsched]
    exact Eq.trans (by rw [hchan]; rfl) (hl.1)
  · rw [hsched]
    exact hl.2
  · rw [hsched]
    exact mem_of_entryAt hat

/-- The qualifying entry is too short to join: it is skipped and a STANDBY goes out. -/
theorem joins_short (hs : tooShort (s.chan c).inEffect.minJoin e n r) :
    takeoverBegun c r false .standby (placed .standby none r none) (marked e.key .passed (s.chan c).schedule) s (sendJoining c r y) := by
  obtain ⟨hq, hheld, hn, hm, hsched, heff, -⟩ := qualifying_prepared hl h hat hp
  rw [← heff] at hs
  rw [sendJoining_sure h, computeDirective_short hq hs, skipShort_short hq hs, skipEntry_planned hheld hn hm hp, sendCurrent_standby, hsched]
  refine prepares_sends (prepares_joined none (prepares_rescheduled h ?_)) (placeFor_standby r)
  rw [anyAmendment_marked, hl.1]

/-- The qualifying entry joins: it is CUED and its directive goes out. -/
theorem joins_entry (hs : ¬tooShort (s.chan c).inEffect.minJoin e n r) :
    takeoverBegun c r false (playing e n r).body (placed e.placeKind (some e.key) r (some n))
      (marked e.key .cued (s.chan c).schedule) s (sendJoining c r y) := by
  obtain ⟨hq, -, -, -, -, heff, -⟩ := qualifying_prepared hl h hat hp
  rw [← heff] at hs
  have hplace := placeFor_playing (lt_of_entryAt hat).2.le e
  have hsent : takeoverBegun c r false (playing e n r).body (placed e.placeKind (some e.key) r (some n)) (s.chan c).schedule s
      (currentSent c r (playing e n r) (modChan c (fun ch => { ch with joined := some e.key }) y)) :=
    prepares_sends (prepares_joined (some e.key) h) hplace
  rw [sendJoining_sure h, computeDirective_plays hq hs, skipShort_plays hq hs, playing_entry, sendCurrent_eq, cueFor_some (playing_entry e n r)]
  generalize currentSent c r (playing e n r) (modChan c (fun ch => { ch with joined := some e.key }) y) = z at hsent ⊢
  have hchan := hsent.1
  have hsched : (z.chan c).schedule = (s.chan c).schedule := by rw [hchan]
  rw [cueEntry_planned (by rw [hsched, ← hl.1, hchan]) (by rw [hsched]; exact hl.2)
    (by rw [hsched]; exact mem_of_entryAt hat) hp (by rw [hchan]; rfl), hsched]
  exact takeoverBegun_rescheduled hsent (by rw [anyAmendment_marked, hl.1])

end Qualifies

/-- What a takeover that joins by a directive leaves, for each directive there can be. -/
theorem enterPreparing_doubt (hne : (s.chan c).changeover ≠ .preparing) (hd : doubtAtDecision (s.chan c) = true) :
    takeoverBegun c (s.frameNow c + (s.chan c).inEffect.cueLead) true .standby
      (placed .standby none (s.frameNow c + (s.chan c).inEffect.cueLead) none) (s.chan c).schedule s (enterPreparing c s) :=
  takeoverBegun_settle (sendJoining_doubt hne hd)

theorem qualifying_of_chan {r : Nat} {j : Option EntryKey} {b : Bool} (h : Prepares c r b j (s.chan c).schedule s y) :
    qualifying y c = qualifying s c := by
  funext x
  rw [qualifying, qualifying, h.1]; rfl

theorem enterPreparing_standby (hne : (s.chan c).changeover ≠ .preparing) (hd : doubtAtDecision (s.chan c) = false)
    (hq : qualifying s c (s.frameNow c + (s.chan c).inEffect.cueLead) = none) :
    takeoverBegun c (s.frameNow c + (s.chan c).inEffect.cueLead) false .standby
      (placed .standby none (s.frameNow c + (s.chan c).inEffect.cueLead) none) (s.chan c).schedule s (enterPreparing c s) :=
  takeoverBegun_settle (joins_standby (prepares_sure hne hd) (by rw [qualifying_of_chan (prepares_sure hne hd), hq]))

theorem enterPreparing_short {n : Nat} (hl : (s.chan c).Tidy) (hne : (s.chan c).changeover ≠ .preparing)
    (hd : doubtAtDecision (s.chan c) = false)
    (hat : entryAt (s.frameNow c + (s.chan c).inEffect.cueLead) (s.chan c).schedule = some (e, n)) (hp : e.status = .planned)
    (hs : tooShort (s.chan c).inEffect.minJoin e n (s.frameNow c + (s.chan c).inEffect.cueLead)) :
    takeoverBegun c (s.frameNow c + (s.chan c).inEffect.cueLead) false .standby
      (placed .standby none (s.frameNow c + (s.chan c).inEffect.cueLead) none) (marked e.key .passed (s.chan c).schedule) s
      (enterPreparing c s) :=
  takeoverBegun_settle (joins_short hl (prepares_sure hne hd) hat hp hs)

theorem enterPreparing_entry {n : Nat} (hl : (s.chan c).Tidy) (hne : (s.chan c).changeover ≠ .preparing)
    (hd : doubtAtDecision (s.chan c) = false)
    (hat : entryAt (s.frameNow c + (s.chan c).inEffect.cueLead) (s.chan c).schedule = some (e, n)) (hp : e.status = .planned)
    (hs : ¬tooShort (s.chan c).inEffect.minJoin e n (s.frameNow c + (s.chan c).inEffect.cueLead)) :
    takeoverBegun c (s.frameNow c + (s.chan c).inEffect.cueLead) false
      (playing e n (s.frameNow c + (s.chan c).inEffect.cueLead)).body
      (placed e.placeKind (some e.key) (s.frameNow c + (s.chan c).inEffect.cueLead) (some n))
      (marked e.key .cued (s.chan c).schedule) s (enterPreparing c s) :=
  takeoverBegun_settle (joins_entry hl (prepares_sure hne hd) hat hp hs)

/-- However it joins, a takeover of a lawful channel begins. -/
theorem enterPreparing_begun (hl : (s.chan c).Tidy) (hne : (s.chan c).changeover ≠ .preparing) :
    ∃ b dir p es, takeoverBegun c (s.frameNow c + (s.chan c).inEffect.cueLead) b dir p es s (enterPreparing c s) := by
  cases hd : doubtAtDecision (s.chan c) with
  | true => exact ⟨_, _, _, _, enterPreparing_doubt hne hd⟩
  | false =>
    cases hq : qualifying s c (s.frameNow c + (s.chan c).inEffect.cueLead) with
    | none => exact ⟨_, _, _, _, enterPreparing_standby hne hd hq⟩
    | some q =>
      obtain ⟨e, n⟩ := q
      obtain ⟨hat, hp⟩ := Option.filter_eq_some_iff.1 hq
      by_cases hs : tooShort (s.chan c).inEffect.minJoin e n (s.frameNow c + (s.chan c).inEffect.cueLead)
      · exact ⟨_, _, _, _, enterPreparing_short hl hne hd hat (of_decide_eq_true hp) hs⟩
      · exact ⟨_, _, _, _, enterPreparing_entry hl hne hd hat (of_decide_eq_true hp) hs⟩

/-! ### TAKE (R139) -/

/-- The in-point of a ROLL. -/
def inPointFields (dir : DirectiveBody) : List Field :=
  match dir with
  | .roll _ inPoint _ _ => [.u32 inPoint]
  | .live _ _ _ | .standby | .stop => []

/-- The fields that tell the joining directive. -/
def joiningFields (p : Place) (dir : DirectiveBody) : List Field :=
  (match p.entry with
   | some k => [.u8 k.origin.code, .u32 k.id]
   | none => []) ++ inPointFields dir

theorem startedFields_of_begun {r : Nat} {b : Bool} {dir : DirectiveBody} {p : Place} (h : takeoverBegun c r b dir p es s t) :
    startedFields t c = [.u8 6, .frame (s.chan c).frame, .frame (some r), .u8 p.kind.code] ++ joiningFields p dir := by
  obtain ⟨hchan, hcue, -⟩ := h
  have hlast : lastInPoint t = inPointFields dir := by
    rw [lastInPoint, hcue, List.getLast?_concat]
    cases dir <;> rfl
  unfold startedFields joiningFields
  rw [hlast, hchan, List.append_assoc]
  rfl

theorem takeAnswer_starts (hm : (s.chan c).settings.mode = .protectedMode)
    (h : (s.chan c).changeover = .mirror ∨ (s.chan c).changeover = .awaitConfirm ∨ (s.chan c).changeover = .stranded) :
    takeAnswer c s = accept (startedFields (enterPreparing c s) c) (enterPreparing c s) := by
  rw [takeAnswer, if_neg (not_not.2 hm)]
  rcases h with h | h | h <;> rw [h]

/-- Settles O29. -/
theorem takeStartsTakeover : Obligations.TakeStartsTakeover := by
  refine ⟨fun write body c s hinv hslot hlen hc hm hst => ?_, fun e n x h => secondariesFor_within e n x h⟩
  have hl := tidy_of_law (hinv.channels c)
  have hne : (s.chan c).changeover ≠ .preparing := by
    rcases hst with h | h | h <;> rw [h] <;> decide
  have htake {r : Nat} {b : Bool} {dir : DirectiveBody} {p : Place} {es : List Entry}
      (h : takeoverBegun c r b dir p es s (enterPreparing c (heard write.early s))) :
      exec (.take write body) s = accepted write false
        ([.u8 6, .frame (s.chan c).frame, .frame (some r), .u8 p.kind.code] ++ joiningFields p dir) (enterPreparing c (heard write.early s)) :=
    accepted_channelCommand hslot hlen hc ((takeAnswer_starts (s := heard write.early s) hm hst).trans
      (congrArg (fun fs => accept fs _) (startedFields_of_begun h)))
  have hsure (h : ¬((s.chan c).replState ≠ .inStep ∧ ((s.chan c).inEffect.doubt = .standby ∨
      (((s.chan c).replState = .unseeded ∨ (s.chan c).replState = .stale) ∧ (s.chan c).schedule = [])))) :
      doubtAtDecision (s.chan c) = false := Bool.eq_false_iff.2 (fun hd => h ((doubtAtDecision_iff _).1 hd))
  refine ⟨fun hd => ?_, fun hd hq => ?_, fun e n reference som hd hat hp hb hlt => ?_, fun e n reference som hd hat hp hb hle => ?_,
    fun e n source hd hat hp hb => ?_⟩
  · have hbegun := enterPreparing_doubt (s := heard write.early s) hne ((doubtAtDecision_iff _).2 hd)
    exact ⟨_, htake hbegun, hbegun⟩
  · have hbegun := enterPreparing_standby (s := heard write.early s) hne (hsure hd) (qualifying_none hq)
    exact ⟨_, htake hbegun, hbegun⟩
  · have hbegun := enterPreparing_short (s := heard write.early s) hl hne (hsure hd) hat hp ⟨⟨reference, som, hb⟩, hlt⟩
    exact ⟨_, htake hbegun, hbegun⟩
  · have hbegun := enterPreparing_entry (s := heard write.early s) hl hne (hsure hd) hat hp (fun h => h.2.not_ge hle)
    rw [playing, Entry.placeKind, hb] at hbegun
    exact ⟨_, htake hbegun, hbegun⟩
  · have hbegun := enterPreparing_entry (s := heard write.early s) hl hne (hsure hd) hat hp
      (fun h => by obtain ⟨⟨reference, som, hm⟩, -⟩ := h; rw [hb] at hm; cases hm)
    rw [playing, Entry.placeKind, hb] at hbegun
    exact ⟨_, htake hbegun, hbegun⟩

end Takeovers

end Sys2Proof.Machine

/-! # The parts of a frame event at SST, CSV and RRX (Chapters 2, 4 and 7) -/

namespace Sys2Proof.Machine

section FrameParts

open Says

variable {c d : ChannelNo} {s t u v w : State} {es : List Entry} {e : Entry}

/-! ### SST's part (R29, R32) -/

theorem anyAmendment_passOver (f : Nat) (es : List Entry) : anyAmendment (passOver f es) = anyAmendment es := by
  unfold anyAmendment passOver
  rw [List.any_map]
  refine Eq.trans (congrArg (List.any (spans es)) (funext fun p => ?_ : _ = (fun e : Entry => e.amendment.isSome) ∘ Prod.fst)) ?_
  · dsimp only [Function.comp_apply]
    split <;> rfl
  · rw [← List.any_map, spans_fst]

theorem passEntries_eq (h : (s.chan c).pinnedHeld = anyAmendment (s.chan c).schedule) (f : Nat) :
    passEntries c f s = rescheduled c (passOver f (s.chan c).schedule) s :=
  setSchedule_eq_rescheduled (fun ha => h.trans ((anyAmendment_passOver f _).symm.trans ha))

theorem sstFrame_eq {f : Nat} (h : (s.chan c).frame = some f) :
    sstFrame c s = retireEntries c f (if (s.chan c).changeover = .mirror then passEntries c f s else s) := by
  rw [sstFrame, h]

/-- A write that leaves a channel's laws as they stand. -/
theorem law_modChan {f : Channel → Channel} (h : ChannelLaw (s.chan c)) (hf : ChannelLaw (s.chan c) → ChannelLaw (f (s.chan c))) :
    ChannelLaw ((modChan c f s).chan c) := by
  rw [chan_modChan_self]
  exact hf h

/-- Settles O44. -/
theorem entryRetirementAtFrameEvent : Obligations.EntryRetirementAtFrameEvent := by
  intro c f s hinv hdue hframe
  refine congrArg Host.Outcome.next ?_
  rw [takeBlock_due hdue]
  show sstFrame c (modChan c (fun ch => { ch with due := ch.due.erase .sst }) s) = _
  generalize hu : modChan c (fun ch => { ch with due := ch.due.erase .sst }) s = u
  have hchan : u.chan c = { s.chan c with due := (s.chan c).due.erase .sst } := by rw [← hu, chan_modChan_self]
  have haging : u.aging = s.aging := by rw [← hu]; rfl
  have hlaw : ChannelLaw (u.chan c) := by
    rw [hchan]
    exact hinv.channels c
  have hinv' : InvWith 0 u := hu ▸ inv_modChan hinv c _
  rw [sstFrame_eq (f := f) (by rw [hchan]; exact hframe)]
  have hheld := held_of_law hlaw
  have hnow : (if (u.chan c).changeover = .mirror then passEntries c f u else u) =
      rescheduled c (if (s.chan c).changeover = .mirror then passOver f (s.chan c).schedule else (s.chan c).schedule) u := by
    rw [passEntries_eq hheld, hchan]
    dsimp only
    split
    · rfl
    · refine (modChan_same ?_).symm
      rw [hchan] at hheld ⊢
      rw [← hheld]
  have hlaw' : ChannelLaw ((if (u.chan c).changeover = .mirror then passEntries c f u else u).chan c) := by
    split
    · exact (inv_passEntries hinv' c f).channels c
    · exact hlaw
  rw [hnow] at hlaw' ⊢
  have hret : (rescheduled c (if (s.chan c).changeover = .mirror then passOver f (s.chan c).schedule else (s.chan c).schedule) u).retentionOf c =
      if s.aging = .fast then 0 else (s.chan c).retention := by
    rw [State.retentionOf, rescheduled_chan, hchan, ← haging]; rfl
  rw [retireEntries, hret, keepOnly_eq hlaw']
  simp only [rescheduled_schedule, rescheduled_rescheduled, Bool.not_not]
  rfl

/-! ### The fault conditions and the vote (R118, R119) -/

theorem senseCondition_iff (s : State) (f : SenseFunction) (c : ChannelNo) : senseCondition s f c = true ↔
    ∃ l, (s.line l).function = f ∧ (s.line l).mapped = some c ∧ (s.line l).level ≠ (s.line l).expected := by
  simp [senseCondition, List.any_eq_true, allLines, and_assoc]

theorem sourceFaults_hb (s : State) (c : ChannelNo) : sourceFaults s c .hb = true ↔
    (s.chan c).settings.mode ≠ .off ∧ (s.chan c).inEffect.sources.hb = true ∧
      ((s.chan c).listing = .fail ∨ (s.chan c).inEffect.hbLimit ≤ (s.chan c).hbSilence) := by
  simp [sourceFaults, sourceCondition, Sources.enables, and_assoc]

theorem sourceFaults_rf (s : State) (c : ChannelNo) : sourceFaults s c .rf = true ↔
    (s.chan c).settings.mode ≠ .off ∧ (s.chan c).inEffect.sources.rf = true ∧ senseCondition s .returnFeed c = true := by
  simp [sourceFaults, sourceCondition, Sources.enables, and_assoc]

theorem sourceFaults_tl (s : State) (c : ChannelNo) : sourceFaults s c .tl = true ↔
    (s.chan c).settings.mode ≠ .off ∧ (s.chan c).inEffect.sources.tl = true ∧ senseCondition s .tally c = true := by
  simp [sourceFaults, sourceCondition, Sources.enables, and_assoc]

theorem alertCondition_iff (s : State) (c : ChannelNo) : alertCondition s c = true ↔
    sourceFaults s c .hb = true ∨ sourceFaults s c .rf = true ∨ sourceFaults s c .tl = true := by
  simp [alertCondition, allSources]

theorem countP_sources (p : Source → Bool) : allSources.countP p =
    (if p .hb then 1 else 0) + (if p .rf then 1 else 0) + (if p .tl then 1 else 0) := by
  simp only [allSources, List.countP_cons, List.countP_nil]
  omega

theorem vote_met_iff (v : Vote) (n k : Nat) : v.met n k = true ↔
    (v = .any ∧ 1 ≤ k) ∨ (v = .all ∧ 1 ≤ n ∧ k = n) ∨ (v = .two ∧ ((2 ≤ n ∧ 2 ≤ k) ∨ (n = 1 ∧ k = 1))) := by
  cases v <;> simp [Vote.met]

/-- Settles O45. -/
theorem faultConditionsAndVote : Obligations.FaultConditionsAndVote := by
  intro c s
  have hrf := sourceFaults_rf s c
  have htl := sourceFaults_tl s c
  rw [senseCondition_iff] at hrf htl
  refine ⟨sourceFaults_hb s c, hrf, htl, ?_, fun k hk => ?_⟩
  · rw [alertCondition_iff, sourceFaults_hb, hrf, htl]
  · subst hk
    rw [voteMet, countP_sources, countP_sources, vote_met_iff]; rfl

/-! ### Supervision at a frame event (R120 to R123, R127) -/

theorem flapStep_healthy (h : (s.chan c).supervision = .healthy) : flapStep c s = modChan c flapped s := by
  refine modChan_congr ?_
  split
  · rename_i hs
    cases h.symm.trans hs
  · rename_i hs
    cases h.symm.trans hs
  · rfl

theorem flapStep_other (h : (s.chan c).supervision ≠ .healthy) : flapStep c s = s := by
  refine modChan_same ?_
  split
  · rfl
  · rfl
  · contradiction

theorem flapStep_alert (h : (s.chan c).supervision = .alert) : flapStep c s = s :=
  flapStep_other (by rw [h]; decide)

theorem flapStep_tripped (h : (s.chan c).supervision = .tripped) : flapStep c s = s :=
  flapStep_other (by rw [h]; decide)

/-- Two states in which the same sources of a channel fault. -/
def SameFaults (c : ChannelNo) (s t : State) : Prop :=
  (t.chan c).settings = (s.chan c).settings ∧ (t.chan c).inEffect = (s.chan c).inEffect ∧ (t.chan c).listing = (s.chan c).listing ∧
  (t.chan c).hbSilence = (s.chan c).hbSilence ∧ t.lines = s.lines

theorem sourceFaults_same (h : SameFaults c s t) (src : Source) : sourceFaults t c src = sourceFaults s c src := by
  obtain ⟨hset, heff, hlist, hsil, hlines⟩ := h
  have hline (l : LineNo) : t.line l = s.line l := by unfold State.line; rw [hlines]
  unfold sourceFaults sourceCondition senseCondition
  simp only [hset, heff, hlist, hsil, hline]

theorem alertCondition_same (h : SameFaults c s t) : alertCondition t c = alertCondition s c := by
  unfold alertCondition
  rw [show sourceFaults t c = sourceFaults s c from funext (sourceFaults_same h)]

theorem voteMet_same (h : SameFaults c s t) : voteMet t c = voteMet s c := by
  unfold voteMet
  rw [show sourceFaults t c = sourceFaults s c from funext (sourceFaults_same h), h.2.1]

theorem setSupervision_changes {st : Supervision} (h : (s.chan c).supervision ≠ st) :
    setSupervision c st s = raise c .supervision (modChan c (fun ch => { ch with supervision := st }) s) := by
  unfold setSupervision
  rw [decide_eq_true h]; rfl

/-- HEALTHY to ALERT (R120, R121). -/
theorem enterAlert_eq (h : (s.chan c).supervision = .healthy) :
    enterAlert c s = raise c .supervision (modChan c (fun ch => { ch with supervision := .alert, tripTimer := 0 }) s) := by
  unfold enterAlert
  rw [setSupervision_changes (by rw [chan_modChan_self]; simp [h]), modChan_modChan]

theorem enterAlert_chan (h : (s.chan c).supervision = .healthy) : (enterAlert c s).chan c =
    { s.chan c with supervision := .alert, tripTimer := 0, flags := (s.chan c).flags.raise .supervision } := by
  rw [enterAlert_eq h, raise_chan_self, chan_modChan_self]

theorem sameFaults_enterAlert (h : (s.chan c).supervision = .healthy) : SameFaults c s (enterAlert c s) := by
  refine ⟨?_, ?_, ?_, ?_, by rw [enterAlert_eq h]; rfl⟩ <;> rw [enterAlert_chan h]

section Supervise

variable (hsup : (s.chan c).supervision = .healthy)

theorem superviseStep_healthy (h : (s.chan c).supervision = .healthy) (ha : alertCondition s c = false) : superviseStep c s = s := by
  rw [superviseStep, h]
  exact if_neg (by rw [ha]; exact Bool.false_ne_true)

theorem superviseStep_starts (h : (s.chan c).supervision = .healthy) (ha : alertCondition s c = true) :
    superviseStep c s = alertStep c (enterAlert c s) := by
  rw [superviseStep, h]
  exact if_pos ha

theorem superviseStep_alert (h : (s.chan c).supervision = .alert) : superviseStep c s = alertStep c s := by
  rw [superviseStep, h]

theorem superviseStep_tripped (h : (s.chan c).supervision = .tripped) : superviseStep c s = trippedStep c s := by
  rw [superviseStep, h]

theorem alertStep_ends (ha : alertCondition s c = false) :
    alertStep c s = setSupervision c .healthy (modChan c (fun ch => { ch with tripTimer := 0 }) s) := by
  unfold alertStep
  rw [ha]; rfl

theorem alertStep_unvoted (ha : alertCondition s c = true) (hv : voteMet s c = false) :
    alertStep c s = modChan c (fun ch => { ch with tripTimer := 0 }) s := by
  unfold alertStep
  rw [ha, hv]; rfl

theorem alertStep_counts (ha : alertCondition s c = true) (hv : voteMet s c = true)
    (hlt : (s.chan c).tripTimer + 1 < (s.chan c).inEffect.tripDelay) :
    alertStep c s = modChan c (fun ch => { ch with tripTimer := ch.tripTimer + 1 }) s := by
  unfold alertStep
  rw [ha, hv, Bool.not_true, if_neg Bool.false_ne_true, if_pos rfl]
  dsimp only
  rw [chan_modChan_self]
  exact if_neg hlt.not_ge

theorem alertStep_trips (ha : alertCondition s c = true) (hv : voteMet s c = true)
    (hle : (s.chan c).inEffect.tripDelay ≤ (s.chan c).tripTimer + 1) :
    alertStep c s = tripChannel c (modChan c (fun ch => { ch with tripTimer := ch.tripTimer + 1 }) s) := by
  unfold alertStep
  rw [ha, hv, Bool.not_true, if_neg Bool.false_ne_true, if_pos rfl]
  dsimp only
  rw [chan_modChan_self]
  exact if_pos hle

theorem trippedStep_faulty (ha : alertCondition s c = true) : trippedStep c s = modChan c (fun ch => { ch with recoveryTimer := 0 }) s := by
  unfold trippedStep
  rw [ha]; rfl

theorem trippedStep_counts (ha : alertCondition s c = false) (hlt : (s.chan c).recoveryTimer + 1 < (s.chan c).inEffect.recovery) :
    trippedStep c s = modChan c (fun ch => { ch with recoveryTimer := ch.recoveryTimer + 1 }) s := by
  unfold trippedStep
  rw [ha, if_neg Bool.false_ne_true]
  dsimp only
  rw [chan_modChan_self]
  exact if_neg hlt.not_ge

theorem trippedStep_recovers (ha : alertCondition s c = false) (hle : (s.chan c).inEffect.recovery ≤ (s.chan c).recoveryTimer + 1) :
    trippedStep c s = recoverChannel c (modChan c (fun ch => { ch with recoveryTimer := ch.recoveryTimer + 1 }) s) := by
  unfold trippedStep
  rw [ha, if_neg Bool.false_ne_true]
  dsimp only
  rw [chan_modChan_self]
  exact if_pos hle

end Supervise

theorem exec_csv {i : Instr} (hdue : .csv ∈ (s.chan c).due) (hi : i ∈ csvRows c) :
    exec i s = .next (flapStep c (superviseStep c (csvBegun c s))) := by
  rw [exec_csvRow hi, csvBlock_due hdue]

theorem flapped_flags (ch : Channel) (f : ChangeFlag) : flapped { ch with flags := ch.flags.raise f } =
    { flapped ch with flags := (flapped ch).flags.raise f } := by
  unfold flapped
  dsimp only
  split
  · rfl
  · split <;> rfl

/-- Settles O46. -/
theorem supervisionAtFrameEvent : Obligations.SupervisionAtFrameEvent := by
  intro c s hdue i hi
  dsimp only
  have hexec := exec_csv hdue hi
  generalize csvBegun c s = u at *
  have hstep {t : State} (h : flapStep c (superviseStep c u) = t) : exec i s = .next t := hexec.trans (congrArg _ h)
  refine ⟨fun hs ha => hstep ?_, fun hs ha hv => hstep ?_, fun hs ha hv hlt => hstep ?_, fun hs ha hv => hstep ?_, fun hs ha hv hlt => hstep ?_,
    fun hs ha => hstep ?_, fun hs ha => hstep ?_, fun hs ha hlt => hstep ?_⟩
  · rw [superviseStep_healthy hs (Bool.eq_false_iff.2 ha), flapStep_healthy hs]
  · have hsame := sameFaults_enterAlert hs
    rw [superviseStep_starts hs ha, alertStep_unvoted (by rw [alertCondition_same hsame, ha])
      (by rw [voteMet_same hsame]; exact Bool.eq_false_iff.2 hv)]
    rw [flapStep_alert (by rw [chan_modChan_self, enterAlert_chan hs]), enterAlert_eq hs, modChan_raise (fun _ => rfl), modChan_modChan]
  · have hsame := sameFaults_enterAlert hs
    rw [superviseStep_starts hs ha, alertStep_counts (by rw [alertCondition_same hsame, ha]) (by rw [voteMet_same hsame, hv])
      (by rw [enterAlert_chan hs]; exact hlt)]
    rw [flapStep_alert (by rw [chan_modChan_self, enterAlert_chan hs]), enterAlert_eq hs, modChan_raise (fun _ => rfl), modChan_modChan]
  · rw [superviseStep_alert hs, alertStep_unvoted ha (Bool.eq_false_iff.2 hv),
      flapStep_alert (by rw [chan_modChan_self]; exact hs)]
  · rw [superviseStep_alert hs, alertStep_counts ha hv hlt, flapStep_alert (by rw [chan_modChan_self]; exact hs)]
  · rw [superviseStep_alert hs, alertStep_ends (Bool.eq_false_iff.2 ha), setSupervision_changes (by rw [chan_modChan_self, show (_ : Supervision) = _ from hs]; decide),
      modChan_modChan, flapStep_healthy (by rw [raise_chan_self, chan_modChan_self]), modChan_raise (fun ch => flapped_flags ch _), modChan_modChan]
  · rw [superviseStep_tripped hs, trippedStep_faulty ha, flapStep_tripped (by rw [chan_modChan_self]; exact hs)]
  · rw [superviseStep_tripped hs, trippedStep_counts (Bool.eq_false_iff.2 ha) hlt,
      flapStep_tripped (by rw [chan_modChan_self]; exact hs)]

/-! ### A trip (R122, R126, R137, R161) -/

/-- The flap counter after one more trip (R126). -/
def flapsAfter (limit n : Nat) : Nat :=
  if limit = 0 then n else if n < limit then n + 1 else n

/-- The channel has latched after a trip that leaves this counter (R126). -/
def latchesAt (limit n : Nat) (latched : Bool) : Bool :=
  latched || (decide (limit ≠ 0) && decide (flapsAfter limit n = limit))

/-- The channel latches by a trip (R126). -/
def newlyLatched (ch : Channel) : Prop :=
  ch.inEffect.flapLimit ≠ 0 ∧ flapsAfter ch.inEffect.flapLimit ch.flapCounter = ch.inEffect.flapLimit ∧ ch.latched = false

theorem countFlap_latches (h : newlyLatched (s.chan c)) : countFlap c s = raise c .latch (modChan c (fun ch => { ch with
    flapCounter := flapsAfter (s.chan c).inEffect.flapLimit (s.chan c).flapCounter, latched := true }) s) := by
  obtain ⟨h0, hm, hl⟩ := h
  rw [flapsAfter, if_neg h0] at hm ⊢
  unfold countFlap
  dsimp only
  rw [if_neg h0, if_pos ⟨hm, hl⟩, modChan_modChan]

theorem countFlap_plain (h : ¬newlyLatched (s.chan c)) : countFlap c s = modChan c (fun ch => { ch with
    flapCounter := flapsAfter (s.chan c).inEffect.flapLimit (s.chan c).flapCounter }) s := by
  unfold newlyLatched at h
  unfold countFlap
  dsimp only
  by_cases h0 : (s.chan c).inEffect.flapLimit = 0
  · rw [if_pos h0, flapsAfter, if_pos h0]
    exact (modChan_same rfl).symm
  · rw [flapsAfter, if_neg h0] at h ⊢
    rw [if_neg h0, if_neg (fun h' => h ⟨h0, h'⟩)]

theorem latchesAt_iff (ch : Channel) : latchesAt ch.inEffect.flapLimit ch.flapCounter ch.latched = true ↔
    ch.latched = true ∨ newlyLatched ch := by
  unfold latchesAt newlyLatched
  cases ch.latched <;> simp

/-- Counting a flap, at the flap limit in effect (R126). -/
theorem countFlap_chan (c : ChannelNo) (s : State) : ∃ fl : ChangeFlags,
    (countFlap c s).chan c = { s.chan c with
      flapCounter := flapsAfter (s.chan c).inEffect.flapLimit (s.chan c).flapCounter
      latched := latchesAt (s.chan c).inEffect.flapLimit (s.chan c).flapCounter (s.chan c).latched, flags := fl } ∧
    fl.supervision = (s.chan c).flags.supervision ∧
    (fl.latch = true ↔ (s.chan c).flags.latch = true ∨ newlyLatched (s.chan c)) := by
  by_cases h : newlyLatched (s.chan c)
  · have hlatch := (latchesAt_iff (s.chan c)).2 (.inr h)
    refine ⟨(s.chan c).flags.raise .latch, ?_, rfl, iff_of_true rfl (.inr h)⟩
    rw [countFlap_latches h, raise_chan_self, chan_modChan_self, hlatch]
  · have hlatch : latchesAt (s.chan c).inEffect.flapLimit (s.chan c).flapCounter (s.chan c).latched = (s.chan c).latched :=
      Bool.eq_iff_iff.2 ((latchesAt_iff (s.chan c)).trans (or_iff_left h))
    refine ⟨(s.chan c).flags, ?_, rfl, (or_iff_left h).symm⟩
    rw [countFlap_plain h, chan_modChan_self, hlatch]

theorem countFlap_outside (c : ChannelNo) (s : State) :
    countFlap c s = { s with channels := (countFlap c s).channels, attention := (countFlap c s).attention } ∧
    ∀ d, d ≠ c → (countFlap c s).chan d = s.chan d := by
  by_cases h : newlyLatched (s.chan c)
  · rw [countFlap_latches h]
    exact ⟨rfl, fun d hd => by rw [raise_chan_ne hd, chan_modChan_ne _ hd]⟩
  · rw [countFlap_plain h]
    exact ⟨rfl, fun d hd => chan_modChan_ne _ hd _⟩

/-- A channel that trips, before its notice to COU. -/
def tripping (c : ChannelNo) (s : State) : State :=
  setSupervision c .tripped (countFlap c (modChan c (fun ch => { ch with tripTimer := 0, recoveryTimer := 0, flapTimer := 0 }) s))

theorem tripChannel_eq (c : ChannelNo) (s : State) : tripChannel c s = tripNotice c (tripping c s) := rfl

/-- The record of a channel that has tripped: its timers are 0, its counter and its latch as the trip leaves them. -/
theorem tripping_chan (h : (s.chan c).supervision ≠ .tripped) : ∃ fl : ChangeFlags,
    (tripping c s).chan c = { s.chan c with
      supervision := .tripped, tripTimer := 0, recoveryTimer := 0, flapTimer := 0
      flapCounter := flapsAfter (s.chan c).inEffect.flapLimit (s.chan c).flapCounter
      latched := latchesAt (s.chan c).inEffect.flapLimit (s.chan c).flapCounter (s.chan c).latched, flags := fl } ∧
    fl.supervision = true ∧
    (fl.latch = true ↔ (s.chan c).flags.latch = true ∨ newlyLatched (s.chan c)) := by
  obtain ⟨fl, hchan, -, hlatch⟩ := countFlap_chan c (modChan c (fun ch => { ch with tripTimer := 0, recoveryTimer := 0, flapTimer := 0 }) s)
  rw [chan_modChan_self] at hchan hlatch
  refine ⟨fl.raise .supervision, ?_, rfl, hlatch⟩
  rw [tripping, setSupervision_changes (by rw [hchan]; exact h), raise_chan_self, chan_modChan_self, hchan]

theorem tripping_outside (h : (s.chan c).supervision ≠ .tripped) :
    tripping c s = { s with channels := (tripping c s).channels, attention := (tripping c s).attention } ∧
    c ∈ (tripping c s).attention ∧ ∀ d, d ≠ c → (tripping c s).chan d = s.chan d := by
  obtain ⟨fl, hchan, -⟩ := countFlap_chan c (modChan c (fun ch => { ch with tripTimer := 0, recoveryTimer := 0, flapTimer := 0 }) s)
  obtain ⟨hout, hother⟩ := countFlap_outside c (modChan c (fun ch => { ch with tripTimer := 0, recoveryTimer := 0, flapTimer := 0 }) s)
  rw [chan_modChan_self] at hchan
  have hset : tripping c s = raise c .supervision (modChan c (fun ch => { ch with supervision := .tripped })
      (countFlap c (modChan c (fun ch => { ch with tripTimer := 0, recoveryTimer := 0, flapTimer := 0 }) s))) :=
    setSupervision_changes (by rw [hchan]; exact h)
  refine ⟨?_, ?_, fun d hd => ?_⟩
  · rw [hset, hout]; rfl
  · rw [hset]
    exact mem_raise_attention.2 (.inl rfl)
  · rw [hset, raise_chan_ne hd, chan_modChan_ne _ hd, hother d hd, chan_modChan_ne _ hd]

/-- A channel in ALERT, or about to be, reaches its trip through one state in which only that and the trip timer are written. -/
theorem superviseStep_trips (ha : alertCondition s c = true) (hv : voteMet s c = true)
    (h : ((s.chan c).supervision = .healthy ∧ (s.chan c).inEffect.tripDelay ≤ 1) ∨
      ((s.chan c).supervision = .alert ∧ (s.chan c).inEffect.tripDelay ≤ (s.chan c).tripTimer + 1)) :
    ∃ w fl n, superviseStep c s = tripChannel c w ∧ w.chan c = { s.chan c with supervision := .alert, tripTimer := n, flags := fl } ∧
      fl.latch = (s.chan c).flags.latch ∧
      w = { s with channels := w.channels, attention := w.attention } ∧ ∀ d, d ≠ c → w.chan d = s.chan d := by
  rcases h with ⟨hs, hle⟩ | ⟨hs, hle⟩
  · have hsame := sameFaults_enterAlert hs
    refine ⟨modChan c (fun ch => { ch with tripTimer := ch.tripTimer + 1 }) (enterAlert c s), (s.chan c).flags.raise .supervision, 1, ?_, ?_,
      rfl, ?_, fun d hd => ?_⟩
    · rw [superviseStep_starts hs ha, alertStep_trips (by rw [alertCondition_same hsame, ha]) (by rw [voteMet_same hsame, hv])
        (by rw [enterAlert_chan hs]; exact hle)]
    · rw [chan_modChan_self, enterAlert_chan hs]
    · rw [enterAlert_eq hs]; rfl
    · rw [chan_modChan_ne _ hd, enterAlert_eq hs, raise_chan_ne hd, chan_modChan_ne _ hd]
  · refine ⟨modChan c (fun ch => { ch with tripTimer := ch.tripTimer + 1 }) s, (s.chan c).flags, (s.chan c).tripTimer + 1, ?_, ?_, rfl, rfl,
      fun d hd => chan_modChan_ne _ hd _⟩
    · rw [superviseStep_alert hs, alertStep_trips ha hv hle]
    · rw [chan_modChan_self, ← hs]

/-- What CSV's trip notice leaves of a channel that it starts no takeover for. -/
theorem tripNotice_starts (h : mayStartTakeover (s.chan c) = true) : tripNotice c s =
    startTakeover c (modChan c (fun ch => { ch with due := ch.due.filter (fun b => decide (b ≠ .cou)) }) s) := if_pos h

theorem tripNotice_recalls (h : mayStartTakeover (s.chan c) = false) (hr : (s.chan c).changeover = .returning)
    (hq : s.hasRequest c = true) : tripNotice c s = setChangeover c .onDr (dropRequest c s) := by
  unfold tripNotice
  rw [h, if_neg Bool.false_ne_true, if_pos ⟨hr, hq⟩]

theorem tripNotice_none (h : mayStartTakeover (s.chan c) = false) (hr : (s.chan c).changeover ≠ .returning ∨ s.hasRequest c = false) :
    tripNotice c s = s := by
  unfold tripNotice
  rw [h, if_neg Bool.false_ne_true, if_neg]
  rintro ⟨hret, hq⟩
  rcases hr with hr | hr
  · exact hr hret
  · rw [hr] at hq; cases hq

theorem mayStartTakeover_iff (ch : Channel) : mayStartTakeover ch = true ↔
    ch.settings.mode = .protectedMode ∧ ch.changeover = .mirror ∧ ch.holdOff = false := by
  simp [mayStartTakeover, and_assoc]

theorem dropRequest_hasRequest (c : ChannelNo) (s : State) : (dropRequest c s).hasRequest c = false := by
  unfold State.hasRequest dropRequest withoutRequest
  rw [List.any_eq_false]
  intro r hr
  simpa using (List.mem_filter.1 hr).2

/-- A takeover started from MIRROR: it waits for confirmation, or it enters PREPARING. -/
theorem startTakeover_confirm (h : (s.chan c).inEffect.takeover = .confirm) (hp : s.hostPresent = true) :
    startTakeover c s = modChan c (fun ch => { ch with confirmTimer := 0 }) (setChangeover c .awaitConfirm s) := if_pos ⟨h, hp⟩

theorem startTakeover_prepares (h : (s.chan c).inEffect.takeover = .auto ∨ s.hostPresent = false) :
    startTakeover c s = enterPreparing c s := by
  refine if_neg ?_
  rintro ⟨ht, hp⟩
  rcases h with h | h
  · rw [ht] at h; cases h
  · rw [h] at hp; cases hp

/-- What CSV writes of a channel and the parts still due of it are the same. -/
def SameTrip (x y : Channel) : Prop :=
  y.supervision = x.supervision ∧ y.tripTimer = x.tripTimer ∧ y.recoveryTimer = x.recoveryTimer ∧ y.flapTimer = x.flapTimer ∧
  y.flapCounter = x.flapCounter ∧ y.latched = x.latched ∧ y.flags.supervision = x.flags.supervision ∧ y.flags.latch = x.flags.latch ∧
  y.due = x.due

theorem sameTrip_setChangeover (c : ChannelNo) (st : Changeover) (s : State) : SameTrip (s.chan c) ((setChangeover c st s).chan c) := by
  rw [setChangeover_self]
  refine ⟨rfl, rfl, rfl, rfl, rfl, rfl, ?_, ?_, rfl⟩
  all_goals
    dsimp only
    split <;> rfl

theorem sameTrip_begun {r : Nat} {b : Bool} {dir : DirectiveBody} {p : Place} (h : takeoverBegun c r b dir p es s t) :
    SameTrip (s.chan c) (t.chan c) := by
  rw [h.1]
  exact ⟨rfl, rfl, rfl, rfl, rfl, rfl, rfl, rfl, rfl⟩

/-- A takeover that starts in MIRROR waits for confirmation, or enters PREPARING (R137). -/
theorem startTakeover_spec (hl : (s.chan c).Tidy) (hm : (s.chan c).changeover = .mirror) :
    SameTrip (s.chan c) ((startTakeover c s).chan c) ∧ c ∈ (startTakeover c s).attention ∧
    ((s.chan c).inEffect.takeover = .confirm → s.hostPresent = true →
      ((startTakeover c s).chan c).changeover = .awaitConfirm ∧ ((startTakeover c s).chan c).confirmTimer = 0) ∧
    ((s.chan c).inEffect.takeover = .auto ∨ s.hostPresent = false →
      ((startTakeover c s).chan c).changeover = .preparing ∧ ((startTakeover c s).chan c).decisionFrame = (s.chan c).frame ∧
      ((startTakeover c s).chan c).rollFrame = some (s.frameNow c + (s.chan c).inEffect.cueLead)) := by
  have hne : (s.chan c).changeover ≠ .preparing := by rw [hm]; decide
  by_cases hwait : (s.chan c).inEffect.takeover = .confirm ∧ s.hostPresent = true
  · obtain ⟨hconf, hhost⟩ := hwait
    rw [startTakeover_confirm hconf hhost, chan_modChan_self]
    refine ⟨sameTrip_setChangeover c .awaitConfirm s, setChangeover_attention (by rw [hm]; decide), fun _ _ => ⟨?_, rfl⟩, fun h => ?_⟩
    · rw [setChangeover_self]
    · rcases h with h | h
      · rw [hconf] at h; cases h
      · rw [hhost] at h; cases h
  · have hgo : (s.chan c).inEffect.takeover = .auto ∨ s.hostPresent = false := by
      cases ht : (s.chan c).inEffect.takeover with
      | auto => exact .inl rfl
      | confirm => exact .inr (Bool.eq_false_iff.2 (fun hh => hwait ⟨ht, hh⟩))
    obtain ⟨b, dir, p, es, hbegun⟩ := enterPreparing_begun hl hne
    have hsame := sameTrip_begun hbegun
    obtain ⟨hchan, -, hatt, -⟩ := hbegun
    rw [startTakeover_prepares hgo]
    refine ⟨hsame, hatt, fun h1 h2 => absurd ⟨h1, h2⟩ hwait, fun _ => ?_⟩
    rw [hchan]
    exact ⟨rfl, rfl, rfl⟩

/-- What CSV writes of a channel is the same, whatever parts are still due of it. -/
def SameTripped (x y : Channel) : Prop :=
  SameTrip { x with due := y.due } y

theorem sameTripped_of {x y z : Channel} (h : SameTrip y z) (hy : y = { x with due := y.due }) : SameTripped x z := by
  obtain ⟨h1, h2, h3, h4, h5, h6, h7, h8, -⟩ := h
  rw [hy] at h1 h2 h3 h4 h5 h6 h7 h8
  exact ⟨h1, h2, h3, h4, h5, h6, h7, h8, rfl⟩

/-- The notice of a trip that starts a takeover (R137; log 19). -/
theorem tripNotice_takes_over (hl : (s.chan c).Tidy) (h : mayStartTakeover (s.chan c) = true) :
    SameTripped (s.chan c) ((tripNotice c s).chan c) ∧ c ∈ (tripNotice c s).attention ∧ .cou ∉ ((tripNotice c s).chan c).due ∧
    ((s.chan c).inEffect.takeover = .confirm → s.hostPresent = true →
      ((tripNotice c s).chan c).changeover = .awaitConfirm ∧ ((tripNotice c s).chan c).confirmTimer = 0) ∧
    ((s.chan c).inEffect.takeover = .auto ∨ s.hostPresent = false →
      ((tripNotice c s).chan c).changeover = .preparing ∧ ((tripNotice c s).chan c).decisionFrame = (s.chan c).frame) := by
  obtain ⟨-, hm, -⟩ := (mayStartTakeover_iff _).1 h
  rw [tripNotice_starts h]
  generalize hu : modChan c (fun ch => { ch with due := ch.due.filter (fun b => decide (b ≠ .cou)) }) s = u
  have hchan : u.chan c = { s.chan c with due := (s.chan c).due.filter (fun b => decide (b ≠ .cou)) } := by rw [← hu, chan_modChan_self]
  have hhost : u.hostPresent = s.hostPresent := by rw [← hu]; rfl
  obtain ⟨hsame, hatt, hconf, hgo⟩ := startTakeover_spec (s := u) (c := c) (by rw [hchan]; exact hl) (by rw [hchan]; exact hm)
  have hdue : ((startTakeover c u).chan c).due = (u.chan c).due := hsame.2.2.2.2.2.2.2.2
  rw [hhost] at hconf hgo
  refine ⟨sameTripped_of hsame (by rw [hchan]), hatt, ?_, ?_, fun h => ?_⟩
  · rw [hdue, hchan]
    exact fun hm => of_decide_eq_true (List.mem_filter.1 hm).2 rfl
  · rw [hchan] at hconf
    exact hconf
  · obtain ⟨hp, hd, -⟩ := hgo (by rw [hchan]; exact h)
    exact ⟨hp, by rw [hd, hchan]⟩

/-- The notice of a trip that starts none: a giveback that still waits for its take is called back (R161). -/
theorem tripNotice_calls_back (h : mayStartTakeover (s.chan c) = false) :
    SameTripped (s.chan c) ((tripNotice c s).chan c) ∧ (c ∈ s.attention → c ∈ (tripNotice c s).attention) ∧
    ((tripNotice c s).chan c).due = (s.chan c).due ∧
    ((s.chan c).changeover = .returning → s.hasRequest c = true →
      ((tripNotice c s).chan c).changeover = .onDr ∧ (tripNotice c s).hasRequest c = false) ∧
    ((s.chan c).changeover ≠ .returning ∨ s.hasRequest c = false → ((tripNotice c s).chan c).changeover = (s.chan c).changeover) := by
  by_cases hret : (s.chan c).changeover = .returning ∧ s.hasRequest c = true
  · obtain ⟨hr, hq⟩ := hret
    have hne : ((dropRequest c s).chan c).changeover ≠ .onDr := by
      show (s.chan c).changeover ≠ .onDr
      rw [hr]; decide
    have hsame := sameTrip_setChangeover c .onDr (dropRequest c s)
    have hdue : ((setChangeover c .onDr (dropRequest c s)).chan c).due = (s.chan c).due := hsame.2.2.2.2.2.2.2.2
    rw [tripNotice_recalls h hr hq]
    refine ⟨sameTripped_of hsame rfl, fun _ => setChangeover_attention hne, hdue, fun _ _ => ⟨?_, ?_⟩, fun h' => ?_⟩
    · rw [setChangeover_self]
    · rw [State.hasRequest, setChangeover_outside]
      exact dropRequest_hasRequest c s
    · rcases h' with h' | h'
      · exact absurd hr h'
      · rw [hq] at h'; cases h'
  · have hnone : (s.chan c).changeover ≠ .returning ∨ s.hasRequest c = false := by
      rcases not_and_or.1 hret with h' | h'
      · exact .inl h'
      · exact .inr (Bool.eq_false_iff.2 h')
    rw [tripNotice_none h hnone]
    exact ⟨⟨rfl, rfl, rfl, rfl, rfl, rfl, rfl, rfl, rfl⟩, id, rfl, fun h1 h2 => absurd ⟨h1, h2⟩ hret, fun _ => rfl⟩

/-- A channel that has tripped, before its notice to COU, is still named and kept as it was. -/
theorem tidy_tripping (hl : (s.chan c).Tidy) (h : (s.chan c).supervision ≠ .tripped) : ((tripping c s).chan c).Tidy := by
  obtain ⟨fl, hz, -⟩ := tripping_chan h
  rw [hz]
  exact hl

theorem flapsAfter_zero (n : Nat) : flapsAfter 0 n = n := if_pos rfl

theorem flapsAfter_limit {limit : Nat} (h : limit ≠ 0) (n : Nat) : flapsAfter limit n = if n < limit then n + 1 else n := if_neg h

/-- The record of a channel as a trip writes it, with these flags. -/
def Channel.trippedWith (fl : ChangeFlags) (x : Channel) : Channel :=
  { x with
    supervision := .tripped, tripTimer := 0, recoveryTimer := 0, flapTimer := 0
    flapCounter := flapsAfter x.inEffect.flapLimit x.flapCounter
    latched := latchesAt x.inEffect.flapLimit x.flapCounter x.latched, flags := fl }

/-- What CSV's marks are after a trip, whatever its notice did at COU. -/
theorem marks_of_trip {x y : Channel} {fl : ChangeFlags} (h : SameTripped (x.trippedWith fl) y) (hs : fl.supervision = true)
    (hl : fl.latch = true ↔ x.flags.latch = true ∨ newlyLatched x) :
    (let limit := x.inEffect.flapLimit
     let n := if x.flapCounter < limit then x.flapCounter + 1 else x.flapCounter
     y.supervision = .tripped ∧ y.tripTimer = 0 ∧ y.recoveryTimer = 0 ∧ y.flapTimer = 0 ∧ y.flags.supervision = true ∧
     (limit = 0 → y.flapCounter = x.flapCounter ∧ y.latched = x.latched) ∧
     (limit ≠ 0 → y.flapCounter = n ∧ (y.latched = true ↔ x.latched = true ∨ n = limit)) ∧
     (y.flags.latch = true ↔ x.flags.latch = true ∨ (limit ≠ 0 ∧ n = limit ∧ x.latched = false))) := by
  obtain ⟨h1, h2, h3, h4, h5, h6, h7, h8, -⟩ := h
  dsimp only [Channel.trippedWith] at h1 h2 h3 h4 h5 h6 h7 h8 ⊢
  rw [h1, h2, h3, h4, h5, h6, h7, h8, hs, hl]
  refine ⟨rfl, rfl, rfl, rfl, rfl, fun h0 => ?_, fun h0 => ⟨flapsAfter_limit h0 _, ?_⟩, ?_⟩
  · rw [latchesAt, h0, flapsAfter_zero]
    simp
  · rw [latchesAt, flapsAfter_limit h0]
    simp [h0]
  · unfold newlyLatched
    refine or_congr_right (and_congr_right fun h0 => ?_)
    rw [flapsAfter_limit h0]

/-- Settles O47. -/
theorem tripTripsChannel : Obligations.TripTripsChannel := by
  intro c s hinv hdue i hi u ch limit n ha hv hwhen
  have huchan : u.chan c = { s.chan c with
      due := (s.chan c).due.erase .csv, inEffect := (u.chan c).inEffect, hbSilence := (u.chan c).hbSilence } := by
    show (csvBegun c s).chan c = _
    unfold u csvBegun
    rw [chan_modChan_self]
  have huhost : u.hostPresent = s.hostPresent := rfl
  have hureq : u.hasRequest c = s.hasRequest c := rfl
  have hexec : exec i s = .next (flapStep c (superviseStep c u)) := exec_csv hdue hi
  have hl : (u.chan c).Tidy := by
    rw [huchan]
    exact tidy_of_law (hinv.channels c)
  have hns : (u.chan c).supervision ≠ .tripped := by
    rcases hwhen with ⟨hs, -⟩ | ⟨hs, -⟩ <;> rw [show (u.chan c).supervision = _ from hs] <;> decide
  have hhold : (u.chan c).holdOff = false := by
    rw [huchan] at hns ⊢
    exact holdOff_clear hinv hns
  clear_value u
  obtain ⟨w, fl, m, hstep, hw, hlatch, hout, -⟩ := superviseStep_trips ha hv hwhen
  have hsup : (w.chan c).supervision ≠ .tripped := by
    rw [hw]
    exact Supervision.noConfusion
  obtain ⟨fl', hz, hzs, hzl⟩ := tripping_chan hsup
  obtain ⟨hzout, hzatt, -⟩ := tripping_outside hsup
  have hzhost : (tripping c w).hostPresent = s.hostPresent := by rw [hzout, hout]; exact huhost
  have hzreq : (tripping c w).hasRequest c = s.hasRequest c := by rw [State.hasRequest, hzout, hout]; exact hureq
  have hztidy := tidy_tripping (by rw [hw]; exact hl) hsup
  rw [hstep, tripChannel_eq] at hexec
  generalize tripping c w = z at *
  have hzchan : z.chan c = (u.chan c).trippedWith fl' := by rw [hz, hw]; rfl
  have hnew : newlyLatched (w.chan c) ↔ newlyLatched (u.chan c) := by rw [hw]; rfl
  have hwl : (w.chan c).flags.latch = (u.chan c).flags.latch := by rw [hw]; exact hlatch
  rw [hwl, hnew] at hzl
  have hfrom : mayStartTakeover (z.chan c) = true ↔ ch.settings.mode = .protectedMode ∧ ch.changeover = .mirror := by
    rw [mayStartTakeover_iff, hzchan]
    exact ⟨fun h => ⟨h.1, h.2.1⟩, fun h => ⟨h.1, h.2, hhold⟩⟩
  have hframe : (z.chan c).frame = ch.frame := by rw [hzchan]; rfl
  have hch : (z.chan c).changeover = ch.changeover := by rw [hzchan]; rfl
  have hduez : (z.chan c).due = ch.due := by rw [hzchan]; rfl
  have htake : (z.chan c).inEffect = ch.inEffect := by rw [hzchan]; rfl
  have hanswer {t : State} (ht : tripNotice c z = t) (hsup : (t.chan c).supervision = .tripped) : exec i s = .next t := by
    rw [hexec, ht, flapStep_tripped hsup]
  cases hmay : mayStartTakeover (z.chan c) with
  | true =>
    obtain ⟨hprot, hmirror⟩ := hfrom.1 hmay
    obtain ⟨hsame, hatt, hcou, hconf, hgo⟩ := tripNotice_takes_over hztidy hmay
    rw [hzchan] at hsame
    obtain ⟨h1, h2, h3, h4, h5, h6, h7, h8⟩ := marks_of_trip hsame hzs hzl
    rw [htake, hzhost] at hconf hgo
    have hnot {p : Prop} : ch.settings.mode ≠ .protectedMode ∨ ch.changeover ≠ .mirror → p :=
      fun h => h.elim (absurd hprot) (absurd hmirror)
    have hnret {p : Prop} (h : ch.changeover = .returning) : p := by rw [hmirror] at h; cases h
    exact ⟨_, hanswer rfl h1, h1, h2, h3, h4, h5, hatt, h6, h7, h8, fun _ _ => hcou, hnot, fun _ _ => hconf,
      fun _ _ h => ⟨(hgo h).1, (hgo h).2.trans hframe⟩, hnret, hnret, fun _ => hnot⟩
  | false =>
    have hnot (hp : ch.settings.mode = .protectedMode) (hm : ch.changeover = .mirror) {p : Prop} : p :=
      absurd (hfrom.2 ⟨hp, hm⟩) (by rw [hmay]; exact Bool.false_ne_true)
    obtain ⟨hsame, hatt, hdue', hback, hstay⟩ := tripNotice_calls_back hmay
    rw [hzchan] at hsame
    obtain ⟨h1, h2, h3, h4, h5, h6, h7, h8⟩ := marks_of_trip hsame hzs hzl
    rw [hch, hzreq] at hback hstay
    exact ⟨_, hanswer rfl h1, h1, h2, h3, h4, h5, hatt hzatt, h6, h7, h8, fun hp hm => hnot hp hm, fun _ => hdue'.trans hduez,
      fun hp hm => hnot hp hm, fun hp hm => hnot hp hm, hback, fun hr hq => (hstay (.inr hq)).trans hr, fun hr _ => hstay (.inl hr)⟩

end FrameParts

end Sys2Proof.Machine

/-! # Recovery at CSV and the edit-budget window at RRX (sections 4.4 and 7.3) -/

namespace Sys2Proof.Machine

section RecoveryAndBudget

open Says

variable {c d : ChannelNo} {s t u v w : State}

/-! ### Recovery (R123, R138, R162) -/

/-- The record of a channel as a recovery writes it, before its notice to COU. -/
def Channel.recovered (x : Channel) : Channel :=
  { x with supervision := .healthy, recoveryTimer := 0, holdOff := false, flags := x.flags.raise .supervision }

/-- A channel that has recovered, before the notice to COU (R123). -/
def recovering (c : ChannelNo) (s : State) : State :=
  setSupervision c .healthy (modChan c (fun ch => { ch with recoveryTimer := 0, holdOff := false }) s)

theorem recoverChannel_eq (c : ChannelNo) (s : State) : recoverChannel c s = recoveryNotice c (recovering c s) := rfl

theorem recovering_eq (h : (s.chan c).supervision = .tripped) : recovering c s = raise c .supervision
    (modChan c (fun ch => { ch with supervision := .healthy, recoveryTimer := 0, holdOff := false }) s) := by
  unfold recovering
  rw [setSupervision_changes (by rw [chan_modChan_self]; simp [h]), modChan_modChan]

theorem recovering_chan (h : (s.chan c).supervision = .tripped) : (recovering c s).chan c = (s.chan c).recovered := by
  rw [recovering_eq h, raise_chan_self, chan_modChan_self]
  rfl

theorem recovering_attention (h : (s.chan c).supervision = .tripped) : c ∈ (recovering c s).attention := by
  rw [recovering_eq h]
  exact mem_raise_attention.2 (.inl rfl)

/-- What the notice of a recovery leaves of the channel's record outside COU. -/
def SameRecovered (x y : Channel) : Prop :=
  y.supervision = x.supervision ∧ y.recoveryTimer = x.recoveryTimer ∧ y.holdOff = x.holdOff ∧
  y.flags.supervision = x.flags.supervision ∧ y.latched = x.latched

theorem sameRecovered_setChangeover (c : ChannelNo) (st : Changeover) (s : State) :
    SameRecovered (s.chan c) ((setChangeover c st s).chan c) := by
  rw [setChangeover_self]
  refine ⟨rfl, rfl, rfl, ?_, rfl⟩
  dsimp only
  split <;> rfl

/-- The notice of a recovery, by the changeover state it finds (R138, R162). -/
theorem recoveryNotice_spec (c : ChannelNo) (s : State) :
    SameRecovered (s.chan c) ((recoveryNotice c s).chan c) ∧ (c ∈ s.attention → c ∈ (recoveryNotice c s).attention) ∧
    ((s.chan c).changeover = .awaitConfirm →
      ((recoveryNotice c s).chan c).changeover = .mirror ∧ ((recoveryNotice c s).chan c).confirmTimer = 0) ∧
    ((s.chan c).changeover = .stranded → ((recoveryNotice c s).chan c).changeover = .mirror) ∧
    ((s.chan c).changeover ≠ .awaitConfirm → (s.chan c).changeover ≠ .stranded →
      ((recoveryNotice c s).chan c).changeover = (s.chan c).changeover) := by
  have hsame := sameRecovered_setChangeover c .mirror s
  have hmirror : ((setChangeover c .mirror s).chan c).changeover = .mirror := by rw [setChangeover_self]
  have hraised (h : (s.chan c).changeover ≠ .mirror) : c ∈ (setChangeover c .mirror s).attention := setChangeover_attention h
  cases hc : (s.chan c).changeover with
  | awaitConfirm =>
    have h : recoveryNotice c s = modChan c (fun ch => { ch with confirmTimer := 0 }) (setChangeover c .mirror s) := by
      unfold recoveryNotice; rw [hc]
    rw [h, chan_modChan_self]
    exact ⟨hsame, fun _ => hraised (by rw [hc]; decide), fun _ => ⟨hmirror, rfl⟩, nofun, fun ha => absurd rfl ha⟩
  | stranded =>
    have h : recoveryNotice c s = setChangeover c .mirror s := by unfold recoveryNotice; rw [hc]
    rw [h]
    exact ⟨hsame, fun _ => hraised (by rw [hc]; decide), nofun, fun _ => hmirror, fun _ ha => absurd rfl ha⟩
  | mirror | preparing | takePending | onDr | returning =>
    have h : recoveryNotice c s = s := by unfold recoveryNotice; rw [hc]
    rw [h]
    exact ⟨⟨rfl, rfl, rfl, rfl, rfl⟩, id, nofun, nofun, fun _ _ => hc⟩

/-- The flap step of a HEALTHY channel writes its flap timer and counter only. -/
theorem flapped_keeps (x : Channel) : flapped x = { x with flapTimer := (flapped x).flapTimer, flapCounter := (flapped x).flapCounter } := by
  unfold flapped
  split
  · rfl
  · split <;> rfl

/-- Settles O48. -/
theorem recoveryHealsChannel : Obligations.RecoveryHealsChannel := by
  intro c s hdue i hi u ch ha hs hle
  have hexec : exec i s = .next (flapStep c (superviseStep c u)) := exec_csv hdue hi
  clear_value u
  rw [superviseStep_tripped hs, trippedStep_recovers ha hle, recoverChannel_eq] at hexec
  generalize hv : modChan c (fun ch => { ch with recoveryTimer := ch.recoveryTimer + 1 }) u = v at hexec
  have hvs : (v.chan c).supervision = .tripped := by rw [← hv, chan_modChan_self]; exact hs
  have hz : (recovering c v).chan c = ch.recovered := by rw [recovering_chan hvs, ← hv, chan_modChan_self]; rfl
  obtain ⟨⟨hsup, htim, hhold, hflag, hlat⟩, hatt, hawait, hstr, hother⟩ := recoveryNotice_spec c (recovering c v)
  replace hatt := hatt (recovering_attention hvs)
  generalize recoveryNotice c (recovering c v) = y at *
  rw [hz] at hsup htim hhold hflag hlat hawait hstr hother
  rw [flapStep_healthy hsup] at hexec
  refine ⟨_, hexec, ?_⟩
  rw [chan_modChan_self, flapped_keeps]
  exact ⟨hsup, htim, hhold, hflag, hatt, hlat, hawait, hstr, hother⟩

/-! ### The edit-budget window (R56, R70, R71) -/

/-- The window's counts start again, and this is left of the storm-pending mark. -/
def Channel.windowStarts (storm : Bool) (x : Channel) : Channel :=
  { x with windowRestart := false, budget := { frames := 0, updates := 0, stormPending := storm } }

theorem rrxFrame_restarts (h : (s.chan c).windowRestart = true) :
    rrxFrame c s = modChan c (Channel.windowStarts (s.chan c).budget.stormPending) s := by
  unfold rrxFrame
  dsimp only
  rw [if_pos h]
  exact modChan_congr rfl

theorem rrxFrame_counts (h : (s.chan c).windowRestart = false) (hlt : (s.chan c).budget.frames + 1 < (s.chan c).settings.rate.nominal) :
    rrxFrame c s = modChan c (fun x => { x with budget := { x.budget with frames := x.budget.frames + 1 } }) s := by
  unfold rrxFrame
  dsimp only
  rw [if_neg (by rw [h]; exact Bool.false_ne_true), if_neg hlt.not_ge]

theorem rrxFrame_ends (h : (s.chan c).windowRestart = false) (hle : (s.chan c).settings.rate.nominal ≤ (s.chan c).budget.frames + 1) :
    rrxFrame c s = examineStorm c (modChan c (Channel.windowStarts (s.chan c).budget.stormPending) s) := by
  unfold rrxFrame
  dsimp only
  rw [if_neg (by rw [h]; exact Bool.false_ne_true), if_pos hle]
  refine congrArg _ (modChan_congr ?_)
  rw [Channel.windowStarts, h]

theorem examineStorm_clear (h : (s.chan c).budget.stormPending = false) : examineStorm c s = s := by
  unfold examineStorm
  rw [h]; rfl

/-- A window that ends with the storm-pending mark set (R71). -/
theorem examineStorm_windowStarts (c : ChannelNo) (s : State) : examineStorm c (modChan c (Channel.windowStarts true) s) =
    if (s.chan c).replState = .outOfStep ∧ (s.chan c).cause = .storm ∧ (s.chan c).settings.mode ≠ .off then
      enqueue c (modChan c (Channel.windowStarts false) s)
    else modChan c (Channel.windowStarts false) s := by
  unfold examineStorm
  rw [if_pos (by rw [chan_modChan_self]; rfl), modChan_modChan]
  dsimp only
  rw [chan_modChan_self]
  rfl

/-- Settles O50. -/
theorem editBudgetWindow : Obligations.EditBudgetWindow := by
  intro c s hdue w ch restarted out
  have hout : out = .next (rrxFrame c w) := congrArg Host.Outcome.next (takeBlock_due hdue)
  have hrestarted (storm : Bool) : restarted storm = modChan c (Channel.windowStarts storm) w := rfl
  clear_value w out restarted
  simp only [hrestarted, hout]
  refine ⟨fun hr => congrArg _ (rrxFrame_restarts hr), fun hr hlt => congrArg _ (rrxFrame_counts hr hlt), fun hr hle hn => ?_, fun hr hle hp => ?_⟩
  · rw [rrxFrame_ends hr hle, hn, examineStorm_clear (by rw [chan_modChan_self]; rfl)]
  · rw [rrxFrame_ends hr hle, hp, examineStorm_windowStarts]
    exact ⟨fun h => by rw [if_pos h], fun h => by rw [if_neg h]⟩

end RecoveryAndBudget

end Sys2Proof.Machine

/-! # What the Schedule Store's operations leave unchanged (Chapter 2) -/

namespace Sys2Proof.Machine

section StoreFrame

open Says

variable {c d : ChannelNo} {s t u v w : State} {es : List Entry} {e : Entry} {k : EntryKey}

/-- A channel's record with what the Schedule Store writes taken from another record of it. -/
def Channel.storing (y x : Channel) : Channel :=
  { x with schedule := y.schedule, pinnedHeld := y.pinnedHeld, flags := { x.flags with divergence := y.flags.divergence } }

/-- From one state to the other the Schedule Store has at most written a channel's schedule: of the channel's record only the schedule,
PINNED_HELD and DIVERGENCE may have changed; no other channel has, no event was raised, no directive has gone out, no free value was
read, and the host's marks stand. -/
structure Reschedules (c : ChannelNo) (s t : State) : Prop where
  self : t.chan c = (t.chan c).storing (s.chan c)
  others : ∀ d, d ≠ c → t.chan d = s.chan d
  draws : t.draws = s.draws
  cueOut : t.cueOut = s.cueOut
  events : t.events = s.events
  hostPresent : t.hostPresent = s.hostPresent
  hostTimer : t.hostTimer = s.hostTimer

theorem Reschedules.refl (c : ChannelNo) (s : State) : Reschedules c s s :=
  ⟨rfl, fun _ _ => rfl, rfl, rfl, rfl, rfl, rfl⟩

theorem Reschedules.trans (h : Reschedules c s t) (q : Reschedules c t u) : Reschedules c s u where
  self := by
    rw [q.self, h.self]
    rfl
  others d hd := (q.others d hd).trans (h.others d hd)
  draws := q.draws.trans h.draws
  cueOut := q.cueOut.trans h.cueOut
  events := q.events.trans h.events
  hostPresent := q.hostPresent.trans h.hostPresent
  hostTimer := q.hostTimer.trans h.hostTimer

theorem reschedules_setSchedule (c : ChannelNo) (es : List Entry) (s : State) : Reschedules c s (setSchedule c es s) := by
  unfold setSchedule
  dsimp only
  refine ⟨?_, fun d hd => ?_, by rw [raiseIf_outside]; rfl, by rw [raiseIf_outside]; rfl, by rw [raiseIf_outside]; rfl,
    by rw [raiseIf_outside]; rfl, by rw [raiseIf_outside]; rfl⟩
  · rw [raiseIf_chan, if_pos rfl, chan_modChan_self]
    dsimp only
    split <;> rfl
  · rw [raiseIf_chan, if_neg hd, chan_modChan_ne _ hd]

theorem reschedules_abandonWalks (c : ChannelNo) (s : State) : Reschedules c s (abandonWalks c s) :=
  ⟨by rw [abandonWalks_chan]; rfl, fun d _ => abandonWalks_chan c d s, by rw [abandonWalks_eq], by rw [abandonWalks_eq], by rw [abandonWalks_eq],
    by rw [abandonWalks_eq], by rw [abandonWalks_eq]⟩

theorem reschedules_freeSlots (c : ChannelNo) (n : Nat) (s : State) : Reschedules c s (freeSlots n s) :=
  ⟨rfl, fun _ _ => rfl, rfl, rfl, rfl, rfl, rfl⟩

theorem reschedules_ite {p : Prop} [Decidable p] (h : Reschedules c s t) (q : Reschedules c s u) : Reschedules c s (if p then t else u) := by
  split
  · exact h
  · exact q

theorem reschedules_foldl {α : Type} {f : State → α → State} (hf : ∀ t a, Reschedules c t (f t a)) (l : List α) (s : State) :
    Reschedules c s (l.foldl f s) := by
  induction l generalizing s with
  | nil => exact .refl c s
  | cons a l ih => exact (hf s a).trans (ih _)

theorem reschedules_keepOnly (c : ChannelNo) (keep : Entry × Nat → Bool) (s : State) : Reschedules c s (keepOnly c keep s) := by
  have h := (reschedules_setSchedule c (((spans (s.chan c).schedule).filter keep).map Prod.fst) s).trans
    (reschedules_freeSlots c ((spans (s.chan c).schedule).filter (fun p => !keep p)).length _)
  exact reschedules_ite (h.trans (reschedules_abandonWalks c _)) h

theorem reschedules_replaceEntry (c : ChannelNo) (k : EntryKey) (b : Body) (s : State) : Reschedules c s (replaceEntry c k b s) := by
  unfold replaceEntry
  split
  · exact .refl c s
  · exact reschedules_setSchedule c _ s

theorem reschedules_applyAmendment (c : ChannelNo) (k : EntryKey) (s : State) : Reschedules c s (applyAmendment c k s) := by
  unfold applyAmendment
  split
  · exact .refl c s
  · exact (reschedules_replaceEntry c k _ s).trans (reschedules_abandonWalks c _)
  · exact reschedules_keepOnly c _ s

theorem reschedules_setStatus (c : ChannelNo) (k : EntryKey) (st : EntryStatus) (s : State) : Reschedules c s (setStatus c k st s) :=
  reschedules_setSchedule c _ s

theorem reschedules_leaveService (c : ChannelNo) (k : EntryKey) (st : EntryStatus) (s : State) : Reschedules c s (leaveService c k st s) := by
  have h := reschedules_setStatus c k st s
  unfold leaveService
  dsimp only
  split
  · exact reschedules_ite (h.trans (reschedules_applyAmendment c k _)) h
  · exact h

theorem reschedules_cueEntry (c : ChannelNo) (k : EntryKey) (s : State) : Reschedules c s (cueEntry c k s) :=
  reschedules_ite (reschedules_setStatus c k _ s) (.refl c s)

theorem reschedules_airEntry (c : ChannelNo) (k : EntryKey) (s : State) : Reschedules c s (airEntry c k s) :=
  reschedules_ite (reschedules_setStatus c k _ s) (.refl c s)

theorem reschedules_finishEntry (c : ChannelNo) (k : EntryKey) (s : State) : Reschedules c s (finishEntry c k s) :=
  reschedules_ite (reschedules_leaveService c k _ s) (.refl c s)

theorem reschedules_uncueEntry (c : ChannelNo) (k : EntryKey) (s : State) : Reschedules c s (uncueEntry c k s) :=
  reschedules_ite (reschedules_leaveService c k _ s) (.refl c s)

theorem reschedules_releaseEntry (c : ChannelNo) (k : EntryKey) (s : State) : Reschedules c s (releaseEntry c k s) :=
  reschedules_ite (reschedules_leaveService c k _ s) (.refl c s)

theorem reschedules_skipEntry (c : ChannelNo) (k : EntryKey) (s : State) : Reschedules c s (skipEntry c k s) :=
  reschedules_ite (reschedules_setStatus c k _ s) (.refl c s)

theorem reschedules_passEntries (c : ChannelNo) (f : Nat) (s : State) : Reschedules c s (passEntries c f s) :=
  reschedules_setSchedule c _ s

theorem reschedules_clearService (c : ChannelNo) (s : State) : Reschedules c s (clearService c s) :=
  reschedules_foldl (fun t (e : Entry) => reschedules_ite (reschedules_releaseEntry c e.key t)
    (reschedules_ite (reschedules_uncueEntry c e.key t) (.refl c t))) (s.chan c).schedule s

theorem reschedules_uncueFor (c : ChannelNo) (p : Option Place) (s : State) : Reschedules c s (uncueFor c p s) := by
  unfold uncueFor
  split
  · exact reschedules_uncueEntry c _ s
  · exact .refl c s

theorem reschedules_skipShort (c : ChannelNo) (x : Nat) (s : State) : Reschedules c s (skipShort c x s) := by
  unfold skipShort
  split
  · split
    · exact reschedules_ite (reschedules_skipEntry c _ s) (.refl c s)
    · exact .refl c s
  · exact .refl c s

theorem reschedules_cueFor (c : ChannelNo) (dir : Computed) (s : State) : Reschedules c s (cueFor c dir s) := by
  unfold cueFor
  split
  · exact reschedules_cueEntry c _ s
  · exact .refl c s

theorem Reschedules.frameNow (h : Reschedules c s t) : t.frameNow c = s.frameNow c := by
  unfold State.frameNow
  rw [h.self, h.draws]
  rfl

theorem settleFrameNow_cueOut (c : ChannelNo) (s : State) : (settleFrameNow c s).cueOut = s.cueOut := by
  unfold settleFrameNow
  split <;> rfl

/-! ### The server is stopped (R158, R159) -/

/-- A channel whose server has been told to stop. -/
def Channel.serverStopped (x : Channel) : Channel :=
  { x with current := none, next := none, lastTag := (x.lastTag + 1) % 256 }

/-- The STOP of a channel. -/
def stopDirective (c : ChannelNo) (s : State) : Directive :=
  { channel := c, tag := ((s.chan c).lastTag + 1) % 256, rate := (s.chan c).settings.rate, frame := (s.chan c).frame, body := .stop }

theorem stopServer_eq (c : ChannelNo) (s : State) : stopServer c s =
    { modChan c Channel.serverStopped s with cueOut := s.cueOut ++ [stopDirective c s] } := by
  unfold stopServer
  rw [sendDirective_eq, modChan_modChan, chan_modChan_self]
  rfl

/-- What is left of a channel's record and its cue link once the server is stopped and no entry is in service. -/
theorem stopped_spec (c : ChannelNo) (s : State) :
    (∃ y : Channel, (clearService c (stopServer c s)).chan c = y.storing (s.chan c).serverStopped) ∧
    stopDirective c s ∈ (clearService c (stopServer c s)).cueOut := by
  have h := reschedules_clearService c (stopServer c s)
  have hchan : (stopServer c s).chan c = (s.chan c).serverStopped := by
    rw [stopServer_eq]
    exact chan_modChan_self ..
  refine ⟨⟨_, h.self.trans (by rw [hchan])⟩, ?_⟩
  · rw [h.cueOut, stopServer_eq]
    exact List.mem_append_right _ (List.mem_singleton.2 rfl)

/-- A channel that has left DR, with what the Schedule Store wrote and the CHANGEOVER flag taken from another record of it. -/
def Channel.leaving (st : Changeover) (y x : Channel) : Channel :=
  { y.storing x.serverStopped with
    changeover := st, doubt := false, flags := { (y.storing x).flags with changeover := y.flags.changeover } }

/-- STRANDED, with the server stopped (R159). -/
theorem strand_spec (c : ChannelNo) (s : State) :
    (strand c s).chan c = Channel.leaving .stranded ((strand c s).chan c) (s.chan c) ∧ stopDirective c s ∈ (strand c s).cueOut := by
  obtain ⟨⟨y, hchan⟩, hout⟩ := stopped_spec c s
  unfold strand
  constructor
  · rw [setChangeover_self, chan_modChan_self, hchan]
    dsimp only
    split <;> rfl
  · rw [setChangeover_outside]
    exact hout

theorem strand_unserved {n : Nat} (h : InvWith n s) (c : ChannelNo) : ∀ e ∈ ((strand c s).chan c).schedule, e.inService = false := by
  unfold strand
  rw [setChangeover_self, chan_modChan_self]
  exact clearService_unserved (inv_stopServer h c) c

/-- A giveback done: MIRROR, with the server stopped (R158). -/
theorem completeGiveback_spec (c : ChannelNo) (s : State) :
    (completeGiveback c s).chan c =
      { Channel.leaving .mirror ((completeGiveback c s).chan c) (s.chan c) with barrier := none, boundary := none } ∧
    ((s.chan c).changeover ≠ .mirror → ((completeGiveback c s).chan c).flags.changeover = true) ∧
    stopDirective c s ∈ (completeGiveback c s).cueOut := by
  obtain ⟨⟨y, hchan⟩, hout⟩ := stopped_spec c s
  unfold completeGiveback
  refine ⟨?_, fun hne => ?_, ?_⟩
  · rw [setChangeover_self, chan_modChan_self, hchan]
    dsimp only
    split <;> rfl
  · rw [setChangeover_self, chan_modChan_self, hchan, if_pos (by exact hne)]
    rfl
  · rw [setChangeover_outside]
    exact hout

theorem completeGiveback_unserved {n : Nat} (h : InvWith n s) (c : ChannelNo) :
    ∀ e ∈ ((completeGiveback c s).chan c).schedule, e.inService = false := by
  unfold completeGiveback
  rw [setChangeover_self, chan_modChan_self]
  exact clearService_unserved (inv_stopServer h c) c

end StoreFrame

end Sys2Proof.Machine

/-! # Failed directives, and the replies of the server and the router (Chapters 8 and 9) -/

namespace Sys2Proof.Machine

section Replies

open Says

variable {c d : ChannelNo} {s t u v w : State} {es : List Entry} {e : Entry} {k : EntryKey} {p : Place} {tag : Nat}

theorem settleFrameNow_self (c : ChannelNo) (s : State) : (settleFrameNow c s).chan c = s.chan c :=
  settleFrameNow_chan ..

theorem settleFrameNow_frame {f : Nat} (h : (s.chan c).frame = some f) : settleFrameNow c s = s := by
  rw [settleFrameNow, h]

theorem frameNow_frame {f : Nat} (h : (s.chan c).frame = some f) : s.frameNow c = f := by
  rw [State.frameNow, h]

theorem frameNow_raise (c : ChannelNo) (g : ChangeFlag) (s : State) : (raise c g s).frameNow c = s.frameNow c := by
  unfold State.frameNow
  rw [raise_chan_self]
  rfl

/-! ### A joining directive that fails (R147) -/

/-- The joining directive has failed: its entry, and that of the next place, have taken the uncue request. -/
def joiningWithdrawn (c : ChannelNo) (s : State) : State :=
  uncueFor c (s.chan c).next (uncueFor c (s.chan c).current (raise c .cueFault s))

theorem reschedules_joiningWithdrawn (c : ChannelNo) (s : State) : Reschedules c (raise c .cueFault s) (joiningWithdrawn c s) :=
  (reschedules_uncueFor c _ _).trans (reschedules_uncueFor c _ _)

theorem joiningFails_retry (h : (s.chan c).cueRetryUsed = false) : joiningFails c s =
    (let u := modChan c (fun ch => { ch with next := none }) (joiningWithdrawn c s)
     let r := u.frameNow c + (u.chan c).inEffect.cueLead
     settleFrameNow c (sendCurrent c r standbyDirective
       (modChan c (fun ch => { ch with cueRetryUsed := true, rollFrame := some r, joined := none }) u))) := by
  unfold joiningFails
  dsimp only
  rw [if_neg (by rw [h]; exact Bool.false_ne_true)]
  rfl

theorem joiningFails_second (h : (s.chan c).cueRetryUsed = true) :
    joiningFails c s = strand c (uncueFor c (s.chan c).current (raise c .cueFault s)) := by
  unfold joiningFails
  dsimp only
  rw [if_pos h]

/-- The first failure of a joining directive: a STANDBY goes out the cue lead later (R147). -/
theorem joiningFails_retry_chan (h : (s.chan c).cueRetryUsed = false) :
    ∃ y : Channel, (joiningFails c s).chan c = Channel.sendsCurrent (some (placed .standby none (s.frameNow c + (s.chan c).inEffect.cueLead) none))
      { y.storing { s.chan c with flags := (s.chan c).flags.raise .cueFault } with
        next := none, cueRetryUsed := true, rollFrame := some (s.frameNow c + (s.chan c).inEffect.cueLead), joined := none } := by
  have hw := reschedules_joiningWithdrawn c s
  have hself := hw.self
  rw [raise_chan_self] at hself
  refine ⟨(joiningWithdrawn c s).chan c, ?_⟩
  have hnow : (modChan c (fun ch => { ch with next := none }) (joiningWithdrawn c s)).frameNow c = s.frameNow c := by
    rw [← frameNow_raise c .cueFault s, ← hw.frameNow]
    unfold State.frameNow
    rw [chan_modChan_self]
    rfl
  have hlead : ((modChan c (fun ch => { ch with next := none }) (joiningWithdrawn c s)).chan c).inEffect = (s.chan c).inEffect := by
    rw [chan_modChan_self, hself]
    rfl
  rw [joiningFails_retry h]
  dsimp only
  rw [settleFrameNow_self, sendCurrent_standby, hnow, hlead]
  show (modChan c (Channel.sendsCurrent _) _).chan c = _
  rw [chan_modChan_self, chan_modChan_self, chan_modChan_self, placeFor_standby, ← hself]

/-- The second failure strands the channel (R147, R159). -/
theorem joiningFails_second_spec (h : (s.chan c).cueRetryUsed = true) :
    (∃ y z : Channel, (joiningFails c s).chan c =
      Channel.leaving .stranded y (z.storing { s.chan c with flags := (s.chan c).flags.raise .cueFault })) ∧
    ∃ dir ∈ (joiningFails c s).cueOut, dir.channel = c ∧ dir.body = .stop ∧ dir.frame = (s.chan c).frame := by
  have hw := reschedules_uncueFor c (s.chan c).current (raise c .cueFault s)
  have hself := hw.self
  rw [raise_chan_self] at hself
  obtain ⟨hchan, hout⟩ := strand_spec c (uncueFor c (s.chan c).current (raise c .cueFault s))
  rw [joiningFails_second h]
  refine ⟨⟨_, _, hchan.trans (by rw [← hself])⟩, _, hout, rfl, rfl, ?_⟩
  show ((uncueFor c (s.chan c).current (raise c .cueFault s)).chan c).frame = _
  rw [hself]
  rfl

/-! ### A directive of the next place that fails (R154) -/

theorem nextFails_standby (h : p.kind = .standby) (c : ChannelNo) (s : State) : nextFails c p s =
    raise c .outputLost (modChan c (fun x => { x with next := some { p with reply := .failed }, outputLost := true }) (raise c .cueFault s)) := by
  unfold nextFails
  rw [h]
  show raise c .outputLost (modChan c _ (modChan c _ _)) = _
  rw [modChan_modChan]

/-- The entry of a place takes the release request. -/
def releaseFor (c : ChannelNo) (o : Option EntryKey) (s : State) : State :=
  match o with
  | some k => releaseEntry c k s
  | none => s

theorem reschedules_releaseFor (c : ChannelNo) (o : Option EntryKey) (s : State) : Reschedules c s (releaseFor c o s) := by
  cases o with
  | some k => exact reschedules_releaseEntry c k s
  | none => exact .refl c s

theorem nextFails_other (h : p.kind ≠ .standby) (c : ChannelNo) (s : State) : nextFails c p s =
    (let u := releaseFor c p.entry (raise c .cueFault s)
     settleFrameNow c (nextSent c (if u.frameNow c < p.rollFrame then p.rollFrame else u.frameNow c + (u.chan c).inEffect.cueLead)
       standbyDirective u)) := by
  have hsend (x : Nat) (t : State) : sendNext c x standbyDirective t = nextSent c x standbyDirective t := sendNext_eq c x _ t
  cases hk : p.kind with
  | standby => exact absurd hk h
  | roll | live =>
    unfold nextFails
    rw [hk]
    dsimp only
    rw [hsend]
    rfl

theorem nextSent_chan (c : ChannelNo) (x : Nat) (dir : Computed) (s : State) :
    (nextSent c x dir s).chan c = Channel.sendsNext (placeFor dir x) (s.chan c) :=
  chan_modChan_self ..

theorem standbyNext_eq (c : ChannelNo) (x : Nat) (s : State) : standbyNext c x s = nextSent c x standbyDirective s := by
  unfold standbyNext nextSent
  dsimp only
  exact congrArg (fun z : State => ({ z with cueOut := _ } : State)) (modChan_congr rfl)

/-- A ROLL or LIVE that fails gives way to a STANDBY (R154). -/
theorem nextFails_other_chan (h : p.kind ≠ .standby) (c : ChannelNo) (s : State) :
    ∃ y : Channel, (nextFails c p s).chan c =
      Channel.sendsNext (some (placed .standby none
          (if s.frameNow c < p.rollFrame then p.rollFrame else s.frameNow c + (s.chan c).inEffect.cueLead) none))
        (y.storing { s.chan c with flags := (s.chan c).flags.raise .cueFault }) := by
  have hw := reschedules_releaseFor c p.entry (raise c .cueFault s)
  have hself := hw.self
  have hnow := hw.frameNow
  rw [frameNow_raise] at hnow
  rw [raise_chan_self] at hself
  have hlead : ((releaseFor c p.entry (raise c .cueFault s)).chan c).inEffect = (s.chan c).inEffect := by rw [hself]; rfl
  refine ⟨(releaseFor c p.entry (raise c .cueFault s)).chan c, ?_⟩
  rw [nextFails_other h]
  dsimp only
  rw [settleFrameNow_self, nextSent_chan, hnow, hlead, placeFor_standby, ← hself]

theorem nextFails_changeover (c : ChannelNo) (p : Place) (s : State) : ((nextFails c p s).chan c).changeover = (s.chan c).changeover := by
  by_cases h : p.kind = .standby
  · rw [nextFails_standby h, raise_chan_self, chan_modChan_self, raise_chan_self]
  · obtain ⟨y, hy⟩ := nextFails_other_chan h c s
    rw [hy]
    rfl

/-! ### Cue replies (R145, R147, R154, R166) -/

/-- A place holds a directive of a tag still AWAITING. -/
def Awaits (tag : Nat) (o : Option Place) (t : Nat) : Prop :=
  ∃ q, o = some q ∧ q.reply = .awaiting ∧ t = tag

theorem filter_awaiting {o : Option Place} {t : Nat} (h : ¬Awaits tag o t) :
    o.filter (fun p => decide (p.reply = .awaiting) && decide (t = tag)) = none := by
  rw [Option.filter_eq_none_iff]
  intro q hq hb
  rw [Bool.and_eq_true] at hb
  exact h ⟨q, hq, of_decide_eq_true hb.1, of_decide_eq_true hb.2⟩

theorem filter_awaits {o : Option Place} {t : Nat} (hp : o = some p) (h : Awaits tag o t) :
    o.filter (fun p => decide (p.reply = .awaiting) && decide (t = tag)) = some p := by
  obtain ⟨q, hq, hr, ht⟩ := h
  obtain rfl : p = q := Option.some.inj (hp.symm.trans hq)
  rw [hq, Option.filter_some, if_pos (by rw [hr, ht]; simp)]

theorem cueReply_unmatched (h : ¬Awaits tag (s.chan c).current (s.chan c).currentTag) (h' : ¬Awaits tag (s.chan c).next (s.chan c).nextTag)
    (ready : Bool) : cueReply ready c tag s = s := by
  unfold cueReply
  dsimp only
  rw [filter_awaiting h, filter_awaiting h']

theorem cueReply_current (hp : (s.chan c).current = some p) (h : Awaits tag (s.chan c).current (s.chan c).currentTag) (ready : Bool) :
    cueReply ready c tag s =
      if ready then currentReady c p s else if (s.chan c).changeover = .preparing then joiningFails c s else s := by
  unfold cueReply
  dsimp only
  rw [filter_awaits hp h]

theorem cueReply_next (h : ¬Awaits tag (s.chan c).current (s.chan c).currentTag) (hp : (s.chan c).next = some p)
    (h' : Awaits tag (s.chan c).next (s.chan c).nextTag) (ready : Bool) : cueReply ready c tag s =
      if ready then modChan c (fun x => { x with next := some { p with reply := .ready } }) s else nextFails c p s := by
  unfold cueReply
  dsimp only
  rw [filter_awaiting h, filter_awaits hp h']

theorem currentReady_elsewhere (h : (s.chan c).changeover ≠ .preparing) :
    currentReady c p s = modChan c (fun ch => { ch with current := some { p with reply := .ready } }) s := by
  unfold currentReady
  exact if_neg h

theorem takeoverPriority_congr (heff : (t.chan c).inEffect = (s.chan c).inEffect) (hsched : (t.chan c).schedule = (s.chan c).schedule)
    (o : Option EntryKey) : takeoverPriority t c o = takeoverPriority s c o := by
  unfold takeoverPriority
  rw [heff, hsched]

/-- The request of a takeover reads the channel's settings in effect, its schedule and its joined entry only. -/
theorem requestTakeover_eq (release : Nat) (heff : (t.chan c).inEffect = (s.chan c).inEffect)
    (hsched : (t.chan c).schedule = (s.chan c).schedule) (hj : (t.chan c).joined = (s.chan c).joined) :
    requestTakeover c release t = placeRequest
      { channel := c, direction := .dr, release := release, priority := takeoverPriority s c (s.chan c).joined } t := by
  rw [requestTakeover, takeoverPriority_congr heff hsched, hj]

theorem releasePulse_modChan {f : Channel → Channel} (h : (f (s.chan c)).settings = (s.chan c).settings) (n x : Nat) :
    releasePulse (modChan c f s) c n x = releasePulse s c n x := by
  unfold releasePulse pulseOfFrame
  rw [chan_modChan_self, h]
  rfl

/-- READY of the joining directive: TAKE_PENDING, with the take requested (R145). -/
theorem currentReady_preparing (h : (s.chan c).changeover = .preparing) : currentReady c p s = settleFrameNow c (placeRequest
    { channel := c, direction := .dr, release := releasePulse s c (s.frameNow c) p.rollFrame,
      priority := takeoverPriority s c (s.chan c).joined }
    (setChangeover c .takePending (modChan c (fun x => { x with current := some { p with reply := .ready } }) s))) := by
  have hnow : (modChan c (fun x => { x with current := some { p with reply := .ready } }) s).frameNow c = s.frameNow c := by
    unfold State.frameNow
    rw [chan_modChan_self]
    rfl
  unfold currentReady
  dsimp only
  rw [if_pos h, hnow, releasePulse_modChan rfl]
  refine congrArg _ (requestTakeover_eq _ ?_ ?_ ?_) <;> rw [setChangeover_self, chan_modChan_self]

theorem replyWellFormed_iff (a b : Nat) (kind l1 l2 : Byte) (body : List Byte) :
    replyWellFormed a b (kind :: l1 :: l2 :: body) = true ↔
      (kind.toNat = a ∨ kind.toNat = b) ∧ 256 * l1.toNat + l2.toNat = body.length ∧ (parseReply body).isSome = true := by
  simp [replyWellFormed, numberOf, and_assoc]

theorem replyWellFormed_short (a b : Nat) {bytes : List Byte} (h : bytes.length < 3) : replyWellFormed a b bytes = false := by
  match bytes, h with
  | [], _ | [_], _ | [_, _], _ => rfl

theorem ofCue_malformed {bytes : List Byte} (h : ¬replyWellFormed 0x28 0x29 bytes = true) : ofCue bytes = .malformedCueReply bytes := by
  unfold ofCue
  rw [Bool.eq_false_iff.2 h]

theorem ofRouter_malformed {bytes : List Byte} (h : ¬replyWellFormed 0x38 0x39 bytes = true) :
    ofRouter bytes = .malformedRouterReply bytes := by
  unfold ofRouter
  rw [Bool.eq_false_iff.2 h]

theorem ofCue_wellFormed {kind l1 l2 : Byte} {body : List Byte} (h : replyWellFormed 0x28 0x29 (kind :: l1 :: l2 :: body) = true) :
    ofCue (kind :: l1 :: l2 :: body) = if kind.toNat = 0x28 then .cueReady body else .cueFail body := by
  unfold ofCue
  rw [h]

theorem ofRouter_wellFormed {kind l1 l2 : Byte} {body : List Byte} (h : replyWellFormed 0x38 0x39 (kind :: l1 :: l2 :: body) = true) :
    ofRouter (kind :: l1 :: l2 :: body) = if kind.toNat = 0x38 then .routerDone body else .routerFail body := by
  unfold ofRouter
  rw [h]

/-- The kind byte of a delivered reply picks its command (R166, R175, R196). -/
theorem replyKinds_read (l1 l2 : Byte) (body : List Byte) : ∀ k ∈ replyKinds body,
    (256 * l1.toNat + l2.toNat = body.length → (parseReply body).isSome → k.1 (k.2.1 :: l1 :: l2 :: body) = k.2.2.1) ∧
    (256 * l1.toNat + l2.toNat ≠ body.length ∨ parseReply body = none →
      k.1 (k.2.1 :: l1 :: l2 :: body) = k.2.2.2 (k.2.1 :: l1 :: l2 :: body)) := by
  have hbad {a b : Nat} {kind : Byte} (h : 256 * l1.toNat + l2.toNat ≠ body.length ∨ parseReply body = none) :
      ¬replyWellFormed a b (kind :: l1 :: l2 :: body) = true := by
    rw [replyWellFormed_iff]
    rintro ⟨-, hlen, hsome⟩
    rcases h with h | h
    · exact h hlen
    · rw [h] at hsome; cases hsome
  have hgood {a b : Nat} {kind : Byte} (hk : kind.toNat = a ∨ kind.toNat = b) (hlen : 256 * l1.toNat + l2.toNat = body.length)
      (hp : (parseReply body).isSome = true) : replyWellFormed a b (kind :: l1 :: l2 :: body) = true :=
    (replyWellFormed_iff a b kind l1 l2 body).2 ⟨hk, hlen, hp⟩
  intro k hk
  simp only [replyKinds, List.mem_cons, List.not_mem_nil, or_false] at hk
  rcases hk with rfl | rfl | rfl | rfl
  · exact ⟨fun hl hp => ofCue_wellFormed (hgood (.inl rfl) hl hp), fun h => ofCue_malformed (hbad h)⟩
  · exact ⟨fun hl hp => ofCue_wellFormed (hgood (.inr rfl) hl hp), fun h => ofCue_malformed (hbad h)⟩
  · exact ⟨fun hl hp => ofRouter_wellFormed (hgood (.inl rfl) hl hp), fun h => ofRouter_malformed (hbad h)⟩
  · exact ⟨fun hl hp => ofRouter_wellFormed (hgood (.inr rfl) hl hp), fun h => ofRouter_malformed (hbad h)⟩

/-- A kind byte that is neither of a link's two. -/
theorem replyWellFormed_otherKind {x y kind : Byte} (hx : kind ≠ x) (hy : kind ≠ y) (l1 l2 : Byte) (body : List Byte) :
    ¬replyWellFormed x.toNat y.toNat (kind :: l1 :: l2 :: body) = true := by
  rw [replyWellFormed_iff]
  rintro ⟨h | h, -⟩
  · exact hx (BitVec.eq_of_toNat_eq h)
  · exact hy (BitVec.eq_of_toNat_eq h)

/-- Settles O57. -/
theorem cueRepliesAreMatched : Obligations.CueRepliesAreMatched := by
  refine ⟨fun l1 l2 body => ⟨replyKinds_read l1 l2 body, fun kind hx hy => ?_, fun kind hx hy => ?_⟩, fun bytes h => ?_, fun body s => ⟨?_, ?_, ?_⟩⟩
  · exact ofCue_malformed (replyWellFormed_otherKind hx hy l1 l2 body)
  · exact ofRouter_malformed (replyWellFormed_otherKind hx hy l1 l2 body)
  · exact ⟨ofCue_malformed (by rw [replyWellFormed_short _ _ h]; exact Bool.false_ne_true),
      ofRouter_malformed (by rw [replyWellFormed_short _ _ h]; exact Bool.false_ne_true)⟩
  · simp only [List.mem_cons, List.not_mem_nil, or_false]
    rintro i (rfl | rfl) <;> rfl
  · intro hp
    simp only [List.mem_cons, List.not_mem_nil, or_false]
    rintro i (rfl | rfl | rfl | rfl)
    all_goals
      refine congrArg Host.Outcome.next ?_
      rw [hp]
  · intro c tag hp ch mine
    have hready : exec (.cueReady body) s = .next (cueReply true c tag s) := by
      refine congrArg Host.Outcome.next ?_
      rw [hp]
    have hfail : exec (.cueFail body) s = .next (cueReply false c tag s) := by
      refine congrArg Host.Outcome.next ?_
      rw [hp]
    rw [hready, hfail]
    refine ⟨fun h h' => ?_, fun p hcur hm => ⟨fun hne => ?_, fun heq => ?_, fun heq hr => ?_, fun heq hr => ?_⟩,
      fun p hm hnext hm' => ⟨?_, fun hk => ?_, fun hk => ?_⟩⟩
    · exact ⟨congrArg _ (cueReply_unmatched h h' true), congrArg _ (cueReply_unmatched h h' false)⟩
    · rw [cueReply_current hcur hm, cueReply_current hcur hm, currentReady_elsewhere hne, if_neg hne]
      exact ⟨rfl, rfl⟩
    · rw [cueReply_current hcur hm, currentReady_preparing heq]
      rfl
    · have hval : cueReply false c tag s = joiningFails c s := (cueReply_current hcur hm false).trans (if_pos heq)
      obtain ⟨y, hy⟩ := joiningFails_retry_chan hr
      refine ⟨_, congrArg _ hval, ?_⟩
      rw [hy]
      exact ⟨heq, rfl, rfl, rfl, rfl⟩
    · have hval : cueReply false c tag s = joiningFails c s := (cueReply_current hcur hm false).trans (if_pos heq)
      obtain ⟨⟨y, z, hy⟩, hstop⟩ := joiningFails_second_spec hr
      refine ⟨_, congrArg _ hval, ?_⟩
      rw [hy]
      exact ⟨rfl, rfl, rfl, rfl, hstop⟩
    · rw [cueReply_next hm hnext hm']
      rfl
    · rw [cueReply_next hm hnext hm']
      exact congrArg _ (nextFails_standby hk c s)
    · have hval : cueReply false c tag s = nextFails c p s := cueReply_next hm hnext hm' false
      obtain ⟨y, hy⟩ := nextFails_other_chan hk c s
      refine ⟨_, _, congrArg _ hval, rfl, ?_⟩
      rw [hy]
      exact ⟨rfl, rfl, rfl⟩

/-! ### Router replies (R148, R149, R158, R160, R175) -/

theorem routerReply_unmatched (h : ∀ o, (s.chan c).outstanding = some o → o.tag ≠ tag) (done : Bool) : routerReply done c tag s = s := by
  have hnone : (s.chan c).outstanding.filter (fun o => decide (o.tag = tag)) = none := by
    rw [Option.filter_eq_none_iff]
    exact fun o ho hb => h o ho (of_decide_eq_true hb)
  rw [routerReply, hnone]

theorem routerReply_matched {o : OutstandingTake} (ho : (s.chan c).outstanding = some o) (ht : o.tag = tag) (done : Bool) :
    routerReply done c tag s =
      if done then takeDone c o.direction (endTake c s) else takeFailed c o.direction (raise c .routerFault (endTake c s)) := by
  have hsome : (s.chan c).outstanding.filter (fun o => decide (o.tag = tag)) = some o := by
    rw [ho, Option.filter_some, if_pos (decide_eq_true ht)]
  rw [routerReply, hsome]

theorem takeDone_elsewhere {dir : Direction} (h : dir = .dr → (s.chan c).changeover ≠ .takePending)
    (h' : dir = .main → (s.chan c).changeover ≠ .returning) : takeDone c dir s = s := by
  cases dir with
  | dr =>
    unfold takeDone
    split
    · rename_i hc; exact absurd hc (h rfl)
    · rename_i hd _; cases hd
    · rfl
  | main =>
    unfold takeDone
    split
    · rename_i hd _; cases hd
    · rename_i hc; exact absurd hc (h' rfl)
    · rfl

theorem takeFailed_elsewhere {dir : Direction} (h : dir = .dr → (s.chan c).changeover ≠ .takePending)
    (h' : dir = .main → (s.chan c).changeover ≠ .returning) : takeFailed c dir s = s := by
  cases dir with
  | dr =>
    unfold takeFailed
    split
    · rename_i hc; exact absurd hc (h rfl)
    · rename_i hd _; cases hd
    · rfl
  | main =>
    unfold takeFailed
    split
    · rename_i hd _; cases hd
    · rename_i hc; exact absurd hc (h' rfl)
    · rfl

theorem latencyAt_stated {f n : Nat} (hf : (s.chan c).frame = some f) (hd : (s.chan c).decisionFrame = some n) (h : n ≤ f) :
    latencyAt s c f = f - n := by
  rw [latencyAt, hf, hd]
  exact if_pos h

/-- DONE of a takeover with a stated latency (R148). -/
theorem takeDone_takeover {f n : Nat} (hc : (s.chan c).changeover = .takePending) (hf : (s.chan c).frame = some f)
    (hd : (s.chan c).decisionFrame = some n) (h : n ≤ f) : takeDone c .dr s =
      raise c .changeover (modChan c (fun x => { x with changeover := .onDr, takeLatency := some (f - n) }) { s with draws := s.draws + 1 }) := by
  have hrec : takeDone c .dr s = setChangeover c .onDr
      (modChan c (fun ch => { ch with takeLatency := some (f - n) }) { s with draws := s.draws + 1 }) := by
    unfold takeDone
    rw [hc]
    dsimp only
    rw [frameNow_frame hf, latencyAt_stated hf hd h]
    rfl
  have hst : ((modChan c (fun ch => { ch with takeLatency := some (f - n) }) { s with draws := s.draws + 1 }).chan c).changeover =
      .takePending := by
    rw [chan_modChan_self]
    exact hc
  rw [hrec, setChangeover_engaged (by rw [hst]; decide) (by rw [hst]; decide), modChan_modChan]

theorem takeDone_giveback (hc : (s.chan c).changeover = .returning) : takeDone c .main s = completeGiveback c s := by
  unfold takeDone
  rw [hc]

/-- FAIL of a giveback (R160). -/
theorem takeFailed_giveback (hc : (s.chan c).changeover = .returning) : takeFailed c .main s =
    raise c .changeover (modChan c (fun x => { x with changeover := .onDr, barrier := x.boundary }) s) := by
  have hst : ((modChan c (fun ch => { ch with barrier := ch.boundary }) s).chan c).changeover = .returning := by
    rw [chan_modChan_self]
    exact hc
  unfold takeFailed
  rw [hc]
  dsimp only
  rw [setChangeover_engaged (by rw [hst]; decide) (by rw [hst]; decide), modChan_modChan]

theorem takeFailed_first (hc : (s.chan c).changeover = .takePending) (hr : (s.chan c).routerRetryUsed = false) : takeFailed c .dr s =
    requestTakeover c (releaseNow s) (modChan c (fun ch => { ch with routerRetryUsed := true }) s) := by
  unfold takeFailed
  rw [hc]
  dsimp only
  rw [if_neg (by rw [hr]; exact Bool.false_ne_true)]

theorem takeFailed_second (hc : (s.chan c).changeover = .takePending) (hr : (s.chan c).routerRetryUsed = true) :
    takeFailed c .dr s = strand c s := by
  unfold takeFailed
  rw [hc]
  exact if_pos hr

theorem releaseNow_endTake (c : ChannelNo) (g : ChangeFlag) (s : State) : releaseNow (raise c g (endTake c s)) = releaseNow s := by
  unfold releaseNow
  rw [raise_family]
  rfl

/-- Settles O58. -/
theorem routerRepliesAreMatched : Obligations.RouterRepliesAreMatched := by
  intro body c tag s hinv hp ch done fail
  have hdone : done = .next (routerReply true c tag s) := by
    refine congrArg Host.Outcome.next ?_
    rw [hp]
  have hfail : fail = .next (routerReply false c tag s) := by
    refine congrArg Host.Outcome.next ?_
    rw [hp]
  clear_value done fail
  subst hdone hfail
  refine ⟨fun h => ⟨congrArg _ (routerReply_unmatched h true), congrArg _ (routerReply_unmatched h false)⟩, fun o ho ht => ?_⟩
  have hdone : routerReply true c tag s = takeDone c o.direction (endTake c s) := routerReply_matched ho ht true
  have hfail : routerReply false c tag s = takeFailed c o.direction (raise c .routerFault (endTake c s)) := routerReply_matched ho ht false
  have ht : (endTake c s).chan c = { ch with outstanding := none } := chan_modChan_self ..
  have hf : (raise c .routerFault (endTake c s)).chan c = { ch with outstanding := none, flags := ch.flags.raise .routerFault } := by
    rw [raise_chan_self, ht]
  have hinvt : InvWith 0 (endTake c s) := inv_endTake hinv c
  rw [hdone, hfail]
  refine ⟨fun n f hd hc hframe hn hle => ?_, fun hd hc => ?_, fun hd hc => ?_, fun hd hc => ?_, fun hd hc => ?_, fun hd hc hr => ?_, fun hd hc hr => ?_⟩
  · rw [hd, takeDone_takeover (by rw [ht]; exact hc) (by rw [ht]; exact hframe) (by rw [ht]; exact hn) hle]
    rfl
  · exact ⟨congrArg _ (takeDone_elsewhere (fun _ => by rw [ht]; exact hc) (fun h => by rw [hd] at h; cases h)),
      congrArg _ (takeFailed_elsewhere (fun _ => by rw [hf]; exact hc) (fun h => by rw [hd] at h; cases h))⟩
  · exact ⟨congrArg _ (takeDone_elsewhere (fun h => by rw [hd] at h; cases h) (fun _ => by rw [ht]; exact hc)),
      congrArg _ (takeFailed_elsewhere (fun h => by rw [hd] at h; cases h) (fun _ => by rw [hf]; exact hc))⟩
  · obtain ⟨hchan, hflag, hstop⟩ := completeGiveback_spec c (endTake c s)
    have hunserved := completeGiveback_unserved hinvt c
    rw [ht] at hchan hflag
    refine ⟨_, by rw [hd, takeDone_giveback (by rw [ht]; exact hc)], ?_⟩
    generalize completeGiveback c (endTake c s) = u at *
    refine ⟨by rw [hchan]; rfl, by rw [hchan]; rfl, by rw [hchan]; rfl, by rw [hchan]; rfl, by rw [hchan]; rfl, by rw [hchan],
      hflag (by rw [show ch.changeover = _ from hc]; decide), ⟨_, hstop, rfl, rfl, ?_⟩, hunserved⟩
    show ((endTake c s).chan c).frame = ch.frame
    rw [ht]
  · rw [hd, takeFailed_giveback (by rw [hf]; exact hc)]
    rfl
  · rw [hd, takeFailed_first (by rw [hf]; exact hc) (by rw [hf]; exact hr), releaseNow_endTake]
    refine congrArg _ (requestTakeover_eq _ ?_ ?_ ?_) <;> rw [chan_modChan_self, hf]
  · obtain ⟨hchan, -⟩ := strand_spec c (raise c .routerFault (endTake c s))
    have hunserved := strand_unserved (inv_raise hinvt c .routerFault) c
    rw [hf] at hchan
    refine ⟨_, by rw [hd, takeFailed_second (by rw [hf]; exact hc) (by rw [hf]; exact hr)], ?_⟩
    generalize strand c (raise c .routerFault (endTake c s)) = u at *
    exact ⟨by rw [hchan]; rfl, by rw [hchan]; rfl, by rw [hchan]; rfl, by rw [hchan]; rfl, by rw [hchan]; rfl, hunserved⟩

end Replies

end Sys2Proof.Machine

/-! # The changeover's part of a frame event (sections 8.2 to 8.6) -/

namespace Sys2Proof.Machine

section Changeovers

open Says

variable {c d : ChannelNo} {s t u v w : State} {es : List Entry} {e : Entry} {k : EntryKey} {p : Place} {f : Nat}

theorem couBegun_eq (c : ChannelNo) (s : State) : couBegun c s = modChan c (beginPart .cou) s := rfl

theorem exec_cou {i : Instr} (hdue : .cou ∈ (s.chan c).due) (hi : i ∈ couRows c) : exec i s = .next (couFrame c (couBegun c s)) := by
  rw [exec_couRow hi, takeBlock_due hdue]; rfl

theorem clearDoubt_eq (c : ChannelNo) (s : State) : clearDoubt c s = doubtCleared c s := rfl

/-- Clearing the doubt mark writes nothing else of the channel. -/
theorem doubtCleared_chan (c : ChannelNo) (s : State) :
    (doubtCleared c s).chan c = { s.chan c with doubt := ((doubtCleared c s).chan c).doubt } := by
  unfold doubtCleared
  split
  · rw [chan_modChan_self]
  · rfl

/-! ### The frame event by changeover state -/

section States

variable (hf : (s.chan c).frame = some f)

include hf

theorem couFrame_mirror (h : (s.chan c).changeover = .mirror) :
    couFrame c s = if mayStartTakeover (s.chan c) ∧ (s.chan c).supervision = .tripped then startTakeover c s else s := by
  unfold couFrame
  rw [hf]
  dsimp only
  rw [h]

theorem couFrame_stranded (h : (s.chan c).changeover = .stranded) : couFrame c s = passEntries c f s := by
  unfold couFrame
  rw [hf]
  dsimp only
  rw [h]

theorem couFrame_awaitConfirm (h : (s.chan c).changeover = .awaitConfirm) : couFrame c s =
    (let t := modChan c (fun ch => { ch with confirmTimer := ch.confirmTimer + 1 }) (passEntries c f s)
     if (t.chan c).inEffect.confirm ≤ (t.chan c).confirmTimer then enterPreparing c t else t) := by
  unfold couFrame
  rw [hf]
  dsimp only
  rw [h]

theorem couFrame_held (h : (s.chan c).changeover.held = true) : couFrame c s =
    (let t := currentDeadline c f (doubtCleared c s)
     if (t.chan c).changeover = .stranded then passEntries c f t else heldSteps c f t) := by
  unfold couFrame
  rw [hf]
  cases hc : (s.chan c).changeover with
  | mirror | awaitConfirm | stranded => rw [hc] at h; cases h
  | preparing | takePending | onDr | returning => rfl

end States

/-! ### The deadlines (R147, R154, R167) -/

theorem missed_iff (p : Place) (f : Nat) : p.missed f = true ↔ p.reply = .awaiting ∧ p.rollFrame = f := by
  simp [Place.missed]

theorem currentDeadline_kept (h : (s.chan c).changeover = .preparing → ∀ p, (s.chan c).current = some p → p.reply ≠ .awaiting ∨ p.rollFrame ≠ f) :
    currentDeadline c f s = s := by
  unfold currentDeadline
  split
  · rename_i p hp
    refine if_neg ?_
    rintro ⟨hm, hc⟩
    obtain ⟨hr, hx⟩ := (missed_iff p f).1 hm
    rcases h hc p hp with h | h
    · exact h hr
    · exact h hx
  · rfl

theorem currentDeadline_missed (hc : (s.chan c).changeover = .preparing) (hp : (s.chan c).current = some p)
    (hr : p.reply = .awaiting) (hx : p.rollFrame = f) : currentDeadline c f s = joiningFails c s := by
  unfold currentDeadline
  rw [hp]
  exact if_pos ⟨(missed_iff p f).2 ⟨hr, hx⟩, hc⟩

theorem nextDeadline_kept (h : ∀ p, (s.chan c).next = some p → p.reply ≠ .awaiting ∨ p.rollFrame ≠ f) : nextDeadline c f s = s := by
  unfold nextDeadline
  split
  · rename_i p hp
    refine if_neg (fun hm => ?_)
    obtain ⟨hr, hx⟩ := (missed_iff p f).1 hm
    rcases h p hp with h | h
    · exact h hr
    · exact h hx
  · rfl

theorem nextDeadline_missed (hp : (s.chan c).next = some p) (hr : p.reply = .awaiting) (hx : p.rollFrame = f) :
    nextDeadline c f s = nextFails c p s := by
  unfold nextDeadline
  rw [hp]
  exact if_pos ((missed_iff p f).2 ⟨hr, hx⟩)

theorem nextDeadline_changeover (c : ChannelNo) (f : Nat) (s : State) :
    ((nextDeadline c f s).chan c).changeover = (s.chan c).changeover := by
  unfold nextDeadline
  split
  · split
    · exact nextFails_changeover c _ s
    · rfl
  · rfl

/-! ### The steps of a held channel (R150 to R155) -/

theorem rollStep_preparing (h : (s.chan c).changeover = .preparing) : rollStep c f s = s := if_pos h

theorem reschedules_finishStep (c : ChannelNo) (f : Nat) (s : State) : Reschedules c s (finishStep c f s) := by
  unfold finishStep
  split
  · refine reschedules_ite ?_ (.refl c s)
    split
    · exact reschedules_finishEntry c _ s
    · exact .refl c s
  · exact .refl c s

theorem finishStep_unrolled (h : ∀ p, (s.chan c).current = some p → p.rolled = false) : finishStep c f s = s := by
  unfold finishStep
  split
  · rename_i p _ hp _
    exact if_neg (fun hr => by rw [h p hp] at hr; cases hr.1)
  · rfl

/-- A channel's record with what the Schedule Store and the plan step write taken from another record of it. -/
def Channel.planning (y x : Channel) : Channel :=
  { y.storing x with next := y.next, nextTag := y.nextTag, lastTag := y.lastTag }

theorem planning_storing (z y x : Channel) : z.planning (y.storing x) = z.planning x := rfl

theorem planning_changeover (z x : Channel) : (z.planning x).changeover = x.changeover := rfl

theorem storing_changeover (z x : Channel) : (z.storing x).changeover = x.changeover := rfl

theorem storing_sendsNext (z x : Channel) (o : Option Place) : z.storing (Channel.sendsNext o x) =
    (z.storing (Channel.sendsNext o x)).planning x := rfl

theorem sendNext_chan (c : ChannelNo) (x : Nat) (dir : Computed) (s : State) :
    (sendNext c x dir s).chan c = ((sendNext c x dir s).chan c).planning (s.chan c) := by
  rw [sendNext_eq]
  have hself := (reschedules_cueFor c dir (nextSent c x dir s)).self
  rw [nextSent_chan] at hself
  rw [hself]
  exact storing_sendsNext _ _ _

theorem planStep_cases (c : ChannelNo) (f : Nat) (s : State) :
    planStep c f s = s ∨ ∃ y, planStep c f s = sendNext c y (computeDirective s c y) (skipShort c y s) := by
  unfold planStep
  dsimp only
  split
  · exact .inl rfl
  · split
    · exact .inl rfl
    · split
      · exact .inl rfl
      · exact .inr ⟨_, rfl⟩

theorem planStep_chan (c : ChannelNo) (f : Nat) (s : State) : ∃ y : Channel, (planStep c f s).chan c = y.planning (s.chan c) := by
  rcases planStep_cases c f s with h | ⟨y, h⟩
  · exact ⟨s.chan c, by rw [h]; rfl⟩
  · rw [h]
    have hsend := sendNext_chan c y (computeDirective s c y) (skipShort c y s)
    rw [(reschedules_skipShort c y s).self, planning_storing] at hsend
    exact ⟨_, hsend⟩

theorem automaticGiveback_elsewhere (h : (s.chan c).changeover ≠ .onDr) : automaticGiveback c f s = s :=
  if_neg (fun hg => h hg.1)

/-- The steps of a channel that is PREPARING after its deadlines. -/
theorem heldSteps_preparing (h : (s.chan c).changeover = .preparing) : heldSteps c f s =
    planStep c f (passEntries c f (finishStep c f (nextDeadline c f s))) := by
  have h1 : ((nextDeadline c f s).chan c).changeover = .preparing := (nextDeadline_changeover c f s).trans h
  have h2 : ((passEntries c f (finishStep c f (nextDeadline c f s))).chan c).changeover = .preparing := by
    rw [((reschedules_finishStep c f _).trans (reschedules_passEntries c f _)).self, storing_changeover, h1]
  have h3 : ((planStep c f (passEntries c f (finishStep c f (nextDeadline c f s)))).chan c).changeover = .preparing := by
    obtain ⟨z, hz⟩ := planStep_chan c f (passEntries c f (finishStep c f (nextDeadline c f s)))
    rw [hz, planning_changeover, h2]
  unfold heldSteps
  rw [rollStep_preparing h1, automaticGiveback_elsewhere (by rw [h3]; decide)]

theorem inService_passOver {es : List Entry} (h : ∀ e ∈ es, e.inService = false) : ∀ e ∈ passOver f es, e.inService = false := by
  intro e he
  obtain ⟨q, hq, rfl⟩ := List.mem_map.1 he
  split
  · rfl
  · exact h _ (mem_of_mem_spans hq)

theorem passEntries_schedule (c : ChannelNo) (f : Nat) (s : State) :
    ((passEntries c f s).chan c).schedule = passOver f (s.chan c).schedule := by
  rw [passEntries, setSchedule_schedule, if_pos rfl]

theorem passEntries_tidy (h : (s.chan c).Tidy) (f : Nat) : ((passEntries c f s).chan c).Tidy := by
  obtain ⟨hheld, hn⟩ := h
  rw [passEntries_eq hheld, rescheduled_chan]
  refine ⟨rfl, ?_⟩
  have hkeys : (passOver f (s.chan c).schedule).map Entry.key = (s.chan c).schedule.map Entry.key := by
    rw [← congrArg (List.map Entry.key) (spans_fst (s.chan c).schedule)]
    unfold passOver
    rw [List.map_map, List.map_map]
    refine List.map_congr_left (fun q _ => ?_)
    dsimp only [Function.comp_apply]
    split <;> rfl
  rw [hkeys]
  exact hn

/-- Settles O49. -/
theorem changeoverAtFrameEvent : Obligations.ChangeoverAtFrameEvent := by
  intro c f s hinv hdue hframe i hi v ch counted starts
  have hexec : exec i s = .next (couFrame c v) := exec_cou hdue hi
  have hvchan : v.chan c = beginPart .cou (s.chan c) := chan_modChan_self ..
  have hf : (v.chan c).frame = some f := by rw [hvchan]; exact hframe
  have hvinv : InvWith 0 v := inv_modChan hinv c (beginPart .cou)
  have hhost : v.hostPresent = s.hostPresent := rfl
  have htidy : (v.chan c).Tidy := tidy_of_law (hvinv.channels c)
  clear_value v
  have hnow : v.frameNow c = f := frameNow_frame hf
  have hstarts : mayStartTakeover (v.chan c) = true ∧ (v.chan c).supervision = .tripped ↔ ch.changeover = .mirror ∧ starts := by
    rw [mayStartTakeover_iff]
    exact ⟨fun ⟨⟨h1, h2, h3⟩, h4⟩ => ⟨h2, h1, h3, h4⟩, fun ⟨h2, h1, h3, h4⟩ => ⟨⟨h1, h2, h3⟩, h4⟩⟩
  have hcounted : counted.chan c = { (passEntries c f v).chan c with confirmTimer := ch.confirmTimer + 1 } := by
    show (modChan c _ (passEntries c f v)).chan c = _
    rw [chan_modChan_self, (reschedules_passEntries c f v).self]
    rfl
  have hcf : (counted.chan c).frame = some f := by
    rw [hcounted, (reschedules_passEntries c f v).self]
    exact hf
  have hceff : (counted.chan c).inEffect = ch.inEffect := by
    rw [hcounted, (reschedules_passEntries c f v).self]
    rfl
  have hcst : (counted.chan c).changeover = ch.changeover := by
    rw [hcounted, (reschedules_passEntries c f v).self]
    rfl
  have hctidy : (counted.chan c).Tidy := by
    rw [hcounted]
    exact passEntries_tidy htidy f
  have hconfirm (h : ch.changeover = .awaitConfirm) : couFrame c v =
      if ch.inEffect.confirm ≤ ch.confirmTimer + 1 then enterPreparing c counted else counted := by
    have hrec : couFrame c v = if (counted.chan c).inEffect.confirm ≤ (counted.chan c).confirmTimer then enterPreparing c counted
        else counted := couFrame_awaitConfirm hf h
    rw [hrec, hceff, hcounted]
  have hdoubt := doubtCleared_chan c v
  have hdinv : InvWith 0 (doubtCleared c v) := inv_clearDoubt hvinv c
  have hdnow : (doubtCleared c v).frameNow c = f := frameNow_frame (by rw [hdoubt]; exact hf)
  have hprep (h : ch.changeover = .preparing) := couFrame_held hf (show (v.chan c).changeover.held = true by
    rw [show (v.chan c).changeover = _ from h]; rfl)
  refine ⟨fun hm hno => ?_, fun hm hs => ?_, fun ha hlt => ?_, fun ha hle => ?_, fun hst => ?_, fun hp hkept => ?_,
    fun p hp hcur hr hx hu => ?_, fun p hp hcur hr hx hu => ?_⟩
  · rw [hexec, couFrame_mirror hf hm, if_neg (fun h => hno (hstarts.1 h).2)]
  · obtain ⟨-, -, hwait, hgo⟩ := startTakeover_spec htidy hm
    rw [hhost] at hwait hgo
    refine ⟨_, by rw [hexec, couFrame_mirror hf hm, if_pos (hstarts.2 ⟨hm, hs⟩)], hwait, fun h => ?_⟩
    obtain ⟨hst, hdec, hroll⟩ := hgo h
    exact ⟨hst, by rw [hdec, hf], by rw [hroll, hnow]⟩
  · rw [hexec, hconfirm ha, if_neg hlt.not_ge]
  · obtain ⟨b, dir, q, es, hbegun⟩ := enterPreparing_begun hctidy (by rw [hcst, ha]; decide)
    refine ⟨_, by rw [hexec, hconfirm ha, if_pos hle], ?_⟩
    rw [hbegun.1, frameNow_frame hcf, hceff]
    exact ⟨rfl, hcf, rfl⟩
  · rw [hexec, couFrame_stranded hf hst]
  · have hd : currentDeadline c f (doubtCleared c v) = doubtCleared c v :=
      currentDeadline_kept (fun _ q hq => hkept q (by rw [hdoubt] at hq; exact hq))
    have hdp : ((doubtCleared c v).chan c).changeover = .preparing := by rw [hdoubt]; exact hp
    have hval : couFrame c v = planStep c f (passEntries c f (finishStep c f (nextDeadline c f (doubtCleared c v)))) := by
      rw [hprep hp]
      dsimp only
      rw [hd, if_neg (by rw [hdp]; decide), heldSteps_preparing hdp]
    refine ⟨by rw [hexec, hval], fun hun hno => ?_⟩
    rw [hexec, hval, nextDeadline_kept (fun q hq => hno q (by rw [hdoubt] at hq; exact hq)),
      finishStep_unrolled (fun q hq => hun q (by rw [hdoubt] at hq; exact hq))]
  · have hdp : ((doubtCleared c v).chan c).changeover = .preparing := by rw [hdoubt]; exact hp
    have hd : currentDeadline c f (doubtCleared c v) = joiningFails c (doubtCleared c v) :=
      currentDeadline_missed hdp (by rw [hdoubt]; exact hcur) hr hx
    obtain ⟨y, hy⟩ := joiningFails_retry_chan (c := c) (s := doubtCleared c v) (by rw [hdoubt]; exact hu)
    have hstay : ((joiningFails c (doubtCleared c v)).chan c).changeover = .preparing := by rw [hy]; exact hdp
    have hval : couFrame c v = planStep c f (passEntries c f (joiningFails c (doubtCleared c v))) := by
      rw [hprep hp]
      dsimp only
      rw [hd, if_neg (by rw [hstay]; decide), heldSteps_preparing hstay, nextDeadline_kept (by rw [hy]; exact nofun),
        finishStep_unrolled (by rw [hy]; rintro q ⟨⟩; rfl)]
    refine ⟨_, hexec.trans (congrArg _ hval), ?_⟩
    obtain ⟨z, hz⟩ := planStep_chan c f (passEntries c f (joiningFails c (doubtCleared c v)))
    rw [hz, (reschedules_passEntries c f _).self, planning_storing, hy, hdnow, hdoubt]
    exact ⟨hp, rfl, rfl, rfl, rfl⟩
  · have hdp : ((doubtCleared c v).chan c).changeover = .preparing := by rw [hdoubt]; exact hp
    have hd : currentDeadline c f (doubtCleared c v) = joiningFails c (doubtCleared c v) :=
      currentDeadline_missed hdp (by rw [hdoubt]; exact hcur) hr hx
    have hdu : ((doubtCleared c v).chan c).cueRetryUsed = true := by rw [hdoubt]; exact hu
    obtain ⟨⟨y, z, hy⟩, dir, hdir, hc, hb, hdf⟩ := joiningFails_second_spec hdu
    have hstay : ((joiningFails c (doubtCleared c v)).chan c).changeover = .stranded := by rw [hy]; rfl
    have hval : couFrame c v = passEntries c f (joiningFails c (doubtCleared c v)) := by
      rw [hprep hp]
      dsimp only
      rw [hd, if_pos hstay]
    have hpass := reschedules_passEntries c f (joiningFails c (doubtCleared c v))
    have hunserved : ∀ e ∈ ((joiningFails c (doubtCleared c v)).chan c).schedule, e.inService = false := by
      rw [joiningFails_second hdu]
      exact strand_unserved (inv_uncueFor (inv_raise hdinv c .cueFault) c _) c
    refine ⟨_, hexec.trans (congrArg _ hval), ?_⟩
    rw [passEntries_schedule, hpass.cueOut, hpass.self, hy]
    refine ⟨rfl, rfl, rfl, rfl, rfl, ⟨dir, hdir, hc, hb, ?_⟩, ?_⟩
    · rw [hdf, hdoubt]
      exact hf
    · rw [← hy]
      exact inService_passOver hunserved

end Changeovers

end Sys2Proof.Machine

/-! # The steps of a held channel (sections 8.5 and 8.6) -/

namespace Sys2Proof.Machine

section HeldSteps

open Says

variable {c d : ChannelNo} {s t u v w : State} {es : List Entry} {e : Entry} {k j : EntryKey} {p q : Place} {f : Nat}

/-! ### An entry leaves service, or goes on air (R30, R39) -/

/-- The entry of a name is listed in service with no amendment that waits for it to leave. -/
def Leaves (es : List Entry) (k : EntryKey) (e : Entry) : Prop :=
  e ∈ es ∧ e.key = k ∧ (e.pinned = true ∨ e.amendment = none)

theorem lookupEntry_marked {st : EntryStatus} (hn : (es.map Entry.key).Nodup) (he : e ∈ es) :
    lookupEntry e.key (marked e.key st es) = some { e with status := st } := by
  have hm : ({ e with status := st } : Entry) ∈ marked e.key st es := List.mem_map.2 ⟨e, he, if_pos rfl⟩
  exact lookupEntry_of_mem (e := { e with status := st }) (by rw [marked_keys]; exact hn) hm

/-- An entry that no amendment waits for leaves service: its status is written. -/
theorem leaveService_plain (hl : (s.chan c).Tidy) (h : Leaves (s.chan c).schedule k e) (st : EntryStatus) :
    leaveService c k st s = rescheduled c (marked k st (s.chan c).schedule) s := by
  obtain ⟨hheld, hn⟩ := hl
  obtain ⟨he, rfl, hw⟩ := h
  have hnot : ¬Entry.waits { e with status := st } = true := by
    rcases hw with hw | hw <;> simp [Entry.waits, hw]
  unfold leaveService
  dsimp only
  rw [setStatus_eq hheld, rescheduled_schedule, lookupEntry_marked hn he]
  exact if_neg hnot

theorem releaseEntry_plain (hl : (s.chan c).Tidy) (h : Leaves (s.chan c).schedule k e) (hs : e.inService = true) :
    releaseEntry c k s = rescheduled c (marked k .passed (s.chan c).schedule) s := by
  unfold releaseEntry
  rw [leaveService_plain hl h]
  obtain ⟨he, rfl, -⟩ := h
  rw [hasStatus_of_mem hl.2 he, hasStatus_of_mem hl.2 he]
  refine if_pos ?_
  rw [Bool.or_comm]
  exact hs

theorem finishEntry_plain (hl : (s.chan c).Tidy) (h : Leaves (s.chan c).schedule k e) (hs : e.status = .airing) :
    finishEntry c k s = rescheduled c (marked k .done (s.chan c).schedule) s := by
  unfold finishEntry
  rw [leaveService_plain hl h]
  obtain ⟨he, rfl, -⟩ := h
  rw [hasStatus_of_mem hl.2 he]
  exact if_pos (decide_eq_true hs)

/-- The air request of a CUED entry while no other is AIRING (R30). -/
theorem airEntry_plain (hl : (s.chan c).Tidy) (h : ∃ e ∈ (s.chan c).schedule, e.key = k ∧ e.status = .cued)
    (hair : ∀ e ∈ (s.chan c).schedule, e.status = .airing → e.key = k) :
    airEntry c k s = rescheduled c (marked k .airing (s.chan c).schedule) s := by
  obtain ⟨e, he, rfl, hs⟩ := h
  have hnone : (s.chan c).schedule.any (fun a => decide (a.status = .airing) && decide (a.key ≠ e.key)) = false := by
    rw [List.any_eq_false]
    intro a ha hb
    rw [Bool.and_eq_true] at hb
    exact of_decide_eq_true hb.2 (hair a ha (of_decide_eq_true hb.1))
  rw [airEntry, hasStatus_of_mem hl.2 he, hnone, setStatus_eq hl.1]
  exact if_pos (by simp [hs])

theorem rescheduled_modChan {g : Channel → Channel} (hg : ∀ x es b, g { x with schedule := es, pinnedHeld := b } =
      { g x with schedule := es, pinnedHeld := b }) (c : ChannelNo) (es : List Entry) (s : State) :
    modChan c g (rescheduled c es s) = rescheduled c es (modChan c g s) := by
  rw [rescheduled, rescheduled, modChan_modChan, modChan_modChan]
  exact modChan_congr (hg _ _ _)

theorem tidy_rescheduled_marked (hl : (s.chan c).Tidy) (k : EntryKey) (st : EntryStatus) :
    ((rescheduled c (marked k st (s.chan c).schedule) s).chan c).Tidy := by
  rw [rescheduled_chan]
  refine ⟨rfl, ?_⟩
  show ((marked k st (s.chan c).schedule).map Entry.key).Nodup
  rw [marked_keys]
  exact hl.2

/-! ### The deadline of the next place (R154, R167) -/

theorem nextFails_release (hf : (s.chan c).frame = some f) (hx : p.rollFrame = f) (h : p.kind ≠ .standby) :
    nextFails c p s = standbyNext c (f + (s.chan c).inEffect.cueLead) (releaseFor c p.entry (raise c .cueFault s)) := by
  have hself := (reschedules_releaseFor c p.entry (raise c .cueFault s)).self
  rw [raise_chan_self] at hself
  have hframe : ((releaseFor c p.entry (raise c .cueFault s)).chan c).frame = some f := by rw [hself]; exact hf
  have hlead : ((releaseFor c p.entry (raise c .cueFault s)).chan c).inEffect = (s.chan c).inEffect := by rw [hself]; rfl
  rw [nextFails_other h]
  dsimp only
  rw [frameNow_frame hframe, hlead, hx, if_neg (Nat.lt_irrefl f), standbyNext_eq]
  refine settleFrameNow_frame (f := f) ?_
  rw [nextSent_chan]
  exact hframe

theorem tidy_raise (hl : (s.chan c).Tidy) (g : ChangeFlag) : ((raise c g s).chan c).Tidy := by
  rw [raise_chan_self]
  exact hl

theorem raise_schedule (c : ChannelNo) (g : ChangeFlag) (s : State) : ((raise c g s).chan c).schedule = (s.chan c).schedule := by
  rw [raise_chan_self]

/-! ### The roll step (R150) -/

theorem setOutputLost_clear (c : ChannelNo) (s : State) : setOutputLost c false s = modChan c (fun ch => { ch with outputLost := false }) s := rfl

/-- The entry of a place goes on air. -/
def airFor (c : ChannelNo) (o : Option EntryKey) (s : State) : State :=
  match o with
  | some k => airEntry c k s
  | none => s

/-- The entry of a place is finished. -/
def finishFor (c : ChannelNo) (o : Option EntryKey) (s : State) : State :=
  match o with
  | some k => finishEntry c k s
  | none => s

theorem rollCurrent_kept (h : ∀ p, (s.chan c).current = some p → p.rollFrame ≠ f ∨ p.reply ≠ .ready ∨ p.rolled = true) :
    rollCurrent c f s = s := by
  unfold rollCurrent
  split
  · rfl
  · rename_i p hp
    refine if_neg ?_
    rintro ⟨hx, hr, ho⟩
    rcases h p hp with h | h | h
    · exact h hx
    · exact h hr
    · rw [ho] at h; cases h

theorem rollCurrent_rolls (hp : (s.chan c).current = some p) (hx : p.rollFrame = f) (hr : p.reply = .ready) (ho : p.rolled = false) :
    rollCurrent c f s = airFor c p.entry
      (modChan c (fun y => { y with current := some { p with rolled := true }, outputLost := false }) s) := by
  unfold rollCurrent
  rw [hp]
  dsimp only
  rw [if_pos ⟨hx, hr, ho⟩, setOutputLost_clear, modChan_modChan]
  rfl

theorem rollNext_kept (h : ∀ p, (s.chan c).next = some p → p.rollFrame ≠ f ∨ p.reply = .awaiting ∨ (p.reply = .failed ∧ p.kind ≠ .standby)) :
    rollNext c f s = s := by
  unfold rollNext
  split
  · rfl
  · rename_i p hp
    refine if_neg ?_
    rintro ⟨hx, hr⟩
    rcases h p hp with h | h | ⟨h, hk⟩
    · exact h hx
    · rw [h] at hr; rcases hr with hr | ⟨hr, -⟩ <;> cases hr
    · rcases hr with hr | ⟨-, hr⟩
      · rw [h] at hr; cases hr
      · exact hk hr

/-- The directive of the next place takes the current place. -/
def Channel.nextRolls (p : Place) (y : Channel) : Channel :=
  { y with current := some { p with rolled := true }, currentTag := y.nextTag, next := none }

theorem rollNext_ready (hq : (s.chan c).current = some q) (hp : (s.chan c).next = some p) (hx : p.rollFrame = f) (hr : p.reply = .ready) :
    rollNext c f s = airFor c p.entry
      (modChan c (fun y => { Channel.nextRolls p y with outputLost := false }) (finishFor c q.entry s)) := by
  unfold rollNext
  rw [hp]
  dsimp only
  rw [if_pos ⟨hx, .inl hr⟩, if_pos hr, setOutputLost_clear, modChan_modChan, hq]
  rfl

theorem rollNext_failed (hq : (s.chan c).current = some q) (hp : (s.chan c).next = some p) (hx : p.rollFrame = f) (hr : p.reply = .failed)
    (hk : p.kind = .standby) : rollNext c f s = modChan c (Channel.nextRolls p) (finishFor c q.entry s) := by
  unfold rollNext
  rw [hp]
  dsimp only
  rw [if_pos ⟨hx, .inr ⟨hr, hk⟩⟩, if_neg (by rw [hr]; decide), hq]
  rfl

theorem rollStep_eq (h : (s.chan c).changeover ≠ .preparing) : rollStep c f s = rollNext c f (rollCurrent c f s) := if_neg h

theorem reschedules_airFor (c : ChannelNo) (o : Option EntryKey) (s : State) : Reschedules c s (airFor c o s) := by
  cases o with
  | some k => exact reschedules_airEntry c k s
  | none => exact .refl c s

theorem airFor_none (h : p.entry = none) (c : ChannelNo) (s : State) : airFor c p.entry s = s := by rw [h]; rfl

theorem airFor_some (h : p.entry = some k) (c : ChannelNo) (s : State) : airFor c p.entry s = airEntry c k s := by rw [h]; rfl

theorem finishFor_none (h : p.entry = none) (c : ChannelNo) (s : State) : finishFor c p.entry s = s := by rw [h]; rfl

theorem finishFor_some (h : p.entry = some k) (c : ChannelNo) (s : State) : finishFor c p.entry s = finishEntry c k s := by rw [h]; rfl

/-! ### The finish step (R151) -/

theorem currentItemEnd_none (h : ∀ p, (s.chan c).current = some p → p.playEnd = none) : currentItemEnd (s.chan c) = none := by
  unfold currentItemEnd
  split
  · rfl
  · rename_i p hp
    rw [h p hp]

theorem currentItemEnd_listed {ch : Channel} {a n : Nat} (hp : ch.current = some p) (ha : p.playEnd = some a) (hk : p.entry = some k)
    (hn : endOf k ch.schedule = some n) : currentItemEnd ch = some (min a n) := by
  unfold currentItemEnd
  rw [hp]
  dsimp only
  rw [ha]
  dsimp only
  rw [hk, Option.bind_some, hn]

theorem currentItemEnd_unlisted {ch : Channel} {a : Nat} (hp : ch.current = some p) (ha : p.playEnd = some a)
    (hk : ∀ k, p.entry = some k → endOf k ch.schedule = none) : currentItemEnd ch = some a := by
  have hnone : p.entry.bind (fun k => endOf k ch.schedule) = none := by
    cases he : p.entry with
    | none => rfl
    | some k => exact hk k he
  unfold currentItemEnd
  rw [hp]
  dsimp only
  rw [ha]
  dsimp only
  rw [hnone]

theorem finishStep_endless (h : currentItemEnd (s.chan c) = none) : finishStep c f s = s := by
  unfold finishStep
  rw [h]
  split
  · rename_i hb; cases hb
  · rfl

theorem finishStep_item {n : Nat} (hp : (s.chan c).current = some p) (hn : currentItemEnd (s.chan c) = some n) :
    finishStep c f s = if p.rolled ∧ n ≤ f then finishFor c p.entry s else s := by
  unfold finishStep
  rw [hp, hn]
  rfl

/-- The current item ends, and an amendment waits for its entry to leave service (R39, R151). -/
theorem finishEntry_amended {n : Nat} {pre post : List Entry} (hinv : InvWith n s) (hs : (s.chan c).schedule = pre ++ e :: post)
    (hair : e.status = .airing) (hpin : e.pinned = false) (ha : e.amendment.isSome = true) :
    finishEntry c e.key s = applyAmendment c e.key (rescheduled c (pre ++ ({ e with status := .done } : Entry) :: post) s) := by
  have hl := tidy_of_law (hinv.channels c)
  have hn : ((pre ++ e :: post).map Entry.key).Nodup := by rw [← hs]; exact hl.2
  have he : e ∈ (s.chan c).schedule := by rw [hs]; simp
  have hmarked : marked e.key .done (s.chan c).schedule = pre ++ ({ e with status := .done } : Entry) :: post := by
    rw [hs, marked_eq, mapEntry_middle hn]
  have hwaits : Entry.waits { e with status := .done } = true := by
    rw [Entry.waits, hpin, ha]
    rfl
  unfold finishEntry leaveService
  dsimp only
  rw [hasStatus_of_mem hl.2 he, if_pos (decide_eq_true hair), setStatus_eq hl.1, rescheduled_schedule, lookupEntry_marked hl.2 he]
  dsimp only
  rw [if_pos hwaits, hmarked]

/-! ### The next transition (R152) -/

/-- The least number with a property, or nothing where none has it. -/
def IsLeastOpt (o : Option Nat) (S : Nat → Prop) : Prop :=
  (o = none → ∀ x, ¬S x) ∧ ∀ x, o = some x → S x ∧ ∀ y, S y → x ≤ y

theorem isLeastOpt_none {S : Nat → Prop} (h : ∀ x, ¬S x) : IsLeastOpt none S :=
  ⟨fun _ => h, nofun⟩

theorem isLeastOpt_some {S : Nat → Prop} {n : Nat} (hn : S n) (h : ∀ y, S y → n ≤ y) : IsLeastOpt (some n) S :=
  ⟨nofun, fun x hx => by cases hx; exact ⟨hn, h⟩⟩

theorem IsLeastOpt.spec {o : Option Nat} {S : Nat → Prop} (h : IsLeastOpt o S) :
    (o = none ↔ ∀ x, ¬S x) ∧ ∀ x, o = some x ↔ S x ∧ ∀ y, S y → x ≤ y := by
  obtain ⟨hnone, hsome⟩ := h
  cases o with
  | none => exact ⟨⟨fun _ => hnone rfl, fun _ => rfl⟩, fun x => ⟨nofun, fun hx => absurd hx.1 (hnone rfl x)⟩⟩
  | some n =>
    obtain ⟨hn, hleast⟩ := hsome n rfl
    refine ⟨⟨nofun, fun h => absurd hn (h n)⟩, fun x => ⟨hsome x, fun ⟨hx, hx'⟩ => ?_⟩⟩
    rw [le_antisymm (hleast x hx) (hx' n hn)]

theorem isLeastOpt_earlier {a b : Option Nat} {S T : Nat → Prop} (ha : IsLeastOpt a S) (hb : IsLeastOpt b T) :
    IsLeastOpt (earlier a b) (fun x => S x ∨ T x) := by
  obtain ⟨hanone, hasome⟩ := ha
  obtain ⟨hbnone, hbsome⟩ := hb
  cases a with
  | none =>
    have hno := hanone rfl
    refine ⟨fun h x hx => ?_, fun x hx => ?_⟩
    · rcases hx with hx | hx
      · exact hno x hx
      · exact hbnone h x hx
    · obtain ⟨h1, h2⟩ := hbsome x hx
      exact ⟨.inr h1, fun y hy => h2 y (hy.resolve_left (hno y))⟩
  | some m =>
    obtain ⟨hm, hm'⟩ := hasome m rfl
    cases b with
    | none =>
      have hno := hbnone rfl
      exact isLeastOpt_some (.inl hm) (fun y hy => hm' y (hy.resolve_right (hno y)))
    | some n =>
      obtain ⟨hn, hn'⟩ := hbsome n rfl
      refine isLeastOpt_some ?_ (fun y hy => ?_)
      · rcases min_choice m n with h | h <;> rw [h]
        · exact .inl hm
        · exact .inr hn
      · rcases hy with hy | hy
        · exact (min_le_left m n).trans (hm' y hy)
        · exact (min_le_right m n).trans (hn' y hy)

/-- The frame at which the current item may end (R151). -/
def itemEnds (ch : Channel) (x : Nat) : Prop :=
  ∃ p e, ch.current = some p ∧ p.playEnd = some e ∧
    ((∃ k n, p.entry = some k ∧ endOf k ch.schedule = some n ∧ x = min e n) ∨
     ((∀ k, p.entry = some k → endOf k ch.schedule = none) ∧ x = e))

theorem currentItemEnd_iff (ch : Channel) (x : Nat) : currentItemEnd ch = some x ↔ itemEnds ch x := by
  constructor
  · intro h
    unfold currentItemEnd at h
    split at h
    · cases h
    · rename_i p hp
      split at h
      · cases h
      · rename_i a ha
        split at h
        · rename_i n hn
          obtain ⟨k, hk, hkn⟩ := Option.bind_eq_some_iff.1 hn
          exact ⟨p, a, hp, ha, .inl ⟨k, n, hk, hkn, (Option.some.inj h).symm⟩⟩
        · rename_i hn
          exact ⟨p, a, hp, ha, .inr ⟨fun k hk => by rw [hk] at hn; exact hn, (Option.some.inj h).symm⟩⟩
  · rintro ⟨p, a, hp, ha, ⟨k, n, hk, hn, rfl⟩ | ⟨hk, rfl⟩⟩
    · exact currentItemEnd_listed hp ha hk hn
    · exact currentItemEnd_unlisted hp ha hk

theorem currentItemEnd_least (ch : Channel) : IsLeastOpt (currentItemEnd ch) (itemEnds ch) := by
  refine ⟨fun h x hx => ?_, fun x hx => ⟨(currentItemEnd_iff ch x).1 hx, fun y hy => ?_⟩⟩
  · rw [(currentItemEnd_iff ch x).2 hx] at h; cases h
  · rw [(currentItemEnd_iff ch y).2 hy] at hx
    exact (Option.some.inj hx).ge

theorem spans_starts (h : es.Pairwise (fun a b => sortsAtOrBefore a.body.start a.key b.body.start b.key = true)) :
    (spans es).Pairwise (fun a b => a.1.body.start ≤ b.1.body.start) := by
  have hfst := List.pairwise_map.1 (show ((spans es).map Prod.fst).Pairwise _ by rw [spans_fst]; exact h)
  refine hfst.imp (fun {a b} hab => ?_)
  simp only [sortsAtOrBefore, Bool.or_eq_true, Bool.and_eq_true, decide_eq_true_eq] at hab
  omega

/-- In a schedule in order, the first start after a frame is the least. -/
theorem nextStart_least {n : Nat} (h : es.Pairwise (fun a b => sortsAtOrBefore a.body.start a.key b.body.start b.key = true)) :
    IsLeastOpt (nextStart n es)
      (fun x => ∃ e m, (e, m) ∈ spans es ∧ n < x ∧ e.body.start = x ∧ e.status = .planned ∧ x < m) := by
  have hstart : ∀ a : Entry × Nat, (decide (n < a.1.body.start) && decide (a.1.status = .planned) && decide (a.1.body.start < a.2)) = true ↔
      n < a.1.body.start ∧ a.1.status = .planned ∧ a.1.body.start < a.2 := by
    intro a
    simp [and_assoc]
  unfold nextStart
  cases hfind : (spans es).find? (fun p => decide (n < p.1.body.start) && decide (p.1.status = .planned) && decide (p.1.body.start < p.2)) with
  | none =>
    rw [List.find?_eq_none] at hfind
    refine isLeastOpt_none (fun x hx => ?_)
    obtain ⟨e, m, hm, hlt, rfl, hp, hlt'⟩ := hx
    exact hfind _ hm ((hstart (e, m)).2 ⟨hlt, hp, hlt'⟩)
  | some a =>
    obtain ⟨hpred, front, back, hsp, hfront⟩ := List.find?_eq_some_iff_append.1 hfind
    obtain ⟨hlt, hp, hlt'⟩ := (hstart a).1 hpred
    have hpair := spans_starts h
    rw [hsp] at hpair
    refine isLeastOpt_some ⟨a.1, a.2, by rw [hsp]; simp, hlt, rfl, hp, hlt'⟩ (fun y hy => ?_)
    obtain ⟨e, m, hm, hylt, rfl, hyp, hylt'⟩ := hy
    rw [hsp, List.mem_append, List.mem_cons] at hm
    rcases hm with hm | rfl | hm
    · have hno := hfront _ hm
      rw [Bool.not_eq_true'] at hno
      exact absurd ((hstart (e, m)).2 ⟨hylt, hyp, hylt'⟩) (by rw [hno]; exact Bool.false_ne_true)
    · exact le_rfl
    · exact (List.pairwise_cons.1 (List.pairwise_append.1 hpair).2.1).1 _ hm

theorem transition_least {ch : Channel} (h : ScheduleLaw ch.schedule) (f : Nat) : IsLeastOpt (transition ch f) (transitionFrame ch f) := by
  have hstart := nextStart_least (n := match ch.current with
    | some p => max f p.rollFrame
    | none => f) h.1
  have hboth := isLeastOpt_earlier (currentItemEnd_least ch) hstart
  have hafter (x : Nat) : (match ch.current with
      | some p => max f p.rollFrame
      | none => f) < x ↔ f < x ∧ ∀ p, ch.current = some p → p.rollFrame < x := by
    cases ch.current with
    | none => simp
    | some p => simp
  have hsets : (fun x => itemEnds ch x ∨ ∃ e m, (e, m) ∈ spans ch.schedule ∧ (match ch.current with
      | some p => max f p.rollFrame
      | none => f) < x ∧ e.body.start = x ∧ e.status = .planned ∧ x < m) = transitionFrame ch f := by
    funext x
    unfold transitionFrame itemEnds
    rw [hafter]
    simp only [and_assoc]
  rw [hsets] at hboth
  exact hboth

/-! ### The plan step and the automatic giveback (R152, R155) -/

theorem planStep_idle (h : (s.chan c).next ≠ none ∨ (s.chan c).doubt = true ∨ transition (s.chan c) f = none) : planStep c f s = s := by
  unfold planStep
  dsimp only
  split
  · rfl
  · rename_i hno
    split
    · rfl
    · rename_i x hx
      exfalso
      rcases h with h | h | h
      · exact hno (.inl (Option.isSome_iff_ne_none.2 h))
      · exact hno (.inr h)
      · rw [hx] at h; cases h

theorem planStep_due {x : Nat} (hn : (s.chan c).next = none) (hd : (s.chan c).doubt = false) (hx : transition (s.chan c) f = some x) :
    planStep c f s = if f + (s.chan c).inEffect.cueLead < x then s
      else sendNext c (plannedRoll (s.chan c) f x) (computeDirective s c (plannedRoll (s.chan c) f x))
        (skipShort c (plannedRoll (s.chan c) f x) s) := by
  unfold planStep
  dsimp only
  rw [if_neg (by rw [hn, hd]; simp), hx]

/-- What the plan step sends: the directive goes out into the next place, and the Schedule Store is asked for what it plays. -/
theorem plans_spec (c : ChannelNo) (y : Nat) (dir : Computed) (s : State) :
    (∃ z : Channel, (sendNext c y dir (skipShort c y s)).chan c = z.storing (Channel.sendsNext (placeFor dir y) (s.chan c))) ∧
    (∀ b, b ≠ c → (sendNext c y dir (skipShort c y s)).chan b = s.chan b) ∧
    (sendNext c y dir (skipShort c y s)).cueOut = s.cueOut ++
      [{ channel := c, tag := ((s.chan c).lastTag + 1) % 256, rate := (s.chan c).settings.rate, frame := some y, body := dir.body }] := by
  have hskip := reschedules_skipShort c y s
  have hcue := reschedules_cueFor c dir (nextSent c y dir (skipShort c y s))
  have hself := hcue.self
  rw [nextSent_chan, hskip.self] at hself
  rw [sendNext_eq]
  refine ⟨⟨_, hself⟩, fun b hb => ?_, ?_⟩
  · rw [hcue.others b hb, ← hskip.others b hb]
    exact chan_modChan_ne _ hb _
  · rw [hcue.cueOut]
    unfold nextSent
    dsimp only
    rw [hskip.cueOut, hskip.self]
    rfl

theorem automaticGiveback_gives (h : (s.chan c).changeover = .onDr ∧ (s.chan c).supervision = .healthy ∧
      (s.chan c).inEffect.giveback = .auto ∧ (s.chan c).latched = false ∧
      ∀ x, (s.chan c).barrier = some x → x < (boundaryOf (s.chan c) f).getD f) : automaticGiveback c f s =
    placeRequest { channel := c, direction := .main, release := releasePulse s c f ((boundaryOf (s.chan c) f).getD f), priority := 4 }
      (modChan c (fun x => { x with boundary := boundaryOf (s.chan c) f }) (setChangeover c .returning s)) :=
  if_pos h

/-- COU's part of a frame event in TAKE_PENDING, ON_DR and RETURNING: no joining deadline is left to judge. -/
theorem couFrame_onDr (hf : (s.chan c).frame = some f)
    (h : (s.chan c).changeover = .takePending ∨ (s.chan c).changeover = .onDr ∨ (s.chan c).changeover = .returning) :
    couFrame c s = heldSteps c f (doubtCleared c s) := by
  have hst : ((doubtCleared c s).chan c).changeover = (s.chan c).changeover := by rw [doubtCleared_chan]
  have hd : currentDeadline c f (doubtCleared c s) = doubtCleared c s :=
    currentDeadline_kept (fun hp => by rw [hst] at hp; rw [hp] at h; simp at h)
  rw [couFrame_held hf (by rcases h with h | h | h <;> rw [h] <;> rfl)]
  dsimp only
  rw [hd, hst, if_neg (by rcases h with h | h | h <;> rw [h] <;> decide)]

/-- Two statuses written one after the other: the second entry is CUED and goes on air, the first was the one on air. -/
theorem airs_after_done (hne : k ≠ j) (hk : ∃ e ∈ es, e.key = k ∧ e.status = .cued)
    (hj : ∀ e ∈ es, e.status = .airing → e.key = j) :
    (∃ e ∈ marked j .done es, e.key = k ∧ e.status = .cued) ∧ ∀ e ∈ marked j .done es, e.status = .airing → e.key = k := by
  constructor
  · obtain ⟨e, he, rfl, hs⟩ := hk
    exact ⟨e, List.mem_map.2 ⟨e, he, if_neg hne⟩, rfl, hs⟩
  · intro a ha hs
    obtain ⟨e, he, rfl⟩ := List.mem_map.1 ha
    by_cases hej : e.key = j
    · rw [if_pos hej] at hs; cases hs
    · rw [if_neg hej] at hs
      exact absurd (hj e he hs) hej

/-- Settles O59. -/
theorem heldChannelAtFrameEvent : Obligations.HeldChannelAtFrameEvent := by
  refine ⟨fun c f s hdue hframe i hi hst => ?_, fun c f w hinv => ?_⟩
  · have hchan : (couBegun c s).chan c = beginPart .cou (s.chan c) := chan_modChan_self ..
    rw [exec_cou hdue hi, couFrame_onDr (by rw [hchan]; exact hframe) (by rw [hchan]; exact hst)]
    rfl
  intro ch es airs ends
  have hlaw : ChannelLaw ch := hinv.channels c
  have hl : (w.chan c).Tidy := tidy_of_law hlaw
  refine ⟨nextDeadline_kept, fun p hp hr hx hk => ?_, fun p hp hr hx hk hframe => ⟨fun hnone => ?_, fun k hk' he => ?_⟩,
    rollStep_preparing, fun hch => ⟨fun hc hn => ?_, fun p hp hx hr ho hn => ?_, fun q p hq hro hp hx hr => ?_,
      fun q p hq hro hp hx hr hk => ?_⟩, fun p hp h => ?_, fun p k a x hp hro ha hk hx => ?_,
    fun p pre d post a x hp hro ha hk hes hx hle horig hair hpin => ?_, (transition_least (scheduleLaw_of hlaw) f).spec, planStep_idle,
    fun x hn hd hx => ⟨fun hlt => ?_, fun y hle hy => ?_⟩, fun hno => if_neg hno, automaticGiveback_gives⟩
  · rw [nextDeadline_missed hp hr hx, nextFails_standby hk]
  · rw [nextDeadline_missed hp hr hx, nextFails_release hframe hx hk, hnone]
    rfl
  · obtain ⟨e, he, hek, hs, hw⟩ := he
    have hrel := releaseEntry_plain (k := k) (e := e) (tidy_raise hl .cueFault) (by rw [raise_schedule]; exact ⟨he, hek, hw⟩) hs
    rw [raise_schedule] at hrel
    rw [nextDeadline_missed hp hr hx, nextFails_release hframe hx hk, hk']
    exact congrArg _ hrel
  · rw [rollStep_eq hch, rollCurrent_kept hc, rollNext_kept hn]
  · intro x
    have hxchan : x.chan c = { ch with current := some { p with rolled := true }, outputLost := false } := chan_modChan_self ..
    have hroll : rollStep c f w = airFor c p.entry x := by
      rw [rollStep_eq hch, rollCurrent_rolls hp hx hr ho]
      refine rollNext_kept (fun q hq => ?_)
      rw [(reschedules_airFor c p.entry _).self] at hq
      have hnone : (x.chan c).next = none := by rw [hxchan]; exact hn
      exact absurd (hnone.symm.trans hq) nofun
    rw [hroll]
    refine ⟨fun he => airFor_none he c x, fun k he hairs => ?_⟩
    have hsched : (x.chan c).schedule = es := by rw [hxchan]
    rw [airFor_some he, airEntry_plain (by rw [hxchan]; exact hl) (by rw [hsched]; exact hairs.1) (by rw [hsched]; exact hairs.2), hsched]
  · intro x
    have hxchan : x.chan c = { Channel.nextRolls p ch with outputLost := false } := chan_modChan_self ..
    have hxtidy : (x.chan c).Tidy := by rw [hxchan]; exact hl
    have hsched : (x.chan c).schedule = es := by rw [hxchan]; rfl
    have hroll : rollStep c f w = airFor c p.entry
        (modChan c (fun y => { Channel.nextRolls p y with outputLost := false }) (finishFor c q.entry w)) := by
      rw [rollStep_eq hch, rollCurrent_kept (by rintro _ h; cases hq.symm.trans h; exact .inr (.inr hro)), rollNext_ready hq hp hx hr]
    have hfinish {k : EntryKey} (he : q.entry = some k) (hends : ends k) :
        modChan c (fun y => { Channel.nextRolls p y with outputLost := false }) (finishFor c q.entry w) =
          rescheduled c (marked k .done es) x := by
      obtain ⟨e, hm, hek, hs, hw⟩ := hends
      rw [finishFor_some he, finishEntry_plain hl ⟨hm, hek, hw⟩ hs]
      exact rescheduled_modChan (fun _ _ _ => rfl) c _ w
    rw [hroll]
    refine ⟨fun hqn hpn => ?_, fun k hqk hends hpn => ?_, fun k hqn hpk hairs => ?_, fun j k hqj hends hpk hne hcued hair => ?_⟩
    · rw [airFor_none hpn, finishFor_none hqn]
      rfl
    · rw [airFor_none hpn, hfinish hqk hends]
    · rw [finishFor_none hqn, airFor_some hpk]
      show airEntry c k x = _
      rw [airEntry_plain hxtidy (by rw [hsched]; exact hairs.1) (by rw [hsched]; exact hairs.2), hsched]
    · obtain ⟨hcued', hair'⟩ := airs_after_done hne hcued hair
      rw [hfinish hqj hends, airFor_some hpk, airEntry_plain (by rw [← hsched]; exact tidy_rescheduled_marked hxtidy j .done)
        (by rw [rescheduled_schedule]; exact hcued') (by rw [rescheduled_schedule]; exact hair'), rescheduled_schedule,
        rescheduled_rescheduled]
  · intro x
    have hroll : rollStep c f w = modChan c (Channel.nextRolls p) (finishFor c q.entry w) := by
      rw [rollStep_eq hch, rollCurrent_kept (by rintro _ h; cases hq.symm.trans h; exact .inr (.inr hro)), rollNext_failed hq hp hx hr hk]
    rw [hroll]
    refine ⟨fun hqn => by rw [finishFor_none hqn]; rfl, fun k hqk hends => ?_⟩
    obtain ⟨e, hm, hek, hs, hw⟩ := hends
    rw [finishFor_some hqk, finishEntry_plain hl ⟨hm, hek, hw⟩ hs]
    exact rescheduled_modChan (fun _ _ _ => rfl) c _ w
  · rcases h with h | h
    · exact finishStep_unrolled (by rintro _ hq; cases hp.symm.trans hq; exact h)
    · exact finishStep_endless (currentItemEnd_none (by rintro _ hq; cases hp.symm.trans hq; exact h))
  · have hstep := finishStep_item (f := f) hp (currentItemEnd_listed hp ha hk hx)
    refine ⟨fun hlt => by rw [hstep, if_neg (fun h => hlt.not_ge h.2)], fun hle hends => ?_⟩
    obtain ⟨e, hm, hek, hs, hw⟩ := hends
    rw [hstep, if_pos ⟨hro, hle⟩, finishFor_some hk, finishEntry_plain hl ⟨hm, hek, hw⟩ hs]
  · have hstep : finishStep c f w = finishEntry c d.key w := by
      rw [finishStep_item hp (currentItemEnd_listed hp ha hk hx), if_pos ⟨hro, hle⟩, finishFor_some hk]
    have hdone (hs : d.amendment.isSome = true) := finishEntry_amended hinv hes hair hpin hs
    have hinv' : InvWith 0 (rescheduled c (pre ++ ({ d with status := .done } : Entry) :: post) w) := by
      have h := inv_setStatus hinv c d.key .done
      rwa [setStatus_eq hl.1, show (w.chan c).schedule = _ from hes, marked_eq, mapEntry_middle (by rw [← hes]; exact hl.2)] at h
    have hsched := rescheduled_schedule c (pre ++ ({ d with status := .done } : Entry) :: post) w
    refine ⟨fun b hb => ?_, fun hb => ?_⟩
    · obtain ⟨d', es', hd', hj, happ⟩ := applyAmendment_body (b := b) (hinv'.channels c) hsched hb
      rw [rescheduled_frame] at hj
      refine ⟨d', es', hd', hj, ?_⟩
      rw [hstep, hdone (by rw [hb]; rfl)]
      exact happ.trans (by rw [rescheduled_rescheduled])
    · have happ := applyAmendment_deletion (hinv'.channels c) hsched hb horig
      rw [hstep, hdone (by rw [hb]; rfl)]
      exact happ.trans (by rw [rescheduled_rescheduled])
  · rw [planStep_due hn hd hx, if_pos hlt]
  · obtain ⟨⟨z, hz⟩, hothers, hout⟩ := plans_spec c y (computeDirective w c y) w
    have hplan : planStep c f w = sendNext c y (computeDirective w c y) (skipShort c y w) := by
      rw [planStep_due hn hd hx, if_neg hle.not_gt, hy]
      rfl
    rw [hplan]
    generalize sendNext c y (computeDirective w c y) (skipShort c y w) = t at *
    intro dir tag t'
    show t.cueOut = _ ∧ (t.chan c).next = _ ∧ (t.chan c).nextTag = _ ∧ (t.chan c).lastTag = _ ∧ (t.chan c).current = _ ∧
      (t.chan c).changeover = _ ∧ _
    rw [hz]
    exact ⟨hout, rfl, rfl, rfl, rfl, rfl, hothers⟩

end HeldSteps

end Sys2Proof.Machine

/-! # The millisecond tick: sense lines and timers (Chapters 4 to 6, 9 and 10) -/

namespace Sys2Proof.Machine

section Ticks

open Says

variable {c d : ChannelNo} {s t u v w : State} {l m : LineNo}

/-! ### The sense lines at a tick (R109, R110) -/

theorem foldl_keeps {α β : Type} {g : State → α → State} {p : State → β} (h : ∀ t a, p (g t a) = p t) (as : List α) (s : State) :
    p (as.foldl g s) = p s := by
  induction as generalizing s with
  | nil => rfl
  | cons a as ih => exact (ih _).trans (h s a)

/-- A list of lines is changed, each by its own change of its own record. -/
theorem foldl_lines {g : State → LineNo → State} {change : LineNo → SenseLine → SenseLine}
    (hself : ∀ t l, (g t l).line l = change l (t.line l)) (hother : ∀ t l m, m ≠ l → (g t l).line m = t.line m)
    (ls : List LineNo) (hn : ls.Nodup) (s : State) (m : LineNo) :
    (ls.foldl g s).line m = if m ∈ ls then change m (s.line m) else s.line m := by
  induction ls generalizing s with
  | nil => rfl
  | cons l ls ih =>
    obtain ⟨hl, hn⟩ := List.nodup_cons.1 hn
    rw [List.foldl_cons, ih hn]
    by_cases hm : m = l
    · subst hm
      rw [if_neg hl, if_pos List.mem_cons_self, hself]
    · rw [hother s l m hm]
      exact if_congr (by simp [hm]) rfl rfl

theorem allLines_nodup : allLines.Nodup := List.nodup_finRange 16

theorem mem_allLines (l : LineNo) : l ∈ allLines := List.mem_finRange l

/-- Storing the samples writes the lines only. -/
theorem sampleLines_outside (levels : BitVec 16) (s : State) : ∃ ls, sampleLines levels s = { s with lines := ls } := by
  have h (ls : List LineNo) (s : State) : ∃ ms, ls.foldl (storeSample levels) s = { s with lines := ms } := by
    induction ls generalizing s with
    | nil => exact ⟨s.lines, rfl⟩
    | cons l ls ih =>
      obtain ⟨ms, hms⟩ := ih (storeSample levels s l)
      exact ⟨ms, hms⟩
  exact h allLines s

theorem sampleLines_line (levels : BitVec 16) (s : State) (l : LineNo) : (sampleLines levels s).line l =
    { s.line l with raw := sampled levels l, tickDebounce := (s.line l).debounce } := by
  have h := foldl_lines (g := storeSample levels)
    (change := fun l x => { x with raw := levelOfBit (levels.getLsbD l.val), tickDebounce := x.debounce })
    (fun t l => line_modLine_self ..) (fun t l m hm => by rw [storeSample, line_modLine, if_neg hm]) allLines allLines_nodup s l
  rw [sampleLines, h, if_pos (mem_allLines l)]
  rfl

theorem changeLine_other {f : SenseLine → SenseLine} (h : m ≠ l) (s : State) : (changeLine l f s).line m = s.line m := by
  unfold changeLine
  dsimp only
  split
  · rw [reporting_line, line_modLine, if_neg h]
  · rw [line_modLine, if_neg h]

theorem faultReported_sampled (c : ChannelNo) (s : State) : (faultReported c s).sampled = s.sampled := by
  unfold faultReported enterAlert setSupervision raiseIf
  split
  · split <;> rfl
  · rfl
  · rfl

theorem changeLine_sampled (l : LineNo) (f : SenseLine → SenseLine) (s : State) : (changeLine l f s).sampled = s.sampled := by
  unfold changeLine
  dsimp only
  split
  · unfold reporting
    split
    · exact faultReported_sampled _ _
    · rfl
  · rfl

theorem firstLevels_sampled (s : State) : (firstLevels s).sampled = s.sampled :=
  foldl_keeps (p := State.sampled) (fun t l => changeLine_sampled l _ t) allLines s

theorem firstLevels_line (s : State) (l : LineNo) :
    (firstLevels s).line l = { s.line l with level := (s.line l).raw, stability := 0 } := by
  have h := foldl_lines (g := fun t l => changeLine l (fun x => { x with level := x.raw, stability := 0 }) t)
    (change := fun _ x => { x with level := x.raw, stability := 0 })
    (fun t l => changeLine_line l _ t) (fun t l m hm => changeLine_other hm t) allLines allLines_nodup s l
  rw [firstLevels, h, if_pos (mem_allLines l)]

/-! ### A tick (R11) -/

theorem mem_everyPart (p : TickPart) : p ∈ everyPart := by
  unfold everyPart
  cases p with
  | sense l => simp [mem_allLines l]
  | take c => simp [show c ∈ allChannels from List.mem_finRange c]
  | link | status | snapshot | walk | host => simp

theorem takeParts_everyPart (ps : List TickPart) (s : State) : takeParts everyPart ps s = s :=
  foldl_const (fun p _ => if_pos (mem_everyPart p))

/-- The levels once the samples are stored: those of the first tick are set by them. -/
def levelsTaken (t : State) : State :=
  if t.sampled then t else firstLevels { t with sampled := true }

theorem levelsTaken_later (h : t.sampled = true) : levelsTaken t = t := if_pos h

theorem levelsTaken_first (h : t.sampled = false) : levelsTaken t = firstLevels { t with sampled := true } :=
  if_neg (by rw [h]; exact Bool.false_ne_true)

theorem levelsTaken_sampled (t : State) : (levelsTaken t).sampled = true := by
  cases h : t.sampled with
  | true => rw [levelsTaken_later h, h]
  | false => rw [levelsTaken_first h, firstLevels_sampled]

theorem levelsTaken_first_line (h : t.sampled = false) (l : LineNo) :
    (levelsTaken t).line l = { t.line l with level := (t.line l).raw, stability := 0 } := by
  rw [levelsTaken_first h, firstLevels_line]
  rfl

/-- The state at a tick once the samples are stored and the parts made due. -/
def tickBegun (levels : BitVec 16) (u : State) : State :=
  { levelsTaken (sampleLines levels u) with tickDue := tickParts (sampleLines levels u) }

theorem msTick_eq (levels : BitVec 16) (held : List TickPart) (s : State) : msTick levels held s =
    takeParts held (tickParts (sampleLines levels (takeParts [] s.tickDue s))) (tickBegun levels (takeParts [] s.tickDue s)) := rfl

theorem sampleLines_sampled (levels : BitVec 16) (u : State) : (sampleLines levels u).sampled = u.sampled := by
  obtain ⟨ls, h⟩ := sampleLines_outside levels u
  rw [h]

theorem tickParts_sampleLines (levels : BitVec 16) (u : State) : tickParts (sampleLines levels u) =
    (if u.sampled then allLines.map TickPart.sense else []) ++ [.link, .status, .snapshot, .walk] ++
      (allChannels.filter (fun c => (u.chan c).outstanding.isSome)).map TickPart.take ++ [.host] := by
  obtain ⟨ls, h⟩ := sampleLines_outside levels u
  rw [h, tickParts]
  rfl

/-! ### A line's comparison (R110, R111, R114) -/

theorem senseCondition_congr {f : SenseFunction} (h : ∀ m, (t.line m).function = (s.line m).function ∧ (t.line m).mapped = (s.line m).mapped ∧
    (t.line m).level = (s.line m).level ∧ (t.line m).expected = (s.line m).expected) (c : ChannelNo) :
    senseCondition t f c = senseCondition s f c := by
  unfold senseCondition
  refine congrArg (List.any allLines) (funext fun m => ?_)
  obtain ⟨h1, h2, h3, h4⟩ := h m
  rw [h1, h2, h3, h4]

/-- A change of a line that leaves its level, its function, its channel and its expected level reports nothing. -/
theorem changeLine_unreported {f : SenseLine → SenseLine} (h : (f (s.line l)).function = (s.line l).function ∧
    (f (s.line l)).mapped = (s.line l).mapped ∧ (f (s.line l)).level = (s.line l).level ∧ (f (s.line l)).expected = (s.line l).expected) :
    changeLine l f s = modLine l (fun _ => f (s.line l)) s := by
  have hsame (c : ChannelNo) (src : Source) : sourceFaults (modLine l (fun _ => f (s.line l)) s) c src = sourceFaults s c src := by
    have hcond (g : SenseFunction) : senseCondition (modLine l (fun _ => f (s.line l)) s) g c = senseCondition s g c := by
      refine senseCondition_congr (fun m => ?_) c
      rw [line_modLine]
      split
      · rename_i hm
        subst hm
        exact h
      · exact ⟨rfl, rfl, rfl, rfl⟩
    cases src with
    | hb => rfl
    | rf =>
      unfold sourceFaults sourceCondition
      dsimp only
      rw [hcond]
      rfl
    | tl =>
      unfold sourceFaults sourceCondition
      dsimp only
      rw [hcond]
      rfl
  unfold changeLine
  dsimp only
  split
  · rename_i c src _ _
    rw [reporting_eq, if_neg]
    rw [hsame]
    rintro ⟨h1, h2⟩
    rw [h1] at h2
    cases h2
  · rfl

theorem exec_part {i : Instr} {p : TickPart} (hi : exec i s = .next (takePartInOrder p s)) (hp : p ≠ .snapshot) (h : p ∈ s.tickDue) :
    exec i s = .next (partTick p (partTaken p s)) := by
  rw [hi, takePartInOrder_ne hp, takePart_due h]

/-- The state at the end of a tick whose parts are all held. -/
theorem exec_msTick_held (levels : BitVec 16) (s : State) :
    exec (.msTick levels everyPart) s = .next (tickBegun levels (takeParts [] s.tickDue s)) :=
  congrArg Host.Outcome.next ((msTick_eq levels everyPart s).trans (takeParts_everyPart _ _))

theorem debounced_equal {x : SenseLine} (h : x.raw = x.level) : x.debounced = { x with stability := 0 } := if_pos h

theorem debounced_counts {x : SenseLine} (h : x.raw ≠ x.level) (hlt : x.stability < x.tickDebounce) :
    x.debounced = { x with stability := x.stability + 1 } := by
  rw [SenseLine.debounced, if_neg h, if_pos hlt]

theorem debounced_flips {x : SenseLine} (h : x.raw ≠ x.level) (hle : x.tickDebounce ≤ x.stability) :
    x.debounced = { x with level := x.raw, stability := 0, changePending := true } := by
  rw [SenseLine.debounced, if_neg h, if_neg hle.not_gt]

/-- Settles O51. -/
theorem senseLinesAtATick : Obligations.SenseLinesAtATick := by
  intro levels s
  refine ⟨⟨_, exec_msTick_held levels s, ?_⟩, fun l hdue => ?_, fun c => ⟨fun h => ?_, fun h => ?_, fun h => ?_⟩⟩
  · intro u
    refine ⟨fun h => by unfold u; rw [h]; rfl, rfl, levelsTaken_sampled _, tickParts_sampleLines levels u, fun h => ?_, fun h l => ?_⟩
    · have hs : (sampleLines levels u).sampled = true := (sampleLines_sampled levels u).trans h
      have ht : tickBegun levels u = { sampleLines levels u with tickDue := tickParts (sampleLines levels u) } := by
        rw [tickBegun, levelsTaken_later hs]
      have hl := sampleLines_line levels u
      show tickBegun levels u = _ ∧ ∀ l, (tickBegun levels u).line l = _
      generalize tickParts (sampleLines levels u) = ps at ht
      obtain ⟨ls, hls⟩ := sampleLines_outside levels u
      rw [hls] at ht hl
      rw [ht]
      exact ⟨rfl, hl⟩
    · have hs : (sampleLines levels u).sampled = false := (sampleLines_sampled levels u).trans h
      show (levelsTaken (sampleLines levels u)).line l = _
      rw [levelsTaken_first_line hs, sampleLines_line]
  · intro x u out v
    have hx : u.line l = x := rfl
    have hout : out = .next (changeLine l SenseLine.debounced u) := exec_part rfl (by simp) hdue
    clear_value out u x
    subst hx hout
    refine ⟨fun h => congrArg _ ?_, fun h hlt => congrArg _ ?_, fun h hle hun => congrArg _ ?_, fun c src h hle hm hsrc => congrArg _ ?_⟩
    · have hd := debounced_equal h
      rw [changeLine_unreported (by rw [hd]; exact ⟨rfl, rfl, rfl, rfl⟩), hd]
    · have hd := debounced_counts h hlt
      rw [changeLine_unreported (by rw [hd]; exact ⟨rfl, rfl, rfl, rfl⟩), hd]
    · have hd := debounced_flips h hle
      rw [changeLine_unused, hd]
      rw [hd]
      rcases hun with hun | hun
      · exact .inr (by show (u.line l).function.source = none; rw [hun]; rfl)
      · exact .inl hun
    · have hd := debounced_flips h hle
      rw [changeLine_used (c := c) (src := src) (by rw [hd]; exact hm), reporting_eq, hd]
      rw [hd]
      show (u.line l).function.source = some src
      rcases hsrc with ⟨hf, rfl⟩ | ⟨hf, rfl⟩ <;> rw [hf] <;> rfl
  · unfold faultReported
    rw [h]
    exact enterAlert_eq h
  · unfold faultReported
    rw [h]
  · unfold faultReported
    rw [h]

end Ticks

end Sys2Proof.Machine

/-! # The timers of a tick (Chapters 4, 5, 9 and 10) -/

namespace Sys2Proof.Machine

section Timers

open Says

variable {c d : ChannelNo} {s t u v w : State}

/-! ### The host goes ABSENT (R130, R132) -/

/-- What one channel's entering PREPARING leaves as it was: every other channel, the events and the host's marks. -/
structure Apart (c : ChannelNo) (s t : State) : Prop where
  others : ∀ d, d ≠ c → t.chan d = s.chan d
  events : t.events = s.events
  hostPresent : t.hostPresent = s.hostPresent
  hostTimer : t.hostTimer = s.hostTimer

theorem Apart.trans (h : Apart c s t) (q : Apart c t u) : Apart c s u :=
  ⟨fun d hd => (q.others d hd).trans (h.others d hd), q.events.trans h.events, q.hostPresent.trans h.hostPresent,
    q.hostTimer.trans h.hostTimer⟩

theorem Reschedules.apart (h : Reschedules c s t) : Apart c s t :=
  ⟨h.others, h.events, h.hostPresent, h.hostTimer⟩

theorem apart_modChan (c : ChannelNo) (f : Channel → Channel) (s : State) : Apart c s (modChan c f s) :=
  ⟨fun _ hd => chan_modChan_ne _ hd _, rfl, rfl, rfl⟩

theorem apart_setChangeover (c : ChannelNo) (st : Changeover) (s : State) : Apart c s (setChangeover c st s) :=
  ⟨fun _ hd => setChangeover_ne hd s, by rw [setChangeover_outside], by rw [setChangeover_outside], by rw [setChangeover_outside]⟩

theorem apart_settleFrameNow (c : ChannelNo) (s : State) : Apart c s (settleFrameNow c s) := by
  refine ⟨fun d _ => settleFrameNow_chan .., ?_, ?_, ?_⟩ <;>
    · unfold settleFrameNow
      split <;> rfl

theorem apart_currentSent (c : ChannelNo) (x : Nat) (dir : Computed) (s : State) : Apart c s (currentSent c x dir s) :=
  ⟨fun _ hd => chan_modChan_ne _ hd _, rfl, rfl, rfl⟩

theorem apart_sendCurrent (c : ChannelNo) (x : Nat) (dir : Computed) (s : State) : Apart c s (sendCurrent c x dir s) := by
  rw [sendCurrent_eq]
  exact (apart_currentSent c x dir s).trans (reschedules_cueFor c dir _).apart

theorem sendCurrent_changeover (c : ChannelNo) (x : Nat) (dir : Computed) (s : State) :
    ((sendCurrent c x dir s).chan c).changeover = (s.chan c).changeover := by
  have hsent : (currentSent c x dir s).chan c = Channel.sendsCurrent (placeFor dir x) (s.chan c) := chan_modChan_self ..
  rw [sendCurrent_eq, (reschedules_cueFor c dir _).self, storing_changeover, hsent]
  rfl

theorem sendJoining_apart (c : ChannelNo) (r : Nat) (s : State) :
    Apart c s (sendJoining c r s) ∧ ((sendJoining c r s).chan c).changeover = (s.chan c).changeover := by
  unfold sendJoining
  split
  · exact ⟨apart_sendCurrent c r _ s, sendCurrent_changeover c r _ s⟩
  · have hskip := reschedules_skipShort c r s
    refine ⟨(hskip.apart.trans (apart_modChan c _ _)).trans (apart_sendCurrent c r _ _), ?_⟩
    rw [sendCurrent_changeover, chan_modChan_self]
    show ((skipShort c r s).chan c).changeover = _
    rw [hskip.self, storing_changeover]

theorem enterPreparing_apart (c : ChannelNo) (s : State) :
    Apart c s (enterPreparing c s) ∧ ((enterPreparing c s).chan c).changeover = .preparing := by
  unfold enterPreparing
  dsimp only
  obtain ⟨hjoin, hst⟩ := sendJoining_apart c (s.frameNow c + (s.chan c).inEffect.cueLead)
    (beginTakeover c (s.frameNow c + (s.chan c).inEffect.cueLead) (setChangeover c .preparing s))
  refine ⟨(((apart_setChangeover c _ s).trans (apart_modChan c _ _)).trans hjoin).trans (apart_settleFrameNow c _), ?_⟩
  rw [settleFrameNow_self, hst, beginTakeover, chan_modChan_self, setChangeover_self]

/-- A waiting channel enters PREPARING when the host goes ABSENT (R132). -/
def proceeds (c : ChannelNo) (s : State) : State :=
  if (s.chan c).changeover = .awaitConfirm then enterPreparing c s else s

theorem proceeds_apart (c : ChannelNo) (s : State) : Apart c s (proceeds c s) ∧ ((proceeds c s).chan c).changeover =
    if (s.chan c).changeover = .awaitConfirm then .preparing else (s.chan c).changeover := by
  unfold proceeds
  split
  · exact enterPreparing_apart c s
  · exact ⟨⟨fun _ _ => rfl, rfl, rfl, rfl⟩, rfl⟩

theorem hostAbsentAtCou_eq (s : State) : hostAbsentAtCou s = allChannels.foldl (fun t c => proceeds c t) s := rfl

/-- What the turns of a list of channels leave. -/
theorem proceed_spec (cs : List ChannelNo) (hn : cs.Nodup) (s : State) :
    (cs.foldl (fun t c => proceeds c t) s).events = s.events ∧ (cs.foldl (fun t c => proceeds c t) s).hostPresent = s.hostPresent ∧
    (cs.foldl (fun t c => proceeds c t) s).hostTimer = s.hostTimer ∧
    ∀ d, ((cs.foldl (fun t c => proceeds c t) s).chan d).changeover =
      if d ∈ cs ∧ (s.chan d).changeover = .awaitConfirm then .preparing else (s.chan d).changeover := by
  induction cs generalizing s with
  | nil => exact ⟨rfl, rfl, rfl, fun d => by simp⟩
  | cons c cs ih =>
    obtain ⟨hc, hn⟩ := List.nodup_cons.1 hn
    obtain ⟨hapart, hst⟩ := proceeds_apart c s
    obtain ⟨he, hp, ht, hch⟩ := ih hn (proceeds c s)
    refine ⟨he.trans hapart.events, hp.trans hapart.hostPresent, ht.trans hapart.hostTimer, fun d => (hch d).trans ?_⟩
    by_cases hd : d = c
    · subst hd
      rw [if_neg (fun h => hc h.1), hst]
      exact if_congr (by simp) rfl rfl
    · rw [hapart.others d hd]
      exact if_congr (by simp [hd]) rfl rfl

theorem hostTick_quiet (h : s.hostPresent = false ∨ s.device.hostSilenceS = 0) : hostTick s = s := by
  unfold hostTick
  refine if_neg ?_
  rintro ⟨hp, hz⟩
  rcases h with h | h
  · rw [hp] at h; cases h
  · exact hz h

theorem hostTick_counts (hp : s.hostPresent = true) (hz : s.device.hostSilenceS ≠ 0) (hlt : s.hostTimer + 1 < 1000 * s.device.hostSilenceS) :
    hostTick s = { s with hostTimer := s.hostTimer + 1 } := by
  unfold hostTick
  rw [if_pos ⟨hp, hz⟩, if_neg hlt.not_ge]

theorem hostTick_absent (hp : s.hostPresent = true) (hz : s.device.hostSilenceS ≠ 0) (hle : 1000 * s.device.hostSilenceS ≤ s.hostTimer + 1) :
    hostTick s = hostAbsentAtCou (raiseEvent .hostAbsentChange { s with hostTimer := s.hostTimer + 1, hostPresent := false }) := by
  unfold hostTick
  rw [if_pos ⟨hp, hz⟩, if_pos hle]

/-! ### The link, the status and the snapshot (R66, R83, R90) -/

theorem linkTick_down (h : s.linkUp = false) : linkTick s = s := if_neg (by rw [h]; exact Bool.false_ne_true)

theorem linkTick_counts (h : s.linkUp = true) (hlt : s.silence + 1 < s.device.linkTimeout) : linkTick s = { s with silence := s.silence + 1 } := by
  unfold linkTick
  rw [if_pos h, if_neg hlt.not_ge]

theorem linkTick_goesDown (h : s.linkUp = true) (hle : s.device.linkTimeout ≤ s.silence + 1) : linkTick s =
    raiseEvent .linkDownChange { s with
      silence := s.silence + 1, linkUp := false, statusCount := 0
      tickDue := s.tickDue.filter (fun p => decide (p ≠ .snapshot)) } := by
  unfold linkTick
  rw [if_pos h, if_pos hle]

theorem linkTick_due (s : State) : (linkTick s).tickDue ⊆ s.tickDue := by
  cases h : s.linkUp with
  | false =>
    rw [linkTick_down h]
    exact List.Subset.refl _
  | true =>
    by_cases hle : s.device.linkTimeout ≤ s.silence + 1
    · rw [linkTick_goesDown h hle]
      exact List.filter_subset_self _
    · rw [linkTick_counts h (Nat.lt_of_not_le hle)]
      exact List.Subset.refl _

theorem statusTick_down (h : s.linkUp = false) : statusTick s = s := if_neg (by rw [h]; exact Bool.false_ne_true)

theorem statusTick_counts (h : s.linkUp = true) (hlt : s.statusCount + 1 < s.device.statusInterval) :
    statusTick s = { s with statusCount := s.statusCount + 1 } := by
  unfold statusTick
  rw [if_pos h, if_neg hlt.not_ge]

theorem sendStatus_eq (s : State) : sendStatus s = statusSent s := rfl

theorem statusTick_sends (h : s.linkUp = true) (hle : s.device.statusInterval ≤ s.statusCount + 1) :
    statusTick s = statusSent { s with statusCount := 0 } := by
  unfold statusTick
  rw [if_pos h, if_pos hle, sendStatus_eq]

theorem snapshotTick_held (h : s.assembly = none ∨ s.linkUp = false) : snapshotTick s = s := by
  unfold snapshotTick
  split
  · rename_i ha hl
    rw [ha, hl] at h
    simp at h
  · rfl

theorem snapshotTick_counts {a : Assembly} (ha : s.assembly = some a) (h : s.linkUp = true) (hlt : a.timer + 1 < 1000 * s.device.snapshotTimeoutS) :
    snapshotTick s = { s with assembly := some { a with timer := a.timer + 1 } } := by
  unfold snapshotTick
  rw [ha, h]
  exact if_neg hlt.not_ge

theorem snapshotTick_fails {a : Assembly} (ha : s.assembly = some a) (h : s.linkUp = true) (hle : 1000 * s.device.snapshotTimeoutS ≤ a.timer + 1) :
    snapshotTick s = failSnapshot false s := by
  unfold snapshotTick
  rw [ha, h]
  exact if_pos hle

/-! ### Takes and walks (R103, R106, R176) -/

theorem takeTick_none (h : (s.chan c).outstanding = none) : takeTick c s = s := by
  unfold takeTick
  rw [h]

theorem takeTick_counts {o : OutstandingTake} (h : (s.chan c).outstanding = some o) (hlt : o.timer + 1 < s.device.routerTimeout) :
    takeTick c s = modChan c (fun ch => { ch with outstanding := some { o with timer := o.timer + 1 } }) s := by
  unfold takeTick
  rw [h]
  exact if_neg hlt.not_ge

theorem takeTick_ends {o : OutstandingTake} (h : (s.chan c).outstanding = some o) (hle : s.device.routerTimeout ≤ o.timer + 1) :
    takeTick c s = takeFailed c o.direction (raise c .routerFault (endTake c s)) := by
  unfold takeTick
  rw [h]
  exact if_pos hle

/-- The entries a walk reads (R103). -/
def walked (s : State) (w : Walk) : List Entry :=
  (s.chan w.record.channel).schedule.filter Entry.isReplicated

theorem walkTick_reads {w : Walk} {e : Entry} (h : s.walk = some w) (he : (walked s w)[w.read]? = some e) :
    walkTick s = { s with walk := some (w.readEntry e) } := by
  have hhead : ((walked s w).drop w.read).head? = some e := by rw [List.head?_drop]; exact he
  unfold walkTick
  rw [h]
  dsimp only
  unfold walked at hhead
  rw [hhead]

theorem walkTick_ends {w : Walk} (h : s.walk = some w) (he : (walked s w).length ≤ w.read) : walkTick s = completeWalk w s := by
  have hhead : ((walked s w).drop w.read).head? = none := by rw [List.head?_drop]; exact List.getElem?_eq_none he
  unfold walkTick
  rw [h]
  dsimp only
  unfold walked at hhead
  rw [hhead]

theorem readEntry_counted {w : Walk} {e : Entry} {n x : Nat} (h : e.view = some (n, x)) (hx : w.record.horizon ≤ x) : w.readEntry e =
    { w with
      digest := (w.digest + (e.body.entryId * 40503 + n * 977 + x % 65536) % 2 ^ 32) % 2 ^ 32
      count := w.count + 1, read := w.read + 1 } := by
  unfold Walk.readEntry
  rw [h]
  exact if_pos hx

theorem readEntry_passed {w : Walk} {e : Entry} (h : ∀ n x, e.view = some (n, x) → x < w.record.horizon) :
    w.readEntry e = { w with read := w.read + 1 } := by
  unfold Walk.readEntry
  cases hv : e.view with
  | none => rfl
  | some p => exact if_neg (h p.1 p.2 hv).not_ge

theorem completeWalk_agrees {w : Walk} (hd : w.digest = w.record.mainDigest) (hc : w.count = w.record.mainCount) (s : State) :
    completeWalk w s = startWalk (modChan w.record.channel (fun ch => { ch with lastAgreed := some (ch.frame.getD w.record.horizon) })
      { s with walk := none }) :=
  if_pos ⟨hd, hc⟩

theorem completeWalk_differs {w : Walk} (h : w.digest ≠ w.record.mainDigest ∨ w.count ≠ w.record.mainCount) (s : State) :
    completeWalk w s = startWalk (fallOut w.record.channel .digest { s with walk := none }) := by
  refine if_neg ?_
  rintro ⟨hd, hc⟩
  rcases h with h | h
  · exact h hd
  · exact h hc

/-- Settles O52. -/
theorem tickTimersCountToTheirLimits : Obligations.TickTimersCountToTheirLimits := by
  intro s
  refine ⟨fun hdue => ?_, fun hdue => ?_, fun hdue hno => ?_, fun hno hdue => ?_, fun c hdue => ?_, fun hdue => ?_, fun hdue => ?_,
    fun c cause => rfl⟩
  · have hexec : exec .linkTimeout s = .next (linkTick (partTaken .link s)) := exec_part rfl (by simp) hdue
    rw [hexec]
    exact ⟨fun h => congrArg _ (linkTick_down h), fun h hlt => congrArg _ (linkTick_counts h hlt),
      fun h hle => congrArg _ (linkTick_goesDown h hle)⟩
  · have hexec : exec .statusInterval s = .next (statusTick (partTaken .status s)) := exec_part rfl (by simp) hdue
    rw [hexec]
    exact ⟨fun h => congrArg _ (statusTick_down h), fun h hlt => congrArg _ (statusTick_counts h hlt),
      fun h hle => congrArg _ (statusTick_sends h hle)⟩
  · refine ⟨takePart .link s, congrArg Host.Outcome.next (takePartInOrder_ne (by simp) s), congrArg Host.Outcome.next ?_⟩
    have hgone : .link ∉ (takePart .link s).tickDue := by
      rw [takePart_due hdue]
      exact fun h => hno (linkTick_due _ h)
    rw [takePartInOrder, takePartInOrder, if_pos rfl, if_pos rfl, takePart_done hgone]
  · have hexec : exec .snapshotTimeout s = .next (snapshotTick (partTaken .snapshot s)) := by
      refine congrArg Host.Outcome.next ?_
      rw [takePartInOrder, if_pos rfl, takePart_done hno, takePart_due hdue]
      rfl
    rw [hexec]
    exact ⟨fun h => congrArg _ (snapshotTick_held h), fun a ha h hlt => congrArg _ (snapshotTick_counts ha h hlt),
      fun a ha h hle => congrArg _ (snapshotTick_fails ha h hle)⟩
  · have hexec : exec (.routerTimeout c) s = .next (takeTick c (partTaken (.take c) s)) := exec_part rfl (by simp) hdue
    rw [hexec]
    exact ⟨fun h => congrArg _ (takeTick_none h), fun o ho hlt => congrArg _ (takeTick_counts ho hlt),
      fun o ho hle => congrArg _ (takeTick_ends ho hle)⟩
  · have hexec : exec .hostAbsent s = .next (hostTick (partTaken .host s)) := exec_part rfl (by simp) hdue
    rw [hexec]
    refine ⟨fun h => congrArg _ (hostTick_quiet h), fun hp hz hlt => congrArg _ (hostTick_counts hp hz hlt), fun hp hz hle => ?_⟩
    obtain ⟨he, hh, ht, hch⟩ := proceed_spec allChannels (List.nodup_finRange 64)
      (raiseEvent .hostAbsentChange { partTaken .host s with hostTimer := s.hostTimer + 1, hostPresent := false })
    refine ⟨_, congrArg _ (hostTick_absent (s := partTaken .host s) hp hz hle), hh, ht, he, fun c => (hch c).trans ?_⟩
    exact if_congr ⟨fun h => h.2, fun h => ⟨List.mem_finRange c, h⟩⟩ rfl rfl
  · have hexec : exec .digestWalkComplete s = .next (walkTick (partTaken .walk s)) := exec_part rfl (by simp) hdue
    rw [hexec]
    refine ⟨fun h => congrArg _ ?_, fun w hw => ⟨fun e he => ⟨fun hview => congrArg _ ?_, fun n x hview hx => congrArg _ ?_⟩,
      fun hle hd hc => congrArg _ ?_, fun hle hd => congrArg _ ?_⟩⟩
    · unfold walkTick
      rw [show (partTaken .walk s).walk = none from h]
    · rw [walkTick_reads (s := partTaken .walk s) hw he, readEntry_passed hview]
    · rw [walkTick_reads (s := partTaken .walk s) hw he, readEntry_counted hview hx]
    · rw [walkTick_ends (s := partTaken .walk s) hw hle, completeWalk_agrees hd hc]
    · rw [walkTick_ends (s := partTaken .walk s) hw hle, completeWalk_differs hd]

end Timers

end Sys2Proof.Machine

/-! # The replication link: updates and messages (Chapter 4) -/

namespace Sys2Proof.Machine

section Messages

open Says

variable {c d : ChannelNo} {s t u v w : State} {es : List Entry} {e : Entry} {seq : Nat} {counted : Bool}

/-! ### Messages arrive (R64, R66) -/

theorem arrive_eq {content : State → State} (h : ∀ t, (content t).linkUp = t.linkUp) (s : State) :
    arrive content s = arrived s.linkUp (content (delivered s)) := by
  unfold arrive arrived
  dsimp only
  rw [h]
  rfl

theorem arrived_up (h : s.linkUp = true) (t : State) : arrived s.linkUp t = t := by rw [h]; rfl

theorem arrived_down (h : s.linkUp = false) (t : State) : arrived s.linkUp t = linkComesUp t := by rw [h]; rfl

theorem receive_some {α : Type} {p : Option α} {x : α} (h : p = some x) (content : α → State → State) (s : State) :
    receive p content s = arrive (content x) s := by
  subst h
  rfl

theorem receive_none {α : Type} {p : Option α} (h : p = none) (content : α → State → State) (s : State) :
    receive p content s = arrive malformed s := by
  subst h
  rfl

/-- An update's row takes its content (R64, R65). -/
theorem exec_update {i : Instr} {x : Update} (h : updateOf i = some (c, x)) (s : State) :
    exec i s = .next (arrived s.linkUp (receiveUpdate c x (delivered s))) := by
  rw [← arrive_eq (fun t => receiveUpdate_linkUp c x t)]
  unfold updateOf at h
  split at h
  · rename_i body
    obtain ⟨y, hy, hx⟩ := Option.map_eq_some_iff.1 h
    cases hx
    exact congrArg Host.Outcome.next (receive_some hy _ s)
  · rename_i body
    obtain ⟨y, hy, hx⟩ := Option.map_eq_some_iff.1 h
    cases hx
    exact congrArg Host.Outcome.next (receive_some hy _ s)
  · cases h

/-! ### Sequence checking (R65, R69, R70, R94) -/

theorem receiveUpdate_off {x : Update} (h : (s.chan c).settings.mode = .off) : receiveUpdate c x s = s := if_pos h

theorem receiveUpdate_discarded {x : Update} (h : (s.chan c).replState = .outOfStep ∨ (s.chan c).replState = .unseeded ∨
    (s.chan c).replState = .stale) : receiveUpdate c x s = s := by
  unfold receiveUpdate
  split
  · rfl
  · rcases h with h | h | h <;> rw [h]

theorem receiveUpdate_inStep {x : Update} (hm : (s.chan c).settings.mode ≠ .off) (h : (s.chan c).replState = .inStep) :
    receiveUpdate c x s = checkUpdate c x s := by
  unfold receiveUpdate
  rw [if_neg hm, h]

theorem receiveUpdate_resyncing {x : Update} (hm : (s.chan c).settings.mode ≠ .off) (h : (s.chan c).replState = .resyncing) :
    receiveUpdate c x s = deferUpdate c x s := by
  unfold receiveUpdate
  rw [if_neg hm, h]

theorem classOf_duplicate {n : Nat} (h : n = 0 ∨ 32769 ≤ n) : classOf n = .duplicate := by
  unfold classOf
  rw [if_neg (by omega), if_pos h]

theorem classOf_gap {n : Nat} (h1 : 2 ≤ n) (h2 : n ≤ 32768) : classOf n = .gap := by
  unfold classOf
  rw [if_neg (by omega), if_neg (by omega)]

theorem classOf_next {n : Nat} (h : n = 1) : classOf n = .next := if_pos h

theorem budgetExceeded_iff (ch : Channel) : budgetExceeded ch = true ↔
    ch.frame ≠ none ∧ ch.inEffect.editBudget ≠ 0 ∧ ch.inEffect.editBudget ≤ ch.budget.updates := by
  simp [budgetExceeded, Option.isSome_iff_ne_none, and_assoc]

section Check

variable {x : Update} {last : Nat} (hl : (s.chan c).lastApplied = some last)

include hl

theorem checkUpdate_duplicate (h : classOf (distance last x.sequence) = .duplicate) : checkUpdate c x s = s := by
  unfold checkUpdate
  rw [hl, Option.getD_some, h]

theorem checkUpdate_gap (h : classOf (distance last x.sequence) = .gap) : checkUpdate c x s = fallOut c .gap s := by
  unfold checkUpdate
  rw [hl, Option.getD_some, h]

theorem checkUpdate_next (h : classOf (distance last x.sequence) = .next) :
    checkUpdate c x s = if budgetExceeded (s.chan c) then storm c s else applyUpdate c true x s := by
  unfold checkUpdate
  rw [hl, Option.getD_some, h]

end Check

theorem deferUpdate_elsewhere {x : Update} (h : ∀ a, s.assembly = some a → a.channel ≠ c ∨ a.phase ≠ .receiving) : deferUpdate c x s = s := by
  unfold deferUpdate
  split
  · rfl
  · rename_i a ha
    split
    · rename_i hp _
      refine if_pos (.inl ?_)
      rcases h a ha with h | h
      · exact h
      · exact absurd hp h
    · rfl

/-- The number is held by a deferred update. -/
def heldNumber (s : State) (n : Nat) : Prop :=
  ∃ v ∈ s.deferral, v.sequence = n

theorem deferral_any (s : State) (n : Nat) : s.deferral.any (fun v => decide (v.sequence = n)) = true ↔ heldNumber s n := by
  simp [heldNumber]

theorem deferUpdate_receiving {x : Update} {a : Assembly} {resume : Nat} (ha : s.assembly = some a) (hc : a.channel = c)
    (hp : a.phase = .receiving) (hr : a.resume = some resume) : deferUpdate c x s =
      if distance resume x.sequence = 0 ∨ 32769 ≤ distance resume x.sequence then s
      else if s.deferral.any (fun v => decide (v.sequence = x.sequence)) then s
      else if s.deferral.length < Config.deferralLimit then { s with deferral := s.deferral ++ [x] }
      else { s with assembly := some { a with gapNoted := true } } := by
  unfold deferUpdate
  rw [ha]
  dsimp only
  rw [hp, hr]
  dsimp only
  exact if_congr ⟨fun h => h.resolve_left (not_not.2 hc), .inr⟩ rfl rfl

/-- Settles O53. -/
theorem updatesAreClassed : Obligations.UpdatesAreClassed := by
  intro i c u s hu hup ch t seq exceeded
  have hexec : exec i s = .next (receiveUpdate c u t) := by rw [exec_update hu s, arrived_up hup]
  have hseq : seq = u.sequence := by cases u <;> rfl
  clear_value seq
  subst hseq
  rw [hexec]
  refine ⟨fun h => congrArg _ (receiveUpdate_off h), fun h => congrArg _ (receiveUpdate_discarded h), fun last hm hst hl hle => ?_,
    fun hm hst => ⟨fun h => ?_, fun a resume ha hc hp hr => ?_⟩⟩
  · have hcheck : receiveUpdate c u t = checkUpdate c u t := receiveUpdate_inStep hm hst
    have hl' : (t.chan c).lastApplied = some last := hl
    rw [hcheck]
    refine ⟨fun h => congrArg _ ?_, fun h1 h2 => congrArg _ ?_, fun h hx => congrArg _ ?_, fun h hx => congrArg _ ?_⟩
    · exact checkUpdate_duplicate hl' (classOf_duplicate h)
    · exact checkUpdate_gap hl' (classOf_gap h1 h2)
    · exact (checkUpdate_next hl' (classOf_next h)).trans (if_pos ((budgetExceeded_iff ch).2 hx))
    · exact (checkUpdate_next hl' (classOf_next h)).trans (if_neg (fun hb => hx ((budgetExceeded_iff ch).1 hb)))
  · have hdefer : receiveUpdate c u t = deferUpdate c u t := receiveUpdate_resyncing hm hst
    rw [hdefer]
    exact congrArg _ (deferUpdate_elsewhere h)
  · have hdefer : receiveUpdate c u t = deferUpdate c u t := receiveUpdate_resyncing hm hst
    have hrec := deferUpdate_receiving (s := t) (x := u) ha hc hp hr
    rw [hdefer, hrec]
    have hfar (h1 : 1 ≤ (u.sequence + 65536 - resume) % 65536) (h2 : (u.sequence + 65536 - resume) % 65536 ≤ 32768) :
        ¬(distance resume u.sequence = 0 ∨ 32769 ≤ distance resume u.sequence) := by
      unfold distance
      omega
    refine ⟨fun h => congrArg _ (if_pos h), fun h1 h2 hh => congrArg _ ?_, fun h1 h2 hh hlt => congrArg _ ?_, fun h1 h2 hh hle => congrArg _ ?_⟩
    · rw [if_neg (hfar h1 h2), if_pos ((deferral_any t _).2 hh)]
    · rw [if_neg (hfar h1 h2), if_neg (fun h => hh ((deferral_any t _).1 h))]
      exact if_pos hlt
    · rw [if_neg (hfar h1 h2), if_neg (fun h => hh ((deferral_any t _).1 h))]
      exact if_neg hle.not_gt

/-! ### Application of updates (R57, R70 to R78) -/

/-- Consuming an update is written in one channel, and its walks are abandoned (R57, R72). -/
theorem consume_eq (h : (s.chan c).lastApplied ≠ some seq) (counted : Bool) : consume c counted seq s = consumed c counted seq s := by
  unfold consume setLastApplied consumed
  cases counted with
  | false => exact if_neg h
  | true =>
    dsimp only
    rw [if_pos rfl, chan_modChan_self, if_neg h, modChan_modChan]
    rfl

/-- Walks abandoned before an update is consumed are abandoned by it. -/
theorem consumed_abandonWalks (c : ChannelNo) (counted : Bool) (seq : Nat) (s : State) :
    consumed c counted seq (abandonWalks c s) = consumed c counted seq s := by
  unfold consumed
  rw [← abandonWalks_modChan, abandonWalks_twice]

/-- Where an operation of the Schedule Store took the update, consuming it is judged as before. -/
theorem consume_stored (hl : (s.chan c).lastApplied ≠ some seq) (h : Reschedules c s t) (counted : Bool) :
    consume c counted seq t = consumed c counted seq t :=
  consume_eq (by rw [h.self]; exact hl) counted

theorem refuseInService_eq (c : ChannelNo) (s : State) :
    refuseInService c s = raise c .divergence (modChan c (fun ch => { ch with inServiceRefused := true }) s) := rfl

theorem consume_refused (hl : (s.chan c).lastApplied ≠ some seq) (counted : Bool) :
    consume c counted seq (refuseInService c s) = consumed c counted seq (refuseInService c s) :=
  consume_eq (by rw [refuseInService_eq, raise_chan_self, chan_modChan_self]; exact hl) counted

theorem reschedules_writeAmendment (c : ChannelNo) (k : EntryKey) (a : Amendment) (s : State) : Reschedules c s (writeAmendment c k a s) :=
  (reschedules_setSchedule c _ s).trans (reschedules_abandonWalks c _)

theorem reschedules_joinEntry (c : ChannelNo) (o : Origin) (b : Body) (s : State) : Reschedules c s (joinEntry c o b s) :=
  reschedules_setSchedule c _ s

/-- An amendment that is written sets PINNED_HELD, and raises DIVERGENCE where it was not set (R57). -/
theorem writeAmendment_eq {pre post : List Entry} (hl : ChannelLaw (s.chan c)) (hs : (s.chan c).schedule = pre ++ e :: post) (a : Amendment) :
    writeAmendment c e.key a s = abandonWalks c (amended c (pre ++ ({ e with amendment := some a } : Entry) :: post) s) := by
  have hn := keys_nodup_of_channelLaw hl hs
  have hany : (pre ++ ({ e with amendment := some a } : Entry) :: post).any (fun e => e.amendment.isSome) = true := by
    simp
  refine congrArg (abandonWalks c) ?_
  rw [hs, mapEntry_middle hn]
  unfold setSchedule amended rescheduled
  dsimp only
  rw [hany, Bool.true_and]
  cases hh : (s.chan c).pinnedHeld with
  | true =>
    unfold anyAmendment
    rw [hany]
    rfl
  | false =>
    rw [if_neg Bool.false_ne_true, modChan_raise (fun _ => rfl)]
    unfold anyAmendment
    rw [hany]
    rfl

/-! ### A body for a listed entry (R73 to R76) -/

section Listed

variable {b : Body}

theorem applyToListed_old (h : b.revision ≤ e.revisionOfRecord) : applyToListed c e b s = s := if_pos h

theorem applyToListed_held (h : e.revisionOfRecord < b.revision) (hp : e.pinned = true ∨ e.amendment ≠ none) :
    applyToListed c e b s = writeAmendment c e.key (.body b) s := by
  unfold applyToListed
  rw [if_neg h.not_ge, if_pos]
  rw [Bool.or_eq_true, Option.isSome_iff_ne_none]
  exact hp

theorem applyToListed_inService (h : e.revisionOfRecord < b.revision) (hp : e.pinned = false) (ha : e.amendment = none)
    (hs : e.inService = true) : applyToListed c e b s = refuseInService c s := by
  unfold applyToListed
  rw [if_neg h.not_ge, hp, ha, Option.isSome_none, Bool.or_false, if_neg Bool.false_ne_true, if_pos hs]

theorem applyToListed_replaces (h : e.revisionOfRecord < b.revision) (hp : e.pinned = false) (ha : e.amendment = none)
    (hs : e.inService = false) : applyToListed c e b s = abandonWalks c (replaceEntry c e.key b s) := by
  unfold applyToListed
  rw [if_neg h.not_ge, hp, ha, Option.isSome_none, Bool.or_false, if_neg Bool.false_ne_true, if_neg (by rw [hs]; exact Bool.false_ne_true)]

theorem dropListed_held (hp : e.pinned = true ∨ e.amendment ≠ none) : dropListed c e s = writeAmendment c e.key .deletion s := by
  unfold dropListed
  refine if_pos ?_
  rw [Bool.or_eq_true, Option.isSome_iff_ne_none]
  exact hp

theorem dropListed_inService (hp : e.pinned = false) (ha : e.amendment = none) (hs : e.inService = true) :
    dropListed c e s = refuseInService c s := by
  unfold dropListed
  rw [hp, ha, Option.isSome_none, Bool.or_false, if_neg Bool.false_ne_true, if_pos hs]

theorem dropListed_removes (hp : e.pinned = false) (ha : e.amendment = none) (hs : e.inService = false) :
    dropListed c e s = removeEntry c e.key s := by
  unfold dropListed
  rw [hp, ha, Option.isSome_none, Bool.or_false, if_neg Bool.false_ne_true, if_neg (by rw [hs]; exact Bool.false_ne_true)]

end Listed

section Put

variable {raw : RawBody}

/-- The name an update carries. -/
def replicatedKey (id : Nat) : EntryKey :=
  { origin := .replicated, id := id }

/-- The state in which a PUT is judged: its clamps have been raised. -/
def putJudged (c : ChannelNo) (raw : RawBody) (s : State) : State :=
  if raw.clamps (s.chan c).settings.rate then raise c .clamped s else s

theorem putJudged_schedule (c : ChannelNo) (raw : RawBody) (s : State) : ((putJudged c raw s).chan c).schedule = (s.chan c).schedule := by
  unfold putJudged
  split
  · exact raise_schedule c _ s
  · rfl

theorem putJudged_lastApplied (c : ChannelNo) (raw : RawBody) (s : State) :
    ((putJudged c raw s).chan c).lastApplied = (s.chan c).lastApplied := by
  unfold putJudged
  split
  · rw [raise_chan_self]
  · rfl

theorem putJudged_frame (c : ChannelNo) (raw : RawBody) (s : State) : ((putJudged c raw s).chan c).frame = (s.chan c).frame := by
  unfold putJudged
  split
  · rw [raise_chan_self]
  · rfl

theorem inv_putJudged {n : Nat} (h : InvWith n s) (c : ChannelNo) (raw : RawBody) : InvWith n (putJudged c raw s) :=
  inv_raiseIf h _ c .clamped

theorem applyPut_invalid (h : raw.valid (s.chan c).settings.rate = false) :
    applyPut c counted seq raw s = fallOut c .badEntry (consume c counted seq (putJudged c raw s)) := by
  unfold applyPut
  dsimp only
  rw [h]
  rfl

theorem applyPut_listed (h : raw.valid (s.chan c).settings.rate = true)
    (he : lookupEntry (replicatedKey raw.entryId) (s.chan c).schedule = some e) :
    applyPut c counted seq raw s = consume c counted seq (applyToListed c e (raw.convert (s.chan c).settings.rate) (putJudged c raw s)) := by
  rw [← putJudged_schedule c raw s] at he
  unfold applyPut
  dsimp only
  rw [h]
  unfold replicatedKey putJudged at he
  show (if false = true then _ else match lookupEntry { origin := .replicated, id := raw.entryId }
      ((raiseIf (raw.clamps (s.chan c).settings.rate) c .clamped s).chan c).schedule with | some e => _ | none => _) = _
  unfold raiseIf
  rw [he]
  rfl

theorem applyPut_new (h : raw.valid (s.chan c).settings.rate = true)
    (he : lookupEntry (replicatedKey raw.entryId) (s.chan c).schedule = none) : applyPut c counted seq raw s =
      if Config.scheduleLimit ≤ (s.chan c).schedule.length then fallOut c .full (putJudged c raw s)
      else match requestSlot (putJudged c raw s) with
        | none => fallOut c .pool (putJudged c raw s)
        | some u => consume c counted seq (abandonWalks c (joinEntry c .replicated (raw.convert (s.chan c).settings.rate) u)) := by
  rw [← putJudged_schedule c raw s] at he ⊢
  unfold applyPut
  dsimp only
  rw [h]
  unfold replicatedKey putJudged at he
  show (if false = true then _ else match lookupEntry { origin := .replicated, id := raw.entryId }
      ((raiseIf (raw.clamps (s.chan c).settings.rate) c .clamped s).chan c).schedule with | some e => _ | none => _) = _
  unfold raiseIf
  rw [he]
  rfl

end Put

theorem storing_self (x : Channel) : x.storing x = x := rfl

/-- A slot request writes at most the schedule of the channel whose entry it retires (R22, R34). -/
theorem requestSlot_storing (hr : requestSlot s = some t) (c : ChannelNo) : t.chan c = (t.chan c).storing (s.chan c) := by
  unfold requestSlot at hr
  split at hr
  · cases hr
    rw [grantSlot_chan, storing_self]
  · split at hr
    · rename_i d k _
      cases hr
      rw [grantSlot_chan]
      have h : Reschedules d s (removeEntry d k s) := reschedules_keepOnly d _ s
      by_cases hc : c = d
      · subst hc
        exact h.self
      · rw [h.others c hc, storing_self]
    · cases hr

theorem applyDrop_zero (c : ChannelNo) (counted : Bool) (seq : Nat) (s : State) :
    applyDrop c counted seq 0 s = fallOut c .badEntry (consume c counted seq s) := if_pos rfl

theorem applyDrop_unlisted {id : Nat} (h0 : id ≠ 0) (h : lookupEntry (replicatedKey id) (s.chan c).schedule = none) :
    applyDrop c counted seq id s = consume c counted seq s := by
  unfold applyDrop
  rw [if_neg h0]
  unfold replicatedKey at h
  rw [h]

theorem applyDrop_listed {id : Nat} (h0 : id ≠ 0) (h : lookupEntry (replicatedKey id) (s.chan c).schedule = some e) :
    applyDrop c counted seq id s = consume c counted seq (dropListed c e s) := by
  unfold applyDrop
  rw [if_neg h0]
  unfold replicatedKey at h
  rw [h]

/-- The REPLICATED entry of an ID leaves the schedule, with its walks abandoned (R26, R46). -/
theorem removeEntry_replicated {pre post : List Entry} (hl : ChannelLaw (s.chan c)) (hs : (s.chan c).schedule = pre ++ e :: post)
    (ho : e.origin = .replicated) : removeEntry c e.key s = abandonWalks c (freeSlots 1 (rescheduled c (pre ++ post) s)) := by
  have hrepl : e.isReplicated = true := decide_eq_true ho
  rw [removeEntry_eq hs (keys_nodup_of_channelLaw hl hs), hrepl, setSchedule_of_sublist hl (by rw [hs]; exact sublist_middle _ _ _)]
  rfl

theorem reschedules_removeEntry (c : ChannelNo) (k : EntryKey) (s : State) : Reschedules c s (removeEntry c k s) :=
  reschedules_keepOnly c _ s

theorem lookup_replicated {pre post : List Entry} {id : Nat} (hl : ChannelLaw (s.chan c)) (hs : (s.chan c).schedule = pre ++ e :: post)
    (hk : e.key = replicatedKey id) : lookupEntry (replicatedKey id) (s.chan c).schedule = some e := by
  rw [← hk, hs]
  exact lookupEntry_middle (keys_nodup_of_channelLaw hl hs)

theorem lookup_unlisted {k : EntryKey} (h : ∀ e ∈ es, e.key ≠ k) : lookupEntry k es = none :=
  lookupEntry_none.2 (not_mem_keys h)

/-- Settles O54. -/
theorem updatesAreApplied : Obligations.UpdatesAreApplied := by
  intro c counted seq s hinv hseq
  have hlaw := hinv.channels c
  refine ⟨fun raw => ?_, fun id => ?_⟩
  · intro r t b key out
    have ht : t = putJudged c raw s := rfl
    have htinv : InvWith 0 t := inv_putJudged hinv c raw
    have htlaw := htinv.channels c
    have htseq : (t.chan c).lastApplied ≠ some seq := by rw [ht, putJudged_lastApplied]; exact hseq
    have htsched : (t.chan c).schedule = (s.chan c).schedule := putJudged_schedule c raw s
    have htframe : (t.chan c).frame = (s.chan c).frame := putJudged_frame c raw s
    have hout : out = applyPut c counted seq raw s := rfl
    clear_value out
    subst hout
    refine ⟨fun h => ?_, fun pre e post h hs hk => ?_, fun h hno => ?_⟩
    · rw [applyPut_invalid h, ← ht, consume_eq htseq]
    · have hput : applyPut c counted seq raw s = consume c counted seq (applyToListed c e b t) :=
        applyPut_listed h (lookup_replicated hlaw hs hk)
      have hts : (t.chan c).schedule = pre ++ e :: post := htsched.trans hs
      have hrev : b.revision = raw.revision := rfl
      have hbid : b.entryId = raw.entryId := rfl
      intro newest
      have hnew : newest = e.revisionOfRecord := rfl
      clear_value newest t b
      subst hnew
      rw [hput]
      rw [← hrev]
      refine ⟨fun hold => ?_, fun hlt hp => ?_, fun hlt hp ha hi => ?_, fun hlt hp ha hi => ?_⟩
      · rw [applyToListed_old hold, consume_eq htseq]
      · rw [applyToListed_held hlt hp, consume_stored htseq (reschedules_writeAmendment c e.key _ t), writeAmendment_eq htlaw hts,
          consumed_abandonWalks]
      · rw [applyToListed_inService hlt hp ha hi, consume_refused htseq, refuseInService_eq]
      · have hb : b.entryId = e.key.id := hbid.trans (congrArg EntryKey.id hk).symm
        obtain ⟨d, es, hd, hj, hrep⟩ := replaceEntry_replaces htlaw hts hb
        rw [htframe] at hj
        refine ⟨d, es, hd, hj, ?_⟩
        rw [applyToListed_replaces hlt hp ha hi,
          consume_stored htseq ((reschedules_replaceEntry c e.key b t).trans (reschedules_abandonWalks c _)), hrep, consumed_abandonWalks]
    · have hput := applyPut_new (seq := seq) (counted := counted) h (lookup_unlisted hno)
      rw [← ht] at hput
      rw [hput]
      refine ⟨fun hle => if_pos hle, fun hlt hr => ?_, fun u hlt hr => ?_⟩
      · rw [if_neg (show ¬Config.scheduleLimit ≤ _ from hlt.not_ge), hr]
      · have hsub := requestSlot_schedule hr c
        rw [htsched] at hsub
        obtain ⟨e, es, he, hj, hjoin⟩ := joinEntry_joins (o := .replicated) (b := b) ((inv_requestSlot htinv hr).channels c)
          (fun hm => by
            obtain ⟨e, he, hk⟩ := List.mem_map.1 hm
            exact hno e (hsub.subset he) hk) (hsub.length_le.trans_lt hlt)
        have hu : (u.chan c).lastApplied ≠ some seq := by
          rw [requestSlot_storing hr c]
          exact htseq
        refine ⟨e, es, he, hj, ?_⟩
        rw [if_neg (show ¬Config.scheduleLimit ≤ _ from hlt.not_ge), hr]
        dsimp only
        rw [consume_stored hu ((reschedules_joinEntry c _ _ u).trans (reschedules_abandonWalks c _)), consumed_abandonWalks]
        exact congrArg _ hjoin
  · intro key out
    have hout : out = applyDrop c counted seq id s := rfl
    clear_value out
    subst hout
    refine ⟨fun h0 => ?_, fun h0 hno => ?_, fun pre e post h0 hs hk => ?_⟩
    · rw [h0, applyDrop_zero, consume_eq hseq]
    · rw [applyDrop_unlisted h0 (lookup_unlisted hno), consume_eq hseq]
    · have ho : e.origin = .replicated := congrArg EntryKey.origin hk
      rw [applyDrop_listed h0 (lookup_replicated hlaw hs hk)]
      refine ⟨fun hp => ?_, fun hp ha hi => ?_, fun hp ha hi => ?_⟩
      · rw [dropListed_held hp, consume_stored hseq (reschedules_writeAmendment c e.key _ s), writeAmendment_eq hlaw hs, consumed_abandonWalks]
      · rw [dropListed_inService hp ha hi, consume_refused hseq, refuseInService_eq]
      · rw [dropListed_removes hp ha hi, consume_stored hseq (reschedules_removeEntry c e.key s), removeEntry_replicated hlaw hs ho,
          consumed_abandonWalks]

end Messages

end Sys2Proof.Machine

/-! # The kinds of replication messages, the heartbeat and the link (Chapter 4) -/

namespace Sys2Proof.Machine

section Link

open Says

variable {c d : ChannelNo} {s t u v w : State}

/-! ### The kind byte of a message (R64, R196) -/

theorem replicationWellFormed_known {kind : Byte} {p : Bool × Instr} {body : List Byte} (h : (kind, p) ∈ replicationKinds body) (l1 l2 : Byte) :
    replicationWellFormed (kind :: l1 :: l2 :: body) = (decide (256 * l1.toNat + l2.toNat = body.length) && p.1) := by
  have hlen : numberOf [l1, l2] = 256 * l1.toNat + l2.toNat := by simp [numberOf]
  unfold replicationWellFormed
  dsimp only
  rw [hlen]
  simp only [replicationKinds, List.mem_cons, List.not_mem_nil, or_false, Prod.mk.injEq] at h
  rcases h with ⟨rfl, rfl⟩ | ⟨rfl, rfl⟩ | ⟨rfl, rfl⟩ | ⟨rfl, rfl⟩ | ⟨rfl, rfl⟩ | ⟨rfl, rfl⟩ <;> rfl

theorem ofReplication_malformed {bytes : List Byte} (h : replicationWellFormed bytes = false) :
    ofReplication bytes = .malformedMessage bytes := by
  unfold ofReplication
  rw [h]

theorem ofReplication_known {kind : Byte} {p : Bool × Instr} {body : List Byte} (h : (kind, p) ∈ replicationKinds body) {l1 l2 : Byte}
    (hw : replicationWellFormed (kind :: l1 :: l2 :: body) = true) : ofReplication (kind :: l1 :: l2 :: body) = p.2 := by
  unfold ofReplication
  rw [hw]
  simp only [replicationKinds, List.mem_cons, List.not_mem_nil, or_false, Prod.mk.injEq] at h
  rcases h with ⟨rfl, rfl⟩ | ⟨rfl, rfl⟩ | ⟨rfl, rfl⟩ | ⟨rfl, rfl⟩ | ⟨rfl, rfl⟩ | ⟨rfl, rfl⟩ <;> rfl

theorem replicationWellFormed_unknown {kind : Byte} {body : List Byte} (h : ∀ k ∈ replicationKinds body, kind ≠ k.1) (l1 l2 : Byte) :
    replicationWellFormed (kind :: l1 :: l2 :: body) = false := by
  have hne {x : Byte} (hx : x ∈ (replicationKinds body).map Prod.fst) : kind.toNat ≠ x.toNat := by
    obtain ⟨k, hk, rfl⟩ := List.mem_map.1 hx
    exact fun he => h k hk (BitVec.eq_of_toNat_eq he)
  have h1 := hne (x := 0x01) (by simp [replicationKinds])
  have h2 := hne (x := 0x02) (by simp [replicationKinds])
  have h3 := hne (x := 0x03) (by simp [replicationKinds])
  have h4 := hne (x := 0x04) (by simp [replicationKinds])
  have h5 := hne (x := 0x05) (by simp [replicationKinds])
  have h6 := hne (x := 0x06) (by simp [replicationKinds])
  unfold replicationWellFormed
  dsimp only
  rw [Bool.and_eq_false_iff]
  right
  split
  · contradiction
  · contradiction
  · contradiction
  · contradiction
  · contradiction
  · contradiction
  · rfl

theorem replicationWellFormed_short {bytes : List Byte} (h : bytes.length < 3) : replicationWellFormed bytes = false := by
  match bytes, h with
  | [], _ | [_], _ | [_, _], _ => rfl

/-! ### Malformed messages and heartbeats (R64, R79) -/

theorem exec_malformedMessages {body : List Byte} {i : Instr} (h : i ∈ malformedMessages body) (s : State) :
    exec i s = .next (arrive malformed s) := by
  have hnone {α : Type} {p : Option α} {content : α → State → State} (hp : p.isNone = true) :
      Host.Outcome.next (receive p content s) = (.next (arrive malformed s) : Host.Outcome State Fault Refusal) :=
    congrArg Host.Outcome.next (receive_none (Option.isNone_iff_eq_none.1 hp) content s)
  simp only [malformedMessages, List.mem_append] at h
  rcases h with ((((h | h) | h) | h) | h) | h
  · split at h
    · rename_i hp
      simp only [List.mem_cons, List.not_mem_nil, or_false] at h
      rcases h with rfl | rfl
      · exact hnone hp
      · exact hnone hp
    · cases h
  · split at h
    · rename_i hp
      rw [List.mem_singleton] at h
      subst h
      exact hnone hp
    · cases h
  · split at h
    · rename_i hp
      rw [List.mem_singleton] at h
      subst h
      exact hnone hp
    · cases h
  · split at h
    · rename_i hp
      rw [List.mem_singleton] at h
      subst h
      exact hnone hp
    · cases h
  · split at h
    · rename_i hp
      rw [List.mem_singleton] at h
      subst h
      exact hnone hp
    · cases h
  · split at h
    · cases h
    · rename_i hp
      rw [List.mem_singleton] at h
      subst h
      exact congrArg Host.Outcome.next (if_neg hp)

theorem arrive_malformed (s : State) : arrive malformed s =
    arrived s.linkUp { delivered s with events := { s.events with linkMalformed := true } } :=
  arrive_eq (content := malformed) (fun _ => rfl) s

/-! ### The records of a heartbeat (R80 to R82) -/

/-- A listing's health at CSV (R80). -/
def healthTaken (r : HealthRecord) (s : State) : State :=
  if r.fails then failListing r.channel s else okListing r.channel s

theorem healthTaken_eq (r : HealthRecord) (s : State) : healthTaken r s =
    (let fail := modChan r.channel (fun ch => { ch with listing := .fail }) s
     if r.fails then
       (if sourceFaults fail r.channel .hb = true ∧ sourceFaults s r.channel .hb = false then faultReported r.channel fail else fail)
     else modChan r.channel (fun ch => { ch with listing := .ok, hbSilence := 0 }) s) := by
  unfold healthTaken failListing okListing
  rw [reporting_eq]

/-- A report changes what the comparison of sequences reads in no channel. -/
theorem faultReported_link (c : ChannelNo) (s : State) : ((faultReported c s).chan c).replState = (s.chan c).replState ∧
    ((faultReported c s).chan c).settings = (s.chan c).settings ∧ ((faultReported c s).chan c).lastApplied = (s.chan c).lastApplied := by
  unfold faultReported
  split
  · rename_i h
    rw [enterAlert_chan h]
    exact ⟨rfl, rfl, rfl⟩
  · exact ⟨rfl, rfl, rfl⟩
  · rw [chan_modChan_self]
    exact ⟨rfl, rfl, rfl⟩

theorem healthTaken_link (r : HealthRecord) (s : State) :
    ((healthTaken r s).chan r.channel).replState = (s.chan r.channel).replState ∧
    ((healthTaken r s).chan r.channel).settings = (s.chan r.channel).settings ∧
    ((healthTaken r s).chan r.channel).lastApplied = (s.chan r.channel).lastApplied := by
  have hfail : (modChan r.channel (fun ch => { ch with listing := .fail }) s).chan r.channel =
      { s.chan r.channel with listing := .fail } := chan_modChan_self ..
  rw [healthTaken_eq]
  dsimp only
  split
  · split
    · have h := faultReported_link r.channel (modChan r.channel (fun ch => { ch with listing := .fail }) s)
      rw [hfail] at h
      exact h
    · rw [hfail]
      exact ⟨rfl, rfl, rfl⟩
  · rw [chan_modChan_self]
    exact ⟨rfl, rfl, rfl⟩

/-- A record whose sequence differs from the last applied of an IN_STEP channel (R81). -/
def Behind (r : HealthRecord) (ch : Channel) : Prop :=
  ch.replState = .inStep ∧ ch.settings.mode ≠ .off ∧ ch.lastApplied ≠ some r.mainLast

theorem takeHealthRecord_eq (r : HealthRecord) (s : State) [Decidable (Behind r (s.chan r.channel))] : takeHealthRecord r s =
    if Behind r (s.chan r.channel) then fallOut r.channel .gap (healthTaken r s) else healthTaken r s := by
  obtain ⟨h1, h2, h3⟩ := healthTaken_link r s
  have hiff : ((healthTaken r s).chan r.channel).replState = .inStep ∧ ((healthTaken r s).chan r.channel).settings.mode ≠ .off ∧
      ((healthTaken r s).chan r.channel).lastApplied ≠ some r.mainLast ↔ Behind r (s.chan r.channel) := by
    rw [h1, h2, h3]
    rfl
  unfold takeHealthRecord
  exact if_congr hiff rfl rfl

theorem acceptsDigest_iff (hs : List HealthRecord) (r : DigestRecord) (s : State) : acceptsDigest hs r s = true ↔
    (let ch := s.chan r.channel
     ch.replState = .inStep ∧ ch.settings.mode ≠ .off ∧ ch.changeover = .mirror ∧
     (∃ h ∈ hs, h.channel = r.channel ∧ ch.lastApplied = some h.mainLast) ∧ (∀ w ∈ s.pendingWalks, w.channel ≠ r.channel) ∧
     (∀ w ∈ s.walk, w.record.channel ≠ r.channel) ∧ s.pendingWalks.length < 8 ∧ r.day ≤ 9999 ∧
     r.label.valid ch.settings.rate = true) := by
  have hlimit : Config.pendingWalkLimit = 8 := rfl
  have hwalk : (!s.walk.any (fun w => decide (w.record.channel = r.channel))) = true ↔ ∀ w ∈ s.walk, w.record.channel ≠ r.channel := by
    cases s.walk <;> simp
  simp only [acceptsDigest, Bool.and_eq_true, hwalk, hlimit]
  simp [validDay, and_assoc]

/-! ### The link comes up (R66, R83, R88) -/

theorem linkComesUp_quiet (h : s.resyncQueue = [] ∨ s.assembly ≠ none) : linkComesUp s = statusSent (linkedUp s) := by
  have hserves : (linkedUp s).serves = false := by
    show (!s.resyncQueue.isEmpty && s.assembly.isNone && true) = false
    rcases h with h | h
    · rw [h]
      rfl
    · rw [Option.isNone_eq_false_iff.2 (Option.isSome_iff_ne_none.2 h), Bool.and_false, Bool.false_and]
  show (if (linkedUp s).serves = true then _ else sendStatus (linkedUp s)) = _
  rw [hserves, if_neg Bool.false_ne_true, sendStatus_eq]

theorem linkComesUp_serves {rest : List ChannelNo} (hq : s.resyncQueue = d :: rest) (ha : s.assembly = none) : linkComesUp s =
    bumpDraws (if Config.askLeavesFirst s.draws then statusSent (serve (linkedUp s)) else serve (statusSent (linkedUp s))) := by
  have hserves : (linkedUp s).serves = true := by
    show (!s.resyncQueue.isEmpty && s.assembly.isNone && true) = true
    rw [hq, ha]
    rfl
  show (if (linkedUp s).serves = true then _ else sendStatus (linkedUp s)) = _
  rw [hserves, if_pos rfl]
  rfl

/-- What serving the head of the resync queue leaves (R88). -/
theorem serve_head_spec {rest : List ChannelNo} (hq : s.resyncQueue = d :: rest) (hl : s.linkUp = true) (ha : s.assembly = none) :
    (serve s).replicationOut = s.replicationOut ++ [.resyncAsk d (s.chan d).cause (s.chan d).lastApplied] ∧
    (serve s).statusNumber = s.statusNumber ∧ (serve s).linkUp = true ∧ (serve s).statusCount = s.statusCount ∧
    (serve s).resyncQueue = rest ∧ ((serve s).chan d).replState = .resyncing ∧
    ∃ a, (serve s).assembly = some a ∧ a.channel = d ∧ a.phase = .awaitingOpen := by
  rw [serve_head hq hl ha]
  refine ⟨?_, ?_, ?_, ?_, ?_, ?_, .opened d (s.chan d).replState (s.chan d).cause, ?_, rfl, rfl⟩
  · rw [setReplication_outside]
  · rw [setReplication_outside]
  · rw [setReplication_outside]
    exact hl
  · rw [setReplication_outside]
  · rw [setReplication_outside]
  · rw [setReplication_chan, if_pos rfl]
  · rw [setReplication_outside]

/-- The records of a STANDBY STATUS (R84). -/
def statusRecords (s : State) : List StatusRecord :=
  (allChannels.filter (fun c => decide ((s.chan c).settings.mode ≠ .off))).map (statusRecord s)

theorem statusSent_out (s : State) :
    (statusSent s).replicationOut = s.replicationOut ++ [.standbyStatus s.statusNumber (statusRecords s)] := rfl

/-- The link comes up with a resync ask to send: the ask and the STANDBY STATUS leave in either order (log 7). -/
theorem linkComesUp_asks {rest : List ChannelNo} (hq : s.resyncQueue = d :: rest) (ha : s.assembly = none) : ∃ number records,
    (let ask := ReplicationOut.resyncAsk d (s.chan d).cause (s.chan d).lastApplied
     let status := ReplicationOut.standbyStatus number records
     let t := linkComesUp s
     number = s.statusNumber ∧ t.linkUp = true ∧ t.statusCount = 0 ∧ t.resyncQueue = rest ∧
     (t.chan d).replState = .resyncing ∧ (∃ a, t.assembly = some a ∧ a.channel = d ∧ a.phase = .awaitingOpen) ∧
     (t.replicationOut = s.replicationOut ++ [ask, status] ∨ t.replicationOut = s.replicationOut ++ [status, ask])) := by
  have hserves := linkComesUp_serves hq ha
  cases hfirst : Config.askLeavesFirst s.draws with
  | true =>
    obtain ⟨hout, hnum, hup, hcount, hrest, hst, hasm⟩ := serve_head_spec (s := linkedUp s) hq rfl ha
    rw [hfirst, if_pos rfl] at hserves
    refine ⟨_, statusRecords (serve (linkedUp s)), hnum, ?_⟩
    rw [hserves]
    refine ⟨hup, hcount, hrest, hst, hasm, .inl ?_⟩
    refine (statusSent_out _).trans ?_
    rw [hout, List.append_assoc]
    rfl
  | false =>
    obtain ⟨hout, hnum, hup, hcount, hrest, hst, hasm⟩ := serve_head_spec (s := statusSent (linkedUp s)) hq rfl ha
    rw [hfirst, if_neg Bool.false_ne_true] at hserves
    refine ⟨_, statusRecords (linkedUp s), rfl, ?_⟩
    rw [hserves]
    refine ⟨hup, hcount, hrest, hst, hasm, .inr ?_⟩
    show (serve (statusSent (linkedUp s))).replicationOut = _
    rw [hout]
    exact List.append_assoc _ _ _

/-- Settles O55. -/
theorem messagesArriveAndKeepTheLinkUp : Obligations.MessagesArriveAndKeepTheLinkUp := by
  refine ⟨fun l1 l2 body => ⟨fun k hk => ⟨fun hlen hp => ?_, fun h => ?_⟩, fun kind h => ?_⟩, fun bytes h => ?_, fun s => ?_⟩
  · exact ofReplication_known hk (by rw [replicationWellFormed_known hk, hp, decide_eq_true hlen]; rfl)
  · refine ofReplication_malformed ?_
    rw [replicationWellFormed_known hk]
    rcases h with h | h
    · rw [decide_eq_false h, Bool.false_and]
    · rw [h, Bool.and_false]
  · exact ofReplication_malformed (replicationWellFormed_unknown h l1 l2)
  · exact ofReplication_malformed (replicationWellFormed_short h)
  refine ⟨fun body hs ds hp => ?_, fun body i hi => ?_, fun bytes hw => ?_, fun i c u hu hl => ?_, fun r => ?_, fun hs r => ?_,
    linkComesUp_quiet, fun d rest => linkComesUp_asks⟩
  · have hexec : exec (.siteHeartbeat body) s = .next (arrived s.linkUp (takeHeartbeat hs ds (delivered s))) := by
      rw [← arrive_eq (fun t => takeHeartbeat_linkUp hs ds t)]
      exact congrArg Host.Outcome.next (receive_some hp _ s)
    rw [hexec]
    exact ⟨fun h => by rw [arrived_up h]; rfl, fun h => by rw [arrived_down h]; rfl⟩
  · rw [exec_malformedMessages hi, arrive_malformed]
    exact ⟨fun h => by rw [arrived_up h], fun h => by rw [arrived_down h]⟩
  · exact congrArg Host.Outcome.next (if_pos hw)
  · rw [exec_update hu, arrived_down hl]
  · intro c ok fail t behind
    have ht : t = healthTaken r s := (healthTaken_eq r s).symm
    clear_value t
    subst ht
    classical
    rw [takeHealthRecord_eq]
    exact ⟨fun h => if_neg h, fun h => if_pos h⟩
  · intro ch wanted
    have hiff : acceptsDigest hs r s = true ↔ wanted := acceptsDigest_iff hs r s
    unfold takeDigestRecord
    exact ⟨fun h => if_neg (fun ha => h (hiff.1 ha)), fun h => if_pos (hiff.2 h)⟩

end Link

end Sys2Proof.Machine

/-! # The labels of a day and time settings in frames (Chapter 1) -/

namespace Sys2Proof.Machine

section Labels

open Says

variable {r : RateCode} {d j rest tm : Nat} {l : Label}

/-! ### A day cut into blocks of ten minutes

A drop-frame day repeats every ten minutes: the first minute of a block uses all its numbers, the nine that follow skip their first
`r.skipped`. Frame and label are read off the block `d`, the minute `j` within it and the number `rest` within the minute. -/

/-- The numbers of minute `j` of a block that are used. -/
def UsedNumber (r : RateCode) (j rest : Nat) : Prop :=
  j < 10 ∧ rest < 60 * r.nominal ∧ (j = 0 ∨ r.skipped ≤ rest)

/-- The frame-of-day of number `rest` in minute `j` of block `d`. -/
def minuteFrame (r : RateCode) (d j rest : Nat) : Nat :=
  d * (600 * r.nominal - 9 * r.skipped) + j * (60 * r.nominal - r.skipped) + rest

/-- The label of number `rest` in minute `tm` of the day. -/
def minuteLabel (r : RateCode) (tm rest : Nat) : Label :=
  { hh := tm / 60, mm := tm % 60, ss := rest / r.nominal, ff := rest % r.nominal }

theorem exists_minuteFrame (r : RateCode) (n : Nat) : ∃ d j rest, UsedNumber r j rest ∧ n = minuteFrame r d j rest := by
  let block := 600 * r.nominal - 9 * r.skipped
  let minute := 60 * r.nominal - r.skipped
  let j := (n % block - r.skipped) / minute
  refine ⟨n / block, j, n % block - j * minute, ?_, ?_⟩
  · unfold UsedNumber
    cases r <;> simp only [block, minute, j, RateCode.nominal, RateCode.skipped] <;> omega
  · unfold minuteFrame
    cases r <;> simp only [block, minute, j, RateCode.nominal, RateCode.skipped] <;> omega

theorem skippedBefore_minuteFrame (h : UsedNumber r j rest) (d : Nat) : skippedBefore r (minuteFrame r d j rest) = r.skipped * (9 * d + j) := by
  obtain ⟨hj, hrest, hused⟩ := h
  have hblock : minuteFrame r d j rest / (600 * r.nominal - 9 * r.skipped) = d ∧
      minuteFrame r d j rest % (600 * r.nominal - 9 * r.skipped) = j * (60 * r.nominal - r.skipped) + rest := by
    unfold minuteFrame
    cases r <;> simp only [RateCode.nominal, RateCode.skipped] at * <;> omega
  have hminute : (j * (60 * r.nominal - r.skipped) + rest - r.skipped) / (60 * r.nominal - r.skipped) = j := by
    cases r <;> simp only [RateCode.nominal, RateCode.skipped] at * <;> omega
  unfold skippedBefore
  dsimp only
  rw [show 10 * 60 * r.nominal = 600 * r.nominal from rfl, hblock.1, hblock.2, hminute]
  split
  · rename_i hnone
    rw [hnone, Nat.zero_mul]
  · split
    · ring
    · have hfirst : j = 0 := by cases r <;> simp only [RateCode.nominal, RateCode.skipped] at * <;> omega
      rw [hfirst]
      ring

theorem labelOf_minuteFrame (h : UsedNumber r j rest) (d : Nat) : labelOf r (minuteFrame r d j rest) = minuteLabel r (10 * d + j) rest := by
  unfold labelOf
  rw [skippedBefore_minuteFrame h]
  obtain ⟨hj, hrest, hused⟩ := h
  unfold minuteLabel minuteFrame
  cases r <;> simp only [RateCode.nominal, RateCode.skipped, Label.mk.injEq] at * <;> omega

theorem namesSkipped_minuteLabel (h : UsedNumber r j rest) (d : Nat) : (minuteLabel r (10 * d + j) rest).namesSkipped r = false := by
  obtain ⟨hj, hrest, hused⟩ := h
  unfold minuteLabel Label.namesSkipped
  simp only [Bool.and_eq_false_iff, decide_eq_false_iff_not]
  cases r <;> simp only [RateCode.nominal, RateCode.skipped] at * <;> omega

theorem frameOfDay_of_used (h : l.namesSkipped r = false) : l.frameOfDay r =
    (3600 * l.hh + 60 * l.mm + l.ss) * r.nominal + l.ff - r.skipped * (60 * l.hh + l.mm - (60 * l.hh + l.mm) / 10) := by
  unfold Label.frameOfDay Label.clamp
  rw [h]
  rfl

theorem frameOfDay_minuteLabel (h : UsedNumber r j rest) (d : Nat) :
    (minuteLabel r (10 * d + j) rest).frameOfDay r = minuteFrame r d j rest := by
  rw [frameOfDay_of_used (namesSkipped_minuteLabel h d)]
  obtain ⟨hj, hrest, hused⟩ := h
  unfold minuteLabel minuteFrame
  cases r <;> simp only [RateCode.nominal, RateCode.skipped] at * <;> omega

theorem valid_minuteLabel (h : UsedNumber r j rest) (hd : d < 144) : (minuteLabel r (10 * d + j) rest).valid r = true := by
  obtain ⟨hj, hrest, hused⟩ := h
  unfold minuteLabel Label.valid
  simp only [Bool.and_eq_true, decide_eq_true_eq]
  cases r <;> simp only [RateCode.nominal, RateCode.skipped] at * <;> omega

/-- A day has 144 blocks. -/
theorem minuteFrame_lt_iff (h : UsedNumber r j rest) (d : Nat) : minuteFrame r d j rest < r.framesPerDay ↔ d < 144 := by
  obtain ⟨hj, hrest, hused⟩ := h
  unfold minuteFrame
  cases r <;> simp only [RateCode.nominal, RateCode.skipped, RateCode.framesPerDay] at * <;> omega

theorem exists_minuteLabel (hv : l.valid r = true) (hs : l.namesSkipped r = false) :
    ∃ d j rest, d < 144 ∧ UsedNumber r j rest ∧ l = minuteLabel r (10 * d + j) rest := by
  obtain ⟨hh, mm, ss, ff⟩ := l
  simp only [Label.valid, Bool.and_eq_true, decide_eq_true_eq] at hv
  simp only [Label.namesSkipped, Bool.and_eq_false_iff, decide_eq_false_iff_not] at hs
  refine ⟨(60 * hh + mm) / 10, (60 * hh + mm) % 10, ss * r.nominal + ff, by omega, ?_, ?_⟩
  · unfold UsedNumber
    cases r <;> simp only [RateCode.nominal, RateCode.skipped] at * <;> omega
  · unfold minuteLabel
    cases r <;> simp only [RateCode.nominal, RateCode.skipped, Label.mk.injEq] at * <;> omega

/-! ### Labels that name a skipped number (R13) -/

theorem not_namesSkipped_first (r : RateCode) (l : Label) : ({ l with ff := r.skipped } : Label).namesSkipped r = false := by
  simp [Label.namesSkipped]

theorem clamp_of_skipped (h : l.namesSkipped r = true) : l.clamp r = { l with ff := r.skipped } := if_pos h

theorem clamp_of_used (h : l.namesSkipped r = false) : l.clamp r = l := by
  unfold Label.clamp
  rw [h]
  rfl

theorem namesSkipped_clamp (r : RateCode) (l : Label) : (l.clamp r).namesSkipped r = false := by
  cases h : l.namesSkipped r with
  | true => rw [clamp_of_skipped h, not_namesSkipped_first]
  | false => rw [clamp_of_used h, h]

theorem frameOfDay_clamp (r : RateCode) (l : Label) : (l.clamp r).frameOfDay r = l.frameOfDay r := by
  unfold Label.frameOfDay
  rw [clamp_of_used (namesSkipped_clamp r l)]

theorem valid_clamp (h : l.valid r = true) : (l.clamp r).valid r = true := by
  cases hs : l.namesSkipped r with
  | false => rwa [clamp_of_used hs]
  | true =>
    rw [clamp_of_skipped hs]
    simp only [Label.valid, Bool.and_eq_true, decide_eq_true_eq] at h ⊢
    exact ⟨h.1, by cases r <;> decide⟩

/-! ### Frames and labels agree -/

theorem labelOf_spec {n : Nat} (hn : n < r.framesPerDay) :
    (labelOf r n).valid r = true ∧ (labelOf r n).namesSkipped r = false ∧ (labelOf r n).frameOfDay r = n := by
  obtain ⟨d, j, rest, hused, rfl⟩ := exists_minuteFrame r n
  rw [labelOf_minuteFrame hused]
  exact ⟨valid_minuteLabel hused ((minuteFrame_lt_iff hused d).1 hn), namesSkipped_minuteLabel hused d, frameOfDay_minuteLabel hused d⟩

theorem frameOfDay_spec (hv : l.valid r = true) (hs : l.namesSkipped r = false) :
    l.frameOfDay r < r.framesPerDay ∧ labelOf r (l.frameOfDay r) = l := by
  obtain ⟨d, j, rest, hd, hused, rfl⟩ := exists_minuteLabel hv hs
  rw [frameOfDay_minuteLabel hused]
  exact ⟨(minuteFrame_lt_iff hused d).2 hd, labelOf_minuteFrame hused d⟩

theorem absoluteFrame_spec (day : Nat) (hv : l.valid r = true) :
    dayOf r (absoluteFrame r day l) = day ∧ labelOfFrame r (absoluteFrame r day l) = l.clamp r := by
  obtain ⟨hlt, hlabel⟩ := frameOfDay_spec (valid_clamp hv) (namesSkipped_clamp r l)
  rw [frameOfDay_clamp] at hlt hlabel
  have hpos : 0 < r.framesPerDay := Nat.zero_lt_of_lt hlt
  unfold dayOf labelOfFrame absoluteFrame
  rw [Nat.add_comm, Nat.add_mul_div_right _ _ hpos, Nat.div_eq_of_lt hlt, Nat.zero_add, Nat.add_mul_mod_self_right, Nat.mod_eq_of_lt hlt]
  exact ⟨rfl, hlabel⟩

/-- A time setting is rounded up to the frame (R16). -/
theorem msToFrames_least (r : RateCode) (ms k : Nat) : ms * r.num ≤ msToFrames r ms * (1000 * r.den) ∧
    (ms * r.num ≤ k * (1000 * r.den) → msToFrames r ms ≤ k) := by
  unfold msToFrames
  generalize ms * r.num = length
  cases r <;> simp only [RateCode.den] <;> omega

/-- Settles O60. -/
theorem labelsAndFramesAgree : Obligations.LabelsAndFramesAgree := by
  refine fun r => ⟨fun n hn => labelOf_spec hn, fun l hv hs => frameOfDay_spec hv hs, fun l _ hs => ?_,
    fun day l hv => absoluteFrame_spec day hv, msToFrames_least r⟩
  rw [← clamp_of_skipped hs, frameOfDay_clamp]

end Labels

end Sys2Proof.Machine

/-! # The join of a snapshot's staged entries (Chapter 5, R45 and R96) -/

namespace Sys2Proof.Machine

section Join

open Says

variable {c d : ChannelNo} {s t u v : State} {es : List Entry} {e x : Entry} {b : Body} {bs : List Body} {a : Assembly}

/-! ### Entries that stay where they are -/

theorem mem_mapEntry_of_ne {k : EntryKey} (f : Entry → Entry) (hx : x ∈ es) (hk : x.key ≠ k) : x ∈ mapEntry k f es :=
  List.mem_map.2 ⟨x, hx, if_neg hk⟩

theorem mem_mapEntry_self (f : Entry → Entry) (hx : x ∈ es) : f x ∈ mapEntry x.key f es :=
  List.mem_map.2 ⟨x, hx, if_pos rfl⟩

theorem mem_placeEntry_of_ne (frame : Option Nat) (hx : x ∈ es) (hk : x.key ≠ e.key) : x ∈ placeEntry frame e es :=
  mem_mapEntry_of_ne _ ((insertEntry_perm e es).mem_iff.2 (List.mem_cons_of_mem _ hx)) hk

theorem mem_placeEntry_new (frame : Option Nat) (e : Entry) (es : List Entry) :
    ∃ d ∈ placeEntry frame e es, d = { e with status := d.status } :=
  ⟨_, mem_mapEntry_self _ ((insertEntry_perm e es).mem_iff.2 List.mem_cons_self), rfl⟩

/-! ### The fate of a staged entry (R45) -/

/-- The listed entry that a staged body names. -/
def NamedBy (e : Entry) (b : Body) : Prop :=
  e.origin = .replicated ∧ e.body.entryId = b.entryId

/-- The entry stays listed at a commit: LOCAL, in service or pinned (R45). -/
def StaysListed (e : Entry) : Prop :=
  e.origin = .localEntry ∨ e.inService = true ∨ e.pinned = true

theorem namedBy_iff : NamedBy e b ↔ e.key = replicatedKey b.entryId := by
  simp [NamedBy, Entry.key, replicatedKey]

theorem isReplicated_iff : e.isReplicated = true ↔ e.origin = .replicated := by
  simp [Entry.isReplicated]

theorem keptAtCommit_iff : keptAtCommit e = true ↔ StaysListed e := by
  unfold keptAtCommit StaysListed Entry.isReplicated
  cases e.origin <;> simp

theorem stagedFate_named (hn : (es.map Entry.key).Nodup) (he : e ∈ es) (hk : NamedBy e b) :
    stagedFate es b = if e.inService then .freed else if e.pinned then .amends else .joins := by
  have hlookup : lookupEntry (replicatedKey b.entryId) es = some e := by
    obtain ⟨pre, post, rfl⟩ := List.append_of_mem he
    rw [← namedBy_iff.1 hk]
    exact lookupEntry_middle hn
  unfold replicatedKey at hlookup
  unfold stagedFate
  rw [hlookup]

theorem stagedFate_unnamed (h : ∀ e ∈ es, ¬NamedBy e b) : stagedFate es b = .joins := by
  have hlookup : lookupEntry (replicatedKey b.entryId) es = none := lookup_unlisted (fun e he hk => h e he (namedBy_iff.2 hk))
  unfold replicatedKey at hlookup
  unfold stagedFate
  rw [hlookup]

/-- A staged entry is freed where it names an entry in service. -/
theorem stagedFate_freed_iff (hn : (es.map Entry.key).Nodup) :
    stagedFate es b = .freed ↔ ∃ e ∈ es, NamedBy e b ∧ e.inService = true := by
  constructor
  · intro hf
    by_contra hnone
    by_cases hnamed : ∃ e ∈ es, NamedBy e b
    · obtain ⟨e, he, hk⟩ := hnamed
      rw [stagedFate_named hn he hk, if_neg (fun hi => hnone ⟨e, he, hk, hi⟩)] at hf
      split at hf <;> cases hf
    · rw [stagedFate_unnamed (fun e he hk => hnamed ⟨e, he, hk⟩)] at hf
      cases hf
  · rintro ⟨e, he, hk, hi⟩
    rw [stagedFate_named hn he hk, if_pos hi]

/-- A staged entry amends the entry it names where that is pinned and not in service. -/
theorem stagedFate_amends (hn : (es.map Entry.key).Nodup) (he : e ∈ es) (hk : NamedBy e b) (hi : e.inService = false)
    (hp : e.pinned = true) : stagedFate es b = .amends := by
  rw [stagedFate_named hn he hk, hi, hp]
  rfl

/-- A staged entry joins where it names no entry that stays. -/
theorem stagedFate_joins_iff (hn : (es.map Entry.key).Nodup) :
    stagedFate es b = .joins ↔ ∀ e ∈ es, NamedBy e b → ¬StaysListed e := by
  constructor
  · intro hf e he hk hstays
    rw [stagedFate_named hn he hk] at hf
    rcases hstays with ho | hi | hp
    · exact absurd (ho.symm.trans hk.1) (by decide)
    · rw [if_pos hi] at hf
      cases hf
    · rw [if_pos hp] at hf
      split at hf <;> cases hf
  · intro h
    by_cases hnamed : ∃ e ∈ es, NamedBy e b
    · obtain ⟨e, he, hk⟩ := hnamed
      have hleaves := h e he hk
      rw [stagedFate_named hn he hk, if_neg (fun hi => hleaves (.inr (.inl hi))), if_neg (fun hp => hleaves (.inr (.inr hp)))]
    · exact stagedFate_unnamed (fun e he hk => hnamed ⟨e, he, hk⟩)

/-! ### One staged entry is taken (R45) -/

theorem writeAmendment_schedule (c : ChannelNo) (k : EntryKey) (m : Amendment) (s : State) :
    ((writeAmendment c k m s).chan c).schedule = mapEntry k (fun e => { e with amendment := some m }) (s.chan c).schedule := by
  unfold writeAmendment
  rw [abandonWalks_chan, setSchedule_schedule, if_pos rfl]

theorem joinEntry_schedule (c : ChannelNo) (o : Origin) (b : Body) (s : State) :
    ((joinEntry c o b s).chan c).schedule = placeEntry (s.chan c).frame
      { origin := o, body := b, status := .planned, pinned := false, amendment := none } (s.chan c).schedule := by
  unfold joinEntry
  rw [setSchedule_schedule, if_pos rfl]

theorem takeStaged_freed (h : stagedFate es b = .freed) (c : ChannelNo) (s : State) : takeStaged c es b s = freeSlots 1 s := by
  unfold takeStaged
  rw [h]

theorem takeStaged_amends (h : stagedFate es b = .amends) (c : ChannelNo) (s : State) :
    takeStaged c es b s = freeSlots 1 (writeAmendment c (replicatedKey b.entryId) (.body b) s) := by
  unfold takeStaged
  rw [h]
  rfl

theorem takeStaged_joins (h : stagedFate es b = .joins) (c : ChannelNo) (s : State) :
    takeStaged c es b s = joinEntry c .replicated b s := by
  unfold takeStaged
  rw [h]

theorem reschedules_takeStaged (c : ChannelNo) (es : List Entry) (b : Body) (s : State) : Reschedules c s (takeStaged c es b s) := by
  cases h : stagedFate es b with
  | freed =>
    rw [takeStaged_freed h]
    exact reschedules_freeSlots c 1 s
  | amends =>
    rw [takeStaged_amends h]
    exact (reschedules_writeAmendment c _ _ s).trans (reschedules_freeSlots c 1 _)
  | joins =>
    rw [takeStaged_joins h]
    exact reschedules_joinEntry c _ b s

/-- An entry that the staged body does not name, or whose slot the body only returns, stays as it is. -/
theorem mem_takeStaged (hx : x ∈ (s.chan c).schedule) (h : stagedFate es b = .freed ∨ ¬NamedBy x b) :
    x ∈ ((takeStaged c es b s).chan c).schedule := by
  cases hf : stagedFate es b with
  | freed =>
    rw [takeStaged_freed hf]
    exact hx
  | amends =>
    have hk : ¬NamedBy x b := h.resolve_left (by rw [hf]; decide)
    rw [takeStaged_amends hf, freeSlots_chan, writeAmendment_schedule]
    exact mem_mapEntry_of_ne _ hx (fun he => hk (namedBy_iff.2 he))
  | joins =>
    have hk : ¬NamedBy x b := h.resolve_left (by rw [hf]; decide)
    rw [takeStaged_joins hf, joinEntry_schedule]
    exact mem_placeEntry_of_ne _ hx (fun he => hk (namedBy_iff.2 he))

theorem mem_takeStaged_amended (hx : x ∈ (s.chan c).schedule) (hk : NamedBy x b) (h : stagedFate es b = .amends) :
    { x with amendment := some (.body b) } ∈ ((takeStaged c es b s).chan c).schedule := by
  rw [takeStaged_amends h, freeSlots_chan, writeAmendment_schedule, ← namedBy_iff.1 hk]
  exact mem_mapEntry_self (fun e => { e with amendment := some (.body b) }) hx

/-- The entry a staged body has become. -/
def JoinedAs (e : Entry) (b : Body) : Prop :=
  e.origin = .replicated ∧ e.body = b ∧ e.pinned = false ∧ e.amendment = none

theorem mem_takeStaged_joined (h : stagedFate es b = .joins) (s : State) : ∃ e ∈ ((takeStaged c es b s).chan c).schedule, JoinedAs e b := by
  rw [takeStaged_joins h, joinEntry_schedule]
  obtain ⟨d, hd, heq⟩ := mem_placeEntry_new (s.chan c).frame
    { origin := .replicated, body := b, status := .planned, pinned := false, amendment := none } (s.chan c).schedule
  refine ⟨d, hd, ?_⟩
  rw [heq]
  exact ⟨rfl, rfl, rfl, rfl⟩

theorem takeStaged_length (c : ChannelNo) (es : List Entry) (b : Body) (s : State) : ((takeStaged c es b s).chan c).schedule.length =
    (s.chan c).schedule.length + if stagedFate es b = .joins then 1 else 0 := by
  cases h : stagedFate es b with
  | freed =>
    rw [takeStaged_freed h]
    rfl
  | amends =>
    rw [takeStaged_amends h, freeSlots_chan, writeAmendment_schedule, mapEntry_length]
    rfl
  | joins =>
    rw [takeStaged_joins h, joinEntry_schedule, placeEntry_length]
    rfl

/-! ### All the staged entries are taken, one at a time (log 12) -/

/-- The staged bodies taken in turn. -/
def stagedTaken (c : ChannelNo) (es : List Entry) (bs : List Body) (s : State) : State :=
  bs.foldl (fun v b => takeStaged c es b v) s

theorem reschedules_stagedTaken (c : ChannelNo) (es : List Entry) (bs : List Body) (s : State) :
    Reschedules c s (stagedTaken c es bs s) :=
  reschedules_foldl (fun t b => reschedules_takeStaged c es b t) bs s

theorem stagedTaken_middle (c : ChannelNo) (es : List Entry) (pre : List Body) (b : Body) (post : List Body) (s : State) :
    stagedTaken c es (pre ++ b :: post) s = stagedTaken c es post (takeStaged c es b (stagedTaken c es pre s)) := by
  unfold stagedTaken
  rw [List.foldl_append, List.foldl_cons]

theorem mem_stagedTaken (hx : x ∈ (s.chan c).schedule) (h : ∀ b ∈ bs, stagedFate es b = .freed ∨ ¬NamedBy x b) :
    x ∈ ((stagedTaken c es bs s).chan c).schedule := by
  induction bs generalizing s with
  | nil => exact hx
  | cons b bs ih => exact ih (mem_takeStaged hx (h b List.mem_cons_self)) (fun d hd => h d (List.mem_cons_of_mem _ hd))

/-- A body apart from the others of its list names no entry that one of the others names. -/
theorem not_namedBy_others {pre post : List Body} (hn : ((pre ++ b :: post).map Body.entryId).Nodup) (hk : NamedBy x b) :
    (∀ d ∈ pre, ¬NamedBy x d) ∧ ∀ d ∈ post, ¬NamedBy x d := by
  rw [List.map_append, List.map_cons, List.nodup_middle, List.nodup_cons, ← List.map_append, List.mem_map] at hn
  obtain ⟨hnot, -⟩ := hn
  exact ⟨fun d hd hd' => hnot ⟨d, List.mem_append_left _ hd, hd'.2.symm.trans hk.2⟩,
    fun d hd hd' => hnot ⟨d, List.mem_append_right _ hd, hd'.2.symm.trans hk.2⟩⟩

theorem mem_stagedTaken_amended (hn : (bs.map Body.entryId).Nodup) (hb : b ∈ bs) (hx : x ∈ (s.chan c).schedule) (hk : NamedBy x b)
    (h : stagedFate es b = .amends) : { x with amendment := some (.body b) } ∈ ((stagedTaken c es bs s).chan c).schedule := by
  obtain ⟨pre, post, rfl⟩ := List.append_of_mem hb
  obtain ⟨hpre, hpost⟩ := not_namedBy_others hn hk
  rw [stagedTaken_middle]
  exact mem_stagedTaken (mem_takeStaged_amended (mem_stagedTaken hx (fun d hd => .inr (hpre d hd))) hk h)
    (fun d hd => .inr (hpost d hd))

theorem mem_stagedTaken_joined (hn : (bs.map Body.entryId).Nodup) (hb : b ∈ bs) (h : stagedFate es b = .joins) (s : State) :
    ∃ e ∈ ((stagedTaken c es bs s).chan c).schedule, JoinedAs e b := by
  obtain ⟨pre, post, rfl⟩ := List.append_of_mem hb
  rw [stagedTaken_middle]
  obtain ⟨e, he, hj⟩ := mem_takeStaged_joined (c := c) h (stagedTaken c es pre s)
  obtain ⟨-, hpost⟩ := not_namedBy_others (x := e) hn ⟨hj.1, congrArg Body.entryId hj.2.1⟩
  exact ⟨e, mem_stagedTaken he (fun d hd => .inr (hpost d hd)), hj⟩

theorem stagedTaken_length (c : ChannelNo) (es : List Entry) (bs : List Body) (s : State) :
    ((stagedTaken c es bs s).chan c).schedule.length =
      (s.chan c).schedule.length + bs.countP (fun b => decide (stagedFate es b = .joins)) := by
  induction bs generalizing s with
  | nil => rfl
  | cons b bs ih =>
    refine (ih (takeStaged c es b s)).trans ?_
    rw [takeStaged_length, List.countP_cons]
    simp only [decide_eq_true_eq]
    omega

/-! ### Held deletions (R96) -/

/-- A pinned entry that the snapshot did not carry. -/
def Uncarried (bs : List Body) (e : Entry) : Prop :=
  e.origin = .replicated ∧ e.inService = false ∧ e.pinned = true ∧ ∀ b ∈ bs, ¬NamedBy e b

/-- One entry of the old schedule is judged for a held deletion. -/
def deletionHeld (c : ChannelNo) (bs : List Body) (t : State) (e : Entry) : State :=
  if e.isReplicated ∧ e.pinned ∧ e.inService = false ∧ bs.all (fun b => decide (b.entryId ≠ e.body.entryId))
  then writeAmendment c e.key .deletion t else t

theorem holdDeletions_eq (c : ChannelNo) (es : List Entry) (bs : List Body) (s : State) :
    holdDeletions c es bs s = es.foldl (deletionHeld c bs) s := rfl

theorem uncarried_iff : Uncarried bs e ↔
    (e.isReplicated = true ∧ e.pinned = true ∧ e.inService = false ∧ bs.all (fun b => decide (b.entryId ≠ e.body.entryId)) = true) := by
  rw [isReplicated_iff]
  simp only [List.all_eq_true, decide_eq_true_eq]
  constructor
  · rintro ⟨ho, hi, hp, hn⟩
    exact ⟨ho, hp, hi, fun b hb he => hn b hb ⟨ho, he.symm⟩⟩
  · rintro ⟨ho, hp, hi, hn⟩
    exact ⟨ho, hi, hp, fun b hb hk => hn b hb hk.2.symm⟩

theorem deletionHeld_uncarried (h : Uncarried bs e) (c : ChannelNo) (t : State) :
    deletionHeld c bs t e = writeAmendment c e.key .deletion t :=
  if_pos (uncarried_iff.1 h)

theorem deletionHeld_carried (h : ¬Uncarried bs e) (c : ChannelNo) (t : State) : deletionHeld c bs t e = t :=
  if_neg (fun hc => h (uncarried_iff.2 hc))

theorem reschedules_deletionHeld (c : ChannelNo) (bs : List Body) (t : State) (e : Entry) : Reschedules c t (deletionHeld c bs t e) :=
  reschedules_ite (reschedules_writeAmendment c _ _ t) (Reschedules.refl c t)

theorem mem_deletionHeld (hx : x ∈ (t.chan c).schedule) (h : Uncarried bs e → x.key ≠ e.key) :
    x ∈ ((deletionHeld c bs t e).chan c).schedule := by
  by_cases hu : Uncarried bs e
  · rw [deletionHeld_uncarried hu, writeAmendment_schedule]
    exact mem_mapEntry_of_ne _ hx (h hu)
  · rw [deletionHeld_carried hu]
    exact hx

theorem mem_holdDeletions (hx : x ∈ (t.chan c).schedule) (h : ∀ e ∈ es, Uncarried bs e → x.key ≠ e.key) :
    x ∈ ((holdDeletions c es bs t).chan c).schedule := by
  rw [holdDeletions_eq]
  induction es generalizing t with
  | nil => exact hx
  | cons e es ih => exact ih (mem_deletionHeld hx (h e List.mem_cons_self)) (fun d hd => h d (List.mem_cons_of_mem _ hd))

theorem mem_holdDeletions_deleted (hn : (es.map Entry.key).Nodup) (he : x ∈ es) (hu : Uncarried bs x) (hx : x ∈ (t.chan c).schedule) :
    { x with amendment := some .deletion } ∈ ((holdDeletions c es bs t).chan c).schedule := by
  obtain ⟨pre, post, rfl⟩ := List.append_of_mem he
  obtain ⟨hpre, hpost⟩ := key_ne_of_nodup hn
  have hstays : x ∈ ((holdDeletions c pre bs t).chan c).schedule := mem_holdDeletions hx (fun d hd _ => (hpre d hd).symm)
  have hdeleted : { x with amendment := some .deletion } ∈ ((deletionHeld c bs (holdDeletions c pre bs t) x).chan c).schedule := by
    rw [deletionHeld_uncarried hu, writeAmendment_schedule]
    exact mem_mapEntry_self (fun e => { e with amendment := some .deletion }) hstays
  have hrun : holdDeletions c (pre ++ x :: post) bs t = holdDeletions c post bs (deletionHeld c bs (holdDeletions c pre bs t) x) := by
    rw [holdDeletions_eq, List.foldl_append, List.foldl_cons]
    rfl
  rw [hrun]
  exact mem_holdDeletions hdeleted (fun d hd _ => (hpost d hd).symm)

theorem holdDeletions_length (c : ChannelNo) (es : List Entry) (bs : List Body) (t : State) :
    ((holdDeletions c es bs t).chan c).schedule.length = (t.chan c).schedule.length := by
  rw [holdDeletions_eq]
  induction es generalizing t with
  | nil => rfl
  | cons e es ih =>
    refine (ih (deletionHeld c bs t e)).trans ?_
    by_cases hu : Uncarried bs e
    · rw [deletionHeld_uncarried hu, writeAmendment_schedule, mapEntry_length]
    · rw [deletionHeld_carried hu]

theorem reschedules_holdDeletions (c : ChannelNo) (es : List Entry) (bs : List Body) (t : State) :
    Reschedules c t (holdDeletions c es bs t) :=
  reschedules_foldl (fun t e => reschedules_deletionHeld c bs t e) es t

end Join

end Sys2Proof.Machine

/-! # The commit of a snapshot (Chapter 5, section 5.3) -/

namespace Sys2Proof.Machine

section Commit

open Says

variable {c d : ChannelNo} {s t u v w : State} {es : List Entry} {e x : Entry} {b : Body} {a : Assembly} {resume : Nat}

/-! ### The digest of the staged bodies (R95, R107) -/

theorem stagedDigest_eq (bs : List Body) : stagedDigest bs =
    (bs.map (fun b => (b.entryId * 40503 + b.revision * 977 + b.start % 65536) % 2 ^ 32)).sum % 2 ^ 32 := by
  have hfrom (n : Nat) (hn : n < 2 ^ 32) : bs.foldl (fun n b => (n + digestTerm b.entryId b.revision b.start) % 2 ^ 32) n =
      (n + (bs.map (fun b => digestTerm b.entryId b.revision b.start)).sum) % 2 ^ 32 := by
    induction bs generalizing n with
    | nil => exact (Nat.mod_eq_of_lt hn).symm
    | cons b bs ih =>
      rw [List.foldl_cons, ih _ (Nat.mod_lt _ (by decide)), List.map_cons, List.sum_cons, Nat.mod_add_mod, Nat.add_assoc]
  have h := hfrom 0 (by decide)
  rw [Nat.zero_add] at h
  exact h

/-! ### The schedule after the join (R45, R96) -/

/-- The schedule holds only what stays, the staged slots in hand. -/
def keptBack (c : ChannelNo) (a : Assembly) (s : State) : State :=
  keepOnly c (fun p => keptAtCommit p.1) { s with assembly := some { a with staged := [] } }

/-- The staged entries and the held deletions stand in the schedule. -/
def scheduleJoined (c : ChannelNo) (a : Assembly) (s : State) : State :=
  holdDeletions c (s.chan c).schedule a.staged (stagedTaken c (s.chan c).schedule a.staged (keptBack c a s))

/-- A staged slot went back because its entry is in service. -/
def anyRefused (c : ChannelNo) (a : Assembly) (s : State) : Bool :=
  a.staged.any (fun b => decide (stagedFate (s.chan c).schedule b = .freed))

theorem joinStaged_eq (c : ChannelNo) (a : Assembly) (s : State) :
    joinStaged c a s = settleRefused c (anyRefused c a s) (scheduleJoined c a s) := rfl

theorem keptBack_schedule (c : ChannelNo) (a : Assembly) (s : State) :
    ((keptBack c a s).chan c).schedule = (s.chan c).schedule.filter keptAtCommit := by
  unfold keptBack
  rw [keepOnly_schedule, if_pos rfl, kept_of_entry]
  rfl

theorem reschedules_scheduleJoined (c : ChannelNo) (a : Assembly) (s : State) :
    Reschedules c { s with assembly := some { a with staged := [] } } (scheduleJoined c a s) :=
  ((reschedules_keepOnly c _ _).trans (reschedules_stagedTaken c _ _ _)).trans (reschedules_holdDeletions c _ _ _)

theorem scheduleJoined_chan_ne (hd : d ≠ c) (a : Assembly) (s : State) : (scheduleJoined c a s).chan d = s.chan d :=
  (reschedules_scheduleJoined c a s).others d hd

theorem mem_keptBack (he : e ∈ (s.chan c).schedule) (h : StaysListed e) (a : Assembly) : e ∈ ((keptBack c a s).chan c).schedule := by
  rw [keptBack_schedule]
  exact List.mem_filter.2 ⟨he, keptAtCommit_iff.2 h⟩

/-- What is LOCAL or in service stands as it was. -/
theorem mem_scheduleJoined (hn : ((s.chan c).schedule.map Entry.key).Nodup) (he : e ∈ (s.chan c).schedule)
    (h : e.origin = .localEntry ∨ e.inService = true) (a : Assembly) : e ∈ ((scheduleJoined c a s).chan c).schedule := by
  refine mem_holdDeletions (mem_stagedTaken (mem_keptBack he (h.imp_right .inl) a) (fun b _ => ?_)) (fun d hd hu hk => ?_)
  · by_cases hnamed : NamedBy e b
    · left
      refine (stagedFate_freed_iff hn).2 ⟨e, he, hnamed, h.resolve_left (fun ho => ?_)⟩
      exact absurd (ho.symm.trans hnamed.1) (by decide)
    · exact .inr hnamed
  · have hsame : e = d := List.inj_on_of_nodup_map hn he hd hk
    obtain ⟨ho, hi, -⟩ := hu
    rcases h with h | h
    · exact absurd (h.symm.trans (hsame ▸ ho)) (by decide)
    · exact absurd (h.symm.trans (hsame ▸ hi)) (by decide)

/-- A pinned entry that the snapshot carries holds what it carries. -/
theorem mem_scheduleJoined_amended (hn : ((s.chan c).schedule.map Entry.key).Nodup) (hs : (a.staged.map Body.entryId).Nodup)
    (he : e ∈ (s.chan c).schedule) (hi : e.inService = false) (hp : e.pinned = true) (hb : b ∈ a.staged) (hk : NamedBy e b) :
    { e with amendment := some (.body b) } ∈ ((scheduleJoined c a s).chan c).schedule := by
  refine mem_holdDeletions (mem_stagedTaken_amended hs hb (mem_keptBack he (.inr (.inr hp)) a) hk (stagedFate_amends hn he hk hi hp))
    (fun d hd hu hkey => ?_)
  have hsame : e = d := List.inj_on_of_nodup_map hn he hd hkey
  obtain ⟨-, -, -, hnot⟩ := hu
  exact hnot b hb (hsame ▸ hk)

/-- A pinned entry that the snapshot does not carry holds a deletion. -/
theorem mem_scheduleJoined_deleted (hn : ((s.chan c).schedule.map Entry.key).Nodup) (he : e ∈ (s.chan c).schedule)
    (hu : Uncarried a.staged e) : { e with amendment := some .deletion } ∈ ((scheduleJoined c a s).chan c).schedule := by
  have hp : e.pinned = true := hu.2.2.1
  have hnot : ∀ b ∈ a.staged, ¬NamedBy e b := hu.2.2.2
  exact mem_holdDeletions_deleted hn he hu (mem_stagedTaken (mem_keptBack he (.inr (.inr hp)) a) (fun b hb => .inr (hnot b hb)))

/-- A staged body that names nothing that stays is an entry of its own. -/
theorem mem_scheduleJoined_joined (hn : ((s.chan c).schedule.map Entry.key).Nodup) (hs : (a.staged.map Body.entryId).Nodup)
    (hb : b ∈ a.staged) (h : ∀ e ∈ (s.chan c).schedule, NamedBy e b → ¬StaysListed e) :
    ∃ e ∈ ((scheduleJoined c a s).chan c).schedule, JoinedAs e b := by
  obtain ⟨e, he, hj⟩ := mem_stagedTaken_joined (c := c) hs hb ((stagedFate_joins_iff hn).2 h) (keptBack c a s)
  refine ⟨e, mem_holdDeletions he (fun d hd hu hkey => ?_), hj⟩
  obtain ⟨-, -, -, hnot⟩ := hu
  have hk : NamedBy e b := ⟨hj.1, congrArg Body.entryId hj.2.1⟩
  exact hnot b hb (namedBy_iff.2 (hkey ▸ namedBy_iff.1 hk))

theorem scheduleJoined_length (c : ChannelNo) (a : Assembly) (s : State) :
    ((scheduleJoined c a s).chan c).schedule.length = countAfterCommit (s.chan c).schedule a.staged := by
  unfold scheduleJoined countAfterCommit
  rw [holdDeletions_length, stagedTaken_length, keptBack_schedule, ← List.countP_eq_length_filter]

/-! ### The channel after the join (R96) -/

theorem settleRefused_schedule (c : ChannelNo) (refused : Bool) (s : State) :
    ((settleRefused c refused s).chan c).schedule = (s.chan c).schedule := by
  unfold settleRefused
  split
  · rw [refuseInService_eq, raise_chan_self, chan_modChan_self]
  · rw [chan_modChan_self]

theorem settleRefused_refused (c : ChannelNo) (refused : Bool) (s : State) :
    ((settleRefused c refused s).chan c).inServiceRefused = refused := by
  unfold settleRefused
  split
  · rename_i h
    rw [refuseInService_eq, raise_chan_self, chan_modChan_self]
    exact h.symm
  · rename_i h
    rw [chan_modChan_self]
    exact (Bool.eq_false_iff.2 h).symm

theorem settleRefused_chan_ne (hd : d ≠ c) (refused : Bool) (s : State) : (settleRefused c refused s).chan d = s.chan d := by
  unfold settleRefused
  split
  · rw [refuseInService_eq, raise_chan_ne hd, chan_modChan_ne _ hd]
  · rw [chan_modChan_ne _ hd]

/-- The channel has taken its snapshot and is IN_STEP at the resume sequence. -/
def committed (c : ChannelNo) (a : Assembly) (resume : Nat) (s : State) : State :=
  setReplication c .inStep .none 0 (setLastApplied c resume (abandonWalks c (joinStaged c a s)))

theorem setLastApplied_chan (c : ChannelNo) (n : Nat) (s : State) :
    (setLastApplied c n s).chan c = { s.chan c with lastApplied := some n } := by
  unfold setLastApplied
  dsimp only
  split
  · rw [chan_modChan_self]
  · rw [abandonWalks_chan, chan_modChan_self]

theorem setLastApplied_chan_ne (hd : d ≠ c) (n : Nat) (s : State) : (setLastApplied c n s).chan d = s.chan d := by
  unfold setLastApplied
  dsimp only
  split
  · rw [chan_modChan_ne _ hd]
  · rw [abandonWalks_chan, chan_modChan_ne _ hd]

theorem committed_chan (c : ChannelNo) (a : Assembly) (resume : Nat) (s : State) : ∃ flags, (committed c a resume s).chan c =
    { (joinStaged c a s).chan c with
      lastApplied := some resume, replState := .inStep, cause := .none, attempts := 0, flags := flags } := by
  unfold committed
  rw [setReplication_chan, if_pos rfl, setLastApplied_chan, abandonWalks_chan]
  exact ⟨_, rfl⟩

theorem committed_chan_ne (hd : d ≠ c) (a : Assembly) (resume : Nat) (s : State) : (committed c a resume s).chan d = s.chan d := by
  unfold committed
  rw [setReplication_chan, if_neg hd, setLastApplied_chan_ne hd, abandonWalks_chan, joinStaged_eq, settleRefused_chan_ne hd,
    scheduleJoined_chan_ne hd]

theorem committed_schedule (c : ChannelNo) (a : Assembly) (resume : Nat) (s : State) :
    ((committed c a resume s).chan c).schedule = ((scheduleJoined c a s).chan c).schedule := by
  obtain ⟨flags, h⟩ := committed_chan c a resume s
  rw [h]
  exact settleRefused_schedule c _ _

theorem committed_refused (c : ChannelNo) (a : Assembly) (resume : Nat) (s : State) :
    ((committed c a resume s).chan c).inServiceRefused = anyRefused c a s := by
  obtain ⟨flags, h⟩ := committed_chan c a resume s
  rw [h]
  exact settleRefused_refused c _ _

theorem committed_outside (c : ChannelNo) (a : Assembly) (resume : Nat) (s : State) :
    (committed c a resume s).assembly = some { a with staged := [] } ∧ (committed c a resume s).deferral = s.deferral ∧
    (committed c a resume s).resyncQueue = s.resyncQueue := by
  have h := quiet_setLastApplied (quiet_abandonWalks (quiet_joinStaged c a s) c) c resume
  unfold committed
  rw [setReplication_assembly, setReplication_deferral, setReplication_resyncQueue]
  exact ⟨h.assembly, h.deferral, h.queue⟩

/-! ### The deferred updates (R97) -/

theorem numberOfUpdate_eq (x : Update) : numberOfUpdate x = x.sequence := by
  cases x <;> rfl

theorem fallOut_replState (c : ChannelNo) (cause : Cause) (s : State) : ((fallOut c cause s).chan c).replState ≠ .inStep := by
  unfold fallOut
  rw [enqueue_eq]
  have hout : ((setReplication c .outOfStep cause (s.chan c).attempts s).chan c).replState = .outOfStep := by
    rw [setReplication_replState, if_pos rfl]
  generalize setReplication c .outOfStep cause (s.chan c).attempts s = out at hout
  rcases serve_cases { out with resyncQueue := if c ∈ out.resyncQueue then out.resyncQueue else out.resyncQueue ++ [c] } with
    ⟨h, -⟩ | ⟨d, rest, -, -, -, h⟩
  · rw [h]
    show (out.chan c).replState ≠ .inStep
    rw [hout]
    decide
  · rw [h, setReplication_replState]
    split
    · decide
    · show (out.chan c).replState ≠ .inStep
      rw [hout]
      decide

theorem fallOut_assembly (h : s.assembly = some a) (c : ChannelNo) (cause : Cause) : (fallOut c cause s).assembly = some a := by
  have hout : (setReplication c .outOfStep cause (s.chan c).attempts s).assembly = some a := by rw [setReplication_assembly, h]
  unfold fallOut
  rw [enqueue_eq, serve_idle]
  · exact hout
  · refine .inr (.inr ?_)
    show (setReplication c .outOfStep cause (s.chan c).attempts s).assembly ≠ none
    rw [hout]
    exact Option.some_ne_none a

theorem consume_lastApplied (c : ChannelNo) (counted : Bool) (n : Nat) (s : State) :
    ((consume c counted n s).chan c).lastApplied = some n := by
  unfold consume
  rw [setLastApplied_chan]

theorem applyUpdate_assembly (h : s.assembly = some a) (c : ChannelNo) (counted : Bool) (x : Update) :
    (applyUpdate c counted x s).assembly = some a := by
  rcases applyUpdate_cases c counted x s with hq | ⟨t, cause, hq, ht⟩
  · exact hq.assembly.trans h
  · rw [ht]
    exact fallOut_assembly (hq.assembly.trans h) c cause

/-- An update that leaves its channel IN_STEP has been consumed. -/
theorem applyUpdate_lastApplied {counted : Bool} {x : Update} (h : ((applyUpdate c counted x s).chan c).replState = .inStep) :
    ((applyUpdate c counted x s).chan c).lastApplied = some x.sequence := by
  cases x with
  | put n raw =>
    have hin : ((applyPut c counted n raw s).chan c).replState = .inStep := h
    show ((applyPut c counted n raw s).chan c).lastApplied = some n
    revert hin
    unfold applyPut
    dsimp only
    split
    · exact fun hin => absurd hin (fallOut_replState c _ _)
    · split
      · exact fun _ => consume_lastApplied c counted n _
      · split
        · exact fun hin => absurd hin (fallOut_replState c _ _)
        · split
          · exact fun hin => absurd hin (fallOut_replState c _ _)
          · exact fun _ => consume_lastApplied c counted n _
  | drop n id =>
    have hin : ((applyDrop c counted n id s).chan c).replState = .inStep := h
    show ((applyDrop c counted n id s).chan c).lastApplied = some n
    revert hin
    unfold applyDrop
    split
    · exact fun hin => absurd hin (fallOut_replState c _ _)
    · split
      · exact fun _ => consume_lastApplied c counted n _
      · exact fun _ => consume_lastApplied c counted n _

/-- Deferred updates applied in turn. -/
def applied (c : ChannelNo) (xs : List Update) (v : State) : State :=
  xs.foldl (fun w x => applyUpdate c false x w) v

theorem applied_assembly (h : v.assembly = some a) (c : ChannelNo) (xs : List Update) : (applied c xs v).assembly = some a := by
  induction xs generalizing v with
  | nil => exact h
  | cons x xs ih => exact ih (applyUpdate_assembly h c false x)

/-- While the channel is IN_STEP, the next update it takes is number `m`. -/
def Expects (c : ChannelNo) (m : Nat) (v : State) : Prop :=
  (v.chan c).replState = .inStep → (v.chan c).lastApplied.map (fun n => (n + 1) % 65536) = some (m % 65536)

theorem expects_applyUpdate {m : Nat} {x : Update} (h : x.sequence = m % 65536) (v : State) :
    Expects c (m + 1) (applyUpdate c false x v) := by
  intro hin
  rw [applyUpdate_lastApplied hin, h, Option.map_some, Nat.mod_add_mod]

/-- From state `v` the updates `done` were applied in order, number `m` first, and `rest` of the queue `q` are left. -/
structure AppliesInOrder (c : ChannelNo) (m : Nat) (q : List Update) (v : State) (done rest : List Update) : Prop where
  perm : (done ++ rest).Perm q
  numbers : done.map numberOfUpdate = (List.range done.length).map (fun k => (m + k) % 65536)
  inStep : ∀ k, k < done.length → ((applied c (done.take k) v).chan c).replState = .inStep
  ends : ((applied c done v).chan c).replState = .inStep → ∀ x ∈ rest, numberOfUpdate x ≠ (m + done.length) % 65536

theorem AppliesInOrder.none {m : Nat} {q : List Update} (h : (v.chan c).replState = .inStep → ∀ x ∈ q, numberOfUpdate x ≠ m % 65536) :
    AppliesInOrder c m q v [] q :=
  ⟨List.Perm.refl q, rfl, fun k hk => absurd hk (Nat.not_lt_zero k), h⟩

theorem AppliesInOrder.cons {m : Nat} {q done rest : List Update} {x : Update} (hx : x ∈ q) (hm : x.sequence = m % 65536)
    (hin : (v.chan c).replState = .inStep) (h : AppliesInOrder c (m + 1) (q.erase x) (applyUpdate c false x v) done rest) :
    AppliesInOrder c m q v (x :: done) rest where
  perm := (h.perm.cons x).trans (List.perm_cons_erase hx).symm
  numbers := by
    rw [List.map_cons, h.numbers, List.length_cons, List.range_succ_eq_map, List.map_cons, List.map_map, numberOfUpdate_eq, hm]
    refine congrArg (List.cons _) (List.map_congr_left (fun k _ => ?_))
    show (m + 1 + k) % 65536 = (m + (k + 1)) % 65536
    rw [Nat.add_right_comm, Nat.add_assoc]
  inStep k hk := by
    cases k with
    | zero => exact hin
    | succ k => exact h.inStep k (Nat.lt_of_succ_lt_succ hk)
  ends hend y hy := by
    rw [List.length_cons, Nat.add_comm done.length 1, ← Nat.add_assoc]
    exact h.ends hend y hy

theorem applyDeferred_applies {turns m : Nat} {q : List Update} (hq : q.length ≤ turns) (hv : Expects c m v) :
    ∃ done rest, applyDeferred turns c q v = (applied c done v, rest) ∧ AppliesInOrder c m q v done rest := by
  induction turns generalizing m q v with
  | zero =>
    have hnil : q = [] := List.eq_nil_of_length_eq_zero (Nat.le_zero.1 hq)
    subst hnil
    exact ⟨[], [], rfl, .none (fun _ x hx => absurd hx List.not_mem_nil)⟩
  | succ turns ih =>
    unfold applyDeferred
    split
    · rename_i hout
      exact ⟨[], q, rfl, .none (fun hin => absurd hin hout)⟩
    · rename_i hin
      have hin : (v.chan c).replState = .inStep := not_not.1 hin
      split
      · rename_i hnone
        refine ⟨[], q, rfl, .none (fun _ x hx he => ?_)⟩
        have hne := List.find?_eq_none.1 hnone x hx
        rw [hv hin, ← numberOfUpdate_eq, he] at hne
        exact hne (decide_eq_true rfl)
      · rename_i x hfound
        have hx : x ∈ q := List.mem_of_find?_eq_some hfound
        have hnext := List.find?_some hfound
        rw [hv hin, decide_eq_true_eq, Option.some.injEq] at hnext
        have hlen : (q.erase x).length ≤ turns := by
          rw [List.length_erase_of_mem hx]
          omega
        obtain ⟨done, rest, hrun, happlies⟩ := ih hlen (expects_applyUpdate hnext v)
        exact ⟨x :: done, rest, hrun, .cons hx hnext hin happlies⟩

/-! ### The commit -/

theorem afterDeferred_eq (c : ChannelNo) (gapNoted : Bool) (rest : List Update) (w : State) :
    afterDeferred c gapNoted (w, rest) = afterUpdates c gapNoted rest w := rfl

theorem afterUpdates_assembly (h : w.assembly = some a) (c : ChannelNo) (gapNoted : Bool) (rest : List Update) :
    (afterUpdates c gapNoted rest w).assembly = some a := by
  unfold afterUpdates
  split
  · exact fallOut_assembly h c .gap
  · exact h

/-- An assembly whose staged slots are all taken ends without a slot to free. -/
theorem clearAssembly_taken (h : s.assembly = some a) (hs : a.staged = []) :
    clearAssembly s = { s with assembly := none, deferral := [] } := by
  rw [clearAssembly_eq h, hs]
  unfold freeSlots
  dsimp only
  rw [if_neg (fun hc => absurd hc.1 (by decide))]
  rfl

theorem commitSnapshot_full (h : 1024 < countAfterCommit (s.chan c).schedule a.staged) : commitSnapshot c a s = failSnapshot false s :=
  if_pos h

theorem commitSnapshot_run (h : countAfterCommit (s.chan c).schedule a.staged ≤ 1024) (hr : a.resume = some resume) :
    commitSnapshot c a s = serve (clearAssembly (afterDeferred c a.gapNoted
      (applyDeferred s.deferral.length c s.deferral (committed c a resume s)))) := by
  obtain ⟨-, hdef, -⟩ := committed_outside c a resume s
  have hrun : commitSnapshot c a s = (let u := committed c a (a.resume.getD 0) s
      serve (clearAssembly (afterDeferred c a.gapNoted (applyDeferred u.deferral.length c u.deferral u)))) := if_neg (Nat.not_lt.2 h)
  rw [hrun, hr, Option.getD_some]
  dsimp only
  rw [hdef]

theorem commitSnapshot_committed (h : countAfterCommit (s.chan c).schedule a.staged ≤ 1024) (hr : a.resume = some resume) :
    ∃ done rest, AppliesInOrder c (resume + 1) s.deferral (committed c a resume s) done rest ∧
      commitSnapshot c a s = serve { afterUpdates c a.gapNoted rest (applied c done (committed c a resume s)) with
        assembly := none, deferral := [] } := by
  obtain ⟨hasm, -⟩ := committed_outside c a resume s
  have hexpects : Expects c (resume + 1) (committed c a resume s) := by
    obtain ⟨flags, hchan⟩ := committed_chan c a resume s
    intro _
    rw [hchan]
    rfl
  obtain ⟨done, rest, hrun, happlies⟩ := applyDeferred_applies (le_refl _) hexpects
  refine ⟨done, rest, happlies, ?_⟩
  rw [commitSnapshot_run h hr, hrun, afterDeferred_eq]
  exact congrArg serve (clearAssembly_taken (afterUpdates_assembly (applied_assembly hasm c done) c a.gapNoted rest) rfl)

end Commit

end Sys2Proof.Machine

/-! # The snapshot messages and the failure of a snapshot (Chapter 5, section 5.3) -/

namespace Sys2Proof.Machine

section Messages

open Says

variable {c : ChannelNo} {s u : State} {a : Assembly} {resume count digest index n : Nat} {raw : RawBody} {p : Phase}

/-! ### The assembly a message is for -/

/-- The message is for another channel or comes at another time (R93). -/
def Elsewhere (c : ChannelNo) (p : Phase) (s : State) : Prop :=
  ∀ a, s.assembly = some a → a.channel ≠ c ∨ a.phase ≠ p

/-- The assembly the message is for. -/
def Assembles (c : ChannelNo) (p : Phase) (a : Assembly) (s : State) : Prop :=
  s.assembly = some a ∧ a.channel = c ∧ a.phase = p

theorem assembles_delivered (h : Assembles c p a s) : Assembles c p a (delivered s) := h

theorem elsewhere_delivered (h : Elsewhere c p s) : Elsewhere c p (delivered s) := h

theorem not_apart_of_assembles (h : Assembles c p a s) : ¬(a.channel ≠ c ∨ a.phase ≠ p) := by
  obtain ⟨-, hc, hp⟩ := h
  exact fun hne => hne.elim (fun h => h hc) (fun h => h hp)

/-! ### SNAPSHOT OPEN (R91, R93) -/

theorem exec_snapshotOpen {body : List Byte} (h : parseSnapshotOpen body = some (c, resume, count)) (s : State) :
    exec (.snapshotOpen body) s = .next (arrived s.linkUp (takeOpen c resume count (delivered s))) := by
  rw [← arrive_eq (fun t => takeOpen_linkUp c resume count t)]
  exact congrArg Host.Outcome.next (receive_some h _ s)

theorem takeOpen_elsewhere (h : Elsewhere c .awaitingOpen s) (resume count : Nat) : takeOpen c resume count s = s := by
  unfold takeOpen
  split
  · rfl
  · rename_i a ha
    exact if_pos (h a ha)

theorem takeOpen_assembles (h : Assembles c .awaitingOpen a s) (resume count : Nat) : takeOpen c resume count s =
    if 1024 < count then failSnapshot false s
    else abandonWalks c { s with assembly := some { a with
      phase := .receiving, resume := some resume, expected := some count, nextIndex := 1 } } := by
  have hhere := not_apart_of_assembles h
  obtain ⟨ha, -, -⟩ := h
  unfold takeOpen
  rw [ha]
  exact if_neg hhere

/-! ### SNAPSHOT ITEM (R44, R92, R93) -/

theorem exec_snapshotItem {body : List Byte} (h : parseEntryPut body = some (c, index, raw)) (s : State) :
    exec (.snapshotItem body) s = .next (arrived s.linkUp (takeItem c index raw (delivered s))) := by
  rw [← arrive_eq (fun t => takeItem_linkUp c index raw t)]
  exact congrArg Host.Outcome.next (receive_some h _ s)

theorem takeItem_elsewhere (h : Elsewhere c .receiving s) (index : Nat) (raw : RawBody) : takeItem c index raw s = s := by
  unfold takeItem
  split
  · rfl
  · rename_i a ha
    exact if_pos (h a ha)

theorem takeItem_assembles (h : Assembles c .receiving a s) (he : a.expected = some n) (index : Nat) (raw : RawBody) :
    takeItem c index raw s =
      if index = 0 ∨ n < index ∨ a.nextIndex < index then failSnapshot false s
      else if index < a.nextIndex then s else stageItem c a raw s := by
  have hhere := not_apart_of_assembles h
  obtain ⟨ha, -, -⟩ := h
  unfold takeItem
  rw [ha]
  dsimp only
  rw [if_neg hhere, he]
  rfl

/-- The item is staged on a slot granted to it. -/
def itemStaged (c : ChannelNo) (a : Assembly) (raw : RawBody) (s u : State) : State :=
  let r := (s.chan c).settings.rate
  let v := { u with assembly := some { a with staged := a.staged ++ [raw.convert r], nextIndex := a.nextIndex + 1 } }
  if raw.clamps r then raise c .clamped v else v

theorem repeated_iff (a : Assembly) (raw : RawBody) :
    a.staged.any (fun b => decide (b.entryId = raw.entryId)) = true ↔ ∃ b ∈ a.staged, b.entryId = raw.entryId := by
  simp

theorem stageItem_refused (h : raw.valid (s.chan c).settings.rate = false ∨ ∃ b ∈ a.staged, b.entryId = raw.entryId) :
    stageItem c a raw s = failSnapshot false s := by
  unfold stageItem
  dsimp only
  split
  · rfl
  · rename_i hv
    rw [if_pos ((repeated_iff a raw).2 (h.resolve_left (fun hf => hv (by rw [hf]; rfl))))]

theorem stageItem_accepted (hv : raw.valid (s.chan c).settings.rate = true) (hn : ∀ b ∈ a.staged, b.entryId ≠ raw.entryId) :
    stageItem c a raw s = ((requestSlot s).map (itemStaged c a raw s)).getD (failSnapshot true s) := by
  have hfresh : ¬a.staged.any (fun b => decide (b.entryId = raw.entryId)) = true := fun hc => by
    obtain ⟨b, hb, he⟩ := (repeated_iff a raw).1 hc
    exact hn b hb he
  unfold stageItem
  dsimp only
  rw [hv, if_neg (by decide), if_neg hfresh]
  cases requestSlot s <;> rfl

/-! ### SNAPSHOT CLOSE (R93, R95, R96) -/

theorem exec_snapshotClose {body : List Byte} (h : parseSnapshotClose body = some (c, count, digest)) (s : State) :
    exec (.snapshotClose body) s = .next (arrived s.linkUp (takeClose c count digest (delivered s))) := by
  rw [← arrive_eq (fun t => takeClose_linkUp c count digest t)]
  exact congrArg Host.Outcome.next (receive_some h _ s)

theorem takeClose_elsewhere (h : Elsewhere c .receiving s) (count digest : Nat) : takeClose c count digest s = s := by
  unfold takeClose
  split
  · rfl
  · rename_i a ha
    exact if_pos (h a ha)

/-- The CLOSE has the right count and digest. -/
def ClosesRight (a : Assembly) (count digest : Nat) : Prop :=
  a.staged.length = count ∧ a.expected = some count ∧
    (a.staged.map (fun b => (b.entryId * 40503 + b.revision * 977 + b.start % 65536) % 2 ^ 32)).sum % 2 ^ 32 = digest

theorem closesRight_iff : ClosesRight a count digest ↔
    (a.staged.length = count ∧ stagedDigest a.staged = digest ∧ a.expected = some a.staged.length) := by
  unfold ClosesRight
  rw [stagedDigest_eq]
  constructor
  · rintro ⟨rfl, he, hd⟩
    exact ⟨rfl, hd, he⟩
  · rintro ⟨rfl, hd, he⟩
    exact ⟨rfl, he, hd⟩

theorem takeClose_assembles (h : Assembles c .receiving a s) (count digest : Nat) : takeClose c count digest s =
    if a.staged.length = count ∧ stagedDigest a.staged = digest ∧ a.expected = some a.staged.length then commitSnapshot c a s
    else failSnapshot false s := by
  have hhere := not_apart_of_assembles h
  obtain ⟨ha, -, -⟩ := h
  unfold takeClose
  rw [ha]
  exact if_neg hhere

theorem takeClose_wrong (h : Assembles c .receiving a s) (hr : ¬ClosesRight a count digest) :
    takeClose c count digest s = failSnapshot false s := by
  rw [takeClose_assembles h]
  exact if_neg (fun hc => hr (closesRight_iff.2 hc))

theorem takeClose_right (h : Assembles c .receiving a s) (hr : ClosesRight a count digest) :
    takeClose c count digest s = commitSnapshot c a s := by
  rw [takeClose_assembles h]
  exact if_pos (closesRight_iff.1 hr)

/-! ### The failure of a snapshot (R98) -/

/-- A failure by the attempts it makes: the channel goes back into the queue, or at the third in a row is STALE. -/
theorem failSnapshot_eq (h : s.assembly = some a) (forPool : Bool) : failSnapshot forPool s =
    (let n := (s.chan a.channel).attempts + 1
     let cause := if forPool then .pool else a.causeBefore
     let st := if forPool then .outOfStep else a.stateBefore
     if n < 3 then enqueue a.channel (setReplication a.channel st cause n (dropped a s))
     else serve (setReplication a.channel .stale cause n (dropped a s))) := by
  unfold failSnapshot
  rw [clearAssembly_eq h, h]
  rfl

/-! ### What a commit leaves, against the schedule as it stood -/

section Fate

variable {es : List Entry} {bs : List Body}

theorem countAfterCommit_eq (hn : (es.map Entry.key).Nodup) {_ : DecidablePred StaysListed}
    {_ : DecidablePred fun b => ∀ e ∈ es, NamedBy e b → ¬StaysListed e} : countAfterCommit es bs =
      es.countP (fun e => decide (StaysListed e)) + bs.countP (fun b => decide (∀ e ∈ es, NamedBy e b → ¬StaysListed e)) := by
  unfold countAfterCommit
  refine congrArg₂ _ (List.countP_congr (fun e _ => ?_)) (List.countP_congr (fun b _ => ?_))
  · rw [decide_eq_true_eq]
    exact keptAtCommit_iff
  · rw [decide_eq_true_eq, decide_eq_true_eq]
    exact stagedFate_joins_iff hn

end Fate

theorem anyRefused_iff (hn : ((s.chan c).schedule.map Entry.key).Nodup) :
    anyRefused c a s = true ↔ ∃ b ∈ a.staged, ∃ e ∈ (s.chan c).schedule, NamedBy e b ∧ e.inService = true := by
  unfold anyRefused
  simp only [List.any_eq_true, decide_eq_true_eq, stagedFate_freed_iff hn]

/-- Settles O56. -/
theorem snapshotsAreAssembled : Obligations.SnapshotsAreAssembled := by
  intro c s hinv
  have hn : ((s.chan c).schedule.map Entry.key).Nodup := by
    obtain ⟨-, -, -, -, -, -, -, hnodup, -⟩ := hinv.channels c
    exact hnodup
  refine ⟨fun body resume count hp => ?_, fun body index raw hp => ?_, fun body count digest hp => ?_, fun a forPool ha => ?_⟩
  · rw [exec_snapshotOpen hp]
    refine ⟨fun h => ?_, fun a ha hc hphase hcount => ?_, fun a ha hc hphase hcount => ?_⟩
    · rw [takeOpen_elsewhere (elsewhere_delivered h)]
    · rw [takeOpen_assembles (assembles_delivered ⟨ha, hc, hphase⟩), if_pos hcount]
    · rw [takeOpen_assembles (assembles_delivered ⟨ha, hc, hphase⟩), if_neg (Nat.not_lt.2 hcount)]
  · rw [exec_snapshotItem hp]
    refine ⟨fun h => ?_, fun a n ha hc hphase he => ?_⟩
    · rw [takeItem_elsewhere (elsewhere_delivered h)]
    · rw [takeItem_assembles (assembles_delivered ⟨ha, hc, hphase⟩) he]
      refine ⟨fun h => ?_, fun h1 hle hlt => ?_, fun h1 hle heq => ?_⟩
      · rw [if_pos h]
      · rw [if_neg (by omega), if_pos hlt]
      · rw [if_neg (by omega), if_neg (by omega)]
        refine ⟨fun h => ?_, fun hv hfresh hnone => ?_, fun u hv hfresh hu => ?_⟩
        · rw [stageItem_refused (s := delivered s) h]
        · rw [stageItem_accepted (s := delivered s) hv hfresh, hnone]
          rfl
        · rw [stageItem_accepted (s := delivered s) hv hfresh, hu]
          rfl
  · rw [exec_snapshotClose hp]
    refine ⟨fun h => ?_, fun a ha hc hphase => ?_⟩
    · rw [takeClose_elsewhere (elsewhere_delivered h)]
    have hhere : Assembles c .receiving a (delivered s) := ⟨ha, hc, hphase⟩
    have hids : (a.staged.map Body.entryId).Nodup := hinv.staged a ha
    intro es right named stays size
    have hsize : size = countAfterCommit es a.staged := (countAfterCommit_eq hn).symm
    clear_value size
    subst hsize
    refine ⟨fun h => ?_, fun h hfull => ?_, fun resume h hfits hr => ?_⟩
    · rw [takeClose_wrong hhere h]
    · rw [takeClose_right hhere h, commitSnapshot_full (s := delivered s) hfull]
    obtain ⟨done, rest, happlies, hcommit⟩ := commitSnapshot_committed (s := delivered s) hfits hr
    obtain ⟨hasm, hdef, hqueue⟩ := committed_outside c a resume (delivered s)
    have hsched := committed_schedule c a resume (delivered s)
    have hrefused := committed_refused c a resume (delivered s)
    obtain ⟨flags, hchan⟩ := committed_chan c a resume (delivered s)
    have hothers : ∀ d, d ≠ c → (committed c a resume (delivered s)).chan d = s.chan d :=
      fun d hd => committed_chan_ne hd a resume (delivered s)
    generalize committed c a resume (delivered s) = v at *
    refine ⟨v, done, rest, hasm, hdef, hqueue, by rw [hchan], by rw [hchan], by rw [hchan], by rw [hchan], ?_, ?_, ?_, ?_, ?_, hothers,
      happlies.perm, happlies.numbers, happlies.inStep, happlies.ends, ?_⟩
    · rw [hrefused]
      exact anyRefused_iff hn
    · rw [hsched]
      exact scheduleJoined_length c a (delivered s)
    · intro e he hstay
      rw [hsched]
      exact mem_scheduleJoined (s := delivered s) hn he hstay a
    · intro e he ho hi hpin
      rw [hsched]
      exact ⟨fun b hb hk => mem_scheduleJoined_amended (s := delivered s) hn hids he hi hpin hb hk,
        fun hnot => mem_scheduleJoined_deleted (s := delivered s) hn he ⟨ho, hi, hpin, hnot⟩⟩
    · intro b hb hfree
      rw [hsched]
      exact mem_scheduleJoined_joined (s := delivered s) hn hids hb hfree
    · rw [takeClose_right hhere h, hcommit]
      rfl
  · rw [failSnapshot_eq ha]
    exact ⟨fun h => if_pos h, fun h => if_neg (Nat.not_lt.2 h)⟩

end Messages

end Sys2Proof.Machine
